-- ==== Sys2Proof/Word.lean ====
section
/-! DEFINITION. The plain words of the DZ740: bytes, nibbles, 16-bit sample words, channel and block numbers. -/

namespace Sys2Proof

/-- One byte of a link or of the store. -/
abbrev Byte := BitVec 8

/-- One nibble of the sample link (R154). -/
abbrev Nibble := BitVec 4

/-- A 16-bit word of the sample link or of a check. -/
abbrev Word16 := BitVec 16

/-- A channel number, 0 to 3. -/
abbrev Channel := Fin 4

/-- A block number, 0 to 127 (R1). -/
abbrev Block := Fin 128

/-- A channel set: bit c stands for channel c (R205). -/
abbrev ChannelSet := BitVec 4

end Sys2Proof
end

