-- ==== Sys2Proof/Config.lean ====
section
/-! DEFINITION. What the DZ740 fixes for the whole part (sizes and limits), and the values the manual leaves open. -/

namespace Sys2Proof.Config

/-- Lines of a block (R1). -/
def linesPerBlock : Nat := 1024
/-- Bytes of a line (R1). -/
def lineBytes : Nat := 32
/-- Bytes of a block. -/
def blockBytes : Nat := 32768
/-- Bytes of the store (R1). -/
def storeBytes : Nat := 4194304
/-- Most lines a block's records can fill (R3). -/
def maxFill : Nat := 1023
/-- Most samples of a frame (R155). -/
def maxSamples : Nat := 512
/-- Entries the Capture Queue holds (R121). -/
def queueEntries : Nat := 64
/-- Lines the Capture Queue holds (R121). -/
def queueLines : Nat := 2048
/-- Entries of the event table (R100). -/
def eventEntries : Nat := 16
/-- Blocks a held-block list names (R100). -/
def heldBlocks : Nat := 32
/-- Notices the notice queue holds (R190). -/
def noticePlaces : Nat := 16
/-- Requests the request buffer holds (R185). -/
def bufferPlaces : Nat := 2
/-- Longest body of a control link frame (R183). -/
def maxBody : Nat := 1088
/-- The maximum of the block sequence counter, which is not given to a block (R58). -/
def maxSeq : Nat := 4294967295
/-- The maximum of a record number, which is not given to a record (R59). -/
def maxRecord : Nat := 281474976710655
/-- The value at which a reported counter saturates (00_scope.md, section 5). -/
def maxCounter : Nat := 4294967295
/-- Pulses an erase may take (R31). -/
def erasePulses : Nat := 16
/-- Running time of an erase pulse in µs (R31). -/
def pulseMicros : Nat := 25000
/-- The shortest RESET_N pulse that is a reset, in ns (R196). -/
def minResetNanos : Nat := 10000

/-- The byte the n-th drawn free value has: what a failed or aborted program or erase leaves in a cell
(R28, R29, R48, R51, R52). Nothing constrains it. -/
opaque freeByte : Nat → Byte

/-- The store supply threshold in mV, where it lies between the 2,650 and 2,850 mV of R40.
Nothing constrains it further; a level outside that band is decided without it (`Machine.supplyPasses`). -/
opaque vstThresholdMv : Nat

/-- The low nibble with which the half byte at the end of a packet of an odd number of nibbles counts in a header check,
which R154 and R156 do not state (log 18). Nothing constrains it. -/
opaque halfByteLow : Nibble → Nibble

end Sys2Proof.Config
end

