-- ==== Sys2Proof/Syntax.lean ====
section
/-! DEFINITION. The commands of the DZ740: one constructor per row of spec/opcode_table.json. -/

namespace Sys2Proof

/-- One character taken on CRX: its data byte, and whether its stop bit was high (R182, R184). -/
structure RxChar where
  byte : Byte
  stopHigh : Bool
  deriving DecidableEq, Repr

/-- How the array ended a program: every line verified, or the line at this place among the program's lines
(counting from 0) did not verify after its 8th pulse (R28). -/
inductive ProgramEnd where
  | ok
  | fail (line : Nat)
  deriving DecidableEq, Repr

/-- The commands: events at the part's pins and links, requests the Request Server takes, and the ends of the
part's own array operations and timers. A request carries its tag and its body as received (R185, R206). -/
inductive Instr where
  /-- POWER_ON_RESET (R196): the levels of RATE1 and RATE0 (true: high) at the end of the reset. -/
  | powerOnReset (rate1 rate0 : Bool)
  /-- POWER_FALL (R196). -/
  | powerFall
  /-- RESET_N_ASSERT (R196): how long RESET_N has been held low, in ns. -/
  | resetNAssert (lowNanos : Nat)
  /-- RESET_N_RELEASE (R197): the levels of RATE1 and RATE0 at the rising edge. -/
  | resetNRelease (rate1 rate0 : Bool)
  /-- PROT_N_CHANGE (R21): true when PROT_N is asserted (low) after the change. -/
  | protNChange (asserted : Bool)
  /-- CPERM_N_CHANGE (R192): true when CPERM_N is asserted (low) after the change. -/
  | cpermNChange (asserted : Bool)
  /-- CONTROL_FRAME_RECEIVE (R183): the characters taken on CRX, in order. -/
  | controlFrameReceive (chars : List RxChar)
  /-- INTER_BYTE_GAP_EXPIRY (R184). -/
  | interByteGapExpiry
  /-- MESSAGE_BEGIN (R192). -/
  | messageBegin
  /-- MESSAGE_END (R192). -/
  | messageEnd
  /-- UNKNOWN_KIND (R186): a request whose kind is no request kind. -/
  | unknownKind (kind tag : Byte) (body : List Byte)
  /-- IDENTIFY (R195). -/
  | identify (tag : Byte) (body : List Byte)
  /-- GET_STATUS (R194). -/
  | getStatus (tag : Byte) (body : List Byte)
  /-- RESTART (R189). -/
  | restart (tag : Byte) (body : List Byte)
  /-- SET_NOTICES (R191). -/
  | setNotices (tag : Byte) (body : List Byte)
  /-- CLEAR_FAULTS (R43). -/
  | clearFaults (tag : Byte) (body : List Byte)
  /-- ERASE_BLOCK (R46). -/
  | eraseBlock (tag : Byte) (body : List Byte)
  /-- UNIT_READ (R50). -/
  | unitRead (tag : Byte) (body : List Byte)
  /-- UNIT_WRITE (R51). -/
  | unitWrite (tag : Byte) (body : List Byte)
  /-- UNIT_LOCK (R52). -/
  | unitLock (tag : Byte) (body : List Byte)
  /-- LOCK_BLOCKS (R22). -/
  | lockBlocks (tag : Byte) (body : List Byte)
  /-- UNLOCK_BLOCKS (R23). -/
  | unlockBlocks (tag : Byte) (body : List Byte)
  /-- DOWN_BLOCKS (R24). -/
  | downBlocks (tag : Byte) (body : List Byte)
  /-- MAP_WRITE_CONTROL (R90). -/
  | mapWriteControl (tag : Byte) (body : List Byte)
  /-- MAP_WRITE_FIXED (R91). -/
  | mapWriteFixed (tag : Byte) (body : List Byte)
  /-- MAP_WRITE_VARIABLE (R92). -/
  | mapWriteVariable (tag : Byte) (body : List Byte)
  /-- MAP_WRITE_DEFAULT (R93). -/
  | mapWriteDefault (tag : Byte) (body : List Byte)
  /-- MAP_READ (R94). -/
  | mapRead (tag : Byte) (body : List Byte)
  /-- MAP_QUERY (R95). -/
  | mapQuery (tag : Byte) (body : List Byte)
  /-- MAP_APPLY (R96). -/
  | mapApply (tag : Byte) (body : List Byte)
  /-- TRIGGER (R105). -/
  | trigger (tag : Byte) (body : List Byte)
  /-- RELEASE_EVENT (R117). -/
  | releaseEvent (tag : Byte) (body : List Byte)
  /-- LIST_EVENTS (R119). -/
  | listEvents (tag : Byte) (body : List Byte)
  /-- GET_EVENT (R119). -/
  | getEvent (tag : Byte) (body : List Byte)
  /-- SET_QUEUE (R135). -/
  | setQueue (tag : Byte) (body : List Byte)
  /-- FLUSH_CHANNEL (R129). -/
  | flushChannel (tag : Byte) (body : List Byte)
  /-- SET_CHANNEL (R139). -/
  | setChannel (tag : Byte) (body : List Byte)
  /-- GET_CHANNEL (R140). -/
  | getChannel (tag : Byte) (body : List Byte)
  /-- START_CHANNEL (R143). -/
  | startChannel (tag : Byte) (body : List Byte)
  /-- STOP_CHANNEL (R144). -/
  | stopChannel (tag : Byte) (body : List Byte)
  /-- READ_RECORDS (R172). -/
  | readRecords (tag : Byte) (body : List Byte)
  /-- LIST_JOURNAL (R180). -/
  | listJournal (tag : Byte) (body : List Byte)
  /-- GET_BLOCK (R181). -/
  | getBlock (tag : Byte) (body : List Byte)
  /-- FS_PACKET (R161): the channel and the frame number its header names. -/
  | fsPacket (channel : Channel) (number : Word16)
  /-- DATA_PACKET (R162): the channel and sample count its header names, and the nibbles after the header. -/
  | dataPacket (channel : Channel) (count : Word16) (tail : List Nibble)
  /-- FE_PACKET (R164). -/
  | fePacket (channel : Channel) (number : Word16)
  /-- ABORT_PACKET (R165): its 16-bit value is ignored. -/
  | abortPacket (channel : Channel) (value : Word16)
  /-- MARK_PACKET (R166): the marker code, 0 to 255. -/
  | markPacket (channel : Channel) (code : Byte)
  /-- MALFORMED_PACKET (R156): the nibbles of a packet that orders 1 to 4 of R156 discard. -/
  | malformedPacket (nibbles : List Nibble)
  /-- FRAME_TIMEOUT_EXPIRY (R167): the frame timer of this channel's slot. -/
  | frameTimeoutExpiry (channel : Channel)
  /-- PROGRAM_COMPLETE (R28). -/
  | programComplete (outcome : ProgramEnd)
  /-- READ_COMPLETE (R30). -/
  | readComplete
  /-- ERASE_PULSE_END (R31): whether the block verifies blank. -/
  | erasePulseEnd (verified : Bool)
  /-- ERASE_SLICE_TIMER_EXPIRY (R37). -/
  | eraseSliceTimerExpiry
  /-- SUSPENSION_TAKES_EFFECT (R38): how long the interrupted pulse has run since it began or was last resumed, in µs. -/
  | suspensionTakesEffect (ranMicros : Nat)
  /-- UNIT_AREA_IMAGE_LOAD_END (R198). -/
  | unitAreaImageLoadEnd
  deriving DecidableEq, Repr

end Sys2Proof
end

