-- ==== Sys2Proof/Decode.lean ====
section
/-! DEFINITION. Byte order and checks (R205), the judging of sample link packets (R154 to R156, section 12.4), and the
host's `decodeTableWord`: no row of the table gives bits. -/

namespace Sys2Proof

/-- The `k` bytes of a field of value `n`, least significant byte first (R205). -/
def leBytes : Nat → Nat → List Byte
  | 0, _ => []
  | k + 1, n => BitVec.ofNat 8 n :: leBytes k (n / 256)

/-- The value of a little-endian field (R205). -/
def leValue : List Byte → Nat
  | [] => 0
  | b :: bs => b.toNat + 256 * leValue bs

/-- The byte at position `i` of a body, 0 beyond its end. -/
def byteAt (bytes : List Byte) (i : Nat) : Nat := (bytes.getD i 0#8).toNat

/-- The little-endian field of `k` bytes at position `i` of a body. -/
def fieldAt (bytes : List Byte) (i k : Nat) : Nat := leValue ((bytes.drop i).take k)

/-- One bit of the CRC-8 of R205: polynomial 0x07, most significant bit first. -/
def crc8Bit (c : BitVec 8) : BitVec 8 := if c.msb then (c <<< 1) ^^^ 0x07#8 else c <<< 1

/-- One byte of the CRC-8. -/
def crc8Byte (c : BitVec 8) (b : Byte) : BitVec 8 :=
  crc8Bit (crc8Bit (crc8Bit (crc8Bit (crc8Bit (crc8Bit (crc8Bit (crc8Bit (c ^^^ b))))))))

/-- The CRC-8 of R205: initial value 0x00. -/
def crc8 (bytes : List Byte) : BitVec 8 := bytes.foldl crc8Byte 0x00#8

/-- One bit of the CRC-16 of R205: polynomial 0x1021, most significant bit first. -/
def crc16Bit (c : BitVec 16) : BitVec 16 := if c.msb then (c <<< 1) ^^^ 0x1021#16 else c <<< 1

/-- One byte of the CRC-16. -/
def crc16Byte (c : BitVec 16) (b : Byte) : BitVec 16 :=
  crc16Bit (crc16Bit (crc16Bit (crc16Bit (crc16Bit (crc16Bit (crc16Bit (crc16Bit
    (c ^^^ (b.setWidth 16 <<< 8)))))))))

/-- The CRC-16 of R205: initial value 0xFFFF. -/
def crc16 (bytes : List Byte) : BitVec 16 := bytes.foldl crc16Byte 0xFFFF#16

/-- The two check bytes of a run of bytes, as they are sent and stored (R205). -/
def checkBytes (bytes : List Byte) : List Byte := leBytes 2 (crc16 bytes).toNat

/-- The bytes of a packet's nibbles, high nibble first; an odd nibble at the end is kept as a byte of its own
(R154), whose low nibble is a free value (log 18). -/
def bytesOfNibbles : List Nibble → List Byte
  | [] => []
  | [h] => [h ++ Config.halfByteLow h]
  | h :: l :: rest => (h ++ l) :: bytesOfNibbles rest

/-- The nibbles of bytes, high nibble first (R154). -/
def nibblesOfBytes : List Byte → List Nibble
  | [] => []
  | b :: bs => b.extractLsb' 4 4 :: b.extractLsb' 0 4 :: nibblesOfBytes bs

/-- The number of the channel a packet names, where it is at most 3. -/
def channelOf (c : Byte) : Option Channel := if h : c.toNat < 4 then some ⟨c.toNat, h⟩ else none

/-- A packet judged at orders 1 to 4 of R156, from its kind, channel and value, the nibbles after its 5-byte
header, and the whole packet for a malformed one. -/
def judgePacket (kind : Byte) (channel : Channel) (value : Word16) (tail whole : List Nibble) : Instr :=
  if kind = 0xC2#8 then
    if 1 ≤ value.toNat ∧ value.toNat ≤ 256 then .dataPacket channel value tail else .malformedPacket whole
  else if tail ≠ [] ∨ whole.length < 10 then .malformedPacket whole
  else if kind = 0xC1#8 then .fsPacket channel value
  else if kind = 0xC3#8 then .fePacket channel value
  else if kind = 0xC4#8 then
    if value.toNat ≤ 255 then .markPacket channel (value.setWidth 8) else .malformedPacket whole
  else if kind = 0xC5#8 then .abortPacket channel value
  else .malformedPacket whole

/-- The command that the nibbles of one selection of the sample link spell (R154 to R156): total, every run of
nibbles that no kind's layout admits being malformed. -/
def decodePacket (nibbles : List Nibble) : Instr :=
  match bytesOfNibbles nibbles with
  | kind :: channel :: low :: high :: check :: _ =>
    if crc8 [kind, channel, low, high] = check then
      match channelOf channel with
      | some c => judgePacket kind c (high ++ low) (nibbles.drop 10) nibbles
      | none => .malformedPacket nibbles
    else .malformedPacket nibbles
  | _ => .malformedPacket nibbles

/-- The 5-byte header of a packet (section 12.4). -/
def packetHeader (kind : Byte) (channel : Channel) (value : Word16) : List Byte :=
  let fields := [kind, BitVec.ofNat 8 channel.val, value.setWidth 8, value.extractLsb' 8 8]
  fields ++ [crc8 fields]

/-- The nibbles a front end clocks for a packet command (section 12.4); none for any other command. -/
def encodePacket : Instr → List Nibble
  | .fsPacket c n => nibblesOfBytes (packetHeader 0xC1#8 c n)
  | .dataPacket c n tail => nibblesOfBytes (packetHeader 0xC2#8 c n) ++ tail
  | .fePacket c n => nibblesOfBytes (packetHeader 0xC3#8 c n)
  | .markPacket c code => nibblesOfBytes (packetHeader 0xC4#8 c (code.setWidth 16))
  | .abortPacket c v => nibblesOfBytes (packetHeader 0xC5#8 c v)
  | .malformedPacket nibbles => nibbles
  | _ => []

/-- The bytes of sample words as sent: each word little-endian (R205, section 12.4). -/
def sampleBytes (words : List Word16) : List Byte := words.flatMap (fun w => leBytes 2 w.toNat)

/-- The nibbles after the header of a sound DATA packet carrying these words (section 12.4). -/
def soundTail (words : List Word16) : List Nibble :=
  nibblesOfBytes (sampleBytes words ++ checkBytes (sampleBytes words))

/-- The sample words in the bytes of a DATA packet. -/
def wordsOfBytes : List Byte → List Word16
  | low :: high :: rest => (high ++ low) :: wordsOfBytes rest
  | _ => []

/-- The sample words of a DATA packet of sample count `count`, where the packet is sound: its length is exactly
5 + 2n + 2 bytes and its sample check succeeds (R157). None where it is damaged. -/
def soundSamples (count : Word16) (tail : List Nibble) : Option (List Word16) :=
  let bytes := bytesOfNibbles tail
  let samples := bytes.take (2 * count.toNat)
  if tail.length = 4 * count.toNat + 4 ∧ bytes.drop (2 * count.toNat) = checkBytes samples then
    some (wordsOfBytes samples)
  else none

/-- The request kinds of R206: the code of each request. -/
def requestCode : Instr → Option Byte
  | .identify _ _ => some 0x01#8
  | .getStatus _ _ => some 0x02#8
  | .restart _ _ => some 0x03#8
  | .setNotices _ _ => some 0x04#8
  | .clearFaults _ _ => some 0x05#8
  | .eraseBlock _ _ => some 0x06#8
  | .unitRead _ _ => some 0x07#8
  | .unitWrite _ _ => some 0x08#8
  | .unitLock _ _ => some 0x09#8
  | .lockBlocks _ _ => some 0x0A#8
  | .unlockBlocks _ _ => some 0x0B#8
  | .downBlocks _ _ => some 0x0C#8
  | .mapWriteControl _ _ => some 0x10#8
  | .mapWriteFixed _ _ => some 0x11#8
  | .mapWriteVariable _ _ => some 0x12#8
  | .mapWriteDefault _ _ => some 0x13#8
  | .mapRead _ _ => some 0x14#8
  | .mapQuery _ _ => some 0x15#8
  | .mapApply _ _ => some 0x16#8
  | .trigger _ _ => some 0x18#8
  | .releaseEvent _ _ => some 0x19#8
  | .listEvents _ _ => some 0x1A#8
  | .getEvent _ _ => some 0x1B#8
  | .setQueue _ _ => some 0x20#8
  | .flushChannel _ _ => some 0x21#8
  | .setChannel _ _ => some 0x24#8
  | .getChannel _ _ => some 0x25#8
  | .startChannel _ _ => some 0x26#8
  | .stopChannel _ _ => some 0x27#8
  | .readRecords _ _ => some 0x28#8
  | .listJournal _ _ => some 0x29#8
  | .getBlock _ _ => some 0x2A#8
  | .unknownKind kind _ _ => some kind
  | _ => none

/-- The command that the Request Server's taking of a stored request is (R186): total on every kind, tag and body. -/
def decodeRequest (kind tag : Byte) (body : List Byte) : Instr :=
  match kind.toNat with
  | 0x01 => .identify tag body
  | 0x02 => .getStatus tag body
  | 0x03 => .restart tag body
  | 0x04 => .setNotices tag body
  | 0x05 => .clearFaults tag body
  | 0x06 => .eraseBlock tag body
  | 0x07 => .unitRead tag body
  | 0x08 => .unitWrite tag body
  | 0x09 => .unitLock tag body
  | 0x0A => .lockBlocks tag body
  | 0x0B => .unlockBlocks tag body
  | 0x0C => .downBlocks tag body
  | 0x10 => .mapWriteControl tag body
  | 0x11 => .mapWriteFixed tag body
  | 0x12 => .mapWriteVariable tag body
  | 0x13 => .mapWriteDefault tag body
  | 0x14 => .mapRead tag body
  | 0x15 => .mapQuery tag body
  | 0x16 => .mapApply tag body
  | 0x18 => .trigger tag body
  | 0x19 => .releaseEvent tag body
  | 0x1A => .listEvents tag body
  | 0x1B => .getEvent tag body
  | 0x20 => .setQueue tag body
  | 0x21 => .flushChannel tag body
  | 0x24 => .setChannel tag body
  | 0x25 => .getChannel tag body
  | 0x26 => .startChannel tag body
  | 0x27 => .stopChannel tag body
  | 0x28 => .readRecords tag body
  | 0x29 => .listJournal tag body
  | 0x2A => .getBlock tag body
  | _ => .unknownKind kind tag body

/-- The host's reading of a word by the table's bits: no row of spec/opcode_table.json gives any. -/
def decodeTableWord (_nbits _w : Nat) : Option Instr := none

end Sys2Proof
end

