-- ==== Sys2Proof/Machine/State.lean ====
section
/-! DEFINITION. The state of the DZ740, unit by unit, as plain data, and its value at reset. -/

namespace Sys2Proof.Machine

/-! ### Power, pins and store supply (R21, R40, R182, R192, R196) -/

/-- The reset cause the STARTED notice reports (R196). -/
inductive ResetCause where
  | powerOn | resetPin | restart
  deriving DecidableEq, Repr

/-- VDD, RESET_N, the cause of the last reset and the sampled rate straps (R182, R196). -/
structure Power where
  powered : Bool
  resetNLow : Bool
  cause : ResetCause
  rate1 : Bool
  rate0 : Bool
  deriving DecidableEq, Repr

/-- Input levels the part looks at: true when asserted (low). SLSEL_N, whose falls are no commands, has the levels that the
ends of the coming resets will find, high when there are none (R154, log 32). -/
structure Pins where
  protN : Bool
  cpermN : Bool
  selections : List Bool
  deriving DecidableEq, Repr

/-- The store supply input VST: the level last sampled and the levels that the coming samples will show, in mV.
The model's own form of an input that no command changes (log 8). -/
structure Supply where
  vstMv : Nat
  coming : List Nat
  deriving DecidableEq, Repr

/-- Device state (00_scope.md section 1.4). -/
inductive DeviceState where
  | scanning | ready
  deriving DecidableEq, Repr

/-! ### Unit area (R49) -/

/-- The unit area or its image: identity, user words (none: unwritten), lock. -/
structure UnitArea where
  identity : Vector Byte 16
  words : Vector (Option (BitVec 32)) 12
  locked : Bool
  deriving DecidableEq, Repr

/-- The volatile image of the unit area (R49). -/
structure UnitImage where
  area : UnitArea
  loaded : Bool
  deriving DecidableEq, Repr

/-! ### Block Directory (R4) -/

/-- Block states of R7; `unclassified` while the part is SCANNING (R6). -/
inductive BlockState where
  | blank | opened | closed | erasing | retired | torn | unclassified
  deriving DecidableEq, Repr

/-- The state an ERASING block left (R4). -/
inductive PriorState where
  | closed | torn
  deriving DecidableEq, Repr

/-- Lock-pending (R4). -/
inductive LockPending where
  | clear | lock | down
  deriving DecidableEq, Repr

/-- Effective lock state (R21). -/
inductive LockState where
  | unlocked | locked | down
  deriving DecidableEq, Repr

/-- A directory entry (R4). -/
structure DirEntry where
  state : BlockState
  prior : Option PriorState
  channel : Option Channel
  seq : Option Nat
  fill : Nat
  first : Option Nat
  last : Option Nat
  worn : Bool
  cut : Bool
  lockBit : Bool
  downFlag : Bool
  pending : LockPending
  holdCount : Nat
  deriving DecidableEq, Repr

/-! ### Store Controller (R27 to R48) -/

/-- Who presents a program or a read (R33, R34). -/
inductive Source where
  | journalEngine | requestServer | storeScanner
  deriving DecidableEq, Repr

/-- A program of the store array (R27). -/
inductive ProgramOp where
  /-- The lines of a record, from this line of an OPEN block onward; the block has them all (R1). -/
  | record (block : Block) (line : Nat) (bytes : List Byte)
      (inBlock : line * Config.lineBytes + bytes.length ≤ Config.blockBytes := by decide)
  | headerOpen (block : Block) (channel : Channel) (seq first : Nat)
  | closeMark (block : Block) (fill : Nat) (last : Option Nat) (worn : Bool)
  | retireMark (block : Block)
  | unitWord (word : Fin 12) (value : BitVec 32)
  | unitLock
  deriving DecidableEq, Repr

/-- A program request and its requester (R33). -/
structure ProgramReq where
  source : Source
  op : ProgramOp
  deriving DecidableEq, Repr

/-- A read of consecutive lines of one block (R30, R34); the block has them all (R1). -/
structure ReadReq where
  source : Source
  block : Block
  line : Nat
  count : Nat
  inBlock : line + count ≤ Config.linesPerBlock := by decide
  deriving DecidableEq, Repr

/-- The operation running in the array, erases apart (R36). -/
inductive ArrayOp where
  | program (req : ProgramReq)
  | read (req : ReadReq)
  deriving DecidableEq, Repr

/-- An erase that runs: pulses completed, running time left in the pulse (µs), and whether its suspension has been
requested (R31, R37). -/
structure RunningErase where
  block : Block
  pulses : Nat
  remaining : Nat
  suspending : Bool
  deriving DecidableEq, Repr

/-- The suspended-erase record (R38). -/
structure SuspendedErase where
  block : Block
  pulses : Nat
  remaining : Nat
  deriving DecidableEq, Repr

/-- Who asked for an erase (R35). -/
inductive EraseRequester where
  | journal (channel : Channel)
  | host (tag : Byte)
  deriving DecidableEq, Repr

/-- An entry of the erase queue (R35). -/
structure EraseEntry where
  block : Block
  requester : EraseRequester
  deriving DecidableEq, Repr

/-- The erase-slice timer: it has reached 2 ms, or has not (R37). -/
inductive SliceTimer where
  | stopped | below | reached
  deriving DecidableEq, Repr

/-- The sticky fault set (R42). -/
structure FaultSet where
  supply : Bool
  programFail : Bool
  eraseFail : Bool
  lockedHit : Bool
  deriving DecidableEq, Repr

/-- A sticky fault as a STORE_FAULT notice names it (R205). -/
inductive StoreFault where
  | supply | programFail | eraseFail
  deriving DecidableEq, Repr

/-- The operation a STORE_FAULT notice names (R205). -/
inductive StoreOp where
  | record | headerOpen | closeMark | retireMark | unitWord | unitLock | erase
  deriving DecidableEq, Repr

/-- The Store Controller's state; its reported state is computed (R32 to R42). -/
structure Controller where
  array : Option ArrayOp
  erase : Option RunningErase
  suspended : Option SuspendedErase
  programs : List ProgramReq
  readSlot : Option ReadReq
  eraseQueue : List EraseEntry
  slice : SliceTimer
  faults : FaultSet
  deriving DecidableEq, Repr

/-! ### Journal Engine (R53 to R56) -/

/-- Stall causes (R53). -/
inductive StallCause where
  | noSpace | storeFault | numbers
  deriving DecidableEq, Repr

/-- Journal states, STALLED with its cause (R54). -/
inductive JournalState where
  | noBlock | writing | waiting
  | stalled (cause : StallCause)
  deriving DecidableEq, Repr

/-- The close due set (R53, R68). -/
structure CloseDue where
  full : Bool
  stop : Bool
  map : Bool
  lock : Bool
  fail : Bool
  deriving DecidableEq, Repr

/-- A journal (R53). -/
structure Journal where
  state : JournalState
  openBlock : Option Block
  nextRec : Nat
  reclaim : Option Block
  due : CloseDue
  deriving DecidableEq, Repr

/-- What the outstanding program is: the head of the program backlog, or the commit subject's record (R55, R60). -/
inductive Outstanding where
  | header | record
  deriving DecidableEq, Repr

/-- The Journal Engine (R53, R55). The backlog holds header-open, close-mark and retire-mark programs only. -/
structure JournalEngine where
  journals : Vector Journal 4
  wait : List Channel
  nextSeq : Nat
  backlog : List ProgramOp
  outstanding : Option Outstanding
  hold : Bool
  deriving DecidableEq, Repr

/-! ### Retention Map (R83) -/

/-- Retention classes (R83). -/
inductive RetentionClass where
  | ring | keep | parked
  deriving DecidableEq, Repr

/-- A fixed or default descriptor (R83). -/
structure Descriptor where
  cls : RetentionClass
  set : ChannelSet
  deriving DecidableEq, Repr

/-- A variable descriptor (R83). -/
structure VariableDescriptor where
  valid : Bool
  base : Nat
  span : Nat
  cls : RetentionClass
  set : ChannelSet
  deriving DecidableEq, Repr

/-- One copy of the retention map (R83). -/
structure RetentionMap where
  enable : Bool
  fixedEnable : Bool
  fixed : Vector Descriptor 16
  vars : Vector VariableDescriptor 8
  dflt : Descriptor
  deriving DecidableEq, Repr

/-! ### Event Unit (R100 to R102) -/

/-- The cause of an event, with the marker code of a MARKER cause (R101). -/
inductive EventCause where
  | marker (code : Byte)
  | host
  deriving DecidableEq, Repr

/-- Event states (R101). -/
inductive EventState where
  | collecting | complete
  deriving DecidableEq, Repr

/-- An event entry (R101). -/
structure Event where
  id : Nat
  channel : Channel
  cause : EventCause
  triggerCount : Nat
  anchor : Option Nat
  anchorBlock : Option Block
  remaining : Nat
  state : EventState
  short : Bool
  held : List Block
  deriving DecidableEq, Repr

/-- The event table and the next event id (R100, R102). -/
structure EventUnit where
  table : List Event
  nextId : Nat
  deriving DecidableEq, Repr

/-! ### Capture Queue (R120, R121) -/

/-- A frame's tag set (R120). -/
structure TagSet where
  check : Bool
  truncated : Bool
  overlong : Bool
  gap : Bool
  number : Bool
  deriving DecidableEq, Repr

/-- Entry and record kinds (R3, R120). -/
inductive EntryKind where
  | frame | mark | abort
  deriving DecidableEq, Repr

/-- What an entry holds beside its channel; its lines are computed (R120). -/
inductive Content where
  | frame (number : Word16) (samples : List Word16) (tags : TagSet) (clipped gap : Nat)
  | mark (code : Byte)
  | abort
  deriving DecidableEq, Repr

/-- An entry of the Capture Queue (R120). -/
structure Entry where
  channel : Channel
  content : Content
  deriving DecidableEq, Repr

/-- The Capture Queue; its counts are computed from the list (R121). -/
structure CaptureQueue where
  entries : List Entry
  lastKind : Vector (Option EntryKind) 4
  high : Nat
  low : Nat
  hold : Bool
  deriving DecidableEq, Repr

/-! ### Channel Conditioner (R136, R137, R141) -/

/-- Stall policies (R79, R80). -/
inductive StallPolicy where
  | block | shed
  deriving DecidableEq, Repr

/-- Error-notice timings (R133). -/
inductive NoticeTiming where
  | arrival | commit
  deriving DecidableEq, Repr

/-- A channel's settings record (R136). -/
structure Settings where
  pass : Nat
  mask : Nat
  clipLower : Nat
  clipUpper : Nat
  wrap : Nat
  triggerCode : Option Byte
  preWindow : Nat
  postWindow : Nat
  policy : StallPolicy
  dropTagged : Bool
  timing : NoticeTiming
  timeout : Nat
  deriving DecidableEq, Repr

/-- Channel states (R142). -/
inductive ChannelState where
  | stopped | running | stopping
  deriving DecidableEq, Repr

/-- The nine per-channel counters, in the order of R141. -/
structure Counters where
  passed : Nat
  masked : Nat
  overruns : Nat
  tagged : Nat
  dropped : Nat
  shed : Nat
  flushed : Nat
  committed : Nat
  clipped : Nat
  deriving DecidableEq, Repr

/-- A channel's state beside its settings record (R137). -/
structure ChannelStatus where
  state : ChannelState
  closePending : Bool
  cadence : Nat
  expected : Option Nat
  counters : Counters
  deriving DecidableEq, Repr

/-! ### Sample Link Receiver (R158, R159) -/

/-- An open passed frame; its timer is the timeout (ms) it was last started with, or stopped (R159, log 11). -/
structure Frame where
  number : Word16
  samples : List Word16
  tags : TagSet
  clipped : Nat
  gap : Nat
  timer : Option Nat
  deriving DecidableEq, Repr

/-- An assembly slot (R159). -/
inductive Slot where
  | idle
  | assembling (frame : Frame)
  | masked (number : Word16) (timer : Option Nat)
  deriving DecidableEq, Repr

/-- The link counters (R158). -/
structure LinkCounters where
  malformed : Nat
  orphan : Nat
  refused : Nat
  deriving DecidableEq, Repr

/-! ### Store Scanner (R197 to R203) -/

/-- The walk of an open block's records (R201): `record` holds the bytes of the record being read and how many of
its lines are still to come. -/
structure ScanWalk where
  channel : Channel
  seq : Nat
  first : Nat
  line : Nat
  expected : Nat
  fill : Nat
  last : Option Nat
  record : Option (List Byte × Nat)
  deriving DecidableEq, Repr

/-- What the Store Scanner is doing to the block it has come to. -/
inductive ScanPhase where
  /-- Step 3 of R197: the unit area image is being loaded. -/
  | imageLoad
  /-- Line 0 of the block is being read. -/
  | header
  /-- The records of a block found open are being walked. -/
  | walk (w : ScanWalk)
  /-- The block's close mark is waiting or running. -/
  | close (w : ScanWalk)
  /-- The scan has ended. -/
  | done
  deriving DecidableEq, Repr

/-- Scan progress (R194, R198). The block being scanned is the one numbered `classified`. -/
structure Scan where
  classified : Nat
  phase : ScanPhase
  deriving DecidableEq, Repr

/-! ### Control Link Interface (R183 to R193) -/

/-- OP_DONE outcomes (R47). -/
inductive OpOutcome where
  | ok | eraseFail | locked | retired
  deriving DecidableEq, Repr

/-- Retire causes (R14, R18, R20). -/
inductive RetireCause where
  | eraseFail | worn | openFail
  deriving DecidableEq, Repr

/-- ERROR_FRAME dispositions (R133). -/
inductive Disposition where
  | queued | overrun | committed | dropped
  deriving DecidableEq, Repr

/-- The notices of section 10.6, with what each carries. -/
inductive Notice where
  | started (cause : ResetCause) (blank closed retired torn cut : Nat)
  | opDone (tag : Byte) (block : Block) (outcome : OpOutcome)
  | stalled (channel : Channel) (cause : StallCause)
  | resumed (channel : Channel) (state : JournalState)
  | storeFault (fault : StoreFault) (op : StoreOp) (block : Option Block)
  | blockRetired (block : Block) (cause : RetireCause)
  | triggered (id : Nat) (channel : Channel) (cause : EventCause) (anchor : Option Nat) (count held : Nat)
      (retrigger : Bool)
  | eventDone (id : Nat) (channel : Channel) (short : Bool) (held : Nat)
  | triggerLost (channel : Channel) (code : Byte) (record : Nat)
  | overrun (channel : Channel) (kind : EntryKind) (number : Nat) (lines : Nat) (tags : TagSet) (entries total : Nat)
  | errorFrame (channel : Channel) (number : Word16) (tags : TagSet) (clipped gap : Nat) (disposition : Disposition)
      (record : Option Nat)
  deriving DecidableEq, Repr

/-- The notice queue, mask and dropped flag (R190, R191). -/
structure NoticeBox where
  queue : List Notice
  mask : BitVec 16
  dropped : Bool
  deriving DecidableEq, Repr

/-- Statuses, in the order of section 10.5. -/
inductive Status where
  | ok | accepted | unknownKind | badLength | badValue | align | state | locked | held | gone | notYet | notFound
  | tableFull | already | scanning | programFail
  deriving DecidableEq, Repr

/-- A reply (R187): `contents` are the bytes that follow the request kind and the status. -/
structure Reply where
  tag : Byte
  kind : Byte
  status : Status
  contents : List Byte
  deriving DecidableEq, Repr

/-- A message on CTX (R192). -/
inductive Message where
  | reply (r : Reply)
  | notice (n : Notice)
  deriving DecidableEq, Repr

/-- A request as received (R185). -/
structure Request where
  kind : Byte
  tag : Byte
  body : List Byte
  deriving DecidableEq, Repr

/-- The receive framer: RECEIVING holds the bytes taken since the start byte; its gap timer runs then (R183). -/
inductive Framer where
  | hunting
  | receiving (taken : List Byte)
  deriving DecidableEq, Repr

/-- What a gathering has presented: the header line at `line`, or the sample lines behind this header (R174, R175). -/
inductive GatherStage where
  | header
  | samples (header : List Byte)
  deriving DecidableEq, Repr

/-- The readout context of R173: the request's own fields, the record sought, the block and line where a header lies
and the number expected there, the fill in force when the read was presented, and the records gathered with the lines
they occupy. -/
structure Gather where
  tag : Byte
  channel : Channel
  start : Nat
  max : Nat
  sought : Nat
  block : Block
  line : Nat
  expected : Nat
  fill : Nat
  stage : GatherStage
  records : List (List Byte)
  lines : Nat
  deriving DecidableEq, Repr

/-- What the Request Server waits for while it serves a request (R186, R187, R198). -/
inductive Serving where
  | identifyHeld (tag : Byte)
  | unitProgram (tag kind : Byte)
  | gathering (g : Gather)
  deriving DecidableEq, Repr

/-- The Control Link Interface, notices apart (R183 to R193). -/
structure ControlLink where
  framer : Framer
  buffer : List Request
  serving : Option Serving
  reply : Option Reply
  restartPlaced : Bool
  discarded : Nat
  sending : Option Message
  deriving DecidableEq, Repr

/-! ### The part -/

/-- Everything the spec gives the DZ740. -/
structure Part where
  power : Power
  pins : Pins
  supply : Supply
  device : DeviceState
  store : List Host.Cell
  unitArea : UnitArea
  freeIdx : Nat
  image : UnitImage
  dir : Vector DirEntry 128
  freeList : List Block
  ctl : Controller
  je : JournalEngine
  staged : RetentionMap
  active : RetentionMap
  events : EventUnit
  queue : CaptureQueue
  settings : Vector Settings 4
  chans : Vector ChannelStatus 4
  slots : Vector Slot 4
  /-- The last reset ended with SLSEL_N low: no nibble is taken until it has risen and fallen, and the packet then in
  progress is lost at its rise (R154). -/
  awaitsSelection : Bool
  link : LinkCounters
  scan : Scan
  notices : NoticeBox
  ctrl : ControlLink
  deriving DecidableEq, Repr

/-- The machine: the part, and the commands waiting for it, first in, first out. -/
structure State where
  part : Part
  pending : List Instr
  deriving DecidableEq, Repr

/-- Why a step can stop with a fault: for no reason. The spec stops the part nowhere, and an operation of the array on
lines that do not exist is no value of `ProgramOp` or `ReadReq`. -/
inductive Fault where
  deriving DecidableEq, Repr

/-- Why a step can be refused. -/
inductive Refusal where
  /-- Raised by `exec` only, for a command that has no meaning yet; every command has one. Safe. -/
  | notModelled (mnemonic : String)
  deriving DecidableEq, Repr

/-! ### Values after a reset -/

/-- A directory entry after a reset: unclassified (R6). The fields R6 leaves undetermined are absent or 0 (DESIGN
CHOICE, log 7). -/
def DirEntry.reset : DirEntry :=
  { state := .unclassified, prior := none, channel := none, seq := none, fill := 0, first := none, last := none
    worn := false, cut := false, lockBit := false, downFlag := false, pending := .clear, holdCount := 0 }

/-- R48. -/
def FaultSet.clear : FaultSet := { supply := false, programFail := false, eraseFail := false, lockedHit := false }

/-- R48. -/
def Controller.reset : Controller :=
  { array := none, erase := none, suspended := none, programs := [], readSlot := none, eraseQueue := []
    slice := .stopped, faults := .clear }

/-- The empty close due set. -/
def CloseDue.none : CloseDue := { full := false, stop := false, map := false, lock := false, fail := false }

/-- R56; the next record number is undetermined until the scan ends, 0 here (DESIGN CHOICE, log 7). -/
def Journal.reset : Journal := { state := .noBlock, openBlock := .none, nextRec := 0, reclaim := .none, due := .none }

/-- R56; the next block sequence is undetermined until the scan ends, 0 here (DESIGN CHOICE, log 7). -/
def JournalEngine.reset : JournalEngine :=
  { journals := Vector.replicate 4 .reset, wait := [], nextSeq := 0, backlog := [], outstanding := none, hold := false }

/-- RING for {0, 1, 2, 3} (R89). -/
def Descriptor.reset : Descriptor := { cls := .ring, set := 0xF#4 }

/-- R89. -/
def VariableDescriptor.reset : VariableDescriptor :=
  { valid := false, base := 0, span := 1, cls := .ring, set := 0xF#4 }

/-- R89. -/
def RetentionMap.reset : RetentionMap :=
  { enable := true, fixedEnable := false, fixed := Vector.replicate 16 .reset, vars := Vector.replicate 8 .reset
    dflt := .reset }

/-- The empty tag set. -/
def TagSet.none : TagSet := { check := false, truncated := false, overlong := false, gap := false, number := false }

/-- R103. -/
def EventUnit.reset : EventUnit := { table := [], nextId := 1 }

/-- R122. -/
def CaptureQueue.reset : CaptureQueue :=
  { entries := [], lastKind := Vector.replicate 4 none, high := 1536, low := 1024, hold := true }

/-- The defaults of R136. -/
def Settings.reset : Settings :=
  { pass := 0, mask := 0, clipLower := 0, clipUpper := 4095, wrap := 65536, triggerCode := none, preWindow := 2
    postWindow := 64, policy := .block, dropTagged := false, timing := .commit, timeout := 0 }

/-- All nine counters at 0 (R138, R140). -/
def Counters.zero : Counters :=
  { passed := 0, masked := 0, overruns := 0, tagged := 0, dropped := 0, shed := 0, flushed := 0, committed := 0
    clipped := 0 }

/-- R138. -/
def ChannelStatus.reset : ChannelStatus :=
  { state := .stopped, closePending := false, cadence := 0, expected := none, counters := .zero }

/-- The mask after a reset: notice codes 2 to 8 on, OVERRUN and ERROR_FRAME off (R191). -/
def NoticeBox.reset : NoticeBox := { queue := [], mask := 0x01FC#16, dropped := false }

/-- R183, R185, R193. -/
def ControlLink.reset : ControlLink :=
  { framer := .hunting, buffer := [], serving := none, reply := none, restartPlaced := false, discarded := 0
    sending := none }

/-- An area with nothing written and no lock; its identity bytes are 0 (DESIGN CHOICE, log 6). -/
def UnitArea.unwritten : UnitArea :=
  { identity := Vector.replicate 16 0#8, words := Vector.replicate 12 none, locked := false }

/-- The part when start-up begins (R197, step 2), from what passes through a reset: power and pins, the store, the
unit area, and the model's own supply tape and free value counter. -/
def Part.atStartUp (power : Power) (pins : Pins) (supply : Supply) (store : List Host.Cell) (unitArea : UnitArea)
    (freeIdx : Nat) : Part :=
  { power, pins, supply, device := .scanning, store, unitArea, freeIdx
    image := { area := .unwritten, loaded := false }
    dir := Vector.replicate 128 .reset, freeList := [], ctl := .reset, je := .reset
    staged := .reset, active := .reset, events := .reset, queue := .reset
    settings := Vector.replicate 4 .reset, chans := Vector.replicate 4 .reset, slots := Vector.replicate 4 .idle
    awaitsSelection := false
    link := { malformed := 0, orphan := 0, refused := 0 }
    scan := { classified := 0, phase := .imageLoad }, notices := .reset, ctrl := .reset }

/-- The machine right after a power-on reset has ended: SCANNING, the unit area image being loaded (R196, R197).
Input levels, store and unit area contents: log 5, 6, 8, 32. -/
def State.reset : State :=
  { part := Part.atStartUp
      { powered := true, resetNLow := false, cause := .powerOn, rate1 := false, rate0 := false }
      { protN := false, cpermN := false, selections := [] } { vstMv := 3300, coming := [] } [] .unwritten 0
    pending := [] }

end Sys2Proof.Machine
end

