-- ==== Sys2Proof/Machine/Flags.lean ====
section
/-! DEFINITION. Flags, sets and enumerations as the part codes them in bytes (R205), and the small computations over
the fault set, the tag set, the close due set, the notice mask and the saturating counters. -/

namespace Sys2Proof.Machine

/-- A flag byte (R205). -/
def flagByte (b : Bool) : Byte := if b then 1#8 else 0#8

/-- A bit of a set. -/
def setBit (b : Bool) (n : Nat) : Nat := if b then 2 ^ n else 0

/-- The fault set: SUPPLY bit 0, PROGRAM_FAIL, ERASE_FAIL, LOCKED_HIT (R205). -/
def FaultSet.byte (f : FaultSet) : Byte :=
  BitVec.ofNat 8 (setBit f.supply 0 + setBit f.programFail 1 + setBit f.eraseFail 2 + setBit f.lockedHit 3)

/-- The tag set: CHECK bit 0, TRUNCATED, OVERLONG, GAP, NUMBER (R205). -/
def TagSet.byte (t : TagSet) : Byte :=
  BitVec.ofNat 8 (setBit t.check 0 + setBit t.truncated 1 + setBit t.overlong 2 + setBit t.gap 3 + setBit t.number 4)

/-- A tag set is not empty (R120). -/
def TagSet.tagged (t : TagSet) : Bool := t.check || t.truncated || t.overlong || t.gap || t.number

/-- A close due set is not empty (R68). -/
def CloseDue.any (d : CloseDue) : Bool := d.full || d.stop || d.map || d.lock || d.fail

/-- A reported counter grows by `n` and saturates (00_scope.md section 5). -/
def satAdd (count n : Nat) : Nat := min (count + n) Config.maxCounter

/-- The code of each enumeration: its place in its list (R205). -/
def BlockState.code : BlockState → Byte
  | .blank => 0#8 | .opened => 1#8 | .closed => 2#8 | .erasing => 3#8 | .retired => 4#8 | .torn => 5#8
  | .unclassified => 0xFF#8

/-- The prior state, as a block state. -/
def PriorState.state : PriorState → BlockState
  | .closed => .closed
  | .torn => .torn

def LockState.code : LockState → Byte
  | .unlocked => 0#8 | .locked => 1#8 | .down => 2#8

def LockPending.code : LockPending → Byte
  | .clear => 0#8 | .lock => 1#8 | .down => 2#8

def RetentionClass.code : RetentionClass → Byte
  | .ring => 0#8 | .keep => 1#8 | .parked => 2#8

def StallCause.code : StallCause → Byte
  | .noSpace => 0#8 | .storeFault => 1#8 | .numbers => 2#8

def JournalState.code : JournalState → Byte
  | .noBlock => 0#8 | .writing => 1#8 | .waiting => 2#8 | .stalled _ => 3#8

/-- A journal's stall cause, when it is STALLED (R54). -/
def JournalState.cause : JournalState → Option StallCause
  | .stalled c => some c
  | _ => none

def JournalState.isStalled (s : JournalState) : Bool := s.cause.isSome

def DeviceState.code : DeviceState → Byte
  | .scanning => 0#8 | .ready => 1#8

def ChannelState.code : ChannelState → Byte
  | .stopped => 0#8 | .running => 1#8 | .stopping => 2#8

def Slot.code : Slot → Byte
  | .idle => 0#8 | .assembling _ => 1#8 | .masked _ _ => 2#8

def StallPolicy.code : StallPolicy → Byte
  | .block => 0#8 | .shed => 1#8

def NoticeTiming.code : NoticeTiming → Byte
  | .arrival => 0#8 | .commit => 1#8

def EventState.code : EventState → Byte
  | .collecting => 0#8 | .complete => 1#8

def EventCause.code : EventCause → Byte
  | .marker _ => 0#8 | .host => 1#8

/-- The marker code byte of a cause: 0 where absent (R208). -/
def EventCause.markerByte : EventCause → Byte
  | .marker c => c
  | .host => 0#8

def EntryKind.code : EntryKind → Byte
  | .frame => 0#8 | .mark => 1#8 | .abort => 2#8

def OpOutcome.code : OpOutcome → Byte
  | .ok => 0#8 | .eraseFail => 1#8 | .locked => 2#8 | .retired => 3#8

def RetireCause.code : RetireCause → Byte
  | .eraseFail => 0#8 | .worn => 1#8 | .openFail => 2#8

def ResetCause.code : ResetCause → Byte
  | .powerOn => 0#8 | .resetPin => 1#8 | .restart => 2#8

def Disposition.code : Disposition → Byte
  | .queued => 0#8 | .overrun => 1#8 | .committed => 2#8 | .dropped => 3#8

def StoreFault.code : StoreFault → Byte
  | .supply => 0#8 | .programFail => 1#8 | .eraseFail => 2#8

def StoreOp.code : StoreOp → Byte
  | .record => 0#8 | .headerOpen => 1#8 | .closeMark => 2#8 | .retireMark => 3#8 | .unitWord => 4#8
  | .unitLock => 5#8 | .erase => 6#8

/-- Journal of channel 0 to 3, coded 0 to 3; host, coded 4 (R205). -/
def EraseRequester.code : EraseRequester → Byte
  | .journal c => BitVec.ofNat 8 c.val
  | .host _ => 4#8

def Status.code : Status → Byte
  | .ok => 0#8 | .accepted => 1#8 | .unknownKind => 2#8 | .badLength => 3#8 | .badValue => 4#8 | .align => 5#8
  | .state => 6#8 | .locked => 7#8 | .held => 8#8 | .gone => 9#8 | .notYet => 10#8 | .notFound => 11#8
  | .tableFull => 12#8 | .already => 13#8 | .scanning => 14#8 | .programFail => 15#8

/-- The notice's code: its place in the table of section 10.6. -/
def Notice.code : Notice → Nat
  | .started _ _ _ _ _ _ => 0
  | .opDone _ _ _ => 1
  | .stalled _ _ => 2
  | .resumed _ _ => 3
  | .storeFault _ _ _ => 4
  | .blockRetired _ _ => 5
  | .triggered _ _ _ _ _ _ _ => 6
  | .eventDone _ _ _ _ => 7
  | .triggerLost _ _ _ => 8
  | .overrun _ _ _ _ _ _ _ => 9
  | .errorFrame _ _ _ _ _ _ _ => 10

/-- The nine maskable notices: codes 2 to 10 (R191, R207). -/
def maskableBits : BitVec 16 := 0x07FC#16

/-- Whether the mask lets a notice be made: STARTED and OP_DONE are not maskable (R190, step 1). -/
def NoticeBox.admits (box : NoticeBox) (n : Notice) : Bool := decide (n.code < 2) || box.mask.getLsbD n.code

end Sys2Proof.Machine
end

