-- ==== Sys2Proof/Machine/Operands.lean ====
section
/-! DEFINITION. The operand forms of the requests: body lengths, the encodings judged at order 4 of R186 (R206, R207),
and the fields each owning rule reads. -/

namespace Sys2Proof.Machine

/-- The body length R206 gives a request kind; none for a code that is no request kind. -/
def bodyLength (kind : Byte) : Option Nat :=
  match kind.toNat with
  | 0x01 | 0x02 | 0x03 | 0x05 | 0x07 | 0x09 | 0x16 | 0x1A => some 0
  | 0x04 => some 2
  | 0x06 | 0x14 | 0x15 | 0x18 | 0x19 | 0x1B | 0x21 | 0x26 | 0x2A => some 1
  | 0x08 => some 5
  | 0x0A | 0x0B | 0x0C | 0x10 | 0x13 | 0x25 | 0x27 | 0x29 => some 2
  | 0x11 => some 3
  | 0x12 => some 6
  | 0x20 => some 4
  | 0x24 => some 21
  | 0x28 => some 8
  | _ => none

/-- A flag byte holds 0 or 1 (R207). -/
def isFlag (v : Nat) : Bool := decide (v ≤ 1)

/-- A class byte holds a code of its list (R207). -/
def isClass (v : Nat) : Bool := decide (v ≤ 2)

/-- A channel set has no bit above bit 3 (R207). -/
def isChannelSet (v : Nat) : Bool := decide (v ≤ 15)

/-- Order 4 of R186 as R207 lists it: the enumerated fields, flags, channel sets and notice mask of a body of the right
length hold values their encodings allow. Numeric fields and the settings record are not judged here. -/
def encodingAllowed (kind : Byte) (body : List Byte) : Bool :=
  match kind.toNat with
  | 0x04 => (BitVec.ofNat 16 (fieldAt body 0 2) &&& ~~~maskableBits) == 0#16
  | 0x10 => isFlag (byteAt body 0) && isFlag (byteAt body 1)
  | 0x11 => isClass (byteAt body 1) && isChannelSet (byteAt body 2)
  | 0x12 => isFlag (byteAt body 1) && isClass (byteAt body 4) && isChannelSet (byteAt body 5)
  | 0x13 => isClass (byteAt body 0) && isChannelSet (byteAt body 1)
  | 0x14 => isFlag (byteAt body 0)
  | 0x25 => isFlag (byteAt body 1)
  | 0x27 => isFlag (byteAt body 1)
  | _ => true

/-- The class a byte codes, where it codes one. -/
def classOf (v : Nat) : RetentionClass :=
  match v with
  | 0 => .ring
  | 1 => .keep
  | _ => .parked

/-- The channel a byte names, where it is at most 3. -/
def channelAt (body : List Byte) (i : Nat) : Option Channel := channelOf (body.getD i 0#8)

/-- The block a byte names, where it is at most 127. -/
def blockAt (body : List Byte) (i : Nat) : Option Block :=
  if h : byteAt body i < 128 then some ⟨byteAt body i, h⟩ else none

/-- The trigger code field: 0 to 255, or 0xFFFF for none (R206); the outer Option is none where it is neither. -/
def triggerCodeOf (v : Nat) : Option (Option Byte) :=
  if v = 0xFFFF then some none else if v ≤ 255 then some (some (BitVec.ofNat 8 v)) else none

/-- The 20 bytes of a settings record as fields (R206): none where any field is outside its range in R136, mask is
above 0 with pass 0, or clip lower is above clip upper (R139, orders 3 to 5). -/
def settingsOf (r : List Byte) : Option Settings :=
  let pass := byteAt r 0
  let mask := byteAt r 1
  let lower := fieldAt r 2 2
  let upper := fieldAt r 4 2
  let wrap := fieldAt r 6 4
  let pre := byteAt r 12
  let timeout := fieldAt r 18 2
  match triggerCodeOf (fieldAt r 10 2) with
  | none => none
  | some code =>
    if pass ≤ 15 ∧ mask ≤ 15 ∧ lower ≤ 4095 ∧ upper ≤ 4095 ∧ 2 ≤ wrap ∧ wrap ≤ 65536 ∧ pre ≤ 7 ∧ byteAt r 15 ≤ 1
        ∧ byteAt r 16 ≤ 1 ∧ byteAt r 17 ≤ 1 ∧ timeout ≤ 1000 ∧ (0 < mask → 0 < pass) ∧ lower ≤ upper then
      some
        { pass, mask, clipLower := lower, clipUpper := upper, wrap, triggerCode := code, preWindow := pre
          postWindow := fieldAt r 13 2
          policy := if byteAt r 15 = 0 then .block else .shed
          dropTagged := decide (byteAt r 16 = 1)
          timing := if byteAt r 17 = 0 then .arrival else .commit
          timeout }
    else none

/-- A settings record as GET_CHANNEL returns it (R206). -/
def Settings.bytes (s : Settings) : List Byte :=
  leBytes 1 s.pass ++ leBytes 1 s.mask ++ leBytes 2 s.clipLower ++ leBytes 2 s.clipUpper ++ leBytes 4 s.wrap
    ++ leBytes 2 (match s.triggerCode with
        | some c => c.toNat
        | none => 0xFFFF)
    ++ leBytes 1 s.preWindow ++ leBytes 2 s.postWindow ++ [s.policy.code, flagByte s.dropTagged, s.timing.code]
    ++ leBytes 2 s.timeout

end Sys2Proof.Machine
end

