-- ==== Sys2Proof/Machine/Store.lean ====
section
/-! DEFINITION. The store as memory (R1, R209): a list of (address, byte) in one canonical form, and every read, program
and erase of it. -/

namespace Sys2Proof.Machine

/-- What an erased, unlisted byte reads as (R209). -/
def erasedByte : Byte := 0xFF#8

/-- The canonical form from an address on: addresses strictly rising and inside the store, no erased byte listed. -/
def Memory.wfFrom : Nat → List Host.Cell → Bool
  | _, [] => true
  | low, (a, b) :: rest => decide (low ≤ a) && decide (a < Config.storeBytes) && decide (b ≠ erasedByte) && wfFrom (a + 1) rest

/-- The canonical form of the store. -/
def Memory.wf (m : List Host.Cell) : Bool := Memory.wfFrom 0 m

/-- The byte at an address. -/
def Memory.read (m : List Host.Cell) (a : Nat) : Byte :=
  match m with
  | [] => erasedByte
  | (a', b) :: rest => if a = a' then b else Memory.read rest a

/-- Insert, replace or remove the byte at an address in a list in canonical form. -/
def Memory.put (m : List Host.Cell) (a : Nat) (b : Byte) : List Host.Cell :=
  match m with
  | [] => if b = erasedByte then [] else [(a, b)]
  | (a', b') :: rest =>
    if a < a' then (if b = erasedByte then (a', b') :: rest else (a, b) :: (a', b') :: rest)
    else if a = a' then (if b = erasedByte then rest else (a, b) :: rest)
    else (a', b') :: Memory.put rest a b

/-- Set the byte at an address of the store; an address outside it is left alone. -/
def Memory.write (m : List Host.Cell) (a : Nat) (b : Byte) : List Host.Cell :=
  if a < Config.storeBytes then Memory.put m a b else m

/-- Set consecutive bytes. -/
def Memory.writeBytes (m : List Host.Cell) (a : Nat) : List Byte → List Host.Cell
  | [] => m
  | b :: bs => Memory.writeBytes (Memory.write m a b) (a + 1) bs

/-- Return `n` bytes from an address on to the erased value. -/
def Memory.eraseRange (m : List Host.Cell) (a n : Nat) : List Host.Cell :=
  m.filter (fun cell => decide (cell.1 < a ∨ a + n ≤ cell.1))

/-- The `n` bytes from an address on. -/
def Memory.readBytes (m : List Host.Cell) (a : Nat) : Nat → List Byte
  | 0 => []
  | n + 1 => Memory.read m a :: Memory.readBytes m (a + 1) n

/-- The address of a byte of a line (R1). -/
def lineAddress (block : Block) (line : Nat) : Nat := block.val * Config.blockBytes + line * Config.lineBytes

/-- The bytes of `count` lines of a block from `line` on, as the array holds them (R30). -/
def readLines (m : List Host.Cell) (block : Block) (line count : Nat) : List Byte :=
  Memory.readBytes m (lineAddress block line) (count * Config.lineBytes)

/-- A run of bytes reads blank (R209). -/
def readsBlank (bytes : List Byte) : Bool := bytes.all (fun b => b == erasedByte)

/-- `n` free values, drawn from the counter on (log 9). -/
def freeBytes (from_ n : Nat) : List Byte := (List.range n).map (fun i => Config.freeByte (from_ + i))

/-- The bytes of the open section (R209). -/
def openSectionBytes (channel : Channel) (seq first : Nat) : List Byte :=
  let fields := [0xD7#8, BitVec.ofNat 8 channel.val] ++ leBytes 4 seq ++ leBytes 6 first
  fields ++ checkBytes fields

/-- The bytes of the close section (R209): an absent last record number is written 0xFFFFFFFFFFFF. -/
def closeSectionBytes (fill : Nat) (last : Option Nat) (worn : Bool) : List Byte :=
  let fields := leBytes 2 fill ++ leBytes 6 (last.getD Config.maxRecord) ++ [if worn then 1#8 else 0#8]
  fields ++ checkBytes fields

/-- The bytes of the retire mark (R209). -/
def retireMarkBytes : List Byte := List.replicate 7 0x00#8

/-- Where a program writes and what, for the programs of the 128 blocks; none for the unit area (R27, R29, R209). -/
def ProgramOp.target : ProgramOp → Option (Nat × List Byte)
  | .record block line bytes _ => some (lineAddress block line, bytes)
  | .headerOpen block channel seq first => some (lineAddress block 0, openSectionBytes channel seq first)
  | .closeMark block fill last worn => some (lineAddress block 0 + 14, closeSectionBytes fill last worn)
  | .retireMark block => some (lineAddress block 0 + 25, retireMarkBytes)
  | .unitWord _ _ => none
  | .unitLock => none

/-- The block a program names; none for the unit area. -/
def ProgramOp.block : ProgramOp → Option Block
  | .record block _ _ _ => some block
  | .headerOpen block _ _ _ => some block
  | .closeMark block _ _ _ => some block
  | .retireMark block => some block
  | .unitWord _ _ => none
  | .unitLock => none

/-- The operation kind a STORE_FAULT notice carries (R40, R42). -/
def ProgramOp.kind : ProgramOp → StoreOp
  | .record _ _ _ _ => .record
  | .headerOpen _ _ _ _ => .headerOpen
  | .closeMark _ _ _ _ => .closeMark
  | .retireMark _ => .retireMark
  | .unitWord _ _ => .unitWord
  | .unitLock => .unitLock

/-- Lines a program writes (R27). -/
def ProgramOp.lines : ProgramOp → Nat
  | .record _ _ bytes _ => bytes.length / Config.lineBytes
  | _ => 1

/-- How many of a record's lines, from its first, stand blank before its program: a program onto a line that is not
blank fails its verify there (R200). -/
def blankLines (m : List Host.Cell) (block : Block) (line : Nat) : Nat → Nat
  | 0 => 0
  | n + 1 => if readsBlank (readLines m block line 1) then blankLines m block (line + 1) n + 1 else 0

/-- How a program ends on this store, from what the array reports: the line that fails, or none. A record line that
was not blank fails whatever is reported (R200); a failing line beyond the last is the last. -/
def programFailure (m : List Host.Cell) (op : ProgramOp) (reported : ProgramEnd) : Option Nat :=
  let said : Option Nat := match reported with
    | .ok => none
    | .fail line => some (min line (op.lines - 1))
  match op with
  | .record block line _ _ =>
    let blank := blankLines m block line op.lines
    if blank < op.lines then some (min blank (said.getD blank)) else said
  | _ => said

end Sys2Proof.Machine
end

