-- ==== Sys2Proof/Machine/Ops.lean ====
section
/-! DEFINITION. The named operations over the part's registers: directory entries, journals, channels, slots, notices,
replies, free values, the supply sample and the output pins. -/

namespace Sys2Proof.Machine

/-! ### One home per register -/

/-- The directory entry of a block (R4). -/
def Part.entry (p : Part) (b : Block) : DirEntry := p.dir[b]

/-- Change one directory entry. -/
def Part.updEntry (p : Part) (b : Block) (f : DirEntry → DirEntry) : Part :=
  { p with dir := p.dir.set b.val (f p.dir[b]) b.isLt }

/-- The journal of a channel (R53). -/
def Part.journal (p : Part) (c : Channel) : Journal := p.je.journals[c]

/-- Change one journal. -/
def Part.updJournal (p : Part) (c : Channel) (f : Journal → Journal) : Part :=
  { p with je := { p.je with journals := p.je.journals.set c.val (f p.je.journals[c]) c.isLt } }

/-- A channel's status (R137). -/
def Part.chan (p : Part) (c : Channel) : ChannelStatus := p.chans[c]

/-- Change one channel's status. -/
def Part.updChan (p : Part) (c : Channel) (f : ChannelStatus → ChannelStatus) : Part :=
  { p with chans := p.chans.set c.val (f p.chans[c]) c.isLt }

/-- Change one channel's counters. -/
def Part.updCounters (p : Part) (c : Channel) (f : Counters → Counters) : Part :=
  p.updChan c (fun s => { s with counters := f s.counters })

/-- A channel's settings record (R136). -/
def Part.setting (p : Part) (c : Channel) : Settings := p.settings[c]

/-- A channel's assembly slot (R159). -/
def Part.slot (p : Part) (c : Channel) : Slot := p.slots[c]

/-- Set one slot. -/
def Part.setSlot (p : Part) (c : Channel) (slot : Slot) : Part :=
  { p with slots := p.slots.set c.val slot c.isLt }

/-- Change the sticky fault set (R42). -/
def Part.updFaults (p : Part) (f : FaultSet → FaultSet) : Part :=
  { p with ctl := { p.ctl with faults := f p.ctl.faults } }

/-- All block numbers in ascending order. -/
def allBlocks : List Block := List.finRange 128

/-- All channel numbers in ascending order. -/
def allChannels : List Channel := List.finRange 4

/-! ### The part alive, and its output pins (R182, R185, R196) -/

/-- VDD is in range and RESET_N is not held low: the part takes characters, packets and its own events (R196). -/
def Part.live (p : Part) : Bool := p.power.powered && !p.power.resetNLow

/-- CRDY_N is asserted while the request buffer holds fewer than 2 requests; not while the part is held in reset or
below range (R185, R196). -/
def Part.crdyAsserted (p : Part) : Bool := p.live && decide (p.ctrl.buffer.length < Config.bufferPlaces)

/-- HOLD_N is asserted in its asserted state, and while the part is held in reset or below range (R134, R196). -/
def Part.holdAsserted (p : Part) : Bool := !p.live || p.queue.hold

/-- CTX is high: no message is being sent (R182, R193, R196). -/
def Part.ctxIdle (p : Part) : Bool := p.ctrl.sending.isNone

/-- The control link rate in bit/s from the sampled straps (R182). -/
def Power.bitRate (w : Power) : Nat :=
  match w.rate1, w.rate0 with
  | false, false => 115200
  | false, true => 460800
  | true, false => 1000000
  | true, true => 3000000

/-- A character on CRX or CTX: start bit low, 8 data bits from the least significant, stop bit high (R182). -/
def charBits (b : Byte) : List Bool := false :: (List.range 8).map (fun i => b.getLsbD i) ++ [true]

/-! ### Notices and replies (R187, R190) -/

/-- A unit makes a notice: the mask decides, then the queue's room (R190). -/
def Part.notify (p : Part) (n : Notice) : Part :=
  if p.notices.admits n then
    if p.notices.queue.length < Config.noticePlaces then
      { p with notices := { p.notices with queue := p.notices.queue ++ [n] } }
    else { p with notices := { p.notices with dropped := true } }
  else p

/-- The Request Server places a reply in the reply slot (R187). -/
def Part.placeReply (p : Part) (tag kind : Byte) (status : Status) (contents : List Byte) : Part :=
  { p with ctrl := { p.ctrl with reply := some { tag, kind, status, contents } } }

/-! ### Free values and the supply sample (log 8, log 9) -/

/-- The counter after `n` free values have been drawn. -/
def Part.drawn (p : Part) (n : Nat) : Part := { p with freeIdx := p.freeIdx + n }

/-- A level passes the supply check: at or above the threshold, which lies from 2,650 to 2,850 mV (R40). -/
def supplyPasses (mv : Nat) : Bool :=
  if 2850 ≤ mv then true else if mv < 2650 then false else decide (Config.vstThresholdMv ≤ mv)

/-- VST as the next sample shows it: the next coming level, or the level last seen (log 8). -/
def Supply.next (s : Supply) : Supply :=
  match s.coming with
  | [] => s
  | mv :: rest => { vstMv := mv, coming := rest }

/-! ### Effective lock state and holds (R5, R21) -/

/-- The effective lock state (R21). -/
def DirEntry.lockState (protN : Bool) (e : DirEntry) : LockState :=
  if e.downFlag && protN then .down else if e.lockBit then .locked else .unlocked

/-- A block's effective lock state now. -/
def Part.lockOf (p : Part) (b : Block) : LockState := (p.entry b).lockState p.pins.protN

/-- A lock-pending takes effect (R10, R20): LOCK sets the lock bit, DOWN the down flag as well, and it clears. -/
def DirEntry.applyPending (e : DirEntry) : DirEntry :=
  { e with
    lockBit := e.lockBit || e.pending != .clear
    downFlag := e.downFlag || e.pending == .down
    pending := .clear }

/-- The fields a block that leaves CLOSED, OPEN or ERASING for BLANK or RETIRED loses (R12, R14, R18, R20). -/
def DirEntry.emptied (state : BlockState) (e : DirEntry) : DirEntry :=
  { e with state, prior := none, channel := none, seq := none, fill := 0, first := none, last := none, worn := false }

/-! ### Reset of the volatile units (R48, R196, R197) -/

/-- Draw `n` free bytes over the store from an address on (R48). -/
def Part.scramble (p : Part) (a n : Nat) : Part :=
  { p with store := Memory.writeBytes p.store a (freeBytes p.freeIdx n) }.drawn n

/-- What an aborted or failed unit word program leaves in the area (R48, R51): free marker, free value. -/
def Part.scrambleWord (p : Part) (word : Fin 12) : Part :=
  let marker := (Config.freeByte p.freeIdx).getLsbD 0
  let value := BitVec.ofNat 32 (leValue (freeBytes (p.freeIdx + 1) 4))
  { p with unitArea :=
      { p.unitArea with words := p.unitArea.words.set word.val (if marker then some value else none) word.isLt } }.drawn 5

/-- What an aborted or failed unit lock program leaves (R48, R52): a free lock. -/
def Part.scrambleLock (p : Part) : Part :=
  { p with unitArea := { p.unitArea with locked := (Config.freeByte p.freeIdx).getLsbD 0 } }.drawn 1

/-- What an aborted program leaves: its lines, its section, its word or the lock indeterminate (R48). -/
def Part.abortProgram (p : Part) (op : ProgramOp) : Part :=
  match op.target with
  | some (a, bytes) => p.scramble a bytes.length
  | none =>
    match op with
    | .unitWord word _ => p.scrambleWord word
    | _ => p.scrambleLock

/-- A reset aborts the program in the array, if one is running (R48). -/
def Part.abortArray (p : Part) : Part :=
  match p.ctl.array with
  | some (.program req) => p.abortProgram req.op
  | _ => p

/-- The block of the erase that is begun, running, suspending or suspended (R36). -/
def Controller.begunErase (ctl : Controller) : Option Block :=
  match ctl.erase with
  | some e => some e.block
  | none => ctl.suspended.map (·.block)

/-- A reset aborts the erase that is begun, whose whole block is then indeterminate (R48). -/
def Part.abortErase (p : Part) : Part :=
  match p.ctl.begunErase with
  | some b => p.scramble (lineAddress b 0) Config.blockBytes
  | none => p

/-- A reset: store work is aborted and every volatile unit takes its reset values (R48, R197 steps 1 and 2). -/
def Part.resetUnits (p : Part) : Part :=
  let q := p.abortArray.abortErase
  Part.atStartUp q.power q.pins q.supply q.store q.unitArea q.freeIdx

/-- A reset ends: where SLSEL_N is low, the receiver waits for it to rise and fall again (R154, log 32). -/
def Part.resetEnds (p : Part) : Part :=
  { p with
    awaitsSelection := p.pins.selections.headD false
    pins := { p.pins with selections := p.pins.selections.tail } }

/-- Start-up after a reset of this cause (R197): the image load begins, as `resetUnits` leaves it. -/
def Part.startUp (p : Part) (cause : ResetCause) : Part :=
  let q := p.resetUnits.resetEnds
  { q with power := { q.power with cause } }

end Sys2Proof.Machine
end

