-- ==== Sys2Proof/Machine/Formats.lean ====
section
/-! DEFINITION. The byte layouts of records, notices, replies and control link frames (R3, R205, R206, R208, R209). -/

namespace Sys2Proof.Machine

/-! ### Absent fields (R208) -/

/-- A record number, 0xFFFFFFFFFFFF when absent. -/
def recordField (n : Option Nat) : List Byte := leBytes 6 (n.getD 0xFFFFFFFFFFFF)

/-- A block sequence, 0xFFFFFFFF when absent. -/
def seqField (n : Option Nat) : List Byte := leBytes 4 (n.getD 0xFFFFFFFF)

/-- A block, channel or position byte, 0xFF when absent. -/
def smallField (n : Option Nat) : Byte := BitVec.ofNat 8 (n.getD 0xFF)

/-- A block number. -/
def blockByte (b : Block) : Byte := BitVec.ofNat 8 b.val

/-- A channel number. -/
def channelByte (c : Channel) : Byte := BitVec.ofNat 8 c.val

/-! ### Entries and records (R3, R120, R209) -/

def Content.kind : Content → EntryKind
  | .frame _ _ _ _ _ => .frame
  | .mark _ => .mark
  | .abort => .abort

/-- Lines of a record of `n` samples: one line and n/16 rounded up (R3). -/
def frameLines (n : Nat) : Nat := 1 + (n + 15) / 16

/-- The lines of an entry (R120). -/
def Entry.lines (e : Entry) : Nat :=
  match e.content with
  | .frame _ samples _ _ _ => frameLines samples.length
  | .mark _ => 1
  | .abort => 1

/-- An entry's tag set; empty for MARK and ABORT (R120). -/
def Entry.tags (e : Entry) : TagSet :=
  match e.content with
  | .frame _ _ tags _ _ => tags
  | .mark _ => .none
  | .abort => .none

/-- An entry is tagged when its tag set is not empty (R120). -/
def Entry.tagged (e : Entry) : Bool := e.tags.tagged

/-- Sample lines: the words, each little-endian, filled out to whole lines with blank words (R3, R209). -/
def sampleLineBytes (samples : List Word16) : List Byte :=
  sampleBytes samples ++ List.replicate (32 * ((samples.length + 15) / 16) - 2 * samples.length) erasedByte

/-- Bytes 0 to 17 of the record header line (R209). -/
def recordFields (e : Entry) (record : Nat) : List Byte :=
  match e.content with
  | .frame number samples tags clipped gap =>
    [EntryKind.frame.code, channelByte e.channel, tags.byte] ++ leBytes 6 record ++ leBytes 2 number.toNat
      ++ leBytes 2 samples.length ++ leBytes 2 clipped ++ leBytes 2 gap ++ [0#8]
  | .mark code =>
    [EntryKind.mark.code, channelByte e.channel, 0#8] ++ leBytes 6 record ++ List.replicate 8 0#8 ++ [code]
  | .abort =>
    [EntryKind.abort.code, channelByte e.channel, 0#8] ++ leBytes 6 record ++ List.replicate 9 0#8

/-- The sample lines of an entry's record. -/
def Entry.sampleLines (e : Entry) : List Byte :=
  match e.content with
  | .frame _ samples _ _ _ => sampleLineBytes samples
  | .mark _ => []
  | .abort => []

/-- The whole record as programmed: header line with its check over bytes 0 to 17 and the sample lines, then the
sample lines (R64, R209). -/
def recordBytes (e : Entry) (record : Nat) : List Byte :=
  let fields := recordFields e record
  fields ++ checkBytes (fields ++ e.sampleLines) ++ List.replicate 12 erasedByte ++ e.sampleLines

/-- Lines of the record whose header line this is, from its kind and sample count (R174). -/
def headerLines (header : List Byte) : Nat :=
  if byteAt header 0 = 0 then frameLines (fieldAt header 11 2) else 1

/-- The record check over a header line and its sample lines matches the check the header holds (R176, R201). -/
def recordSound (header samples : List Byte) : Bool :=
  checkBytes (header.take 18 ++ samples) == (header.drop 18).take 2

/-- A record header line as the stepping of R174 and the walk of R201 judge it, apart from where the record ends:
kind, channel, expected record number and sample count. -/
def headerAcceptable (header : List Byte) (channel : Channel) (expected : Nat) : Bool :=
  decide (byteAt header 0 ≤ 2) && decide (byteAt header 1 = channel.val)
    && decide (fieldAt header 3 6 = expected) && decide (fieldAt header 11 2 ≤ Config.maxSamples)
    && (decide (byteAt header 0 = 0) || decide (fieldAt header 11 2 = 0))

/-! ### Frames of the control link (R205) -/

/-- A control link frame: start byte, length, kind, tag, body, CRC-16 from the first length byte on. -/
def frameBytes (kind tag : Byte) (body : List Byte) : List Byte :=
  let checked := leBytes 2 (body.length + 2) ++ [kind, tag] ++ body
  0x9C#8 :: checked ++ checkBytes checked

/-- The contents of a notice after its code (section 12.3). -/
def Notice.contents : Notice → List Byte
  | .started cause blank closed retired torn cut =>
    cause.code :: ([blank, 0, closed, 0, retired, torn, cut].map (BitVec.ofNat 8))
  | .opDone _ block outcome => [blockByte block, outcome.code]
  | .stalled channel cause => [channelByte channel, cause.code]
  | .resumed channel state => [channelByte channel, state.code]
  | .storeFault fault op block => [fault.code, op.code, smallField (block.map (·.val))]
  | .blockRetired block cause => [blockByte block, cause.code]
  | .triggered id channel cause anchor count held retrigger =>
    [BitVec.ofNat 8 id, channelByte channel, cause.code, cause.markerByte] ++ recordField anchor
      ++ [BitVec.ofNat 8 count, BitVec.ofNat 8 held, flagByte retrigger]
  | .eventDone id channel short held => [BitVec.ofNat 8 id, channelByte channel, flagByte short, BitVec.ofNat 8 held]
  | .triggerLost channel code record => [channelByte channel, code] ++ leBytes 6 record ++ [0#8]
  | .overrun channel kind number lines tags entries total =>
    [channelByte channel, kind.code] ++ leBytes 2 number ++ [BitVec.ofNat 8 lines, tags.byte, BitVec.ofNat 8 entries]
      ++ leBytes 2 total
  | .errorFrame channel number tags clipped gap disposition record =>
    channelByte channel :: leBytes 2 number.toNat ++ [tags.byte] ++ leBytes 2 clipped ++ leBytes 2 gap
      ++ [disposition.code] ++ recordField record

/-- A notice carries tag 0, except OP_DONE, which carries its request's tag (R190). -/
def Notice.tag : Notice → Byte
  | .opDone tag _ _ => tag
  | _ => 0#8

/-- The frame of a notice: kind 0x81, its body opening with the code (R190, R205). -/
def Notice.frame (n : Notice) : List Byte := frameBytes 0x81#8 n.tag (BitVec.ofNat 8 n.code :: n.contents)

/-- The frame of a reply: kind 0x80, its body opening with the request kind and the status (R187, R205). -/
def Reply.frame (r : Reply) : List Byte := frameBytes 0x80#8 r.tag (r.kind :: r.status.code :: r.contents)

/-- The frame of a message on CTX. -/
def Message.frame : Message → List Byte
  | .reply r => r.frame
  | .notice n => n.frame

/-- The levels CTX takes while the message being sent leaves, true for high; none while the arbiter is IDLE and CTX
stands high (R182, R192). -/
def Part.ctxBits (p : Part) : Option (List Bool) := p.ctrl.sending.map (fun m => m.frame.flatMap charBits)

end Sys2Proof.Machine
end

