-- ==== Sys2Proof/Machine/RetentionMap.lean ====
section
/-! DEFINITION. The Retention Map: evaluation of a block (R85 to R88) and the edits of the staged copy (R90 to R93). -/

namespace Sys2Proof.Machine

/-- The source that decided a block's class and set (R86). -/
inductive MapSource where
  | disabled
  | fixed (index : Nat)
  | variable (covering : List Nat)
  | default
  deriving DecidableEq, Repr

/-- A block's effective class, channel set and source (R86). -/
structure MapValue where
  cls : RetentionClass
  set : ChannelSet
  source : MapSource
  deriving DecidableEq, Repr

/-- A valid variable descriptor covers the blocks from its base to its base plus its span minus one (R85). -/
def VariableDescriptor.covers (d : VariableDescriptor) (b : Block) : Bool :=
  d.valid && decide (d.base ≤ b.val) && decide (b.val < d.base + d.span)

/-- The stronger of two classes: PARKED above KEEP above RING (R87). -/
def RetentionClass.stronger : RetentionClass → RetentionClass → RetentionClass
  | .parked, _ => .parked
  | _, .parked => .parked
  | .keep, _ => .keep
  | _, .keep => .keep
  | .ring, .ring => .ring

/-- The indices of the variable descriptors that cover a block, ascending (R87). -/
def RetentionMap.covering (m : RetentionMap) (b : Block) : List (Fin 8) :=
  (List.finRange 8).filter (fun i => m.vars[i].covers b)

/-- The class and set of a block under one copy of the map, and their source (R86, R87). -/
def RetentionMap.eval (m : RetentionMap) (b : Block) : MapValue :=
  if !m.enable then { cls := .parked, set := 0#4, source := .disabled }
  else if h : m.fixedEnable = true ∧ b.val < 16 then
    let d := m.fixed[b.val]'h.2
    { cls := d.cls, set := d.set, source := .fixed b.val }
  else
    match m.covering b with
    | [] => { cls := m.dflt.cls, set := m.dflt.set, source := .default }
    | covering =>
      { cls := covering.foldl (fun k i => k.stronger m.vars[i].cls) .ring
        set := covering.foldl (fun s i => s &&& m.vars[i].set) 0xF#4
        source := .variable (covering.map (·.val)) }

/-- A block's value under the active copy (R88). -/
def Part.mapOf (p : Part) (b : Block) : MapValue := p.active.eval b

/-- A channel is in a set. -/
def inSet (set : ChannelSet) (c : Channel) : Bool := set.getLsbD c.val

/-- Class and set allow channel c to write the block: the free-list and TORN steps (R84). -/
def MapValue.writable (v : MapValue) (c : Channel) : Bool := v.cls != .parked && inSet v.set c

/-- Class and set allow channel c to reclaim the block (R84). -/
def MapValue.reclaimable (v : MapValue) (c : Channel) : Bool := v.cls == .ring && inSet v.set c

def MapSource.code : MapSource → Byte
  | .disabled => 0#8 | .fixed _ => 1#8 | .variable _ => 2#8 | .default => 3#8

/-- The detail byte: the fixed index, the set of covering variable indices, 0 otherwise (section 12.3, R208). -/
def MapSource.detail : MapSource → Byte
  | .disabled => 0#8
  | .fixed index => BitVec.ofNat 8 index
  | .variable covering => BitVec.ofNat 8 (covering.foldl (fun s i => s + 2 ^ i) 0)
  | .default => 0#8

/-- Class, set, source and detail bytes, as MAP_QUERY and GET_BLOCK carry them. -/
def MapValue.bytes (v : MapValue) : List Byte := [v.cls.code, v.set.setWidth 8, v.source.code, v.source.detail]

def Descriptor.bytes (d : Descriptor) : List Byte := [d.cls.code, d.set.setWidth 8]

def VariableDescriptor.bytes (d : VariableDescriptor) : List Byte :=
  [flagByte d.valid, BitVec.ofNat 8 d.base, BitVec.ofNat 8 d.span, d.cls.code, d.set.setWidth 8, 0#8]

/-- One whole copy as MAP_READ returns it (R94). -/
def RetentionMap.bytes (m : RetentionMap) : List Byte :=
  [flagByte m.enable, flagByte m.fixedEnable] ++ m.fixed.toList.flatMap Descriptor.bytes
    ++ m.vars.toList.flatMap VariableDescriptor.bytes ++ m.dflt.bytes

/-- The spans a variable descriptor may have (R83). -/
def isSpan (n : Nat) : Bool := [1, 2, 4, 8, 16, 32, 64, 128].contains n

/-- The descriptor that a class byte and a set byte at position `i` of a body code. -/
def descriptorAt (body : List Byte) (i : Nat) : Descriptor :=
  { cls := classOf (byteAt body i), set := BitVec.ofNat 4 (byteAt body (i + 1)) }

/-- R90: both flags of the staged copy are replaced. -/
def RetentionMap.writeControl (m : RetentionMap) (body : List Byte) : RetentionMap :=
  { m with enable := decide (byteAt body 0 = 1), fixedEnable := decide (byteAt body 1 = 1) }

/-- R91: one fixed descriptor is replaced; none where a check refuses. -/
def RetentionMap.writeFixed (m : RetentionMap) (body : List Byte) : Option RetentionMap :=
  if h : byteAt body 0 < 16 then
    if byteAt body 1 ≤ 2 ∧ byteAt body 2 ≤ 15 then
      some { m with fixed := m.fixed.set (byteAt body 0) (descriptorAt body 1) h }
    else none
  else none

/-- R92: one variable descriptor is replaced, or the status of the first check that refuses. -/
def RetentionMap.writeVariable (m : RetentionMap) (body : List Byte) : Except Status RetentionMap :=
  let base := byteAt body 2
  let span := byteAt body 3
  if h : byteAt body 0 < 8 then
    if ¬ byteAt body 1 ≤ 1 then .error .badValue
    else if ¬ byteAt body 4 ≤ 2 then .error .badValue
    else if ¬ byteAt body 5 ≤ 15 then .error .badValue
    else if isSpan span = false then .error .badValue
    else if base % span ≠ 0 then .error .align
    else if 128 < base + span then .error .align
    else
      let d := descriptorAt body 4
      .ok { m with vars := m.vars.set (byteAt body 0) { valid := decide (byteAt body 1 = 1), base, span, cls := d.cls, set := d.set } h }
  else .error .badValue

/-- R93: the default descriptor is replaced; none where a check refuses. -/
def RetentionMap.writeDefault (m : RetentionMap) (body : List Byte) : Option RetentionMap :=
  if byteAt body 0 ≤ 2 ∧ byteAt body 1 ≤ 15 then some { m with dflt := descriptorAt body 0 } else none

end Sys2Proof.Machine
end

