-- ==== Sys2Proof/Machine/EventUnit.lean ====
section
/-! DEFINITION. The Event Unit: triggers, windows, holds, collection, release (R102 to R117). -/

namespace Sys2Proof.Machine

/-- TRIGGERED, for a new event or a retrigger (R109, R110). DESIGN CHOICE (log 28): a retrigger's notice carries the cause
and marker code of the event, not those of the trigger that came again; R110 does not say which. -/
def Event.triggeredNotice (e : Event) (retrigger : Bool) : Notice :=
  .triggered e.id e.channel e.cause e.anchor e.triggerCount e.held.length retrigger

/-- EVENT_DONE (R114). -/
def Event.doneNotice (e : Event) : Notice := .eventDone e.id e.channel e.short e.held.length

/-- The channel's COLLECTING event, at most one (R100). -/
def EventUnit.collecting (u : EventUnit) (c : Channel) : Option Event :=
  u.table.find? (fun e => decide (e.channel = c) && decide (e.state = .collecting))

/-- Put an entry in the place of the one with its id. -/
def EventUnit.replace (u : EventUnit) (e : Event) : EventUnit :=
  { u with table := u.table.map (fun x => if x.id = e.id then e else x) }

/-- The id after `id`, from 255 to 1 (R102). -/
def idAfter (id : Nat) : Nat := if 255 ≤ id then 1 else id + 1

/-- The first id after `id` that no entry holds (R102); `tries` bounds the advance, which 16 entries end. -/
def advanceId (held : List Nat) : Nat → Nat → Nat
  | 0, id => id
  | tries + 1, id => if held.contains (idAfter id) then advanceId held tries (idAfter id) else idAfter id

/-- Hold a block: its hold count rises (R108, R115). -/
def Part.holdBlock (p : Part) (b : Block) : Part := p.updEntry b (fun e => { e with holdCount := e.holdCount + 1 })

/-- Release a block once: its hold count falls (R117). -/
def Part.releaseBlock (p : Part) (b : Block) : Part := p.updEntry b (fun e => { e with holdCount := e.holdCount - 1 })

/-- The record numbers of an entry include `n`, and its block is an OPEN or CLOSED block of the channel (R107, R171). -/
def DirEntry.holds (e : DirEntry) (c : Channel) (n : Nat) : Bool :=
  (decide (e.state = .opened) || decide (e.state = .closed)) && decide (e.channel = some c) && decide (0 < e.fill)
    && match e.first, e.last with
      | some f, some l => decide (f ≤ n) && decide (n ≤ l)
      | _, _ => false

/-- The block that holds record `n` of a channel, if it is retained (R107, R171). -/
def Part.blockHolding (p : Part) (c : Channel) (n : Nat) : Option Block :=
  allBlocks.find? (fun b => (p.entry b).holds c n)

/-- Insert a block by its sequence into a list in descending sequence. -/
def insertDescending (seq : Block → Nat) (b : Block) : List Block → List Block
  | [] => [b]
  | x :: xs => if seq x ≤ seq b then b :: x :: xs else x :: insertDescending seq b xs

/-- Blocks in descending block sequence. -/
def sortDescending (seq : Block → Nat) (blocks : List Block) : List Block :=
  blocks.foldr (insertDescending seq) []

/-- The pre-window walk (R108): the CLOSED blocks met, up to `room` of them, an ERASING block ending the walk. -/
def walkBlocks (erasing : Block → Bool) : Nat → List Block → List Block
  | 0, _ => []
  | _, [] => []
  | room + 1, b :: rest => if erasing b then [] else b :: walkBlocks erasing room rest

/-- The channel's older CLOSED and ERASING blocks in descending sequence, below the anchor block's sequence when that
block is present (R108). -/
def Part.olderBlocks (p : Part) (c : Channel) (anchorBlock : Option Block) : List Block :=
  let seq := fun b => (p.entry b).seq.getD 0
  let below := fun b => match anchorBlock with
    | some a => decide (seq b < seq a)
    | none => true
  sortDescending seq (allBlocks.filter (fun b =>
    decide ((p.entry b).channel = some c)
      && (decide ((p.entry b).state = .closed) || decide ((p.entry b).state = .erasing)) && below b))

/-- The blocks a new event holds, in order: anchor block, pre-window, open block (R108). -/
def Part.windowBlocks (p : Part) (c : Channel) (anchor : Option Nat) (anchorBlock : Option Block) : List Block :=
  let pre := if anchor.isSome then
      walkBlocks (fun b => decide ((p.entry b).state = .erasing)) (p.setting c).preWindow (p.olderBlocks c anchorBlock)
    else []
  let opened := if 0 < (p.setting c).postWindow then
      match (p.journal c).openBlock with
      | some b => if anchorBlock = some b then [] else [b]
      | none => []
    else []
  anchorBlock.toList ++ pre ++ opened

/-- The anchor: the record one below the channel's next record number, absent when that is 0 (R107). -/
def Part.anchorOf (p : Part) (c : Channel) : Option Nat :=
  if (p.journal c).nextRec = 0 then none else some ((p.journal c).nextRec - 1)

/-- The new entry that a trigger makes (R107 to R109). -/
def Part.newEvent (p : Part) (c : Channel) (cause : EventCause) : Event :=
  let anchor := p.anchorOf c
  let anchorBlock := anchor.bind (p.blockHolding c)
  { id := p.events.nextId, channel := c, cause, triggerCount := 1, anchor, anchorBlock
    remaining := (p.setting c).postWindow
    state := if 0 < (p.setting c).postWindow then .collecting else .complete
    short := false, held := p.windowBlocks c anchor anchorBlock }

/-- The table takes a new entry at its tail, and the next event id moves past every id held (R100, R102). -/
def EventUnit.add (u : EventUnit) (e : Event) : EventUnit :=
  let table := u.table ++ [e]
  { table, nextId := advanceId (table.map (·.id)) 255 u.nextId }

/-- What became of a trigger (R106). -/
inductive TriggerOutcome where
  | made (e : Event)
  | retriggered (e : Event)
  | lost
  deriving DecidableEq, Repr

/-- The entry after a retrigger (R110). -/
def Event.retrigger (e : Event) (postWindow : Nat) : Event :=
  { e with
    remaining := postWindow
    triggerCount := min (e.triggerCount + 1) 255
    state := if postWindow = 0 then .complete else e.state }

/-- EVENT_DONE follows for an entry that is COMPLETE (R109, R110, R114). -/
def Part.notifyIfComplete (p : Part) (e : Event) : Part :=
  if e.state = .complete then p.notify e.doneNotice else p

/-- The Event Unit takes up a trigger (R106 to R110); TRIGGER_LOST is the caller's (R111). -/
def Part.takeTrigger (p : Part) (c : Channel) (cause : EventCause) : Part × TriggerOutcome :=
  match p.events.collecting c with
  | some e =>
    let e' := e.retrigger (p.setting c).postWindow
    ((({ p with events := p.events.replace e' }).notify (e'.triggeredNotice true)).notifyIfComplete e', .retriggered e')
  | none =>
    if Config.eventEntries ≤ p.events.table.length then (p, .lost)
    else
      let e := p.newEvent c cause
      let q := e.held.foldl Part.holdBlock p
      ((({ q with events := q.events.add e }).notify (e.triggeredNotice false)).notifyIfComplete e, .made e)

/-- A record that is no marker trigger counts against the channel's COLLECTING event (R112). -/
def Part.countCommit (p : Part) (c : Channel) : Part :=
  match p.events.collecting c with
  | none => p
  | some e =>
    let remaining := e.remaining - 1
    let e' := { e with remaining, state := if remaining = 0 then .complete else e.state }
    ({ p with events := p.events.replace e' }).notifyIfComplete e'

/-- The Event Unit is told of a commit (R104, R111, R112). -/
def Part.eventCommit (p : Part) (c : Channel) (record : Nat) (content : Content) : Part :=
  match content with
  | .mark code =>
    if (p.setting c).triggerCode = some code then
      match p.takeTrigger c (.marker code) with
      | (q, .lost) => q.notify (.triggerLost c code record)
      | (q, _) => q
    else p.countCommit c
  | _ => p.countCommit c

/-- The Event Unit is told of a block opened for a channel: the COLLECTING event holds it, or completes short where its
list already holds 32 (R113, R114). -/
def Part.eventOpen (p : Part) (c : Channel) (b : Block) : Part :=
  match p.events.collecting c with
  | none => p
  | some e =>
    if Config.heldBlocks ≤ e.held.length then
      let e' := { e with short := true, state := .complete }
      ({ p with events := p.events.replace e' }).notify e'.doneNotice
    else
      let e' := { e with held := e.held ++ [b] }
      ({ p with events := p.events.replace e' }).holdBlock b

/-- An event is removed from the table and its blocks released once each (R117). -/
def Part.dropEvent (p : Part) (e : Event) : Part :=
  let q := e.held.foldl Part.releaseBlock p
  { q with events := { q.events with table := q.events.table.filter (fun x => decide (x.id ≠ e.id)) } }

/-- One entry of LIST_EVENTS (R119). -/
def Event.listBytes (e : Event) : List Byte :=
  [BitVec.ofNat 8 e.id, channelByte e.channel, e.state.code, e.cause.code, e.cause.markerByte]

/-- A whole entry as GET_EVENT returns it (R119). -/
def Event.bytes (e : Event) : List Byte :=
  [BitVec.ofNat 8 e.id, channelByte e.channel, e.cause.code, e.cause.markerByte, BitVec.ofNat 8 e.triggerCount]
    ++ recordField e.anchor ++ [smallField (e.anchorBlock.map (·.val))] ++ leBytes 2 e.remaining
    ++ [e.state.code, flagByte e.short, BitVec.ofNat 8 e.held.length] ++ e.held.map blockByte

end Sys2Proof.Machine
end

