-- ==== Sys2Proof/Machine/Journals.lean ====
section
/-! DEFINITION. The four journals: stalls and notices (R57), closing (R68), allocation, TORN step, reclaim (R71 to R74),
the wait queue and the retry pass (R75 to R77, R82), the supply hold (R81) and the stop of a channel (R70). -/

namespace Sys2Proof.Machine

/-! ### The wait queue and the state of a journal (R54, R57, R75) -/

/-- A channel joins the wait queue's tail if it is not already in it (R75). -/
def Part.joinWait (p : Part) (c : Channel) : Part :=
  if p.je.wait.contains c then p else { p with je := { p.je with wait := p.je.wait ++ [c] } }

/-- A channel leaves the wait queue (R75). -/
def Part.leaveWait (p : Part) (c : Channel) : Part :=
  { p with je := { p.je with wait := p.je.wait.filter (fun x => decide (x ≠ c)) } }

/-- A journal becomes STALLED, or changes its stall cause, with a STALLED notice; one that stays STALLED with the same
cause makes none (R57). -/
def Part.stall (p : Part) (c : Channel) (cause : StallCause) : Part :=
  if (p.journal c).state = .stalled cause then p
  else ((p.updJournal c (fun j => { j with state := .stalled cause })).joinWait c).notify (.stalled c cause)

/-- A journal takes a state other than STALLED, with a RESUMED notice if it leaves STALLED (R57). -/
def Part.unstall (p : Part) (c : Channel) (state : JournalState) : Part :=
  let q := p.updJournal c (fun j => { j with state })
  if (p.journal c).state.isStalled then q.notify (.resumed c state) else q

/-! ### The close of an open block (R68) -/

/-- A header program of this block is in the backlog, waiting or outstanding (R60). -/
def JournalEngine.hasHeader (je : JournalEngine) (b : Block) : Bool :=
  je.backlog.any (fun op => decide (op.block = some b))

/-- The commit subject (R63). -/
def Part.subject (p : Part) : Option Entry := p.queue.entries.head?

/-- The subject's record program is presented and not yet reported (R63). -/
def Part.inFlight (p : Part) : Bool := decide (p.je.outstanding = some .record)

/-- A record program of this channel's journal is outstanding. -/
def Part.recordOutstanding (p : Part) (c : Channel) : Bool :=
  p.inFlight && match p.subject with
    | some e => decide (e.channel = c)
    | none => false

/-- The close mark joins the backlog tail as soon as the close due set is not empty and the block has no program of its
own waiting or outstanding (R68). -/
def Part.joinClose (p : Part) (c : Channel) : Part :=
  match (p.journal c).openBlock with
  | none => p
  | some b =>
    if (p.journal c).due.any && !p.je.hasHeader b && !p.recordOutstanding c then
      { p with je := { p.je with
          backlog := p.je.backlog ++ [ProgramOp.closeMark b (p.entry b).fill (p.entry b).last (p.journal c).due.fail] } }
    else p

/-- A cause joins a journal's close due set (R68). -/
def Part.addDue (p : Part) (c : Channel) (f : CloseDue → CloseDue) : Part :=
  (p.updJournal c (fun j => { j with due := f j.due })).joinClose c

/-! ### Erase enqueue and retirement (R11, R18) -/

/-- A CLOSED or TORN block becomes ERASING and joins the erase queue's tail (R11). -/
def Part.enqueueErase (p : Part) (b : Block) (requester : EraseRequester) : Part :=
  let q := p.updEntry b (fun e =>
    { e with state := .erasing, prior := some (if e.state = .torn then .torn else .closed) })
  { q with ctl := { q.ctl with eraseQueue := q.ctl.eraseQueue ++ [{ block := b, requester }] } }

/-- A block becomes RETIRED, its retire mark joins the backlog tail and a BLOCK_RETIRED notice is made (R14, R18,
R20). -/
def Part.retire (p : Part) (b : Block) (cause : RetireCause) : Part :=
  let q := p.updEntry b (DirEntry.emptied .retired)
  ({ q with je := { q.je with backlog := q.je.backlog ++ [ProgramOp.retireMark b] } }).notify (.blockRetired b cause)

/-! ### Allocation (R71 to R74) -/

/-- Effectively UNLOCKED with the down flag clear (R15, R72, R73). -/
def Part.unlockedForWork (p : Part) (b : Block) : Bool :=
  decide (p.lockOf b = .unlocked) && !(p.entry b).downFlag

/-- A block is eligible for a channel at the free-list step (R15). -/
def Part.eligible (p : Part) (c : Channel) (b : Block) : Bool := p.unlockedForWork b && (p.mapOf b).writable c

/-- The first eligible block in the order of the free list, whose blocks are BLANK (R15, R71). -/
def Part.freeChoice (p : Part) (c : Channel) : Option Block :=
  p.freeList.find? (fun b => decide ((p.entry b).state = .blank) && p.eligible c b)

/-- The lowest-numbered suitable TORN block (R72). -/
def Part.tornChoice (p : Part) (c : Channel) : Option Block :=
  allBlocks.find? (fun b =>
    decide ((p.entry b).state = .torn) && decide ((p.entry b).holdCount = 0) && p.eligible c b)

/-- A CLOSED block of the channel that reclaim may choose (R73). -/
def Part.reclaimable (p : Part) (c : Channel) (b : Block) : Bool :=
  decide ((p.entry b).state = .closed) && decide ((p.entry b).channel = some c) && decide ((p.entry b).holdCount = 0)
    && p.unlockedForWork b && (p.mapOf b).reclaimable c

/-- The block of lowest sequence in a list, the first of them where two are equal. -/
def lowestSeq (seq : Block → Nat) : List Block → Option Block
  | [] => none
  | b :: rest =>
    match lowestSeq seq rest with
    | none => some b
    | some x => if seq x < seq b then some x else some b

/-- The CLOSED block of lowest sequence that reclaim chooses (R73). -/
def Part.reclaimChoice (p : Part) (c : Channel) : Option Block :=
  lowestSeq (fun b => (p.entry b).seq.getD 0) (allBlocks.filter (p.reclaimable c))

/-- A journal opens a block: free-list step (R8, R71). DESIGN CHOICE (log 37): of the effects that R71 has take place
together, the Event Unit is told first, so the EVENT_DONE of a short completion (R113) is queued before the RESUMED. -/
def Part.openFor (p : Part) (c : Channel) (b : Block) : Part :=
  let seq := p.je.nextSeq
  let q := p.updEntry b (fun e =>
    { e with state := .opened, channel := some c, seq := some seq, fill := 0, first := none, last := none
             worn := false, pending := .clear })
  let q := { q with
    freeList := q.freeList.filter (fun x => decide (x ≠ b))
    je := { q.je with
      nextSeq := seq + 1
      backlog := q.je.backlog ++ [ProgramOp.headerOpen b c seq (p.journal c).nextRec] } }
  let q := q.eventOpen c b
  let q := q.updJournal c (fun j => { j with openBlock := some b, reclaim := none, due := .none })
  (q.leaveWait c).unstall c .writing

/-- A journal enqueues a block of its own for erase and becomes WAITING (R72, R73). -/
def Part.waitOn (p : Part) (c : Channel) (b : Block) : Part :=
  let q := p.enqueueErase b (.journal c)
  let q := q.updJournal c (fun j => { j with reclaim := some b })
  (q.joinWait c).unstall c .waiting

/-- Reclaim (R73, R74): a worn choice is retired and the choice made again; `tries` bounds the repetitions, one for
each block. -/
def Part.reclaimStep : Nat → Part → Channel → Part
  | 0, p, c => p.stall c .noSpace
  | tries + 1, p, c =>
    match p.reclaimChoice c with
    | none => p.stall c .noSpace
    | some b => if (p.entry b).worn then Part.reclaimStep tries (p.retire b .worn) c else p.waitOn c b

/-- The TORN step, then reclaim (R72 to R74). -/
def Part.tornOrReclaim (p : Part) (c : Channel) : Part :=
  match p.tornChoice c with
  | some b => p.waitOn c b
  | none => Part.reclaimStep 129 p c

/-- The free-list step, and what follows where it takes no block (R71). -/
def Part.freeOr (p : Part) (c : Channel) (otherwise : Part) : Part :=
  match p.freeChoice c with
  | some b => p.openFor c b
  | none => otherwise

/-- A journal allocates (R71): the sequence counter, then the supply hold, then free list, TORN blocks and reclaim. -/
def Part.allocate (p : Part) (c : Channel) : Part :=
  if Config.maxSeq ≤ p.je.nextSeq then p.stall c .numbers
  else if p.je.hold then p.stall c .storeFault
  else p.freeOr c (p.tornOrReclaim c)

/-! ### The retry pass (R76, R77, R82) -/

/-- The journal's reclaim block is still ERASING. -/
def Part.reclaimErasing (p : Part) (c : Channel) : Bool :=
  match (p.journal c).reclaim with
  | some b => decide ((p.entry b).state = .erasing)
  | none => false

/-- The reclaim block becomes absent (R53). -/
def Part.dropReclaim (p : Part) (c : Channel) : Part := p.updJournal c (fun j => { j with reclaim := none })

/-- A retry of the journal, whatever its state, finds that its reclaim block is no longer ERASING: the reclaim block becomes
absent (R53). -/
def Part.seeReclaim (p : Part) (c : Channel) : Part := if p.reclaimErasing c then p else p.dropReclaim c

/-- One journal's retry, its reclaim block looked at (R77, R82). An allocation looks at the sequence counter first (R58, R71). DESIGN CHOICE (log 35): so
does the retry of a WAITING journal, which at the counter's maximum stalls with NUMBERS even while its reclaim block is
still ERASING; R77's row would let it stay WAITING. -/
def Part.retrySeen (p : Part) (c : Channel) : Part :=
  match (p.journal c).state with
  | .waiting =>
    if Config.maxSeq ≤ p.je.nextSeq then p.stall c .numbers
    else p.freeOr c (if (p.journal c).reclaim.isSome then p else p.tornOrReclaim c)
  | .stalled .noSpace => p.allocate c
  | .stalled .storeFault =>
    if (p.journal c).openBlock.isSome then (p.leaveWait c).unstall c .writing
    else if (p.journal c).reclaim.isSome then p.unstall c .waiting
    else p.allocate c
  | .stalled .numbers => p
  | .noBlock => p
  | .writing => p

/-- One journal's retry (R53, R77, R82). -/
def Part.retryOne (p : Part) (c : Channel) : Part := (p.seeReclaim c).retrySeen c

/-- The turns of a retry pass: each journal in the wait queue as it stands when the pass begins; none while the supply
hold is set (R76, R77). -/
def Part.retryTurns (p : Part) : List Channel := if p.je.hold then [] else p.je.wait

/-- A journal's turn in a retry pass: a journal that has left the queue during the pass is not taken, and none is while the
supply hold is set (R76, R77). -/
def Part.retryTurn (p : Part) (c : Channel) : Part :=
  if !p.je.hold && p.je.wait.contains c then p.retryOne c else p

/-- The whole retry pass before anything else: that of CLEAR_FAULTS (R43, R82). -/
def Part.retryPass (p : Part) : Part := p.retryTurns.foldl Part.retryTurn p

/-! ### The supply hold (R81) -/

/-- A journal becomes STALLED with STORE_FAULT unless it is STALLED already, whose cause it keeps (R81). -/
def Part.stallForSupply (p : Part) (c : Channel) : Part :=
  if (p.journal c).state.isStalled then p else p.stall c .storeFault

/-- The journal owns a header-open or close mark in the backlog (R81). -/
def Part.ownsHeader (p : Part) (c : Channel) : Bool :=
  match (p.journal c).openBlock with
  | some b => p.je.hasHeader b
  | none => false

/-- The supply hold is set; the refused journal, every WAITING journal and every owner of a header-open or close mark in
the backlog becomes STALLED (R81). DESIGN CHOICE (log 13): the refused journal first, then ascending channels. -/
def Part.setHold (p : Part) (refused : Option Channel) : Part :=
  let q := { p with je := { p.je with hold := true } }
  let q := match refused with
    | some c => q.stallForSupply c
    | none => q
  allChannels.foldl
    (fun q c => if (q.journal c).state = .waiting || q.ownsHeader c then q.stallForSupply c else q) q

/-! ### A channel stops (R70) -/

/-- The journal's side of a channel becoming STOPPED: in every state its reclaim block becomes absent (R53, R70). -/
def Part.journalStop (p : Part) (c : Channel) (close : Bool) : Part :=
  let q := if close && (p.journal c).openBlock.isSome then p.addDue c (fun d => { d with stop := true }) else p
  let q := q.dropReclaim c
  let j := q.journal c
  if j.openBlock.isNone && (j.state = .waiting || j.state = .stalled .noSpace || j.state = .stalled .storeFault) then
    (q.leaveWait c).unstall c .noBlock
  else q

end Sys2Proof.Machine
end

