-- ==== Sys2Proof/Machine/CaptureQueue.lean ====
section
/-! DEFINITION. The Capture Queue: counts (R121), HOLD_N (R134), push and overrun (R123, R124), removals and the
stopping drain (R127, R129, R131, R145), ERROR_FRAME (R133), and the completion of frames (R151, R152). -/

namespace Sys2Proof.Machine

/-- Lines of a list of entries. -/
def totalLines (entries : List Entry) : Nat := (entries.map Entry.lines).sum

/-- Entries held (R121). -/
def Part.entriesHeld (p : Part) : Nat := p.queue.entries.length

/-- Lines held (R121). -/
def Part.linesHeld (p : Part) : Nat := totalLines p.queue.entries

/-- Per-channel entries (R131). -/
def Part.channelEntries (p : Part) (c : Channel) : Nat :=
  (p.queue.entries.filter (fun e => decide (e.channel = c))).length

/-- Tagged entries (R132). -/
def Part.taggedEntries (p : Part) : Nat := (p.queue.entries.filter Entry.tagged).length

/-- HOLD_N's state after an evaluation (R134): asserted at or above the high mark, released at or below the low mark,
kept between them. -/
def holdLevel (lines high low : Nat) (now : Bool) : Bool :=
  if high ≤ lines then true else if lines ≤ low then false else now

/-- HOLD_N is evaluated (R134). -/
def Part.evalHold (p : Part) : Part :=
  { p with queue := { p.queue with hold := holdLevel p.linesHeld p.queue.high p.queue.low p.queue.hold } }

/-- A channel becomes STOPPED and the Journal Engine is told of the stop and of a pending close (R145). -/
def Part.becomeStopped (p : Part) (c : Channel) : Part :=
  let close := (p.chan c).closePending
  (p.updChan c (fun s => { s with state := .stopped, closePending := false })).journalStop c close

/-- The stopping drain: a STOPPING channel whose count is 0 becomes STOPPED (R131, R145). -/
def Part.drain (p : Part) (c : Channel) : Part :=
  if (p.chan c).state = .stopping ∧ p.channelEntries c = 0 then p.becomeStopped c else p

/-- The list loses entries of a channel; HOLD_N is evaluated and the drain looked at (R127, R129, R131). -/
def Part.setEntries (p : Part) (entries : List Entry) (c : Channel) : Part :=
  ({ p with queue := { p.queue with entries } }).evalHold.drain c

/-- The head leaves the queue (R127). -/
def Part.dropHead (p : Part) : Part :=
  match p.queue.entries with
  | [] => p
  | e :: rest => p.setEntries rest e.channel

/-- An ERROR_FRAME notice for a tagged frame (R133). -/
def Part.errorFrame (p : Part) (c : Channel) (content : Content) (disposition : Disposition) (record : Option Nat) : Part :=
  match content with
  | .frame number _ tags clipped gap => p.notify (.errorFrame c number tags clipped gap disposition record)
  | _ => p

/-- The number an OVERRUN notice carries: a frame's source frame number, a marker's code, 0 for an ABORT (R124). -/
def Content.noticeNumber : Content → Nat
  | .frame number _ _ _ _ => number.toNat
  | .mark code => code.toNat
  | .abort => 0

/-- The entry fits: fewer than 64 entries, and at most 2,048 lines with its own (R123). -/
def Part.fits (p : Part) (e : Entry) : Bool :=
  decide (p.entriesHeld < Config.queueEntries) && decide (p.linesHeld + e.lines ≤ Config.queueLines)

/-- The notice a tagged entry gives at its push under ARRIVAL timing (R133). -/
def Part.arrivalNotice (p : Part) (e : Entry) (disposition : Disposition) : Part :=
  if e.tagged && decide ((p.setting e.channel).timing = .arrival) then p.errorFrame e.channel e.content disposition none
  else p

/-- An accepted push (R123). -/
def Part.accept (p : Part) (e : Entry) : Part :=
  let q := { p with queue := { p.queue with
    entries := p.queue.entries ++ [e]
    lastKind := p.queue.lastKind.set e.channel.val (some e.content.kind) e.channel.isLt } }
  q.evalHold.arrivalNotice e .queued

/-- A lost push (R124). -/
def Part.overrun (p : Part) (e : Entry) : Part :=
  let q := p.updCounters e.channel (fun k => { k with overruns := satAdd k.overruns 1 })
  (q.arrivalNotice e .overrun).notify
    (.overrun e.channel e.content.kind e.content.noticeNumber e.lines e.tags p.entriesHeld p.linesHeld)

/-- A push is offered (R123). -/
def Part.push (p : Part) (e : Entry) : Part := if p.fits e then p.accept e else p.overrun e

/-- The channel's last accepted kind (R125). -/
def Part.lastKind (p : Part) (c : Channel) : Option EntryKind := p.queue.lastKind[c]

/-- A passed frame completes with this tag set (R151, R152); its slot is the caller's. -/
def Part.completeFrame (p : Part) (c : Channel) (f : Frame) (tags : TagSet) : Part :=
  let content : Content := .frame f.number f.samples tags f.clipped (if tags.gap then f.gap else 0)
  if tags.tagged then
    let q := p.updCounters c (fun k => { k with tagged := satAdd k.tagged 1 })
    if (p.setting c).dropTagged then
      (q.updCounters c (fun k => { k with dropped := satAdd k.dropped 1 })).errorFrame c content .dropped none
    else q.push { channel := c, content }
  else p.push { channel := c, content }

/-- FLUSH_CHANNEL's removal: every entry of the channel whose commit is not in flight (R129). -/
def Part.keptByFlush (p : Part) (c : Channel) : List Entry :=
  match p.queue.entries with
  | [] => []
  | head :: rest =>
    if p.inFlight then head :: rest.filter (fun e => decide (e.channel ≠ c))
    else (head :: rest).filter (fun e => decide (e.channel ≠ c))

/-- How many entries FLUSH_CHANNEL removes (R129). -/
def Part.flushCount (p : Part) (c : Channel) : Nat := p.entriesHeld - (p.keptByFlush c).length

/-- FLUSH_CHANNEL on a channel (R129). -/
def Part.flush (p : Part) (c : Channel) : Part :=
  let q := p.updCounters c (fun k => { k with flushed := satAdd k.flushed (p.flushCount c) })
  q.setEntries (p.keptByFlush c) c

end Sys2Proof.Machine
end

