-- ==== Sys2Proof/Machine/CommitFlow.lean ====
section
/-! DEFINITION. The Journal Engine at work: the commit subject (R63, R64, R66, R80), the presentation of programs (R60),
and the outcomes of its programs (R61, R62, R65, R67, R81). -/

namespace Sys2Proof.Machine

/-- The outcome of a program as its requester is told it (R27). -/
inductive ProgramOutcome where
  | ok | programFail | refusedSupply | refusedLocked
  deriving DecidableEq, Repr

/-- What the Store Controller reports to a requester, or to the Journal Engine (R27, R40, R45). -/
inductive Report where
  | program (req : ProgramReq) (outcome : ProgramOutcome)
  /-- The lines of a read, or none for GONE. -/
  | read (req : ReadReq) (lines : Option (List Byte))
  /-- An erase begin or resumption was refused for SUPPLY (R40). -/
  | eraseSupply
  /-- A retry pass is due: an erase ended or was refused for LOCKED, or another event of R76. -/
  | retryDue
  /-- A turn of a retry pass that is still to come (R77). -/
  | retry (c : Channel)
  deriving DecidableEq, Repr

/-! ### Presentation (R33, R37, R60) -/

/-- A program or a read is waiting (R37). -/
def Controller.workWaiting (ctl : Controller) : Bool := !ctl.programs.isEmpty || ctl.readSlot.isSome

/-- Suspension is requested when work waits behind a running erase whose slice has reached 2 ms (R37). -/
def Controller.requestSuspension (ctl : Controller) : Controller :=
  match ctl.erase with
  | some e =>
    if ctl.workWaiting && decide (ctl.slice = .reached) then { ctl with erase := some { e with suspending := true } }
    else ctl
  | none => ctl

/-- A program joins the tail of the program request list (R33); the caller has found the SUPPLY fault clear. -/
def Part.joinPrograms (p : Part) (req : ProgramReq) : Part :=
  { p with ctl := ({ p.ctl with programs := p.ctl.programs ++ [req] }).requestSuspension }

/-- A read fills the read slot (R34). -/
def Part.presentRead (p : Part) (req : ReadReq) : Part :=
  { p with ctl := ({ p.ctl with readSlot := some req }).requestSuspension }

/-- The Journal Engine presents a program: refused at once while the SUPPLY fault is set (R33, R60). -/
def Part.presentJournal (p : Part) (what : Outstanding) (op : ProgramOp) : Part × List Report :=
  let req : ProgramReq := { source := .journalEngine, op }
  let q := { p with je := { p.je with outstanding := some what } }
  if p.ctl.faults.supply then (q, [.program req .refusedSupply]) else (q.joinPrograms req, [])

/-- A record fits in the open block (R64). -/
def Part.recordFits (p : Part) (b : Block) (e : Entry) : Bool := decide ((p.entry b).fill + e.lines ≤ Config.maxFill)

/-- The conditions of R64 on the subject's journal and block, apart from the outstanding program, the backlog, the hold,
the numbering and the fit: WRITING, its header-open ended OK, its close due set empty. -/
def Part.blockReady (p : Part) (c : Channel) (b : Block) : Bool :=
  decide ((p.journal c).state = .writing) && !p.je.hasHeader b && !(p.journal c).due.any

/-- The block into which the subject's record program may be presented now (R64). -/
def Part.recordTarget (p : Part) (e : Entry) : Option Block :=
  match (p.journal e.channel).openBlock with
  | none => none
  | some b =>
    if p.blockReady e.channel b && p.recordFits b e && decide ((p.journal e.channel).nextRec < Config.maxRecord)
        && p.je.outstanding.isNone && p.je.backlog.isEmpty && !p.je.hold then some b
    else none

/-- The subject's record program is presented at lines fill + 1 onward of its block (R64). A record that fits has its
lines in the block (`recordFits_inBlock`). -/
def Part.presentRecord (p : Part) (e : Entry) (b : Block) : Part × List Report :=
  let line := (p.entry b).fill + 1
  let bytes := recordBytes e (p.journal e.channel).nextRec
  if h : line * Config.lineBytes + bytes.length ≤ Config.blockBytes then
    p.presentJournal .record (.record b line bytes h)
  else (p, [])

/-- The Journal Engine presents a program when none is outstanding and the supply hold is clear: the oldest backlog
entry, or else the subject's record program (R60, R64). -/
def Part.present (p : Part) : Part × List Report :=
  if p.je.hold || p.je.outstanding.isSome then (p, [])
  else
    match p.je.backlog with
    | op :: _ => p.presentJournal .header op
    | [] =>
      match p.subject with
      | none => (p, [])
      | some e =>
        match p.recordTarget e with
        | none => (p, [])
        | some b =>
          p.presentRecord e b

/-! ### The commit subject (R63) -/

/-- The head is shed: it leaves without a record and the channel's entries-shed counter rises (R80, R127). -/
def Part.shedHead (p : Part) (c : Channel) : Part :=
  (p.updCounters c (fun k => { k with shed := satAdd k.shed 1 })).dropHead

/-- What the Journal Engine does about the subject of a WRITING journal that holds block b, short of presenting its
record (R59, R64, R66, R81); none when the subject waits or is ready. DESIGN CHOICE (log 14): with the hold set and the
numbers exhausted, NUMBERS; with the hold set, STORE_FAULT whether or not the record fits; and a journal whose close due
set is not empty would present no record, so it stays WRITING under the hold (R81 before R64's general words). -/
def Part.subjectWriting (p : Part) (e : Entry) (b : Block) : Option Part :=
  let c := e.channel
  if !p.blockReady c b || p.inFlight then none
  else if p.je.hold then
    some (p.stall c (if Config.maxRecord ≤ (p.journal c).nextRec then .numbers else .storeFault))
  else if p.je.outstanding.isSome || !p.je.backlog.isEmpty then none
  else if Config.maxRecord ≤ (p.journal c).nextRec then some (p.stall c .numbers)
  else if p.recordFits b e then none
  else some (p.addDue c (fun d => { d with full := true }))

/-- One action of the Journal Engine on its commit subject (R63, R80); none when the subject waits or is ready. -/
def Part.subjectAct (p : Part) : Option Part :=
  match p.subject with
  | none => none
  | some e =>
    let c := e.channel
    match (p.journal c).state with
    | .noBlock => some (p.allocate c)
    | .waiting => none
    | .stalled _ => if decide ((p.setting c).policy = .shed) && !p.inFlight then some (p.shedHead c) else none
    | .writing =>
      match (p.journal c).openBlock with
      | some b => p.subjectWriting e b
      | none => none

/-- The Journal Engine acts on its subject until nothing is left to do: each action allocates, stalls, makes a close due
or sheds, so there are at most a few for each entry (log 12). -/
def Part.subjectLoop : Nat → Part → Part
  | 0, p => p
  | fuel + 1, p =>
    match p.subjectAct with
    | none => p
    | some q => Part.subjectLoop fuel q

/-- Actions the Journal Engine can need: three for each entry and a few more (log 12). -/
def subjectFuel (p : Part) : Nat := 3 * p.entriesHeld + 8

/-- The closes that have fallen due are acted on (R68). -/
def Part.joinCloses (p : Part) : Part := allChannels.foldl Part.joinClose p

/-- The Journal Engine acts: closes that are due, then the subject, then the presentation of a program (R60, R63,
R68). -/
def Part.engine (p : Part) : Part × List Report :=
  let q := p.joinCloses
  (Part.subjectLoop (subjectFuel q) q).present

/-! ### Outcomes of the Journal Engine's programs -/

/-- The channel of an open block's journal. -/
def Part.ownerOf (p : Part) (b : Block) : Option Channel := (p.entry b).channel

/-- No program is outstanding any more. -/
def Part.reported (p : Part) : Part := { p with je := { p.je with outstanding := none } }

/-- The head of the backlog leaves (R60). -/
def Part.popBacklog (p : Part) : Part := { p with je := { p.je with backlog := p.je.backlog.tail } }

/-- A header-open has failed: the block is retired, a pending lock takes effect, the journal allocates again at once
(R20, R61). -/
def Part.openFailed (p : Part) (b : Block) (c : Channel) : Part :=
  let q := (p.updEntry b DirEntry.applyPending).retire b .openFail
  (q.updJournal c (fun j => { j with openBlock := none, due := .none })).allocate c

/-- A close mark has ended: the block is CLOSED, worn as the mark says or when it failed, a pending lock takes effect,
and a WRITING journal becomes NO_BLOCK (R10, R62). -/
def Part.closeEnded (p : Part) (b : Block) (c : Channel) (worn : Bool) : Part :=
  let q := p.updEntry b (fun e => { e.applyPending with state := .closed, worn })
  q.updJournal c (fun j =>
    { j with openBlock := none, due := .none, state := if j.state = .writing then .noBlock else j.state })

/-- The outcome of the backlog head's program (R61, R62). A header-open or close mark is never refused for LOCKED (R41);
its block is OPEN and so UNLOCKED (log 16). -/
def Part.headerOutcome (p : Part) (op : ProgramOp) (outcome : ProgramOutcome) : Part :=
  match op, outcome with
  | .headerOpen _ _ _ _, .ok => p.reported.popBacklog
  | .headerOpen b c _ _, .programFail => p.reported.popBacklog.openFailed b c
  | .headerOpen _ c _ _, .refusedSupply => p.reported.setHold (some c)
  | .closeMark b _ _ worn, .ok =>
    match p.ownerOf b with
    | some c => p.reported.popBacklog.closeEnded b c worn
    | none => p.reported.popBacklog
  | .closeMark b _ _ _, .programFail =>
    match p.ownerOf b with
    | some c => p.reported.popBacklog.closeEnded b c true
    | none => p.reported.popBacklog
  | .closeMark b _ _ _, .refusedSupply => p.reported.setHold (p.ownerOf b)
  | .retireMark _, .refusedSupply => p.reported.setHold none
  | .retireMark _, _ => p.reported.popBacklog
  | _, _ => p

/-- The open block's entry takes a record (R9). -/
def DirEntry.takeRecord (lines record : Nat) (e : DirEntry) : DirEntry :=
  { e with fill := e.fill + lines, first := some (e.first.getD record), last := some record }

/-- A record program has ended OK (R65, steps 1 to 6). -/
def Part.commit (p : Part) (e : Entry) (b : Block) : Part :=
  let c := e.channel
  let record := (p.journal c).nextRec
  let q := p.updEntry b (DirEntry.takeRecord e.lines record)
  let q := q.updJournal c (fun j => { j with nextRec := j.nextRec + 1 })
  let q := q.updCounters c (fun k => { k with committed := satAdd k.committed 1 })
  let q := q.eventCommit c record e.content
  let q := q.dropHead
  if e.tagged && decide ((q.setting c).timing = .commit) then q.errorFrame c e.content .committed (some record) else q

/-- The outcome of the subject's record program (R65, R67). A refusal for LOCKED does not occur (R41, log 16). -/
def Part.recordOutcome (p : Part) (b : Block) (outcome : ProgramOutcome) : Part :=
  match p.subject with
  | none => p.reported
  | some e =>
    match outcome with
    | .ok => p.reported.commit e b
    | .programFail => p.reported.addDue e.channel (fun d => { d with fail := true })
    | .refusedSupply => p.reported.setHold (some e.channel)
    | .refusedLocked => p

/-- The Journal Engine is told the outcome of its outstanding program. -/
def Part.journalOutcome (p : Part) (op : ProgramOp) (outcome : ProgramOutcome) : Part :=
  match op with
  | .record b _ _ _ => p.recordOutcome b outcome
  | _ => p.headerOutcome op outcome

end Sys2Proof.Machine
end

