-- ==== Sys2Proof/Machine/StoreController.lean ====
section
/-! DEFINITION. The Store Controller: the arbiter (R36) with its begin checks (R40, R41, R44), what programs and erases
leave in the store (R28, R29, R31), erase ends (R45) and the reported state (R32). -/

namespace Sys2Proof.Machine

/-! ### The reported state (R32) -/

/-- Controller states, in the order of R32. -/
inductive ControllerState where
  | scanning | idle | programming | reading | eraseRunning | suspending | eraseSuspended
  deriving DecidableEq, Repr

/-- Inner activities (R32). -/
inductive InnerActivity where
  | none | programming | reading
  deriving DecidableEq, Repr

def ControllerState.code : ControllerState → Byte
  | .scanning => 0#8 | .idle => 1#8 | .programming => 2#8 | .reading => 3#8 | .eraseRunning => 4#8
  | .suspending => 5#8 | .eraseSuspended => 6#8

def InnerActivity.code : InnerActivity → Byte
  | .none => 0#8 | .programming => 1#8 | .reading => 2#8

/-- What the array carries, erases apart. -/
def ArrayOp.activity : Option ArrayOp → InnerActivity
  | none => .none
  | some (.program _) => .programming
  | some (.read _) => .reading

/-- The controller state (R32). -/
def Part.controllerState (p : Part) : ControllerState :=
  match p.device with
  | .scanning => .scanning
  | .ready =>
    match p.ctl.erase with
    | some e => if e.suspending then .suspending else .eraseRunning
    | none =>
      if p.ctl.suspended.isSome then .eraseSuspended
      else
        match p.ctl.array with
        | none => .idle
        | some (.program _) => .programming
        | some (.read _) => .reading

/-- The inner activity: of a suspended erase, none otherwise (R32). -/
def Part.innerActivity (p : Part) : InnerActivity :=
  if p.controllerState = .eraseSuspended then ArrayOp.activity p.ctl.array else .none

/-! ### Begin checks (R40, R41) -/

/-- VST is sampled (R40, log 8). -/
def Part.sampled (p : Part) : Part := { p with supply := p.supply.next }

/-- The level last sampled passes (R40). -/
def Part.supplyOk (p : Part) : Bool := supplyPasses p.supply.vstMv

/-- A supply check has failed: SUPPLY is set, with a STORE_FAULT notice if it was clear (R40). -/
def Part.supplyFails (p : Part) (op : StoreOp) (block : Option Block) : Part :=
  let q := p.updFaults (fun f => { f with supply := true })
  if p.ctl.faults.supply then q else q.notify (.storeFault .supply op block)

/-- A protection check has failed (R41). -/
def Part.lockedHit (p : Part) : Part := p.updFaults (fun f => { f with lockedHit := true })

/-- The protection check: the target is UNLOCKED, or is the unit area (R41). -/
def Part.protectionOk (p : Part) (block : Option Block) : Bool :=
  match block with
  | some b => decide (p.lockOf b = .unlocked)
  | none => true

/-- The array begins an operation. -/
def Part.begin (p : Part) (op : ArrayOp) : Part := { p with ctl := { p.ctl with array := some op } }

/-- A program taken from the list passes its begin checks and begins, or is refused (R40, R41). With SUPPLY set it is
refused unsampled (DESIGN CHOICE, log 15). -/
def Part.takeProgram (p : Part) (req : ProgramReq) : Part × List Report :=
  if p.ctl.faults.supply then (p, [.program req .refusedSupply])
  else if !p.sampled.supplyOk then
    (p.sampled.supplyFails req.op.kind req.op.block, [.program req .refusedSupply])
  else if p.sampled.protectionOk req.op.block then (p.sampled.begin (.program req), [])
  else (p.sampled.lockedHit, [.program req .refusedLocked])

/-- A read taken from the slot begins, or is answered GONE for an ERASING block (R30). -/
def Part.takeRead (p : Part) (req : ReadReq) : Part × List Report :=
  if (p.entry req.block).state = .erasing then (p, [.read req none]) else (p.begin (.read req), [])

/-- An erase runs, its slice timer from 0 (R39, R44). -/
def Part.runErase (p : Part) (block : Block) (pulses remaining : Nat) : Part :=
  { p with ctl := { p.ctl with
      erase := some { block, pulses, remaining, suspending := false }, suspended := none, slice := .below } }

/-- The resumption of the suspended erase is taken: the supply check alone (R39). -/
def Part.takeResumption (p : Part) (r : SuspendedErase) : Part × List Report :=
  if p.sampled.supplyOk then (p.sampled.runErase r.block r.pulses r.remaining, [])
  else (p.sampled.supplyFails .erase (some r.block), [.eraseSupply])

/-- The entry of a block leaves the erase queue (R35). -/
def Part.leaveEraseQueue (p : Part) (b : Block) : Part :=
  { p with ctl := { p.ctl with eraseQueue := p.ctl.eraseQueue.filter (fun x => decide (x.block ≠ b)) } }

/-- A host requester is told by OP_DONE; a journal needs no notice (R44, R45, R47). -/
def Part.opDone (p : Part) (requester : EraseRequester) (b : Block) (outcome : OpOutcome) : Part :=
  match requester with
  | .host tag => p.notify (.opDone tag b outcome)
  | .journal _ => p

/-- An ERASING entry returns to its prior state (R13). -/
def DirEntry.returned (e : DirEntry) : DirEntry :=
  { e with
    state := match e.prior with
      | some s => s.state
      | none => e.state
    prior := none }

/-- The erase at the queue head is refused for LOCKED (R13, R44 order 2). -/
def Part.refuseErase (p : Part) (x : EraseEntry) : Part :=
  ((p.lockedHit.leaveEraseQueue x.block).updEntry x.block DirEntry.returned).opDone x.requester x.block .locked

/-- The erase at the queue head is taken (R44). -/
def Part.takeErase (p : Part) (x : EraseEntry) : Part × List Report :=
  if !p.sampled.supplyOk then (p.sampled.supplyFails .erase (some x.block), [.eraseSupply])
  else if p.sampled.protectionOk (some x.block) then (p.sampled.runErase x.block 0 Config.pulseMicros, [])
  else (p.sampled.refuseErase x, [.retryDue])

/-! ### The arbiter (R36) -/

/-- What the arbiter takes when the array is free: programs, the read, the resumption, the next erase (R36). None when
the array is not free or nothing applies. -/
def Part.arbiterTake (p : Part) : Option (Part × List Report) :=
  if p.ctl.array.isSome || p.ctl.erase.isSome then none
  else
    match p.ctl.programs with
    | req :: rest => some (({ p with ctl := { p.ctl with programs := rest } }).takeProgram req)
    | [] =>
      match p.ctl.readSlot with
      | some req => some (({ p with ctl := { p.ctl with readSlot := none } }).takeRead req)
      | none =>
        if p.ctl.faults.supply then none
        else
          match p.ctl.suspended, p.ctl.eraseQueue with
          | some r, _ => some (p.takeResumption r)
          | none, x :: _ => some (p.takeErase x)
          | none, [] => none

/-- The arbiter chooses, and again at once after a refusal (R36). DESIGN CHOICE (log 36): it chooses again before the requester
of the refused work has acted on the refusal: after a LOCKED refusal, before the retry pass (R13, R44). -/
def Part.arbiterLoop : Nat → Part → Part × List Report
  | 0, p => (p, [])
  | fuel + 1, p =>
    match p.arbiterTake with
    | none => (p, [])
    | some (q, reports) =>
      let next := Part.arbiterLoop fuel q
      (next.1, reports ++ next.2)

/-- The arbiter's choices while the array is free: each takes waiting work, so there are at most as many as there is
work (log 12). -/
def Part.arbitrate (p : Part) : Part × List Report :=
  Part.arbiterLoop (p.ctl.programs.length + p.ctl.eraseQueue.length + 3) p

/-! ### Programs (R28, R29, R51, R52) -/

/-- A program of the 128 blocks leaves its bytes: those before a failing line are as intended, the failing line or
section is free (R28, R29). -/
def Part.writeProgram (p : Part) (a : Nat) (bytes : List Byte) : Option Nat → Part
  | none => { p with store := Memory.writeBytes p.store a bytes }
  | some line =>
    let done := line * Config.lineBytes
    ({ p with store := Memory.writeBytes p.store a (bytes.take done) }).scramble (a + done)
      (min Config.lineBytes (bytes.length - done))

/-- The unit area after a unit program (R51, R52). -/
def Part.writeUnit (p : Part) (op : ProgramOp) (failed : Bool) : Part :=
  match op with
  | .unitWord word value =>
    if failed then p.scrambleWord word
    else { p with unitArea := { p.unitArea with words := p.unitArea.words.set word.val (some value) word.isLt } }
  | .unitLock => if failed then p.scrambleLock else { p with unitArea := { p.unitArea with locked := true } }
  | _ => p

/-- After every unit program the programmed word or lock is read back into the image (R49). -/
def Part.readBackUnit (p : Part) (op : ProgramOp) : Part :=
  match op with
  | .unitWord word _ =>
    { p with image := { p.image with area := { p.image.area with
        words := p.image.area.words.set word.val p.unitArea.words[word] word.isLt } } }
  | .unitLock => { p with image := { p.image with area := { p.image.area with locked := p.unitArea.locked } } }
  | _ => p

/-- What a program that ends leaves in the store or the unit area and its image. -/
def Part.programLeaves (p : Part) (op : ProgramOp) (failure : Option Nat) : Part :=
  match op.target with
  | some (a, bytes) => p.writeProgram a bytes failure
  | none => (p.writeUnit op failure.isSome).readBackUnit op

/-- A program has failed: PROGRAM_FAIL is set and a STORE_FAULT notice made (R42). -/
def Part.programFails (p : Part) (op : ProgramOp) : Part :=
  (p.updFaults (fun f => { f with programFail := true })).notify (.storeFault .programFail op.kind op.block)

/-- The array becomes free. -/
def Part.freeArray (p : Part) : Part := { p with ctl := { p.ctl with array := none } }

/-- The outcome of a program that has run to its end. -/
def endOutcome (failure : Option Nat) : ProgramOutcome := if failure.isSome then .programFail else .ok

/-- A program ends: what it leaves, its fault and notice, the array free (R28, R42). -/
def Part.programEnds (p : Part) (op : ProgramOp) (failure : Option Nat) : Part :=
  let q := (p.programLeaves op failure).freeArray
  if failure.isSome then q.programFails op else q

/-! ### Erases (R31, R38, R45) -/

/-- The begun erase is over: the array is free and the slice timer stopped (R37, R45). -/
def Part.eraseStops (p : Part) : Part := { p with ctl := { p.ctl with erase := none, slice := .stopped } }

/-- The requester of a queued block's erase (R35). -/
def Part.eraseRequester (p : Part) (b : Block) : Option EraseRequester :=
  (p.ctl.eraseQueue.find? (fun x => decide (x.block = b))).map (·.requester)

/-- The host is told how its erase ended (R45). -/
def Part.tellHost (p : Part) (requester : Option EraseRequester) (b : Block) (outcome : OpOutcome) : Part :=
  match requester with
  | some r => p.opDone r b outcome
  | none => p

/-- An erase ends OK: the block reads blank, becomes BLANK and joins the tail of the free list (R12, R31, R45). -/
def Part.eraseOk (p : Part) (b : Block) : Part :=
  let requester := p.eraseRequester b
  let q := ({ p with store := Memory.eraseRange p.store (lineAddress b 0) Config.blockBytes }).eraseStops
  let q := (q.leaveEraseQueue b).updEntry b (DirEntry.emptied .blank)
  ({ q with freeList := q.freeList ++ [b] }).tellHost requester b .ok

/-- An erase ends ERASE_FAIL: the block's bytes are free, it becomes RETIRED, ERASE_FAIL is set, STORE_FAULT and
BLOCK_RETIRED notices are made, and a host is told by OP_DONE (R14, R42, R45). DESIGN CHOICE (log 38): the three notices are
queued in that order, which no rule gives. -/
def Part.eraseFails (p : Part) (b : Block) : Part :=
  let requester := p.eraseRequester b
  let q := ((p.scramble (lineAddress b 0) Config.blockBytes).eraseStops).leaveEraseQueue b
  let q := (q.updFaults (fun f => { f with eraseFail := true })).notify (.storeFault .eraseFail .erase (some b))
  (q.retire b .eraseFail).tellHost requester b .eraseFail

/-- The suspension takes effect, the pulse having run so long (R38). -/
def Part.suspend (p : Part) (e : RunningErase) (ran : Nat) : Part :=
  { p with ctl := { p.ctl with
      erase := none, suspended := some { block := e.block, pulses := e.pulses, remaining := e.remaining - ran }
      slice := .stopped } }

end Sys2Proof.Machine
end

