-- ==== Sys2Proof/Machine/Scanner.lean ====
section
/-! DEFINITION. The Store Scanner: judging a header (R199), classifying a block (R200), the walk (R201), the close (R202)
and the end of the scan (R203, R204). -/

namespace Sys2Proof.Machine

/-! ### Judging a header (R199, R209) -/

/-- The open section of a header is valid. -/
def openValid (h : List Byte) : Bool :=
  checkBytes (h.take 12) == (h.drop 12).take 2 && decide (byteAt h 0 = 0xD7) && decide (byteAt h 1 < 4)
    && decide (fieldAt h 2 4 < Config.maxSeq)

/-- The channel an open section names. -/
def openChannel (h : List Byte) : Channel := Fin.ofNat 4 (byteAt h 1)

def openSeq (h : List Byte) : Nat := fieldAt h 2 4

def openFirst (h : List Byte) : Nat := fieldAt h 6 6

def closeFill (h : List Byte) : Nat := fieldAt h 14 2

/-- The close section's last record number: all ones is absent. -/
def closeLast (h : List Byte) : Option Nat :=
  if fieldAt h 16 6 = 0xFFFFFFFFFFFF then none else some (fieldAt h 16 6)

/-- The close section of a header is valid, a blank one included among those that are not. -/
def closeValid (h : List Byte) : Bool :=
  checkBytes ((h.drop 14).take 9) == (h.drop 23).take 2 && decide (closeFill h ≤ Config.maxFill)
    && (match closeLast h with
        | none => decide (closeFill h = 0)
        | some last => decide (0 < closeFill h) && decide (openFirst h ≤ last))
    && decide (byteAt h 22 ≤ 1)

/-- The retire mark is present: any of its bytes reads programmed. -/
def retirePresent (h : List Byte) : Bool := !readsBlank ((h.drop 25).take 7)

/-! ### Against the blocks already classified (R200) -/

/-- A block already classified CLOSED in this scan has this block sequence (order 4). -/
def Part.seqSeen (p : Part) (seq : Nat) : Bool :=
  allBlocks.any (fun b => decide ((p.entry b).state = .closed) && decide ((p.entry b).seq = some seq))

/-- A CLOSED entry's numbers stand against those of a block (channel, sequence, first and last): they overlap, or sequence
and numbers stand in opposite orders. -/
def DirEntry.conflicts (e : DirEntry) (c : Channel) (seq first last : Nat) : Bool :=
  decide (e.state = .closed) && decide (e.channel = some c)
    && match e.seq, e.first, e.last with
      | some seq', some first', some last' =>
        (decide (first ≤ last') && decide (first' ≤ last)) || (decide (seq < seq') != decide (first < first'))
      | _, _, _ => false

/-- A block that would be CLOSED with a fill above 0 is made TORN for its numbers (R200). -/
def Part.numbersConflict (p : Part) (c : Channel) (seq first fill : Nat) (last : Option Nat) : Bool :=
  match last with
  | some last => decide (0 < fill) && allBlocks.any (fun b => (p.entry b).conflicts c seq first last)
  | none => false

/-! ### Moving through the blocks -/

/-- The block being scanned. -/
def Part.scanBlock (p : Part) : Block := Fin.ofNat 128 p.scan.classified

/-- The scanner presents a read of one line of the block being scanned (R198, R201). -/
def Part.scanRead (p : Part) (line : Nat) (inBlock : line + 1 ≤ Config.linesPerBlock) : Part :=
  p.presentRead { source := .storeScanner, block := p.scanBlock, line, count := 1, inBlock }

/-- The scanner comes to a block: its header line is read. -/
def Part.scanHeader (p : Part) : Part :=
  ({ p with scan := { p.scan with phase := .header } }).scanRead 0 (by decide)

/-- Count the entries for which a test holds. -/
def Part.countBlocks (p : Part) (f : DirEntry → Bool) : Nat := (allBlocks.filter (fun b => f (p.entry b))).length

/-- A channel's next record number at the end of the scan (R203). -/
def Part.scannedNextRec (p : Part) (c : Channel) : Nat :=
  allBlocks.foldl (fun n b =>
    if (p.entry b).state = .closed ∧ (p.entry b).channel = some c then
      match (p.entry b).last with
      | some last => max n (last + 1)
      | none => n
    else n) 0

/-- The global next block sequence at the end of the scan (R203). -/
def Part.scannedNextSeq (p : Part) : Nat :=
  allBlocks.foldl (fun n b =>
    if (p.entry b).state = .closed then
      match (p.entry b).seq with
      | some seq => max n (seq + 1)
      | none => n
    else n) 0

/-- The STARTED notice (R204). -/
def Part.startedNotice (p : Part) : Notice :=
  .started p.power.cause (p.countBlocks (fun e => decide (e.state = .blank)))
    (p.countBlocks (fun e => decide (e.state = .closed))) (p.countBlocks (fun e => decide (e.state = .retired)))
    (p.countBlocks (fun e => decide (e.state = .torn))) (p.countBlocks (·.cut))

/-- The end of the scan (R203). -/
def Part.scanEnd (p : Part) : Part :=
  let q : Part := { p with
    freeList := allBlocks.filter (fun b => decide ((p.entry b).state = BlockState.blank))
    je := { p.je with
      journals := Vector.ofFn (fun c : Fin 4 => ({ p.journal c with nextRec := p.scannedNextRec c } : Journal))
      nextSeq := p.scannedNextSeq }
    dir := p.dir.map (fun e => { e with lockBit := true })
    device := .ready
    scan := { classified := 128, phase := .done } }
  q.evalHold.notify q.startedNotice

/-- The block being scanned is classified, and the scanner comes to the next or ends the scan (R198, R203). -/
def Part.classify (p : Part) (f : DirEntry → DirEntry) : Part :=
  let q := p.updEntry p.scanBlock f
  if 127 ≤ p.scan.classified then q.scanEnd
  else ({ q with scan := { q.scan with classified := p.scan.classified + 1 } }).scanHeader

/-- The entry of a block that is BLANK, RETIRED or TORN: no channel, no numbers (R200). -/
def Part.classifyEmpty (p : Part) (state : BlockState) : Part := p.classify (DirEntry.emptied state)

/-- The entry of a CLOSED block (R200, R202). -/
def DirEntry.closedAs (c : Channel) (seq first fill : Nat) (last : Option Nat) (worn cut : Bool) (e : DirEntry) :
    DirEntry :=
  { e with
    state := .closed, prior := none, channel := some c, seq := some seq, fill
    first := if 0 < fill then some first else none
    last := if 0 < fill then last else none
    worn, cut }

/-! ### The close of a block found open (R202) -/

/-- The outcome of the scanner's close mark decides the entry. -/
def Part.scanClosed (p : Part) (w : ScanWalk) (worn : Bool) : Part :=
  p.classify (DirEntry.closedAs w.channel w.seq w.first w.fill w.last worn true)

/-- The walk has ended: TORN for conflicting numbers, or the close mark is presented, refused at presentation while the
SUPPLY fault is set (R33, R200, R202). -/
def Part.walkEnds (p : Part) (w : ScanWalk) : Part :=
  if p.numbersConflict w.channel w.seq w.first w.fill w.last then p.classifyEmpty .torn
  else if p.ctl.faults.supply then p.scanClosed w false
  else
    ({ p with scan := { p.scan with phase := .close w } }).joinPrograms
      { source := .storeScanner, op := .closeMark p.scanBlock w.fill w.last false }

/-- The scanner is told the outcome of its close mark (R202). -/
def Part.scanProgramOutcome (p : Part) (outcome : ProgramOutcome) : Part :=
  match p.scan.phase with
  | .close w => p.scanClosed w (decide (outcome = .programFail))
  | _ => p

/-! ### The walk (R201) -/

/-- The walk goes on: the next line of the record in hand, or the header line at the current line. It ends at a line past
1,023, which the block does not have (R1, R201). -/
def Part.walkOn (p : Part) (w : ScanWalk) : Part :=
  let line := match w.record with
    | some (bytes, _) => w.line + bytes.length / Config.lineBytes
    | none => w.line
  if h : line + 1 ≤ Config.linesPerBlock then ({ p with scan := { p.scan with phase := .walk w } }).scanRead line h
  else p.walkEnds { w with record := none }

/-- A whole record has been read: it is taken when its check matches; otherwise the walk ends. -/
def Part.walkRecord (p : Part) (w : ScanWalk) (bytes : List Byte) : Part :=
  let lines := headerLines (bytes.take Config.lineBytes)
  if recordSound (bytes.take Config.lineBytes) (bytes.drop Config.lineBytes) then
    p.walkOn { w with
      line := w.line + lines, expected := w.expected + 1, fill := w.fill + lines, last := some w.expected
      record := none }
  else p.walkEnds { w with record := none }

/-- A line of the walk has been read. -/
def Part.walkRead (p : Part) (w : ScanWalk) (line : List Byte) : Part :=
  match w.record with
  | some (bytes, toCome) =>
    if toCome ≤ 1 then p.walkRecord w (bytes ++ line)
    else p.walkOn { w with record := some (bytes ++ line, toCome - 1) }
  | none =>
    if readsBlank line || !headerAcceptable line w.channel w.expected
        || decide (Config.maxFill < w.line + headerLines line - 1) then p.walkEnds w
    else if headerLines line ≤ 1 then p.walkRecord w line
    else p.walkOn { w with record := some (line, headerLines line - 1) }

/-- The header line of the block has been read: the first case of R200 that applies. -/
def Part.scanJudge (p : Part) (h : List Byte) : Part :=
  if readsBlank h then p.classifyEmpty .blank
  else if retirePresent h then p.classifyEmpty .retired
  else if !openValid h then p.classifyEmpty .torn
  else if p.seqSeen (openSeq h) then p.classifyEmpty .torn
  else if closeValid h then
    if p.numbersConflict (openChannel h) (openSeq h) (openFirst h) (closeFill h) (closeLast h) then p.classifyEmpty .torn
    else
      p.classify (DirEntry.closedAs (openChannel h) (openSeq h) (openFirst h) (closeFill h) (closeLast h)
        (decide (byteAt h 22 = 1)) false)
  else
    p.walkOn
      { channel := openChannel h, seq := openSeq h, first := openFirst h, line := 1, expected := openFirst h, fill := 0
        last := none, record := none }

/-- The scanner is told the line it read. -/
def Part.scanLine (p : Part) (line : List Byte) : Part :=
  match p.scan.phase with
  | .header => p.scanJudge line
  | .walk w => p.walkRead w line
  | _ => p

end Sys2Proof.Machine
end

