-- ==== Sys2Proof/Machine/Readout.lean ====
section
/-! DEFINITION. Readout: retention (R171), the gathering of READ_RECORDS (R172 to R177), and the contents of the two
directory listings (R180, R181). -/

namespace Sys2Proof.Machine

/-! ### Retention (R171) -/

/-- The lowest retained number of a channel greater than n that a block holds (R171). -/
def DirEntry.nextAbove (e : DirEntry) (c : Channel) (n : Nat) : Option Nat :=
  if (e.state = .opened ∨ e.state = .closed) ∧ e.channel = some c ∧ 0 < e.fill then
    match e.first, e.last with
    | some first, some last => if max first (n + 1) ≤ last then some (max first (n + 1)) else none
    | _, _ => none
  else none

/-- The lower of two numbers that may be absent. -/
def lowerOf : Option Nat → Option Nat → Option Nat
  | some a, some b => some (min a b)
  | some a, none => some a
  | none, b => b

/-- The next retained number above n (R171). -/
def Part.nextRetained (p : Part) (c : Channel) (n : Nat) : Option Nat :=
  allBlocks.foldl (fun m b => lowerOf m ((p.entry b).nextAbove c n)) none

/-- The first record number of the channel's block with the next higher first record number (R177). -/
def Part.nextBlockFirst (p : Part) (c : Channel) (n : Nat) : Option Nat :=
  allBlocks.foldl (fun m b =>
    lowerOf m ((p.entry b).nextAbove c n |>.bind (fun _ => (p.entry b).first.filter (fun first => decide (n < first))))) none

/-! ### The end of a gathering (R172, R175) -/

/-- End reasons, in the order of R205. -/
inductive EndReason where
  | max | last | hole | erasing | unreadable | room
  deriving DecidableEq, Repr

def EndReason.code : EndReason → Byte
  | .max => 0#8 | .last => 1#8 | .hole => 2#8 | .erasing => 3#8 | .unreadable => 4#8 | .room => 5#8

/-- The part of a READ_RECORDS reply before its records: 30 bytes after the request kind and the status (R172, R206). -/
def readoutHead (c : Channel) (count : Nat) (reason : EndReason) (following : Nat) (next : Option Nat) : List Byte :=
  [channelByte c, BitVec.ofNat 8 count, reason.code] ++ leBytes 6 following ++ recordField next
    ++ List.replicate 15 0#8

/-- The gathering ends and its reply is placed; the readout context is emptied (R173, R187). -/
def Part.gatherReply (p : Part) (g : Gather) (status : Status) (contents : List Byte) : Part :=
  ({ p with ctrl := { p.ctrl with serving := none } }).placeReply g.tag 0x28#8 status contents

/-- The following number: one above the last record delivered, or from (R172). -/
def Gather.following (g : Gather) : Nat := g.start + g.records.length

/-- The gathering ends with an OK reply (R175). -/
def Part.gatherEnds (p : Part) (g : Gather) (reason : EndReason) : Part :=
  let next := match reason with
    | .hole | .erasing => p.nextRetained g.channel g.following
    | _ => none
  p.gatherReply g .ok (readoutHead g.channel g.records.length reason g.following next ++ g.records.flatten)

/-- The gathering ends at an unsound header: the following number is the one it was expected to carry, the next retained
number lies in a later block (R177, against the general words of R172, log 17). -/
def Part.gatherUnreadable (p : Part) (g : Gather) : Part :=
  p.gatherReply g .ok
    (readoutHead g.channel g.records.length .unreadable g.expected (p.nextBlockFirst g.channel g.expected)
      ++ g.records.flatten)

/-- The record sought is found no longer retained: GONE before any delivery, or this end reason after (R174, R179). -/
def Part.gatherLost (p : Part) (g : Gather) (reason : EndReason) : Part :=
  if g.records.isEmpty then p.gatherReply g .gone (recordField (p.nextRetained g.channel g.start))
  else p.gatherEnds g reason

/-! ### Stepping and delivering (R174 to R176) -/

/-- The Request Server looks at the block and presents the read of its next lines, or finds the record gone (R174). No
record of the block has lines past 1,023: a header there is not sound for stepping, without a read (R1, R174, R177;
DEDUCED, log 26). -/
def Part.gatherPresent (p : Part) (g : Gather) (line count : Nat) : Part :=
  if (p.entry g.block).holds g.channel g.sought then
    if h : line + count ≤ Config.linesPerBlock then
      ({ p with ctrl := { p.ctrl with serving := some (.gathering { g with fill := (p.entry g.block).fill }) } }).presentRead
        { source := .requestServer, block := g.block, line, count, inBlock := h }
    else p.gatherUnreadable g
  else p.gatherLost g .hole

/-- The read of the header line at the gathering's line is presented. -/
def Part.gatherHeader (p : Part) (g : Gather) : Part := p.gatherPresent { g with stage := .header } g.line 1

/-- A record as delivered: its header line with the damaged flag in byte 20, then its sample lines (R175, R176). -/
def deliveredRecord (header samples : List Byte) : List Byte :=
  header.take 20 ++ [flagByte (!recordSound header samples)] ++ header.drop 21 ++ samples

/-- The step to the next number: the end reasons MAX, END and HOLE in order, else its header is read (R175). -/
def Part.gatherNext (p : Part) (g : Gather) : Part :=
  if g.max ≤ g.records.length then p.gatherEnds g .max
  else if (p.journal g.channel).nextRec ≤ g.sought then p.gatherEnds g .last
  else
    match p.blockHolding g.channel g.sought with
    | none => p.gatherEnds g .hole
    | some b =>
      let line := if b = g.block ∧ (p.entry b).first ≠ some g.sought then g.line else 1
      p.gatherHeader { g with block := b, line }

/-- A record is added to the reply. -/
def Part.gatherAdd (p : Part) (g : Gather) (header samples : List Byte) : Part :=
  let k := headerLines header
  p.gatherNext { g with
    sought := g.sought + 1, expected := g.sought + 1, line := g.line + k
    records := g.records ++ [deliveredRecord header samples], lines := g.lines + k }

/-- A header read at the gathering's line is sound for stepping, against the fill in force when its read was presented
(R173, R174). -/
def Gather.sound (g : Gather) (header : List Byte) : Bool :=
  headerAcceptable header g.channel g.expected && decide (g.line + headerLines header - 1 ≤ g.fill)

/-- A header line has been read: unsound, a step of the walk, or the record sought (R174, R175). -/
def Part.gatherJudge (p : Part) (g : Gather) (header : List Byte) : Part :=
  let k := headerLines header
  if !g.sound header then p.gatherUnreadable g
  else if g.expected < g.sought then p.gatherHeader { g with line := g.line + k, expected := g.expected + 1 }
  else if 33 < g.lines + k then p.gatherEnds g .room
  else if 1 < k then p.gatherPresent { g with stage := .samples header } (g.line + 1) (k - 1)
  else p.gatherAdd g header []

/-- The Request Server is told the lines of its read, or GONE (R175, R179). -/
def Part.gatherRead (p : Part) (lines : Option (List Byte)) : Part :=
  match p.ctrl.serving with
  | some (.gathering g) =>
    match lines with
    | none => p.gatherLost g .erasing
    | some bytes =>
      match g.stage with
      | .header => p.gatherJudge g bytes
      | .samples header => p.gatherAdd g header bytes
  | _ => p

/-! ### LIST_JOURNAL (R180) -/

/-- The blocks whose entries name a channel, in ascending block sequence (R180). -/
def Part.journalBlocks (p : Part) (c : Channel) : List Block :=
  (sortDescending (fun b => (p.entry b).seq.getD 0)
    (allBlocks.filter (fun b => decide ((p.entry b).channel = some c)))).reverse

/-- Last record less first, 0xFFFF when absent (R206, R208). -/
def DirEntry.lastLessFirst (e : DirEntry) : Nat :=
  match e.first, e.last with
  | some first, some last => last - first
  | _, _ => 0xFFFF

/-- The 16 bytes of one entry of LIST_JOURNAL (R206). -/
def DirEntry.listBytes (e : DirEntry) (protN : Bool) (b : Block) : List Byte :=
  [blockByte b] ++ seqField e.seq ++ recordField e.first ++ leBytes 2 e.lastLessFirst
    ++ leBytes 2 (e.fill + setBit e.worn 10 + 2048 * (e.lockState protN).code.toNat + 8192 * e.state.code.toNat)
    ++ [BitVec.ofNat 8 e.holdCount]

/-- The contents of a LIST_JOURNAL reply: total, count, and up to 64 entries from `start` on (R180). -/
def Part.journalListing (p : Part) (c : Channel) (start : Nat) : List Byte :=
  let blocks := p.journalBlocks c
  let shown := (blocks.drop start).take 64
  [BitVec.ofNat 8 blocks.length, BitVec.ofNat 8 shown.length]
    ++ shown.flatMap (fun b => (p.entry b).listBytes p.pins.protN b)

/-! ### GET_BLOCK (R181) -/

/-- A block's place in a list, counting the first as 1. -/
def placeIn (b : Block) (blocks : List Block) : Option Nat :=
  if blocks.contains b then some (blocks.idxOf b + 1) else none

/-- Free-list position, erase position, begun flag and requester, absent where R181 makes them so. -/
def Part.blockPlaces (p : Part) (b : Block) : List Byte :=
  let erasing := decide ((p.entry b).state = .erasing)
  let free := if (p.entry b).state = .blank then placeIn b p.freeList else none
  let queued := if erasing then placeIn b (p.ctl.eraseQueue.map (·.block)) else none
  let begun := if erasing then flagByte (decide (p.ctl.begunErase = some b)) else 0xFF#8
  let requester := if erasing then
      match p.eraseRequester b with
      | some r => r.code
      | none => 0xFF#8
    else 0xFF#8
  [smallField free, smallField queued, begun, requester]

/-- A prior state, 0xFF when absent (R208). DESIGN CHOICE (log 30): it is coded as the block state it names, CLOSED 2 and
TORN 5; R205 lists no codes for the field, and R4 lists its two values alone. -/
def priorByte : Option PriorState → Byte
  | some s => s.state.code
  | none => 0xFF#8

/-- The fields of a directory entry as GET_BLOCK gives them (R4, R181). -/
def DirEntry.bytes (e : DirEntry) : List Byte :=
  [e.state.code, priorByte e.prior, smallField (e.channel.map (·.val))] ++ seqField e.seq ++ leBytes 2 e.fill
    ++ recordField e.first ++ recordField e.last
    ++ [flagByte e.worn, flagByte e.cut, flagByte e.lockBit, flagByte e.downFlag, e.pending.code, BitVec.ofNat 8 e.holdCount]

/-- The contents of a GET_BLOCK reply (R181, R206). -/
def Part.blockListing (p : Part) (b : Block) : List Byte :=
  (p.entry b).bytes ++ [(p.lockOf b).code] ++ (p.mapOf b).bytes ++ p.blockPlaces b

end Sys2Proof.Machine
end

