-- ==== Sys2Proof/Machine/Settle.lean ====
section
/-! DEFINITION. The reaction of the units to one event: the Store Controller's reports and the turns of a retry pass are
acted on, the Journal Engine acts, the arbiter chooses, and again while there are reports (log 12). -/

namespace Sys2Proof.Machine

/-- The Request Server is told the outcome of its unit program: the reply is placed (R51, R52, R187). -/
def Part.unitOutcome (p : Part) (outcome : ProgramOutcome) : Part :=
  match p.ctrl.serving with
  | some (.unitProgram tag kind) =>
    let q := { p with ctrl := { p.ctrl with serving := none } }
    match outcome with
    | .ok => q.placeReply tag kind .ok []
    | .programFail => q.placeReply tag kind .programFail []
    | .refusedSupply | .refusedLocked => q.placeReply tag kind .state []
  | _ => p

/-- The Store Scanner is told of its read or its close mark, while the part is SCANNING (R198, R202). -/
def Part.scannerTold (p : Part) (report : Report) : Part :=
  match p.device, report with
  | .scanning, .program _ outcome => p.scanProgramOutcome outcome
  | .scanning, .read _ (some line) => p.scanLine line
  | _, _ => p

/-- A report reaches the unit it is for (R27, R40, R45); a retry pass is `told`'s. -/
def Part.handle (p : Part) : Report → Part
  | .program req outcome =>
    match req.source with
    | .journalEngine => p.journalOutcome req.op outcome
    | .storeScanner => p.scannerTold (.program req outcome)
    | .requestServer => p.unitOutcome outcome
  | .read req lines =>
    match req.source with
    | .storeScanner => p.scannerTold (.read req lines)
    | .requestServer => p.gatherRead lines
    | .journalEngine => p
  | .eraseSupply => p.setHold none
  | .retryDue | .retry _ => p

/-- The arbiter chooses after a unit has acted (R36). -/
def Part.arbitrated (acted : Part × List Report) : Part × List Report :=
  let chosen := acted.1.arbitrate
  (chosen.1, acted.2 ++ chosen.2)

/-- The work made so far is presented and taken: the closes that are due join the backlog (R68), a program of the Journal
Engine is presented at once (R60), and the arbiter chooses where the array is free (R36). -/
def Part.takeWork (p : Part) : Part × List Report := Part.arbitrated p.joinCloses.present

/-- One turn of a retry pass. The work it makes is taken before the next turn: its programs, then a block that joined the
erase queue. -/
def Part.takeTurn (p : Part) (c : Channel) : Part × List Report := (p.retryTurn c).takeWork

/-- The next turn of a pass; it waits behind the reports that an earlier turn has given. -/
def Part.nextTurn (a : Part × List Report) (c : Channel) : Part × List Report :=
  if a.2.isEmpty then a.1.takeTurn c else (a.1, a.2 ++ [.retry c])

/-- A report is acted on, with the reports that this gives (R27, R40, R45, R76, R77). DESIGN CHOICE (log 33): what was made
before a turn of a retry pass, such as the close marks of a MAP_APPLY's examination (R96) or of an outcome acted on in the same
step (R97), joins, is presented and is taken before that turn. -/
def Part.told (p : Part) (r : Report) : Part × List Report :=
  match r with
  | .retryDue => if p.retryTurns.isEmpty then (p, []) else p.retryTurns.foldl Part.nextTurn p.takeWork
  | .retry c => Part.nextTurn p.takeWork c
  | r => (p.handle r, [])

/-- The next report is acted on; it waits behind the reports that an earlier one has given (log 12). -/
def Part.nextReport (a : Part × List Report) (r : Report) : Part × List Report :=
  if a.2.isEmpty then a.1.told r else (a.1, a.2 ++ [r])

/-- One round: the reports are acted on, and where that gives none, the Journal Engine acts (R60, R63,
R68) and the arbiter chooses. -/
def Part.round (p : Part) (reports : List Report) : Part × List Report :=
  let acted := reports.foldl Part.nextReport (p, [])
  if acted.2.isEmpty then Part.arbitrated acted.1.engine else acted

/-- Rounds while the last one gave reports. -/
def Part.settleLoop : Nat → Part → List Report → Part
  | 0, p, _ => p
  | fuel + 1, p, reports =>
    let next := p.round reports
    if next.2.isEmpty then next.1 else Part.settleLoop fuel next.1 next.2

/-- Rounds one event can need: each round that gives reports ends or refuses store work (log 12). -/
def settleRounds : Nat := 512

/-- The units react to what a command did. Irreducible, so that no proof about a reaction unfolds its rounds; the lemmas
of Laws/Kept.lean and Laws/Quiet.lean say what it can do. -/
@[irreducible] def Part.settle (p : Part) (reports : List Report) : Part := Part.settleLoop settleRounds p reports

/-- The array has become free at the end of an operation: the arbiter's choice is made on the work already waiting, and
then the outcome is acted on (R36). DESIGN CHOICE (log 31): where that choice is itself refused, for SUPPLY among others,
the outcome and its retry pass come first, and then what the refusal does (the supply hold of R81). -/
def Part.settleAfter (p : Part) (report : Option Report) : Part :=
  let chosen := p.arbitrate
  chosen.1.settle (report.toList ++ chosen.2)

end Sys2Proof.Machine
end

