-- ==== Sys2Proof/Machine/ArrayCommands.lean ====
section
/-! DEFINITION. The ends of the part's own array operations and timers (R28, R30, R31, R37, R38, R198). -/

namespace Sys2Proof.Machine

/-- PROGRAM_COMPLETE: the program in the array ends; what it leaves, its fault, the arbiter's next choice, its outcome
(R28, R29, R36, R42). -/
def execProgramComplete (outcome : ProgramEnd) (s : State) : Host.Outcome State Fault Refusal :=
  match s.part.ctl.array with
  | some (.program req) =>
    let failure := programFailure s.part.store req.op outcome
    .next { s with part :=
      (s.part.programEnds req.op failure).settleAfter (some (.program req (endOutcome failure))) }
  | _ => .next s

/-- READ_COMPLETE: the read in the array ends and its requester is given the lines (R30, R36). -/
def execReadComplete (s : State) : Host.Outcome State Fault Refusal :=
  match s.part.ctl.array with
  | some (.read req) =>
    let lines := readLines s.part.store req.block req.line req.count
    .next { s with part := s.part.freeArray.settleAfter (some (.read req (some lines))) }
  | _ => .next s

/-- An erase pulse has ended: the erase ends OK or ERASE_FAIL, or its next pulse begins (R31, R38, R45). -/
def Part.pulseEnds (p : Part) (e : RunningErase) (verified : Bool) : Part :=
  if verified then (p.eraseOk e.block).settleAfter (some .retryDue)
  else if Config.erasePulses ≤ e.pulses + 1 then (p.eraseFails e.block).settleAfter (some .retryDue)
  else { p with ctl := { p.ctl with erase := some { e with pulses := e.pulses + 1, remaining := Config.pulseMicros } } }

/-- ERASE_PULSE_END: the running pulse has ended and the block does, or does not, verify blank (R31). -/
def execErasePulseEnd (verified : Bool) (s : State) : Host.Outcome State Fault Refusal :=
  match s.part.ctl.erase with
  | some e => .next { s with part := s.part.pulseEnds e verified }
  | none => .next s

/-- ERASE_SLICE_TIMER_EXPIRY: the erase has run 2 ms since it began or was last resumed (R37). -/
def execEraseSliceTimerExpiry (s : State) : Host.Outcome State Fault Refusal :=
  if s.part.ctl.slice = .below ∧ s.part.ctl.erase.isSome then
    .next { s with part := { s.part with ctl := ({ s.part.ctl with slice := .reached }).requestSuspension } }
  else .next s

/-- SUSPENSION_TAKES_EFFECT: the running pulse is stopped, the record is filled and the arbiter takes the waiting work
(R38). The pulse can have run no longer than it had left. -/
def execSuspensionTakesEffect (ranMicros : Nat) (s : State) : Host.Outcome State Fault Refusal :=
  match s.part.ctl.erase with
  | some e =>
    if e.suspending && decide (ranMicros ≤ e.remaining) then
      .next { s with part := (s.part.suspend e ranMicros).settleAfter none }
    else .next s
  | none => .next s

end Sys2Proof.Machine
end

