-- ==== Sys2Proof/Machine/LinkCommands.lean ====
section
/-! DEFINITION. The control link's characters, frames and messages (R183 to R185, R189, R192, R193). -/

namespace Sys2Proof.Machine

/-- A frame is discarded: counted once, the framer HUNTING (R184). -/
def ControlLink.discard (k : ControlLink) : ControlLink :=
  { k with framer := .hunting, discarded := satAdd k.discarded 1 }

/-- The length field of the bytes taken since the start byte. -/
def frameLength (taken : List Byte) : Nat := leValue (taken.take 2)

/-- The frame's bytes are complete: stored in the request buffer, or discarded (R183 to R185). -/
def ControlLink.frameEnds (k : ControlLink) (taken : List Byte) : ControlLink :=
  let length := frameLength taken
  let checked := taken.take (2 + length)
  if taken.drop (2 + length) = checkBytes checked then
    if k.buffer.length < Config.bufferPlaces then
      { k with
        framer := .hunting
        buffer := k.buffer ++ [{ kind := taken.getD 2 0#8, tag := taken.getD 3 0#8, body := checked.drop 4 }] }
    else k.discard
  else k.discard

/-- A byte is taken into the frame: the length is judged at its second byte, the check at the last byte (R183, R184). -/
def ControlLink.takeByte (k : ControlLink) (taken : List Byte) : ControlLink :=
  if taken.length = 2 ∧ (frameLength taken < 2 ∨ Config.maxBody + 2 < frameLength taken) then k.discard
  else if 2 < taken.length ∧ taken.length = 2 + frameLength taken + 2 then k.frameEnds taken
  else { k with framer := .receiving taken }

/-- One character on CRX (R183, R184). -/
def ControlLink.character (k : ControlLink) (x : RxChar) : ControlLink :=
  match k.framer with
  | .hunting => if x.stopHigh && x.byte == 0x9C#8 then { k with framer := .receiving [] } else k
  | .receiving taken => if x.stopHigh then k.takeByte (taken ++ [x.byte]) else k.discard

/-- CONTROL_FRAME_RECEIVE: characters are taken on CRX, unless the part is held in reset (R183 to R185, R196). -/
def execControlFrameReceive (chars : List RxChar) (s : State) : Host.Outcome State Fault Refusal :=
  if s.part.live then
    .next { s with part := { s.part with ctrl := chars.foldl ControlLink.character s.part.ctrl } }
  else .next s

/-- INTER_BYTE_GAP_EXPIRY: a frame in progress is discarded; the timer runs only then (R183, R184). -/
def execInterByteGapExpiry (s : State) : Host.Outcome State Fault Refusal :=
  match s.part.ctrl.framer with
  | .receiving _ => .next { s with part := { s.part with ctrl := s.part.ctrl.discard } }
  | .hunting => .next s

/-- The Transmit Arbiter begins the pending message: the reply, or the notice at the head (R192). -/
def Part.beginMessage (p : Part) : Part :=
  match p.ctrl.reply with
  | some r => { p with ctrl := { p.ctrl with reply := none, sending := some (.reply r) } }
  | none =>
    match p.notices.queue with
    | n :: rest =>
      { p with
        notices := { p.notices with queue := rest }
        ctrl := { p.ctrl with sending := some (.notice n) } }
    | [] => p

/-- MESSAGE_BEGIN: the arbiter is IDLE and CPERM_N asserted (R192). -/
def execMessageBegin (s : State) : Host.Outcome State Fault Refusal :=
  if s.part.live = true ∧ s.part.ctrl.sending = none ∧ s.part.pins.cpermN = true then
    .next { s with part := s.part.beginMessage }
  else .next s

/-- The message asks for the RESTART reset at its end (R189). -/
def Message.restarts : Message → Bool
  | .reply r => decide (r.kind = 0x03#8) && decide (r.status = .ok)
  | .notice _ => false

/-- MESSAGE_END: the last stop bit has left CTX; after the OK reply of a RESTART the reset is taken, the rate kept (R154,
R189, R192, R196). -/
def execMessageEnd (s : State) : Host.Outcome State Fault Refusal :=
  match s.part.ctrl.sending with
  | some m =>
    let p := { s.part with ctrl := { s.part.ctrl with sending := none } }
    .next { s with part := if m.restarts then p.startUp .restart else p }
  | none => .next s

end Sys2Proof.Machine
end

