-- ==== Sys2Proof/Machine/PowerCommands.lean ====
section
/-! DEFINITION. Power, reset and pin events, and the end of the unit area image load (R21, R192, R196 to R198). -/

namespace Sys2Proof.Machine

/-- VDD is in range and the straps are as sampled (R182, R196). -/
def Power.risen (w : Power) (rate1 rate0 : Bool) : Power := { w with powered := true, rate1, rate0 }

/-- POWER_ON_RESET: VDD has reached its range, the straps are sampled and start-up begins; with RESET_N low the part
stays in reset (R154, R196, R197, log 22). -/
def execPowerOnReset (rate1 rate0 : Bool) (s : State) : Host.Outcome State Fault Refusal :=
  let p := { s.part with power := s.part.power.risen rate1 rate0 }
  .next { s with part := if p.power.resetNLow then p.resetUnits else p.startUp .powerOn }

/-- POWER_FALL: VDD is below range; the part stands as at the beginning of a reset until it returns (R196, log 22). -/
def execPowerFall (s : State) : Host.Outcome State Fault Refusal :=
  .next { s with part := ({ s.part with power := { s.part.power with powered := false } }).resetUnits }

/-- RESET_N_ASSERT: a low of 10 µs or more is a reset, and a shorter one is filtered out (R196). -/
def execResetNAssert (lowNanos : Nat) (s : State) : Host.Outcome State Fault Refusal :=
  if Config.minResetNanos ≤ lowNanos ∧ s.part.power.resetNLow = false then
    .next { s with part := ({ s.part with power := { s.part.power with resetNLow := true } }).resetUnits }
  else .next s

/-- RESET_N_RELEASE: at the rising edge the straps are sampled and start-up begins (R154, R182, R196). -/
def execResetNRelease (rate1 rate0 : Bool) (s : State) : Host.Outcome State Fault Refusal :=
  if s.part.power.resetNLow then
    let w := { s.part.power with resetNLow := false }
    if w.powered then
      .next { s with part := ({ s.part with power := w.risen rate1 rate0 }).startUp .resetPin }
    else .next { s with part := { s.part with power := w } }
  else .next s

/-- PROT_N_CHANGE: the level is followed at once, and the waiting and stalled journals retry (R21, R76). -/
def execProtNChange (asserted : Bool) (s : State) : Host.Outcome State Fault Refusal :=
  if s.part.pins.protN = asserted then .next s
  else
    let p := { s.part with pins := { s.part.pins with protN := asserted } }
    .next { s with part := if p.live then p.settle [.retryDue] else p }

/-- CPERM_N_CHANGE: the Transmit Arbiter looks at the level when it would begin a message (R192). -/
def execCpermNChange (asserted : Bool) (s : State) : Host.Outcome State Fault Refusal :=
  .next { s with part := { s.part with pins := { s.part.pins with cpermN := asserted } } }

/-- The capability record of IDENTIFY (R195, R206). -/
def capabilities (identity : List Byte) : List Byte :=
  leBytes 2 0x3D42 ++ leBytes 2 0x0740 ++ leBytes 1 1 ++ leBytes 1 128 ++ leBytes 2 1024 ++ leBytes 1 32
    ++ leBytes 1 4 ++ leBytes 1 16 ++ leBytes 1 8 ++ leBytes 1 16 ++ leBytes 1 64 ++ leBytes 2 2048 ++ identity

/-- IDENTIFY is answered from the unit area image (R195). -/
def Part.answerIdentify (p : Part) (tag : Byte) : Part :=
  p.placeReply tag 0x01#8 .ok (capabilities p.image.area.identity.toList)

/-- An IDENTIFY that waited for the image is served (R198). -/
def Part.answerHeldIdentify (p : Part) : Part :=
  match p.ctrl.serving with
  | some (.identifyHeld tag) => ({ p with ctrl := { p.ctrl with serving := none } }).answerIdentify tag
  | _ => p

/-- The image is loaded from the unit area (R49). -/
def Part.loadImage (p : Part) : Part := { p with image := { area := p.unitArea, loaded := true } }

/-- UNIT_AREA_IMAGE_LOAD_END: the image is loaded, a waiting IDENTIFY is served, and the Store Scanner begins with block
0 (R197, R198). -/
def execUnitAreaImageLoadEnd (s : State) : Host.Outcome State Fault Refusal :=
  if s.part.live = true ∧ s.part.scan.phase = .imageLoad then
    .next { s with part := s.part.loadImage.answerHeldIdentify.scanHeader.settle [] }
  else .next s

end Sys2Proof.Machine
end

