-- ==== Sys2Proof/Machine/RequestCommands.lean ====
section
/-! DEFINITION. The requests the Request Server takes (R186 to R189), each by its owner's rule. -/

namespace Sys2Proof.Machine

/-! ### Taking and judging a request (R186) -/

/-- The Request Server may take a request (R186, R189). -/
def Part.canTake (p : Part) : Bool :=
  p.live && p.ctrl.serving.isNone && p.ctrl.reply.isNone && !p.ctrl.restartPlaced

/-- The request leaves the head of the buffer; with the buffer empty it has been received and is taken at once (log 3).
None where another request stands at the head. -/
def Part.takeFromBuffer (p : Part) (r : Request) : Option Part :=
  match p.ctrl.buffer with
  | [] => some p
  | head :: rest => if head = r then some { p with ctrl := { p.ctrl with buffer := rest } } else none

/-- The first case of R186 that applies; at order 5 the owner's work is done. -/
def Part.answer (p : Part) (kind tag : Byte) (body : List Byte) (work : Part → Part) : Part :=
  match bodyLength kind with
  | none => p.placeReply tag kind .unknownKind []
  | some n =>
    if body.length ≠ n then p.placeReply tag kind .badLength []
    else if p.device = .scanning ∧ kind ≠ 0x01#8 ∧ kind ≠ 0x02#8 then p.placeReply tag kind .scanning []
    else if encodingAllowed kind body then work p
    else p.placeReply tag kind .badValue []

/-- A request command: taken when the Request Server may take it, without effect otherwise (R186, log 3). -/
def serve (kind tag : Byte) (body : List Byte) (work : Part → Part) (s : State) : Host.Outcome State Fault Refusal :=
  if s.part.canTake then
    match s.part.takeFromBuffer { kind, tag, body } with
    | some p => .next { s with part := p.answer kind tag body work }
    | none => .next s
  else .next s

/-! ### Control Link Interface (R189, R191, R194, R195) -/

/-- IDENTIFY: answered from the image, or held until it is loaded (R195, R198). -/
def Part.identify (p : Part) (tag : Byte) : Part :=
  if p.image.loaded then p.answerIdentify tag
  else { p with ctrl := { p.ctrl with serving := some (.identifyHeld tag) } }

/-- The journal state and stall cause bytes of the four channels (R194, R206, R208). -/
def Part.journalBytes (p : Part) : List Byte :=
  allChannels.map (fun c => (p.journal c).state.code) ++ allChannels.map (fun c =>
    match (p.journal c).state.cause with
    | some cause => cause.code
    | none => 0xFF#8)

/-- The contents of a GET_STATUS reply (R194, R206). -/
def Part.statusBytes (p : Part) : List Byte :=
  [p.device.code, BitVec.ofNat 8 p.scan.classified, p.ctl.faults.byte, p.controllerState.code, p.innerActivity.code
    , BitVec.ofNat 8 p.ctl.eraseQueue.length, BitVec.ofNat 8 p.freeList.length] ++ p.journalBytes
    ++ [BitVec.ofNat 8 p.entriesHeld] ++ leBytes 2 p.linesHeld
    ++ [BitVec.ofNat 8 p.taggedEntries, flagByte p.holdAsserted, flagByte p.pins.protN
      , BitVec.ofNat 8 p.events.table.length, flagByte p.notices.dropped]
    ++ leBytes 4 p.ctrl.discarded ++ leBytes 4 p.link.malformed ++ leBytes 4 p.link.orphan ++ leBytes 4 p.link.refused

/-- GET_STATUS: the notices-dropped flag it reports set is cleared as the reply is formed (R190, R194). -/
def Part.getStatus (p : Part) (tag : Byte) : Part :=
  ({ p with notices := { p.notices with dropped := false } }).placeReply tag 0x02#8 .ok p.statusBytes

/-- RESTART: answered OK; no further request is taken (R189). -/
def Part.restart (p : Part) (tag : Byte) : Part :=
  ({ p with ctrl := { p.ctrl with restartPlaced := true } }).placeReply tag 0x03#8 .ok []

/-- SET_NOTICES: the mask is replaced, the reply carries the mask before (R191). -/
def Part.setNotices (p : Part) (tag : Byte) (body : List Byte) : Part :=
  ({ p with notices := { p.notices with mask := BitVec.ofNat 16 (fieldAt body 0 2) } }).placeReply tag 0x04#8 .ok
    (leBytes 2 p.notices.mask.toNat)

/-! ### Store Controller (R43, R46, R50 to R52) -/

/-- CLEAR_FAULTS: the reply carries the set before; the hold clears and a retry pass runs, then the arbiter chooses for the
free array, and only then programs join the list again (R43, R82). -/
def Part.clearFaults (p : Part) (tag : Byte) : Part :=
  let q := (p.updFaults (fun _ => .clear)).placeReply tag 0x05#8 .ok [p.ctl.faults.byte]
  ({ q with je := { q.je with hold := false } }).retryPass.settleAfter none

/-- ERASE_BLOCK on a block of the store (R46, R47). DESIGN CHOICE (log 29): the notices of a worn block's retirement are
queued in the step that places the reply. -/
def Part.eraseBlockAt (p : Part) (tag : Byte) (b : Block) : Part :=
  let e := p.entry b
  if e.state ≠ .closed ∧ e.state ≠ .torn then p.placeReply tag 0x06#8 .state []
  else if 0 < e.holdCount then p.placeReply tag 0x06#8 .held []
  else if p.lockOf b ≠ .unlocked then p.placeReply tag 0x06#8 .locked []
  else if e.state = .closed ∧ e.worn = true then
    (((p.retire b .worn).placeReply tag 0x06#8 .accepted []).opDone (.host tag) b .retired).settle []
  else ((p.enqueueErase b (.host tag)).placeReply tag 0x06#8 .accepted []).settle []

/-- ERASE_BLOCK (R46). -/
def Part.eraseBlock (p : Part) (tag : Byte) (body : List Byte) : Part :=
  match blockAt body 0 with
  | some b => p.eraseBlockAt tag b
  | none => p.placeReply tag 0x06#8 .badValue []

/-- The set of written user words (R50). -/
def UnitArea.writtenSet (u : UnitArea) : Nat :=
  (List.finRange 12).foldl (fun n i => n + setBit u.words[i].isSome i.val) 0

/-- The bytes of a user word; an unwritten word is blank (R50). DESIGN CHOICE (log 34): blank is 0xFF in each byte, as an
erased byte of the store reads (R209); no rule gives the value for the unit area. -/
def wordBytes : Option (BitVec 32) → List Byte
  | some v => leBytes 4 v.toNat
  | none => List.replicate 4 erasedByte

/-- The contents of a UNIT_READ reply (R50, R206). -/
def UnitArea.bytes (u : UnitArea) : List Byte :=
  u.identity.toList ++ u.words.toList.flatMap wordBytes ++ leBytes 2 u.writtenSet ++ [flagByte u.locked]

/-- UNIT_READ: answered from the image (R49, R50). -/
def Part.unitRead (p : Part) (tag : Byte) : Part := p.placeReply tag 0x07#8 .ok p.image.area.bytes

/-- A unit program is presented, and the reply waits for its outcome (R51, R52, R187). -/
def Part.presentUnit (p : Part) (tag kind : Byte) (op : ProgramOp) : Part :=
  (({ p with ctrl := { p.ctrl with serving := some (.unitProgram tag kind) } }).joinPrograms
    { source := .requestServer, op }).settle []

/-- UNIT_WRITE (R51). -/
def Part.unitWrite (p : Part) (tag : Byte) (body : List Byte) : Part :=
  if h : byteAt body 0 < 12 then
    if p.image.area.locked then p.placeReply tag 0x08#8 .locked []
    else if (p.image.area.words[byteAt body 0]'h).isSome then p.placeReply tag 0x08#8 .already []
    else if p.ctl.faults.supply then p.placeReply tag 0x08#8 .state []
    else p.presentUnit tag 0x08#8 (.unitWord ⟨byteAt body 0, h⟩ (BitVec.ofNat 32 (fieldAt body 1 4)))
  else p.placeReply tag 0x08#8 .badValue []

/-- UNIT_LOCK (R52). -/
def Part.unitLock (p : Part) (tag : Byte) : Part :=
  if p.image.area.locked then p.placeReply tag 0x09#8 .already []
  else if p.ctl.faults.supply then p.placeReply tag 0x09#8 .state []
  else p.presentUnit tag 0x09#8 .unitLock

/-! ### Block Directory: locks (R22 to R26) -/

/-- What a lock request does to one block. -/
inductive LockEffect where
  | changed | refused | neither
  deriving DecidableEq, Repr

/-- The part after a lock request so far, with the blocks counted changed and refused. -/
structure LockTally where
  part : Part
  changed : Nat
  refused : Nat
  deriving DecidableEq, Repr

/-- A block's effect is counted. -/
def LockTally.count (t : LockTally) (effect : LockEffect) (part : Part) : LockTally :=
  { part
    changed := t.changed + (if effect = .changed then 1 else 0)
    refused := t.refused + (if effect = .refused then 1 else 0) }

/-- LOCK joins the close due set of an OPEN block's journal (R26, R68). -/
def Part.lockDue (p : Part) (b : Block) : Part :=
  match (p.entry b).channel with
  | some c => p.addDue c (fun d => { d with lock := true })
  | none => p

/-- LOCK_BLOCKS on one block (R22). -/
def Part.lockOne (p : Part) (b : Block) : LockEffect × Part :=
  let e := p.entry b
  if p.lockOf b = .down then (.refused, p)
  else if e.state = .opened then
    if e.pending = .clear then (.changed, (p.updEntry b (fun e => { e with pending := .lock })).lockDue b)
    else (.neither, p)
  else if e.lockBit then (.neither, p)
  else (.changed, p.updEntry b (fun e => { e with lockBit := true }))

/-- The close mark of this block has joined the backlog (R23). -/
def JournalEngine.closeMarked (je : JournalEngine) (b : Block) : Bool :=
  je.backlog.any (fun op => match op with
    | .closeMark b' _ _ _ => decide (b' = b)
    | _ => false)

/-- LOCK leaves the close due set, unless the close mark has already joined the backlog (R23). -/
def Part.lockNotDue (p : Part) (b : Block) : Part :=
  match (p.entry b).channel with
  | some c =>
    if p.je.closeMarked b then p
    else p.updJournal c (fun j => { j with due := { j.due with lock := false } })
  | none => p

/-- UNLOCK_BLOCKS on one block (R23). -/
def Part.unlockOne (p : Part) (b : Block) : LockEffect × Part :=
  let e := p.entry b
  if p.lockOf b = .down then (.refused, p)
  else if e.state = .opened then
    match e.pending with
    | .lock => (.changed, (p.updEntry b (fun e => { e with pending := .clear })).lockNotDue b)
    | .down => (.refused, p)
    | .clear => (.neither, p)
  else if e.lockBit then (.changed, p.updEntry b (fun e => { e with lockBit := false }))
  else (.neither, p)

/-- DOWN_BLOCKS on one block (R24). -/
def Part.downOne (p : Part) (b : Block) : LockEffect × Part :=
  let e := p.entry b
  if e.state = .opened then
    if e.pending = .down then (.neither, p)
    else (.changed, (p.updEntry b (fun e => { e with pending := .down })).lockDue b)
  else if e.downFlag && e.lockBit then (.neither, p)
  else (.changed, p.updEntry b (fun e => { e with downFlag := true, lockBit := true }))

/-- The blocks from first to last. -/
def blockRange (first last : Nat) : List Block :=
  allBlocks.filter (fun b => decide (first ≤ b.val) && decide (b.val ≤ last))

/-- A lock request on a range of blocks, in ascending order. DESIGN CHOICE (log 27): the close marks of several OPEN blocks
of the range join the backlog in ascending block number; R22 to R26 name no order. -/
def Part.lockRange (p : Part) (one : Part → Block → LockEffect × Part) (first last : Nat) : LockTally :=
  (blockRange first last).foldl (fun t b => t.count (one t.part b).1 (one t.part b).2) { part := p, changed := 0, refused := 0 }

/-- The range a lock request names is refused (R22 to R24). -/
def badRange (body : List Byte) : Bool := decide (byteAt body 1 < byteAt body 0) || decide (127 < byteAt body 1)

/-- The counts a lock request's reply carries. -/
def LockTally.bytes (t : LockTally) : List Byte := [BitVec.ofNat 8 t.changed, BitVec.ofNat 8 t.refused]

/-- LOCK_BLOCKS (R22). -/
def Part.lockBlocks (p : Part) (tag : Byte) (body : List Byte) : Part :=
  if badRange body then p.placeReply tag 0x0A#8 .badValue []
  else
    let t := p.lockRange Part.lockOne (byteAt body 0) (byteAt body 1)
    (t.part.placeReply tag 0x0A#8 .ok t.bytes).settle []

/-- UNLOCK_BLOCKS: a retry pass follows when a block is counted as changed (R23, R76). -/
def Part.unlockBlocks (p : Part) (tag : Byte) (body : List Byte) : Part :=
  if badRange body then p.placeReply tag 0x0B#8 .badValue []
  else
    let t := p.lockRange Part.unlockOne (byteAt body 0) (byteAt body 1)
    (t.part.placeReply tag 0x0B#8 .ok t.bytes).settle (if 0 < t.changed then [.retryDue] else [])

/-- DOWN_BLOCKS (R24). -/
def Part.downBlocks (p : Part) (tag : Byte) (body : List Byte) : Part :=
  if badRange body then p.placeReply tag 0x0C#8 .badValue []
  else
    let t := p.lockRange Part.downOne (byteAt body 0) (byteAt body 1)
    (t.part.placeReply tag 0x0C#8 .ok t.bytes).settle []

/-! ### Retention Map (R90 to R96) -/

/-- MAP_WRITE_CONTROL (R90). -/
def Part.mapWriteControl (p : Part) (tag : Byte) (body : List Byte) : Part :=
  ({ p with staged := p.staged.writeControl body }).placeReply tag 0x10#8 .ok []

/-- MAP_WRITE_FIXED (R91). -/
def Part.mapWriteFixed (p : Part) (tag : Byte) (body : List Byte) : Part :=
  match p.staged.writeFixed body with
  | some staged => ({ p with staged }).placeReply tag 0x11#8 .ok []
  | none => p.placeReply tag 0x11#8 .badValue []

/-- MAP_WRITE_VARIABLE (R92). -/
def Part.mapWriteVariable (p : Part) (tag : Byte) (body : List Byte) : Part :=
  match p.staged.writeVariable body with
  | .ok staged => ({ p with staged }).placeReply tag 0x12#8 .ok []
  | .error status => p.placeReply tag 0x12#8 status []

/-- MAP_WRITE_DEFAULT (R93). -/
def Part.mapWriteDefault (p : Part) (tag : Byte) (body : List Byte) : Part :=
  match p.staged.writeDefault body with
  | some staged => ({ p with staged }).placeReply tag 0x13#8 .ok []
  | none => p.placeReply tag 0x13#8 .badValue []

/-- MAP_READ (R94). -/
def Part.mapRead (p : Part) (tag : Byte) (body : List Byte) : Part :=
  p.placeReply tag 0x14#8 .ok (if byteAt body 0 = 0 then p.staged.bytes else p.active.bytes)

/-- MAP_QUERY (R95). -/
def Part.mapQuery (p : Part) (tag : Byte) (body : List Byte) : Part :=
  match blockAt body 0 with
  | some b => p.placeReply tag 0x15#8 .ok (blockByte b :: (p.mapOf b).bytes)
  | none => p.placeReply tag 0x15#8 .badValue []

/-- The examination of one journal's open block at an apply (R69). -/
def Part.examine (p : Part) (c : Channel) : Part :=
  match (p.journal c).openBlock with
  | some b => if (p.mapOf b).writable c then p else p.addDue c (fun d => { d with map := true })
  | none => p

/-- The channels whose open block has MAP in its close due set (R96). -/
def Part.mapDueSet (p : Part) : Byte :=
  BitVec.ofNat 8 (allChannels.foldl (fun n c =>
    n + setBit ((p.journal c).openBlock.isSome && (p.journal c).due.map) c.val) 0)

/-- MAP_APPLY: the copy, the examination in ascending channel order, the reply, the retry pass (R69, R96). DESIGN CHOICE
(log 33): the close marks that the examination makes are presented before the pass's first turn. -/
def Part.mapApply (p : Part) (tag : Byte) : Part :=
  let q := allChannels.foldl Part.examine { p with active := p.staged }
  (q.placeReply tag 0x16#8 .ok [q.mapDueSet]).settle [.retryDue]

/-! ### Event Unit (R105, R117, R119) -/

/-- The contents of an OK reply to TRIGGER (R105). -/
def triggerBytes (e : Event) (retrigger : Bool) : List Byte :=
  BitVec.ofNat 8 e.id :: recordField e.anchor ++ [flagByte retrigger]

/-- TRIGGER (R105). DESIGN CHOICE (log 29): the TRIGGERED notice is queued and the reply placed in one step, so with the
arbiter IDLE the reply leaves first (R187 and R193 leave it open). -/
def Part.trigger (p : Part) (tag : Byte) (body : List Byte) : Part :=
  match channelAt body 0 with
  | none => p.placeReply tag 0x18#8 .badValue []
  | some c =>
    match p.takeTrigger c .host with
    | (q, .made e) => q.placeReply tag 0x18#8 .ok (triggerBytes e false)
    | (q, .retriggered e) => q.placeReply tag 0x18#8 .ok (triggerBytes e true)
    | (q, .lost) => q.placeReply tag 0x18#8 .tableFull []

/-- The entry that carries an id. -/
def EventUnit.carrying (u : EventUnit) (id : Nat) : Option Event := u.table.find? (fun e => decide (e.id = id))

/-- RELEASE_EVENT: a retry pass follows (R76, R117). -/
def Part.releaseEvent (p : Part) (tag : Byte) (body : List Byte) : Part :=
  match p.events.carrying (byteAt body 0) with
  | none => p.placeReply tag 0x19#8 .notFound []
  | some e =>
    ((p.dropEvent e).placeReply tag 0x19#8 .ok
      [BitVec.ofNat 8 e.id, e.state.code, BitVec.ofNat 8 e.held.length]).settle [.retryDue]

/-- LIST_EVENTS (R119). -/
def Part.listEvents (p : Part) (tag : Byte) : Part :=
  p.placeReply tag 0x1A#8 .ok (BitVec.ofNat 8 p.events.table.length :: p.events.table.flatMap Event.listBytes)

/-- GET_EVENT (R119). -/
def Part.getEvent (p : Part) (tag : Byte) (body : List Byte) : Part :=
  match p.events.carrying (byteAt body 0) with
  | some e => p.placeReply tag 0x1B#8 .ok e.bytes
  | none => p.placeReply tag 0x1B#8 .notFound []

/-! ### Capture Queue (R129, R135) -/

/-- SET_QUEUE: both marks are replaced and HOLD_N evaluated (R134, R135). -/
def Part.setQueue (p : Part) (tag : Byte) (body : List Byte) : Part :=
  let high := fieldAt body 0 2
  let low := fieldAt body 2 2
  if 33 ≤ high ∧ high ≤ Config.queueLines ∧ low + 33 ≤ high then
    let q := ({ p with queue := { p.queue with high, low } }).evalHold
    q.placeReply tag 0x20#8 .ok (leBytes 2 high ++ leBytes 2 low ++ [flagByte q.queue.hold])
  else p.placeReply tag 0x20#8 .badValue []

/-- FLUSH_CHANNEL (R129). -/
def Part.flushChannel (p : Part) (tag : Byte) (body : List Byte) : Part :=
  match channelAt body 0 with
  | some c => ((p.flush c).placeReply tag 0x21#8 .ok [BitVec.ofNat 8 (p.flushCount c)]).settle []
  | none => p.placeReply tag 0x21#8 .badValue []

/-! ### Channel Conditioner (R139, R140, R143, R144) -/

/-- SET_CHANNEL (R139). -/
def Part.setChannel (p : Part) (tag : Byte) (body : List Byte) : Part :=
  match channelAt body 0 with
  | none => p.placeReply tag 0x24#8 .badValue []
  | some c =>
    if (p.chan c).state ≠ .stopped then p.placeReply tag 0x24#8 .state []
    else
      match settingsOf (body.drop 1) with
      | some r => ({ p with settings := p.settings.set c.val r c.isLt }).placeReply tag 0x24#8 .ok []
      | none => p.placeReply tag 0x24#8 .badValue []

/-- The samples appended to an open frame: 0 for a masked one, absent for none (R140, R159, R208). -/
def Slot.appended : Slot → Nat
  | .idle => 0xFFFF
  | .assembling f => f.samples.length
  | .masked _ _ => 0

/-- The nine counters in the order of R141. -/
def Counters.bytes (k : Counters) : List Byte :=
  [k.passed, k.masked, k.overruns, k.tagged, k.dropped, k.shed, k.flushed, k.committed, k.clipped].flatMap (leBytes 4)

/-- The contents of a GET_CHANNEL reply (R140, R206). -/
def Part.channelBytes (p : Part) (c : Channel) : List Byte :=
  (p.setting c).bytes ++ [(p.chan c).state.code, flagByte (p.chan c).closePending, (p.slot c).code]
    ++ leBytes 2 (p.slot c).appended ++ leBytes 1 (p.chan c).cadence
    ++ leBytes 4 ((p.chan c).expected.getD 0xFFFFFFFF) ++ (p.chan c).counters.bytes

/-- GET_CHANNEL: with clear set the counters are cleared once read (R140). -/
def Part.getChannel (p : Part) (tag : Byte) (body : List Byte) : Part :=
  match channelAt body 0 with
  | none => p.placeReply tag 0x25#8 .badValue []
  | some c =>
    (if byteAt body 1 = 1 then p.updCounters c (fun _ => .zero) else p).placeReply tag 0x25#8 .ok (p.channelBytes c)

/-- START_CHANNEL (R143). -/
def Part.startChannel (p : Part) (tag : Byte) (body : List Byte) : Part :=
  match channelAt body 0 with
  | none => p.placeReply tag 0x26#8 .badValue []
  | some c =>
    if (p.chan c).state = .stopped then
      (p.updChan c (fun k => { k with state := .running, cadence := 0, expected := none })).placeReply tag 0x26#8 .ok []
    else p.placeReply tag 0x26#8 .state []

/-- A RUNNING channel stops: its slot is cleared and the drain begins (R144, R145). -/
def Part.beginStop (p : Part) (c : Channel) (close : Bool) : Part :=
  ((p.setSlot c .idle).updChan c (fun k => { k with state := .stopping, closePending := close })).drain c

/-- The OK reply of STOP_CHANNEL carries the state reached (R144). -/
def Part.replyStop (p : Part) (tag : Byte) (c : Channel) : Part :=
  p.placeReply tag 0x27#8 .ok [(p.chan c).state.code]

/-- STOP_CHANNEL on a channel (R144). -/
def Part.stopChannelAt (p : Part) (tag : Byte) (c : Channel) (close : Bool) : Part :=
  match (p.chan c).state with
  | .stopped => p.placeReply tag 0x27#8 .state []
  | .stopping => (p.updChan c (fun k => { k with closePending := k.closePending || close })).replyStop tag c
  | .running => ((p.beginStop c close).replyStop tag c).settle []

/-- STOP_CHANNEL (R144). -/
def Part.stopChannel (p : Part) (tag : Byte) (body : List Byte) : Part :=
  match channelAt body 0 with
  | some c => p.stopChannelAt tag c (decide (byteAt body 1 = 1))
  | none => p.placeReply tag 0x27#8 .badValue []

/-! ### Readout (R172, R180, R181) -/

/-- READ_RECORDS on a channel, its max in range: NOT_YET, GONE, or the gathering begins (R172 to R174). -/
def Part.readRecordsAt (p : Part) (tag : Byte) (c : Channel) (start max : Nat) : Part :=
  if (p.journal c).nextRec ≤ start then p.placeReply tag 0x28#8 .notYet (leBytes 6 (p.journal c).nextRec)
  else
    match p.blockHolding c start with
    | none => p.placeReply tag 0x28#8 .gone (recordField (p.nextRetained c start))
    | some b =>
      (p.gatherHeader
        { tag, channel := c, start, max, sought := start, block := b, line := 1
          expected := (p.entry b).first.getD 0, fill := (p.entry b).fill, stage := .header, records := []
          lines := 0 }).settle []

/-- READ_RECORDS (R172). -/
def Part.readRecords (p : Part) (tag : Byte) (body : List Byte) : Part :=
  match channelAt body 0 with
  | none => p.placeReply tag 0x28#8 .badValue []
  | some c =>
    if byteAt body 7 < 1 ∨ 32 < byteAt body 7 then p.placeReply tag 0x28#8 .badValue []
    else p.readRecordsAt tag c (fieldAt body 1 6) (byteAt body 7)

/-- LIST_JOURNAL (R180). -/
def Part.listJournal (p : Part) (tag : Byte) (body : List Byte) : Part :=
  match channelAt body 0 with
  | none => p.placeReply tag 0x29#8 .badValue []
  | some c =>
    if 127 < byteAt body 1 then p.placeReply tag 0x29#8 .badValue []
    else p.placeReply tag 0x29#8 .ok (p.journalListing c (byteAt body 1))

/-- GET_BLOCK (R181). -/
def Part.getBlock (p : Part) (tag : Byte) (body : List Byte) : Part :=
  match blockAt body 0 with
  | some b => p.placeReply tag 0x2A#8 .ok (p.blockListing b)
  | none => p.placeReply tag 0x2A#8 .badValue []

/-! ### The commands -/

/-- UNKNOWN_KIND (R186 order 1): of a kind that is no request kind (log 1). -/
def execUnknownKind (kind tag : Byte) (body : List Byte) (s : State) : Host.Outcome State Fault Refusal :=
  if bodyLength kind = none then serve kind tag body (fun p => p) s else .next s

def execIdentify (tag : Byte) (body : List Byte) (s : State) : Host.Outcome State Fault Refusal :=
  serve 0x01#8 tag body (fun p => p.identify tag) s

def execGetStatus (tag : Byte) (body : List Byte) (s : State) : Host.Outcome State Fault Refusal :=
  serve 0x02#8 tag body (fun p => p.getStatus tag) s

def execRestart (tag : Byte) (body : List Byte) (s : State) : Host.Outcome State Fault Refusal :=
  serve 0x03#8 tag body (fun p => p.restart tag) s

def execSetNotices (tag : Byte) (body : List Byte) (s : State) : Host.Outcome State Fault Refusal :=
  serve 0x04#8 tag body (fun p => p.setNotices tag body) s

def execClearFaults (tag : Byte) (body : List Byte) (s : State) : Host.Outcome State Fault Refusal :=
  serve 0x05#8 tag body (fun p => p.clearFaults tag) s

def execEraseBlock (tag : Byte) (body : List Byte) (s : State) : Host.Outcome State Fault Refusal :=
  serve 0x06#8 tag body (fun p => p.eraseBlock tag body) s

def execUnitRead (tag : Byte) (body : List Byte) (s : State) : Host.Outcome State Fault Refusal :=
  serve 0x07#8 tag body (fun p => p.unitRead tag) s

def execUnitWrite (tag : Byte) (body : List Byte) (s : State) : Host.Outcome State Fault Refusal :=
  serve 0x08#8 tag body (fun p => p.unitWrite tag body) s

def execUnitLock (tag : Byte) (body : List Byte) (s : State) : Host.Outcome State Fault Refusal :=
  serve 0x09#8 tag body (fun p => p.unitLock tag) s

def execLockBlocks (tag : Byte) (body : List Byte) (s : State) : Host.Outcome State Fault Refusal :=
  serve 0x0A#8 tag body (fun p => p.lockBlocks tag body) s

def execUnlockBlocks (tag : Byte) (body : List Byte) (s : State) : Host.Outcome State Fault Refusal :=
  serve 0x0B#8 tag body (fun p => p.unlockBlocks tag body) s

def execDownBlocks (tag : Byte) (body : List Byte) (s : State) : Host.Outcome State Fault Refusal :=
  serve 0x0C#8 tag body (fun p => p.downBlocks tag body) s

def execMapWriteControl (tag : Byte) (body : List Byte) (s : State) : Host.Outcome State Fault Refusal :=
  serve 0x10#8 tag body (fun p => p.mapWriteControl tag body) s

def execMapWriteFixed (tag : Byte) (body : List Byte) (s : State) : Host.Outcome State Fault Refusal :=
  serve 0x11#8 tag body (fun p => p.mapWriteFixed tag body) s

def execMapWriteVariable (tag : Byte) (body : List Byte) (s : State) : Host.Outcome State Fault Refusal :=
  serve 0x12#8 tag body (fun p => p.mapWriteVariable tag body) s

def execMapWriteDefault (tag : Byte) (body : List Byte) (s : State) : Host.Outcome State Fault Refusal :=
  serve 0x13#8 tag body (fun p => p.mapWriteDefault tag body) s

def execMapRead (tag : Byte) (body : List Byte) (s : State) : Host.Outcome State Fault Refusal :=
  serve 0x14#8 tag body (fun p => p.mapRead tag body) s

def execMapQuery (tag : Byte) (body : List Byte) (s : State) : Host.Outcome State Fault Refusal :=
  serve 0x15#8 tag body (fun p => p.mapQuery tag body) s

def execMapApply (tag : Byte) (body : List Byte) (s : State) : Host.Outcome State Fault Refusal :=
  serve 0x16#8 tag body (fun p => p.mapApply tag) s

def execTrigger (tag : Byte) (body : List Byte) (s : State) : Host.Outcome State Fault Refusal :=
  serve 0x18#8 tag body (fun p => p.trigger tag body) s

def execReleaseEvent (tag : Byte) (body : List Byte) (s : State) : Host.Outcome State Fault Refusal :=
  serve 0x19#8 tag body (fun p => p.releaseEvent tag body) s

def execListEvents (tag : Byte) (body : List Byte) (s : State) : Host.Outcome State Fault Refusal :=
  serve 0x1A#8 tag body (fun p => p.listEvents tag) s

def execGetEvent (tag : Byte) (body : List Byte) (s : State) : Host.Outcome State Fault Refusal :=
  serve 0x1B#8 tag body (fun p => p.getEvent tag body) s

def execSetQueue (tag : Byte) (body : List Byte) (s : State) : Host.Outcome State Fault Refusal :=
  serve 0x20#8 tag body (fun p => p.setQueue tag body) s

def execFlushChannel (tag : Byte) (body : List Byte) (s : State) : Host.Outcome State Fault Refusal :=
  serve 0x21#8 tag body (fun p => p.flushChannel tag body) s

def execSetChannel (tag : Byte) (body : List Byte) (s : State) : Host.Outcome State Fault Refusal :=
  serve 0x24#8 tag body (fun p => p.setChannel tag body) s

def execGetChannel (tag : Byte) (body : List Byte) (s : State) : Host.Outcome State Fault Refusal :=
  serve 0x25#8 tag body (fun p => p.getChannel tag body) s

def execStartChannel (tag : Byte) (body : List Byte) (s : State) : Host.Outcome State Fault Refusal :=
  serve 0x26#8 tag body (fun p => p.startChannel tag body) s

def execStopChannel (tag : Byte) (body : List Byte) (s : State) : Host.Outcome State Fault Refusal :=
  serve 0x27#8 tag body (fun p => p.stopChannel tag body) s

def execReadRecords (tag : Byte) (body : List Byte) (s : State) : Host.Outcome State Fault Refusal :=
  serve 0x28#8 tag body (fun p => p.readRecords tag body) s

def execListJournal (tag : Byte) (body : List Byte) (s : State) : Host.Outcome State Fault Refusal :=
  serve 0x29#8 tag body (fun p => p.listJournal tag body) s

def execGetBlock (tag : Byte) (body : List Byte) (s : State) : Host.Outcome State Fault Refusal :=
  serve 0x2A#8 tag body (fun p => p.getBlock tag body) s

end Sys2Proof.Machine
end

