-- ==== Sys2Proof/Machine/SampleCommands.lean ====
section
/-! DEFINITION. The packets of the sample link at the assembly slots, and the frame timeout (R142, R147 to R153, R156 to
R169). -/

namespace Sys2Proof.Machine

/-! ### Cadence, continuity and clipping (R147 to R149) -/

/-- The cadence decision at an FS: passed or not, and the next position (R147). -/
def Settings.cadence (s : Settings) (position : Nat) : Bool × Nat :=
  if s.mask = 0 then (true, 0) else (decide (position < s.pass), (position + 1) % (s.pass + s.mask))

/-- The continuity check at an FS of number r: GAP or NUMBER and the gap count (R149). -/
def continuity (wrap : Nat) (expected : Option Nat) (r : Nat) : TagSet × Nat :=
  if wrap ≤ r then ({ TagSet.none with number := true }, 0)
  else
    match expected with
    | none => (.none, 0)
    | some e => if r = e then (.none, 0) else ({ TagSet.none with gap := true }, (r + wrap - e) % wrap)

/-- A sample word clipped into the channel's bounds (R148). -/
def Settings.clip (s : Settings) (w : Word16) : Word16 :=
  if 4096 ≤ w.toNat then BitVec.ofNat 16 s.clipUpper
  else if s.clipUpper < w.toNat then BitVec.ofNat 16 s.clipUpper
  else if w.toNat < s.clipLower then BitVec.ofNat 16 s.clipLower
  else w

/-- How many of some words clipping changes (R148). -/
def Settings.clippedAmong (s : Settings) (words : List Word16) : Nat :=
  (words.filter (fun w => decide (s.clip w ≠ w))).length

/-! ### The slot (R159) -/

/-- The frame timer as it starts or restarts under the channel's frame timeout (R167). -/
def Settings.timer (s : Settings) : Option Nat := if 0 < s.timeout then some s.timeout else none

/-- The orphan counter increments (R169). -/
def Part.orphan (p : Part) : Part := { p with link := { p.link with orphan := satAdd p.link.orphan 1 } }

/-- The malformed counter increments (R156, R163). -/
def Part.malformed (p : Part) : Part := { p with link := { p.link with malformed := satAdd p.link.malformed 1 } }

/-- The refused counter increments (R156 order 5). -/
def Part.refused (p : Part) : Part := { p with link := { p.link with refused := satAdd p.link.refused 1 } }

/-- A frame that is open ends without its FE: TRUNCATED when passed, with no trace when masked (R161, R167). -/
def Part.truncate (p : Part) (c : Channel) : Part :=
  match p.slot c with
  | .idle => p
  | .masked _ _ => p.setSlot c .idle
  | .assembling f => (p.setSlot c .idle).completeFrame c f { f.tags with truncated := true }

/-- The slot opens a new frame: cadence, then continuity (R147, R149, R161). -/
def Part.openFrame (p : Part) (c : Channel) (number : Word16) : Part :=
  let s := p.setting c
  let decision := s.cadence (p.chan c).cadence
  let tags := continuity s.wrap (p.chan c).expected number.toNat
  let q := p.updChan c (fun k =>
    { k with cadence := decision.2, expected := some ((number.toNat + 1) % s.wrap) })
  if decision.1 then
    (q.updCounters c (fun k => { k with passed := satAdd k.passed 1 })).setSlot c
      (.assembling { number, samples := [], tags := tags.1, clipped := 0, gap := tags.2, timer := s.timer })
  else
    (q.updCounters c (fun k => { k with masked := satAdd k.masked 1 })).setSlot c (.masked number s.timer)

/-- An FS at the slot (R161). -/
def Part.takeFs (p : Part) (c : Channel) (number : Word16) : Part := (p.truncate c).openFrame c number

/-- The samples of a sound packet are appended up to the 512th, clipped; OVERLONG for any beyond (R148, R162). -/
def Part.append (p : Part) (c : Channel) (f : Frame) (words : List Word16) : Part :=
  let s := p.setting c
  let room := Config.maxSamples - f.samples.length
  let taken := words.take room
  let clipped := s.clippedAmong taken
  (p.updCounters c (fun k => { k with clipped := satAdd k.clipped clipped })).setSlot c
    (.assembling { f with
      samples := f.samples ++ taken.map s.clip
      clipped := f.clipped + clipped
      tags := { f.tags with overlong := f.tags.overlong || decide (room < words.length) }
      timer := s.timer })

/-- A DATA packet at the slot, sound with these words or damaged (R162, R163, R169). -/
def Part.takeData (p : Part) (c : Channel) (words : Option (List Word16)) : Part :=
  match p.slot c, words with
  | .idle, _ => p.orphan
  | .assembling f, some words => p.append c f words
  | .assembling f, none =>
    p.malformed.setSlot c (.assembling { f with tags := { f.tags with check := true }, timer := (p.setting c).timer })
  | .masked number _, some _ => p.setSlot c (.masked number (p.setting c).timer)
  | .masked number _, none => p.malformed.setSlot c (.masked number (p.setting c).timer)

/-- An FE at the slot (R164). -/
def Part.takeFe (p : Part) (c : Channel) (number : Word16) : Part :=
  match p.slot c with
  | .idle => p.orphan
  | .masked _ _ => p.setSlot c .idle
  | .assembling f =>
    (p.setSlot c .idle).completeFrame c f { f.tags with number := f.tags.number || decide (number ≠ f.number) }

/-- An ABORT entry is offered under the one-only rule (R165). -/
def Part.offerAbort (p : Part) (c : Channel) : Part :=
  if p.lastKind c = some .abort then p else p.push { channel := c, content := .abort }

/-- An ABORT at the slot (R165). -/
def Part.takeAbort (p : Part) (c : Channel) : Part :=
  match p.slot c with
  | .idle => p.offerAbort c
  | .masked _ _ => p.setSlot c .idle
  | .assembling _ => (p.setSlot c .idle).offerAbort c

/-- A MARK entry is made and offered (R153, R166). -/
def Part.takeMark (p : Part) (c : Channel) (code : Byte) : Part := p.push { channel := c, content := .mark code }

/-- The receiver judges a packet: discarded uncounted while SCANNING, refused for a channel that is not RUNNING, handed
to the channel's slot otherwise (R142, R156, R160). -/
def Part.judge (p : Part) (c : Channel) (act : Part → Part) : Part :=
  match p.device with
  | .scanning => p
  | .ready => if (p.chan c).state = .running then act p else p.refused

/-- SLSEL_N rises at the end of a packet. Where the receiver waits for a new selection since the last reset, the packet is
lost without being taken or counted, and the next one is taken (R154). -/
def Part.selectionEnds (p : Part) (take : Part → Part) : Part :=
  if p.awaitsSelection then { p with awaitsSelection := false } else take p

/-- The receiver takes a packet for a channel at the end of its selection (R154, R156). -/
def Part.receive (p : Part) (c : Channel) (act : Part → Part) : Part := p.selectionEnds (fun p => p.judge c act)

/-! ### The commands -/

/-- FS_PACKET (R161). -/
def execFsPacket (channel : Channel) (number : Word16) (s : State) : Host.Outcome State Fault Refusal :=
  if s.part.live then
    .next { s with part := s.part.receive channel (fun p => (p.takeFs channel number).settle []) }
  else .next s

/-- DATA_PACKET (R156 order 3, R157, R162, R163). -/
def execDataPacket (channel : Channel) (count : Word16) (tail : List Nibble) (s : State) :
    Host.Outcome State Fault Refusal :=
  if s.part.live = true ∧ 1 ≤ count.toNat ∧ count.toNat ≤ 256 then
    .next { s with part := s.part.receive channel (fun p => p.takeData channel (soundSamples count tail)) }
  else .next s

/-- FE_PACKET (R164). -/
def execFePacket (channel : Channel) (number : Word16) (s : State) : Host.Outcome State Fault Refusal :=
  if s.part.live then
    .next { s with part := s.part.receive channel (fun p => (p.takeFe channel number).settle []) }
  else .next s

/-- ABORT_PACKET (R165): its value is ignored. -/
def execAbortPacket (channel : Channel) (_value : Word16) (s : State) : Host.Outcome State Fault Refusal :=
  if s.part.live then .next { s with part := s.part.receive channel (fun p => (p.takeAbort channel).settle []) }
  else .next s

/-- MARK_PACKET (R153, R166). -/
def execMarkPacket (channel : Channel) (code : Byte) (s : State) : Host.Outcome State Fault Refusal :=
  if s.part.live then .next { s with part := s.part.receive channel (fun p => (p.takeMark channel code).settle []) }
  else .next s

/-- MALFORMED_PACKET (R156 orders 1 to 4): counted once the part is READY. Nibbles that are a sound header's are no such
packet (log 1). -/
def execMalformedPacket (nibbles : List Nibble) (s : State) : Host.Outcome State Fault Refusal :=
  if s.part.live = true ∧ decodePacket nibbles = .malformedPacket nibbles then
    .next { s with part := s.part.selectionEnds (fun p => if p.device = .ready then p.malformed else p) }
  else .next s

/-- The frame timer of a slot runs (R159). -/
def Slot.timerRuns : Slot → Bool
  | .idle => false
  | .assembling f => f.timer.isSome
  | .masked _ timer => timer.isSome

/-- FRAME_TIMEOUT_EXPIRY (R167): of a timer that runs. -/
def execFrameTimeoutExpiry (channel : Channel) (s : State) : Host.Outcome State Fault Refusal :=
  if s.part.live = true ∧ (s.part.slot channel).timerRuns = true then
    .next { s with part := (s.part.truncate channel).settle [] }
  else .next s

end Sys2Proof.Machine
end

