-- ==== Sys2Proof/Machine/Dispatch.lean ====
section
/-! DEFINITION. One arm per command, each a direct call of its meaning. -/

namespace Sys2Proof.Machine

def exec (i : Instr) (s : State) : Host.Outcome State Fault Refusal :=
  match i with
  | .powerOnReset rate1 rate0 => Sys2Proof.Machine.execPowerOnReset rate1 rate0 s
  | .powerFall => Sys2Proof.Machine.execPowerFall s
  | .resetNAssert lowNanos => Sys2Proof.Machine.execResetNAssert lowNanos s
  | .resetNRelease rate1 rate0 => Sys2Proof.Machine.execResetNRelease rate1 rate0 s
  | .protNChange asserted => Sys2Proof.Machine.execProtNChange asserted s
  | .cpermNChange asserted => Sys2Proof.Machine.execCpermNChange asserted s
  | .controlFrameReceive chars => Sys2Proof.Machine.execControlFrameReceive chars s
  | .interByteGapExpiry => Sys2Proof.Machine.execInterByteGapExpiry s
  | .messageBegin => Sys2Proof.Machine.execMessageBegin s
  | .messageEnd => Sys2Proof.Machine.execMessageEnd s
  | .unknownKind kind tag body => Sys2Proof.Machine.execUnknownKind kind tag body s
  | .identify tag body => Sys2Proof.Machine.execIdentify tag body s
  | .getStatus tag body => Sys2Proof.Machine.execGetStatus tag body s
  | .restart tag body => Sys2Proof.Machine.execRestart tag body s
  | .setNotices tag body => Sys2Proof.Machine.execSetNotices tag body s
  | .clearFaults tag body => Sys2Proof.Machine.execClearFaults tag body s
  | .eraseBlock tag body => Sys2Proof.Machine.execEraseBlock tag body s
  | .unitRead tag body => Sys2Proof.Machine.execUnitRead tag body s
  | .unitWrite tag body => Sys2Proof.Machine.execUnitWrite tag body s
  | .unitLock tag body => Sys2Proof.Machine.execUnitLock tag body s
  | .lockBlocks tag body => Sys2Proof.Machine.execLockBlocks tag body s
  | .unlockBlocks tag body => Sys2Proof.Machine.execUnlockBlocks tag body s
  | .downBlocks tag body => Sys2Proof.Machine.execDownBlocks tag body s
  | .mapWriteControl tag body => Sys2Proof.Machine.execMapWriteControl tag body s
  | .mapWriteFixed tag body => Sys2Proof.Machine.execMapWriteFixed tag body s
  | .mapWriteVariable tag body => Sys2Proof.Machine.execMapWriteVariable tag body s
  | .mapWriteDefault tag body => Sys2Proof.Machine.execMapWriteDefault tag body s
  | .mapRead tag body => Sys2Proof.Machine.execMapRead tag body s
  | .mapQuery tag body => Sys2Proof.Machine.execMapQuery tag body s
  | .mapApply tag body => Sys2Proof.Machine.execMapApply tag body s
  | .trigger tag body => Sys2Proof.Machine.execTrigger tag body s
  | .releaseEvent tag body => Sys2Proof.Machine.execReleaseEvent tag body s
  | .listEvents tag body => Sys2Proof.Machine.execListEvents tag body s
  | .getEvent tag body => Sys2Proof.Machine.execGetEvent tag body s
  | .setQueue tag body => Sys2Proof.Machine.execSetQueue tag body s
  | .flushChannel tag body => Sys2Proof.Machine.execFlushChannel tag body s
  | .setChannel tag body => Sys2Proof.Machine.execSetChannel tag body s
  | .getChannel tag body => Sys2Proof.Machine.execGetChannel tag body s
  | .startChannel tag body => Sys2Proof.Machine.execStartChannel tag body s
  | .stopChannel tag body => Sys2Proof.Machine.execStopChannel tag body s
  | .readRecords tag body => Sys2Proof.Machine.execReadRecords tag body s
  | .listJournal tag body => Sys2Proof.Machine.execListJournal tag body s
  | .getBlock tag body => Sys2Proof.Machine.execGetBlock tag body s
  | .fsPacket channel number => Sys2Proof.Machine.execFsPacket channel number s
  | .dataPacket channel count tail => Sys2Proof.Machine.execDataPacket channel count tail s
  | .fePacket channel number => Sys2Proof.Machine.execFePacket channel number s
  | .abortPacket channel value => Sys2Proof.Machine.execAbortPacket channel value s
  | .markPacket channel code => Sys2Proof.Machine.execMarkPacket channel code s
  | .malformedPacket nibbles => Sys2Proof.Machine.execMalformedPacket nibbles s
  | .frameTimeoutExpiry channel => Sys2Proof.Machine.execFrameTimeoutExpiry channel s
  | .programComplete outcome => Sys2Proof.Machine.execProgramComplete outcome s
  | .readComplete => Sys2Proof.Machine.execReadComplete s
  | .erasePulseEnd verified => Sys2Proof.Machine.execErasePulseEnd verified s
  | .eraseSliceTimerExpiry => Sys2Proof.Machine.execEraseSliceTimerExpiry s
  | .suspensionTakesEffect ranMicros => Sys2Proof.Machine.execSuspensionTakesEffect ranMicros s
  | .unitAreaImageLoadEnd => Sys2Proof.Machine.execUnitAreaImageLoadEnd s

end Sys2Proof.Machine
end

