-- ==== Sys2Proof/Safety.lean ====
section
/-! DEFINITION. What a safe run of the part is, and what the reactions of the units leave alone, in the terms the
statements use. -/

namespace Sys2Proof

open Machine

/-- A step ends in a next state. -/
def completes (o : Host.Outcome State Fault Refusal) : Prop := ∃ t, o = .next t

namespace Machine

/-! ### What the reactions of the units leave alone -/

/-- The registers no reaction of the units writes. -/
structure Frozen where
  power : Power
  pins : Pins
  store : List Host.Cell
  unitArea : UnitArea
  freeIdx : Nat
  image : UnitImage
  staged : RetentionMap
  active : RetentionMap
  settings : Vector Settings 4
  slots : Vector Slot 4
  awaitsSelection : Bool
  link : LinkCounters
  mask : BitVec 16
  lastKind : Vector (Option EntryKind) 4
  high : Nat
  low : Nat
  framer : Framer
  buffer : List Request
  restartPlaced : Bool
  discarded : Nat
  sending : Option Message

/-- The frozen registers of a part. -/
def Part.frozen (p : Part) : Frozen :=
  { power := p.power, pins := p.pins, store := p.store, unitArea := p.unitArea, freeIdx := p.freeIdx, image := p.image
    staged := p.staged, active := p.active, settings := p.settings, slots := p.slots
    awaitsSelection := p.awaitsSelection, link := p.link
    mask := p.notices.mask, lastKind := p.queue.lastKind, high := p.queue.high, low := p.queue.low
    framer := p.ctrl.framer, buffer := p.ctrl.buffer, restartPlaced := p.ctrl.restartPlaced
    discarded := p.ctrl.discarded, sending := p.ctrl.sending }

/-- Lock fields under the reactions: set bits stay set, the cut flag stays, and with no lock pending nothing changes. -/
structure LockKept (e e' : DirEntry) : Prop where
  lockBit : e.lockBit = true → e'.lockBit = true
  downFlag : e.downFlag = true → e'.downFlag = true
  cut : e'.cut = e.cut
  still : e.pending = .clear → e'.pending = .clear ∧ e'.lockBit = e.lockBit ∧ e'.downFlag = e.downFlag

/-- A channel under the reactions: cadence, continuity and the counters of its packets stay; its state only drains. -/
structure ChanKept (k k' : ChannelStatus) : Prop where
  cadence : k'.cadence = k.cadence
  expected : k'.expected = k.expected
  passed : k'.counters.passed = k.counters.passed
  masked : k'.counters.masked = k.counters.masked
  overruns : k'.counters.overruns = k.counters.overruns
  tagged : k'.counters.tagged = k.counters.tagged
  dropped : k'.counters.dropped = k.counters.dropped
  flushed : k'.counters.flushed = k.counters.flushed
  clipped : k'.counters.clipped = k.counters.clipped
  state : k'.state = k.state ∨ (k.state = .stopping ∧ k'.state = .stopped)

/-- Sticky faults under the reactions: a fault that is set stays set (R42). -/
structure FaultsKept (f f' : FaultSet) : Prop where
  supply : f.supply = true → f'.supply = true
  programFail : f.programFail = true → f'.programFail = true
  eraseFail : f.eraseFail = true → f'.eraseFail = true
  lockedHit : f.lockedHit = true → f'.lockedHit = true

/-- What every reaction of the units keeps. -/
structure Kept (p q : Part) : Prop where
  frozen : q.frozen = p.frozen
  faults : FaultsKept p.ctl.faults q.ctl.faults
  ready : p.device = .ready → q.device = .ready ∧ q.scan = p.scan ∧ ∀ b, LockKept (p.entry b) (q.entry b)
  serving : p.ctrl.serving = none → q.ctrl.serving = none ∧ q.ctrl.reply = p.ctrl.reply
  chans : ∀ c, ChanKept (p.chan c) (q.chan c)

/-! ### The units at rest -/

/-- The Journal Engine has nothing to do: nothing queued, no program waiting or outstanding, no close due. -/
structure Part.JournalsQuiet (p : Part) : Prop where
  entries : p.queue.entries = []
  backlog : p.je.backlog = []
  outstanding : p.je.outstanding = none
  due : ∀ c, (p.journal c).due.any = false

/-- The Journal Engine waits for the outcome of its subject's record program: the program is in flight from a WRITING
journal, no header program waits, no close is due (R60, R63). -/
structure Part.CommitInFlight (p : Part) : Prop where
  outstanding : p.je.outstanding = some .record
  backlog : p.je.backlog = []
  due : ∀ c, (p.journal c).due.any = false
  subject : ∃ e, p.subject = some e ∧ (p.journal e.channel).state = .writing
  array : p.ctl.array.isSome = true

/-- Nothing stands in the array and nothing waits for it. -/
structure Part.StoreQuiet (p : Part) : Prop where
  array : p.ctl.array = none
  erase : p.ctl.erase = none
  suspended : p.ctl.suspended = none
  programs : p.ctl.programs = []
  readSlot : p.ctl.readSlot = none
  eraseQueue : p.ctl.eraseQueue = []

/-- Programs may begin: the SUPPLY fault and the supply hold are clear, and VST stands above every threshold of R40. -/
structure Part.Supplied (p : Part) : Prop where
  fault : p.ctl.faults.supply = false
  hold : p.je.hold = false
  coming : p.supply.coming = []
  level : 2850 ≤ p.supply.vstMv

/-- The part with this header program of the Journal Engine in the array, presented from the backlog's head (R60). -/
def Part.runsHeader (p : Part) (op : ProgramOp) : Part :=
  { p with
    je := { p.je with outstanding := some .header }
    ctl := { p.ctl with array := some (.program { source := .journalEngine, op }) } }

/-- How many blocks from first to last satisfy a test of their entries. -/
def Part.tally (p : Part) (first last : Nat) (f : Block → DirEntry → Bool) : Nat :=
  (allBlocks.filter (fun b => decide (first ≤ b.val) && decide (b.val ≤ last) && f b (p.entry b))).length

/-! ### What a command meets -/

/-- The state with another part, the same commands waiting. -/
abbrev State.withPart (s : State) (p : Part) : State := { s with part := p }

/-- The Request Server takes this request: it is free, and the request stands at the buffer's head or arrives at the empty
buffer; `p` is the part as the request leaves the buffer (R186, log 3). -/
def Requested (s : State) (kind tag : Byte) (body : List Byte) (p : Part) : Prop :=
  s.part.canTake = true ∧ s.part.takeFromBuffer { kind, tag, body } = some p

/-- A packet for a channel is handed to its slot: the part is READY, waits for no new selection, and the channel is RUNNING
(R154, R156 order 6). -/
def TakesPacket (s : State) (c : Channel) : Prop :=
  s.part.live = true ∧ s.part.device = .ready ∧ s.part.awaitsSelection = false ∧ (s.part.chan c).state = .running

/-- A command ends in a next state whose part is `p` after the reactions of the units, the other commands still waiting. -/
def ReactsFrom (o : Host.Outcome State Fault Refusal) (s : State) (p : Part) (t : State) : Prop :=
  o = .next t ∧ t.pending = s.pending ∧ Kept p t.part

/-! ### Invariants -/

/-- Every variable descriptor of a map copy has a span of R83 and a base that is a multiple of it, inside the store
(R92). -/
def RetentionMap.aligned (m : RetentionMap) : Bool :=
  m.vars.toList.all (fun d => isSpan d.span && decide (d.base % d.span = 0) && decide (d.base + d.span ≤ 128))

/-- Both copies of the map are aligned. -/
def Part.mapsAligned (p : Part) : Bool := p.staged.aligned && p.active.aligned

/-- The marks of the Capture Queue stay in their ranges (R121, R135). -/
def Part.marksInRange (p : Part) : Bool :=
  decide (33 ≤ p.queue.high) && decide (p.queue.high ≤ Config.queueLines) && decide (p.queue.low + 33 ≤ p.queue.high)

/-- The request buffer holds at most 2 requests (R185). -/
def Part.bufferBounded (p : Part) : Bool := decide (p.ctrl.buffer.length ≤ Config.bufferPlaces)

/-- The store is in the one canonical form of its memory. -/
def Part.storeCanonical (p : Part) : Bool := Memory.wf p.store

end Machine

end Sys2Proof
end

