-- ==== Sys2Proof/WellFormed.lean ====
section
/-! DEFINITION. Which commands can be events of the part at all: the limits the manual puts on their operands.
`exec` is total on every command; an ill-formed one is no event of the part (log 1). -/

namespace Sys2Proof

/-- A request body fits in a control link frame (R183). -/
def bodyWellFormed (body : List Byte) : Bool := decide (body.length ≤ Config.maxBody)

/-- A command's operands are ones its event can carry. -/
def Instr.wellFormed : Instr → Bool
  | .unknownKind kind tag body => bodyWellFormed body && decide (decodeRequest kind tag body = .unknownKind kind tag body)
  | .identify _ body | .getStatus _ body | .restart _ body | .setNotices _ body | .clearFaults _ body
  | .eraseBlock _ body | .unitRead _ body | .unitWrite _ body | .unitLock _ body | .lockBlocks _ body
  | .unlockBlocks _ body | .downBlocks _ body | .mapWriteControl _ body | .mapWriteFixed _ body
  | .mapWriteVariable _ body | .mapWriteDefault _ body | .mapRead _ body | .mapQuery _ body | .mapApply _ body
  | .trigger _ body | .releaseEvent _ body | .listEvents _ body | .getEvent _ body | .setQueue _ body
  | .flushChannel _ body | .setChannel _ body | .getChannel _ body | .startChannel _ body | .stopChannel _ body
  | .readRecords _ body | .listJournal _ body | .getBlock _ body => bodyWellFormed body
  | .dataPacket _ count _ => decide (1 ≤ count.toNat ∧ count.toNat ≤ 256)
  | .malformedPacket nibbles => decide (decodePacket nibbles = .malformedPacket nibbles)
  | .programComplete (.fail line) => decide (line < 33)
  | .suspensionTakesEffect ran => decide (ran ≤ Config.pulseMicros)
  | .programComplete .ok | .powerOnReset _ _ | .powerFall | .resetNAssert _ | .resetNRelease _ _ | .protNChange _
  | .cpermNChange _ | .controlFrameReceive _ | .interByteGapExpiry | .messageBegin | .messageEnd
  | .fsPacket _ _ | .fePacket _ _ | .abortPacket _ _ | .markPacket _ _ | .frameTimeoutExpiry _ | .readComplete
  | .erasePulseEnd _ | .eraseSliceTimerExpiry | .unitAreaImageLoadEnd => true

end Sys2Proof
end

