-- ==== Sys2Proof/Certificates/Slice0/Obligations.lean ====
section
/-! DEFINITION. The statements for the provers. -/

open Sys2Proof Sys2Proof.Machine

/-! ### The queue of commands -/

/-- A step with a command at the front of the queue is that command on the state with the queue's rest. -/
def Obligations.StepRunsFrontCommand : Prop :=
  ∀ (c : Instr) (s : State), step { s with pending := c :: s.pending } = exec c s

/-- No command touches the commands behind it. -/
def Obligations.CommandsKeepQueue : Prop :=
  ∀ (c : Instr) (s t : State), exec c s = .next t → t.pending = s.pending

/-- Every command ends in a next state, whatever the state. -/
def Obligations.CommandsComplete : Prop :=
  ∀ (c : Instr) (s : State), completes (exec c s)

/-! ### Resets, power and pins -/

/-- The values the volatile units take at a reset (R48, R56, R89, R103, R122, R136, R138, R160, R173, R186, R191, R193), whatever
the part; the unit area image is then to be loaded (R197). -/
def Obligations.ResetGivesUnitValues : Prop :=
  ∀ p : Part,
    let q := p.resetUnits
    let d : Descriptor := { cls := .ring, set := 0xF#4 }
    let m : RetentionMap :=
      { enable := true, fixedEnable := false, fixed := Vector.replicate 16 d
        vars := Vector.replicate 8 { valid := false, base := 0, span := 1, cls := .ring, set := 0xF#4 }, dflt := d }
    q.device = .scanning ∧ q.freeList = [] ∧ q.staged = m ∧ q.active = m
      ∧ (∀ b, m.eval b = { cls := .ring, set := 0xF#4, source := .default })
      ∧ q.events.table = [] ∧ q.events.nextId = 1
      ∧ q.queue.entries = [] ∧ q.queue.high = 1536 ∧ q.queue.low = 1024 ∧ q.queue.hold = true
      ∧ (∀ c, q.lastKind c = none)
      ∧ (∀ c, (q.chan c).state = .stopped ∧ (q.chan c).cadence = 0 ∧ (q.chan c).expected = none
          ∧ (q.chan c).closePending = false ∧ (q.chan c).counters = .zero)
      ∧ (∀ c, q.slot c = .idle) ∧ q.awaitsSelection = false ∧ q.link = { malformed := 0, orphan := 0, refused := 0 }
      ∧ (∀ c, (q.journal c).state = .noBlock ∧ (q.journal c).openBlock = none ∧ (q.journal c).reclaim = none
          ∧ (q.journal c).due.any = false)
      ∧ q.je.wait = [] ∧ q.je.backlog = [] ∧ q.je.outstanding = none ∧ q.je.hold = false
      ∧ q.ctl = { array := none, erase := none, suspended := none, programs := [], readSlot := none, eraseQueue := []
                  slice := .stopped
                  faults := { supply := false, programFail := false, eraseFail := false, lockedHit := false } }
      ∧ (∀ b, (q.entry b).lockBit = false ∧ (q.entry b).downFlag = false ∧ (q.entry b).cut = false
          ∧ (q.entry b).worn = false ∧ (q.entry b).pending = .clear ∧ (q.entry b).holdCount = 0)
      ∧ q.notices.queue = [] ∧ q.notices.mask = 0x01FC#16 ∧ q.notices.dropped = false
      ∧ q.ctrl.buffer = [] ∧ q.ctrl.framer = .hunting ∧ q.ctrl.reply = none ∧ q.ctrl.discarded = 0
      ∧ q.ctrl.serving = none ∧ q.ctrl.restartPlaced = false ∧ q.ctrl.sending = none
      ∧ (∀ c, q.setting c = { pass := 0, mask := 0, clipLower := 0, clipUpper := 4095, wrap := 65536, triggerCode := none
                              preWindow := 2, postWindow := 64, policy := .block, dropTagged := false, timing := .commit
                              timeout := 0 })
      ∧ q.image.loaded = false ∧ q.scan = { classified := 0, phase := .imageLoad }

/-- POWER_ON_RESET, POWER_FALL, RESET_N_ASSERT and RESET_N_RELEASE with no store work in progress: start-up begins, and
the store, the unit area and the pins pass through; a short low is filtered out. A reset that ends while SLSEL_N is low leaves
the receiver waiting for a new selection (R154, R196, R197). -/
def Obligations.ResetEventsBeginStartUp : Prop :=
  ∀ s : State, s.part.ctl.array = none → s.part.ctl.begunErase = none →
    let w := s.part.power
    let held := fun w : Power =>
      Part.atStartUp w s.part.pins s.part.supply s.part.store s.part.unitArea s.part.freeIdx
    let up := fun w : Power => { held w with
      awaitsSelection := s.part.pins.selections.headD false
      pins := { s.part.pins with selections := s.part.pins.selections.tail } }
    (∀ r1 r0, w.resetNLow = false → exec (.powerOnReset r1 r0) s
        = .next (s.withPart (up { w with powered := true, cause := .powerOn, rate1 := r1, rate0 := r0 })))
      ∧ exec .powerFall s = .next (s.withPart (held { w with powered := false }))
      ∧ (∀ n, 10000 ≤ n → w.resetNLow = false → exec (.resetNAssert n) s
          = .next (s.withPart (held { w with resetNLow := true })))
      ∧ (∀ n, n < 10000 → exec (.resetNAssert n) s = .next s)
      ∧ (∀ r1 r0, w.resetNLow = true → w.powered = true → exec (.resetNRelease r1 r0) s
          = .next (s.withPart (up
              { w with powered := true, resetNLow := false, cause := .resetPin, rate1 := r1, rate0 := r0 })))

/-- A reset aborts the store work in progress and leaves every byte it was not writing (R48). -/
def Obligations.ResetAbortsStoreWork : Prop :=
  ∀ p : Part,
    (∀ req a bytes, p.ctl.array = some (.program req) → req.op.target = some (a, bytes) → p.ctl.begunErase = none →
      (∀ x, x < a ∨ a + bytes.length ≤ x → Memory.read p.resetUnits.store x = Memory.read p.store x)
        ∧ p.resetUnits.unitArea = p.unitArea)
    ∧ (∀ b, p.ctl.begunErase = some b → p.ctl.array = none →
      (∀ x, x < lineAddress b 0 ∨ lineAddress b 0 + 32768 ≤ x →
        Memory.read p.resetUnits.store x = Memory.read p.store x) ∧ p.resetUnits.unitArea = p.unitArea)

/-- UNIT_AREA_IMAGE_LOAD_END: the image holds the unit area, an IDENTIFY that waited is answered, and the scanner's read of
line 0 of its first block begins (R197, R198). -/
def Obligations.ImageLoadEndBeginsScan : Prop :=
  ∀ s : State, s.part.live = true → s.part.scan.phase = .imageLoad →
    (s.part.ctrl.serving = none → s.part.JournalsQuiet → s.part.StoreQuiet →
      (s.part.entry s.part.scanBlock).state ≠ .erasing →
        exec .unitAreaImageLoadEnd s = .next (s.withPart ({ s.part with
          image := { area := s.part.unitArea, loaded := true }
          scan := { s.part.scan with phase := .header }
          ctl := { s.part.ctl with
            array := some (.read { source := .storeScanner, block := s.part.scanBlock, line := 0, count := 1 }) } })))
    ∧ (∀ tag, s.part.ctrl.serving = some (.identifyHeld tag) →
      ∃ t, exec .unitAreaImageLoadEnd s = .next t ∧ t.pending = s.pending
        ∧ t.part.image = { area := s.part.unitArea, loaded := true }
        ∧ t.part.ctrl.reply
          = some { tag, kind := 0x01#8, status := .ok, contents := capabilities s.part.unitArea.identity.toList })

/-- The effective lock state follows from the lock bit, the down flag and PROT_N; PROT_N_CHANGE follows the level, the units
react, and the lock fields of a block with no lock pending stay; a report of the level it has changes nothing (R21). -/
def Obligations.ProtectionPinFollowed : Prop :=
  (∀ (p : Part) (b : Block),
      (p.lockOf b = .down ↔ (p.entry b).downFlag = true ∧ p.pins.protN = true)
      ∧ (p.lockOf b = .locked ↔ ¬((p.entry b).downFlag = true ∧ p.pins.protN = true) ∧ (p.entry b).lockBit = true)
      ∧ (p.lockOf b = .unlocked ↔ ¬((p.entry b).downFlag = true ∧ p.pins.protN = true) ∧ (p.entry b).lockBit = false)) ∧
  (∀ (s : State) (a : Bool),
      (s.part.pins.protN = a → exec (.protNChange a) s = .next s)
      ∧ (s.part.pins.protN ≠ a → s.part.live = true →
        ∃ t, ReactsFrom (exec (.protNChange a) s) s { s.part with pins := { s.part.pins with protN := a } } t
          ∧ t.part.pins.protN = a
          ∧ (s.part.device = .ready → ∀ b, (s.part.entry b).pending = .clear →
            (t.part.entry b).lockBit = (s.part.entry b).lockBit
              ∧ (t.part.entry b).downFlag = (s.part.entry b).downFlag)))

/-- CPERM_N_CHANGE sets the level the Transmit Arbiter looks at and nothing else. MESSAGE_BEGIN: with the arbiter IDLE and
CPERM_N asserted the reply is begun, or the notice at the head when there is no reply (R192). A MESSAGE_BEGIN with nothing to
send, while SENDING, or with CPERM_N deasserted changes nothing: the model's choice for a command that cannot occur (log 1). -/
def Obligations.MessageBeginTakesReplyFirst : Prop :=
  (∀ (s : State) (a : Bool), exec (.cpermNChange a) s
      = .next (s.withPart ({ s.part with pins := { s.part.pins with cpermN := a } }))) ∧
  (∀ s : State, s.part.live = true →
      (∀ r, s.part.ctrl.sending = none → s.part.pins.cpermN = true → s.part.ctrl.reply = some r →
        exec .messageBegin s = .next (s.withPart ({ s.part with ctrl := { s.part.ctrl with
          reply := none, sending := some (.reply r) } })))
      ∧ (∀ n rest, s.part.ctrl.sending = none → s.part.pins.cpermN = true → s.part.ctrl.reply = none →
        s.part.notices.queue = n :: rest →
        exec .messageBegin s = .next (s.withPart ({ s.part with
          notices := { s.part.notices with queue := rest }
          ctrl := { s.part.ctrl with sending := some (.notice n) } })))
      ∧ (s.part.ctrl.reply = none → s.part.notices.queue = [] → exec .messageBegin s = .next s)
      ∧ (s.part.ctrl.sending ≠ none → exec .messageBegin s = .next s)
      ∧ (s.part.pins.cpermN = false → exec .messageBegin s = .next s))

/-! ### The control link -/

/-- CONTROL_FRAME_RECEIVE of one whole sound frame: its request joins the tail of a buffer with room, and is discarded and
counted once when the buffer holds 2 (R183 to R185, R205). -/
def Obligations.SoundFrameStoredOrCounted : Prop :=
  ∀ (s : State) (kind tag : Byte) (body : List Byte), s.part.live = true → s.part.ctrl.framer = .hunting →
    body.length ≤ 1088 →
    let chars := (frameBytes kind tag body).map (fun b => { byte := b, stopHigh := true : RxChar })
    (s.part.ctrl.buffer.length < 2 → exec (.controlFrameReceive chars) s
        = .next (s.withPart ({ s.part with ctrl := { s.part.ctrl with
            buffer := s.part.ctrl.buffer ++ [{ kind, tag, body }] } })))
    ∧ (2 ≤ s.part.ctrl.buffer.length → exec (.controlFrameReceive chars) s
        = .next (s.withPart ({ s.part with ctrl := { s.part.ctrl with
            discarded := min (s.part.ctrl.discarded + 1) 4294967295 } })))

/-- A frame in progress is discarded and counted once at the expiry of its gap, at a low stop bit, at a length below 2 or above
1,090, and at its last byte where the check does not match; characters other than the start byte are ignored while HUNTING
(R183, R184). -/
def Obligations.BrokenFrameDiscarded : Prop :=
  ∀ s : State, s.part.live = true →
    let gone := State.mk { s.part with ctrl := { s.part.ctrl with
      framer := .hunting, discarded := min (s.part.ctrl.discarded + 1) 4294967295 } } s.pending
    (∀ taken, s.part.ctrl.framer = .receiving taken → exec .interByteGapExpiry s = .next gone
      ∧ ∀ b, exec (.controlFrameReceive [{ byte := b, stopHigh := false }]) s = .next gone)
    ∧ (∀ low high : Byte, s.part.ctrl.framer = .receiving [low] →
      (low.toNat + 256 * high.toNat < 2 ∨ 1090 < low.toNat + 256 * high.toNat) →
        exec (.controlFrameReceive [{ byte := high, stopHigh := true }]) s = .next gone)
    ∧ (∀ (checked : List Byte) (low high : Byte), s.part.ctrl.framer = .receiving (checked ++ [low]) →
      2 ≤ frameLength checked → checked.length = 2 + frameLength checked → [low, high] ≠ checkBytes checked →
        exec (.controlFrameReceive [{ byte := high, stopHigh := true }]) s = .next gone)
    ∧ (∀ x : RxChar, s.part.ctrl.framer = .hunting → x.byte ≠ 0x9C#8 → exec (.controlFrameReceive [x]) s = .next s)

/-- MESSAGE_END: the arbiter becomes IDLE; after the OK reply of a RESTART start-up begins with the rate kept, and with
SLSEL_N low the receiver waits for a new selection (R154, R189, R192, R196). -/
def Obligations.MessageEndFreesArbiter : Prop :=
  ∀ (s : State) (m : Message), s.part.ctrl.sending = some m →
    (m.restarts = false → exec .messageEnd s
      = .next (s.withPart ({ s.part with ctrl := { s.part.ctrl with sending := none } })))
    ∧ (∀ tag contents, m = .reply { tag, kind := 0x03#8, status := .ok, contents } →
      s.part.ctl.array = none → s.part.ctl.begunErase = none →
      exec .messageEnd s = .next (s.withPart { Part.atStartUp { s.part.power with cause := .restart } s.part.pins
        s.part.supply s.part.store s.part.unitArea s.part.freeIdx with
          awaitsSelection := s.part.pins.selections.headD false
          pins := { s.part.pins with selections := s.part.pins.selections.tail } }))

/-- A notice is not made when its bit of the mask is off, joins the tail while the queue holds fewer than 16, and is
dropped with the flag set otherwise; STARTED and OP_DONE pass any mask (R190). -/
def Obligations.NoticeQueueFollowsR190 : Prop :=
  ∀ (p : Part) (n : Notice),
    (2 ≤ n.code → p.notices.mask.getLsbD n.code = false → p.notify n = p)
    ∧ (n.code < 2 ∨ p.notices.mask.getLsbD n.code = true →
      (p.notices.queue.length < 16 →
        p.notify n = { p with notices := { p.notices with queue := p.notices.queue ++ [n] } })
      ∧ (16 ≤ p.notices.queue.length → p.notify n = { p with notices := { p.notices with dropped := true } }))

/-! ### Requests judged before their owner's rule (R186) -/

/-- Orders 1 to 4 of R186: a kind that is no request kind, a body of the wrong length, a request other than IDENTIFY and
GET_STATUS while SCANNING, and a field whose encoding does not allow its value are answered so and change nothing else.
No request is taken while one is served, a reply waits or a RESTART has been answered (R186, R189; that the command then
has no effect is the model's choice, log 3). -/
def Obligations.RequestsJudgedInOrder : Prop :=
  (∀ (s : State) (kind tag : Byte) (body : List Byte) (p : Part), bodyLength kind = none → Requested s kind tag body p →
      exec (.unknownKind kind tag body) s = .next (s.withPart (p.placeReply tag kind .unknownKind []))) ∧
  (∀ (s : State) (kind tag : Byte) (body : List Byte) (p : Part) (n : Nat), bodyLength kind = some n → body.length ≠ n →
      Requested s kind tag body p →
        exec (decodeRequest kind tag body) s = .next (s.withPart (p.placeReply tag kind .badLength []))) ∧
  (∀ (s : State) (kind tag : Byte) (body : List Byte) (p : Part), bodyLength kind = some body.length →
      kind ≠ 0x01#8 → kind ≠ 0x02#8 → s.part.device = .scanning → Requested s kind tag body p →
        exec (decodeRequest kind tag body) s = .next (s.withPart (p.placeReply tag kind .scanning []))) ∧
  (∀ (s : State) (kind tag : Byte) (body : List Byte) (p : Part), bodyLength kind = some body.length →
      encodingAllowed kind body = false → s.part.device = .ready → Requested s kind tag body p →
        exec (decodeRequest kind tag body) s = .next (s.withPart (p.placeReply tag kind .badValue []))) ∧
  (∀ (s : State) (kind tag : Byte) (body : List Byte),
      s.part.ctrl.serving ≠ none ∨ s.part.ctrl.reply ≠ none ∨ s.part.ctrl.restartPlaced = true →
        exec (decodeRequest kind tag body) s = .next s)

/-! ### Control Link Interface requests -/

/-- IDENTIFY: the capability record with the identity of the image, or held until the image is loaded (R195, R198).
GET_STATUS is answered in every device state and clears the notices-dropped flag it reports (R194). RESTART is answered OK,
and no further request is taken (R189). -/
def Obligations.LinkRequestsAnswered : Prop :=
  (∀ (s : State) (tag : Byte) (p : Part), Requested s 0x01#8 tag [] p →
      (p.image.loaded = true → exec (.identify tag []) s
        = .next (s.withPart (p.placeReply tag 0x01#8 .ok
            ([0x42#8, 0x3D#8, 0x40#8, 0x07#8, 1#8, 128#8, 0x00#8, 0x04#8, 32#8, 4#8, 16#8, 8#8, 16#8, 64#8, 0x00#8, 0x08#8]
              ++ p.image.area.identity.toList))))
      ∧ (p.image.loaded = false → exec (.identify tag []) s
        = .next (s.withPart ({ p with ctrl := { p.ctrl with serving := some (.identifyHeld tag) } })))) ∧
  (∀ (s : State) (tag : Byte) (p : Part), Requested s 0x02#8 tag [] p →
      exec (.getStatus tag []) s = .next (s.withPart
        (({ p with notices := { p.notices with dropped := false } }).placeReply tag 0x02#8 .ok p.statusBytes))) ∧
  (∀ (s : State) (tag : Byte) (p : Part), s.part.device = .ready → Requested s 0x03#8 tag [] p →
      exec (.restart tag []) s = .next (s.withPart
        (({ p with ctrl := { p.ctrl with restartPlaced := true } }).placeReply tag 0x03#8 .ok [])))

/-- SET_NOTICES replaces the mask, and the reply carries the mask before (R191). -/
def Obligations.NoticeMaskReplaced : Prop :=
  ∀ (s : State) (tag : Byte) (mask : BitVec 16) (p : Part), s.part.device = .ready → mask &&& ~~~0x07FC#16 = 0#16 →
    Requested s 0x04#8 tag (leBytes 2 mask.toNat) p →
      exec (.setNotices tag (leBytes 2 mask.toNat)) s = .next (s.withPart
        (({ p with notices := { p.notices with mask } }).placeReply tag 0x04#8 .ok (leBytes 2 p.notices.mask.toNat)))

/-! ### Store Controller requests -/

/-- CLEAR_FAULTS is answered OK with the set before; with the units at rest it clears the set and the supply hold and does
nothing else. In the retry pass that follows, a journal STALLED with STORE_FAULT makes a RESUMED notice and is WRITING where it
holds an open block, WAITING where its reclaim block is still ERASING; otherwise its reclaim block is absent and it allocates
(R43, R53, R75, R82). -/
def Obligations.FaultsCleared : Prop :=
  ∀ (s : State) (tag : Byte) (p : Part), s.part.device = .ready → Requested s 0x05#8 tag [] p →
    let q := (p.updFaults (fun _ => { supply := false, programFail := false, eraseFail := false, lockedHit := false }))
    let reply : Reply := { tag, kind := 0x05#8, status := .ok, contents := [p.ctl.faults.byte] }
    (∃ t, exec (.clearFaults tag []) s = .next t ∧ t.pending = s.pending ∧ t.part.ctrl.reply = some reply
      ∧ t.part.store = s.part.store)
    ∧ (p.JournalsQuiet → p.StoreQuiet → p.je.wait = [] →
      exec (.clearFaults tag []) s
        = .next (s.withPart ({ q with je := { p.je with hold := false }, ctrl := { p.ctrl with reply := some reply } })))
    ∧ (∀ (c : Channel) (b : Block), p.JournalsQuiet → p.StoreQuiet → p.je.wait = [c] →
      (p.journal c).state = .stalled .storeFault → (p.journal c).openBlock = some b → p.notices.mask = 0x01FC#16 →
      p.notices.queue.length < 16 →
      ∃ t, exec (.clearFaults tag []) s = .next t ∧ (t.part.journal c).state = .writing
        ∧ (t.part.journal c).openBlock = some b ∧ t.part.je.wait = [] ∧ t.part.je.hold = false
        ∧ t.part.notices.queue = p.notices.queue ++ [.resumed c .writing])
    ∧ (∀ c : Channel, (p.journal c).state = .stalled .storeFault →
      let t := p.retryOne c
      let resumed := fun st => p.notices.mask = 0x01FC#16 → p.notices.queue.length < 16 →
        t.notices.queue = p.notices.queue ++ [.resumed c st]
      (∀ b, (p.journal c).openBlock = some b → (t.journal c).state = .writing ∧ (t.journal c).openBlock = some b
        ∧ t.je.wait = p.je.wait.filter (fun x => decide (x ≠ c)) ∧ resumed .writing)
      ∧ (∀ b, (p.journal c).openBlock = none → (p.journal c).reclaim = some b → (p.entry b).state = .erasing →
        (t.journal c).state = .waiting ∧ (t.journal c).reclaim = some b ∧ t.je.wait = p.je.wait ∧ resumed .waiting)
      ∧ ((p.journal c).openBlock = none → (∀ b, (p.journal c).reclaim = some b → (p.entry b).state ≠ .erasing) →
        t = (p.updJournal c (fun j => { j with reclaim := none })).allocate c))

/-- ERASE_BLOCK refused by orders 1 to 4 of R46 places that reply and changes nothing else. -/
def Obligations.EraseBlockRefused : Prop :=
  ∀ (s : State) (tag x : Byte) (p : Part), s.part.device = .ready → Requested s 0x06#8 tag [x] p →
    let answer := fun status => Host.Outcome.next (State.mk (p.placeReply tag 0x06#8 status []) s.pending)
    (127 < x.toNat → exec (.eraseBlock tag [x]) s = answer .badValue)
    ∧ (∀ b : Block, b.val = x.toNat →
      ((p.entry b).state ≠ .closed → (p.entry b).state ≠ .torn → exec (.eraseBlock tag [x]) s = answer .state)
      ∧ ((p.entry b).state = .closed ∨ (p.entry b).state = .torn →
        (0 < (p.entry b).holdCount → exec (.eraseBlock tag [x]) s = answer .held)
        ∧ ((p.entry b).holdCount = 0 → p.lockOf b ≠ .unlocked → exec (.eraseBlock tag [x]) s = answer .locked)))

/-- ERASE_BLOCK accepted. A worn block becomes RETIRED; with the units at rest, the supply good and room for both notices, its
retire mark begins and BLOCK_RETIRED and OP_DONE with RETIRED are made. Another block becomes ERASING and joins the erase
queue, and with the units at rest and the supply good its erase begins (R11, R18, R46, R47). -/
def Obligations.EraseBlockAccepted : Prop :=
  ∀ (s : State) (tag x : Byte) (p : Part) (b : Block), s.part.device = .ready → Requested s 0x06#8 tag [x] p →
    b.val = x.toNat → (p.entry b).holdCount = 0 → p.lockOf b = .unlocked →
    let reply : Reply := { tag, kind := 0x06#8, status := .accepted, contents := [] }
    ((p.entry b).state = .closed → (p.entry b).worn = true →
      (∃ t, ReactsFrom (exec (.eraseBlock tag [x]) s) s
          (((p.retire b .worn).placeReply tag 0x06#8 .accepted []).notify (.opDone tag b .retired)) t
        ∧ t.part.ctrl.reply = some reply ∧ (t.part.entry b).state = .retired)
      ∧ (p.JournalsQuiet → p.StoreQuiet → p.Supplied → p.notices.mask = 0x01FC#16 → p.notices.queue.length ≤ 14 →
        ∃ t, exec (.eraseBlock tag [x]) s = .next t ∧ t.pending = s.pending ∧ t.part.ctrl.reply = some reply
          ∧ t.part.entry b = { p.entry b with
              state := .retired, prior := none, channel := none, seq := none, fill := 0, first := none, last := none
              worn := false }
          ∧ t.part.je.backlog = [.retireMark b]
          ∧ t.part.ctl.array = some (.program { source := .journalEngine, op := .retireMark b })
          ∧ t.part.notices.queue = p.notices.queue ++ [.blockRetired b .worn, .opDone tag b .retired]
          ∧ t.part.ctl.eraseQueue = [] ∧ (∀ b', b' ≠ b → t.part.entry b' = p.entry b')))
    ∧ (((p.entry b).state = .closed ∧ (p.entry b).worn = false) ∨ (p.entry b).state = .torn →
      (∃ t, ReactsFrom (exec (.eraseBlock tag [x]) s) s
          ((p.enqueueErase b (.host tag)).placeReply tag 0x06#8 .accepted []) t
        ∧ t.part.ctrl.reply = some reply
        ∧ (t.part.entry b).state = .erasing ∧ { block := b, requester := .host tag } ∈ t.part.ctl.eraseQueue)
      ∧ (p.JournalsQuiet → p.StoreQuiet → p.ctl.faults.supply = false → p.supply.coming = [] → 2850 ≤ p.supply.vstMv →
        ∃ t, exec (.eraseBlock tag [x]) s = .next t ∧ (t.part.entry b).state = .erasing
          ∧ t.part.ctl.eraseQueue = [{ block := b, requester := .host tag }]
          ∧ t.part.ctl.erase = some { block := b, pulses := 0, remaining := 25000, suspending := false }
          ∧ t.part.ctl.slice = .below))

/-- UNIT_READ answers the image, the set of written words and the lock, and changes nothing (R50). -/
def Obligations.UnitAreaRead : Prop :=
  ∀ (s : State) (tag : Byte) (p : Part), s.part.device = .ready → Requested s 0x07#8 tag [] p →
    exec (.unitRead tag []) s = .next (s.withPart (p.placeReply tag 0x07#8 .ok
      (p.image.area.identity.toList
        ++ p.image.area.words.toList.flatMap (fun
          | some v => leBytes 4 v.toNat
          | none => List.replicate 4 0xFF#8)
        ++ leBytes 2 p.image.area.writtenSet ++ [flagByte p.image.area.locked])))

/-- UNIT_WRITE and UNIT_LOCK: the refusals of R51 and R52 in order, and the program begun where the units are at rest and the
supply is good. -/
def Obligations.UnitProgramsRequested : Prop :=
  (∀ (s : State) (tag x : Byte) (value : BitVec 32) (p : Part), s.part.device = .ready →
      Requested s 0x08#8 tag (x :: leBytes 4 value.toNat) p →
      let answer := fun status => Host.Outcome.next (State.mk (p.placeReply tag 0x08#8 status []) s.pending)
      let run := exec (.unitWrite tag (x :: leBytes 4 value.toNat)) s
      (11 < x.toNat → run = answer .badValue)
      ∧ (∀ w : Fin 12, w.val = x.toNat →
        (p.image.area.locked = true → run = answer .locked)
        ∧ (p.image.area.locked = false → p.image.area.words[w].isSome = true → run = answer .already)
        ∧ (p.image.area.locked = false → p.image.area.words[w] = none → p.ctl.faults.supply = true → run = answer .state)
        ∧ (p.image.area.locked = false → p.image.area.words[w] = none → p.ctl.faults.supply = false →
          p.JournalsQuiet → p.StoreQuiet → p.supply.coming = [] → 2850 ≤ p.supply.vstMv →
          run = .next (s.withPart ({ p with
            ctrl := { p.ctrl with serving := some (.unitProgram tag 0x08#8) }
            ctl := { p.ctl with
              array := some (.program { source := .requestServer, op := .unitWord w value }) } }))))) ∧
  (∀ (s : State) (tag : Byte) (p : Part), s.part.device = .ready → Requested s 0x09#8 tag [] p →
      let answer := fun status => Host.Outcome.next (State.mk (p.placeReply tag 0x09#8 status []) s.pending)
      (p.image.area.locked = true → exec (.unitLock tag []) s = answer .already)
      ∧ (p.image.area.locked = false → p.ctl.faults.supply = true → exec (.unitLock tag []) s = answer .state)
      ∧ (p.image.area.locked = false → p.ctl.faults.supply = false → p.JournalsQuiet → p.StoreQuiet →
        p.supply.coming = [] → 2850 ≤ p.supply.vstMv →
        exec (.unitLock tag []) s = .next (s.withPart ({ p with
          ctrl := { p.ctrl with serving := some (.unitProgram tag 0x09#8) }
          ctl := { p.ctl with array := some (.program { source := .requestServer, op := .unitLock }) } }))))

/-! ### Locks (R22 to R26) -/

/-- A lock request whose range is not one is answered BAD_VALUE and changes no block (R22, R23, R24). -/
def Obligations.LockRangeRefused : Prop :=
  ∀ (s : State) (tag first last : Byte) (p : Part), s.part.device = .ready →
    last.toNat < first.toNat ∨ 127 < last.toNat →
    (Requested s 0x0A#8 tag [first, last] p →
      exec (.lockBlocks tag [first, last]) s = .next (s.withPart (p.placeReply tag 0x0A#8 .badValue [])))
    ∧ (Requested s 0x0B#8 tag [first, last] p →
      exec (.unlockBlocks tag [first, last]) s = .next (s.withPart (p.placeReply tag 0x0B#8 .badValue [])))
    ∧ (Requested s 0x0C#8 tag [first, last] p →
      exec (.downBlocks tag [first, last]) s = .next (s.withPart (p.placeReply tag 0x0C#8 .badValue [])))

/-- LOCK_BLOCKS is answered OK with the blocks counted changed and refused. Every block of the range that is not OPEN and not
DOWN then has its lock bit set, and a block outside it with no lock pending keeps its lock fields. An OPEN block of the range
with no lock pending takes lock-pending LOCK; with the units at rest and the supply good the close mark of one such block
begins, its lock bit as before (R22, R26, R68). -/
def Obligations.BlocksLocked : Prop :=
  ∀ (s : State) (tag first last : Byte) (p : Part), s.part.device = .ready → first.toNat ≤ last.toNat →
    last.toNat ≤ 127 → Requested s 0x0A#8 tag [first, last] p →
    let q := (p.lockRange Part.lockOne first.toNat last.toNat).part
    let changed := p.tally first.toNat last.toNat (fun b e => decide (p.lockOf b ≠ .down)
      && if e.state = .opened then decide (e.pending = .clear) else !e.lockBit)
    let refused := p.tally first.toNat last.toNat (fun b _ => decide (p.lockOf b = .down))
    let reply : Reply :=
      { tag, kind := 0x0A#8, status := .ok, contents := [BitVec.ofNat 8 changed, BitVec.ofNat 8 refused] }
    (∃ t, ReactsFrom (exec (.lockBlocks tag [first, last]) s) s (q.placeReply tag 0x0A#8 .ok reply.contents) t
      ∧ t.part.ctrl.reply = some reply ∧ t.part.store = s.part.store
      ∧ (∀ b : Block, first.toNat ≤ b.val → b.val ≤ last.toNat → (p.entry b).state ≠ .opened → p.lockOf b ≠ .down →
        (t.part.entry b).lockBit = true)
      ∧ (∀ b : Block, b.val < first.toNat ∨ last.toNat < b.val → (p.entry b).pending = .clear →
        (t.part.entry b).lockBit = (p.entry b).lockBit ∧ (t.part.entry b).downFlag = (p.entry b).downFlag))
    ∧ (∀ b : Block, first.toNat ≤ b.val → b.val ≤ last.toNat → (p.entry b).state = .opened → p.lockOf b ≠ .down →
      (p.entry b).pending = .clear → q.entry b = { p.entry b with pending := .lock }
        ∧ (∀ c, (p.entry b).channel = some c → (q.journal c).due.lock = true))
    ∧ (∀ (b : Block) (c : Channel), b.val = first.toNat → first = last → (p.entry b).state = .opened →
      p.lockOf b = .unlocked → (p.entry b).pending = .clear → (p.entry b).channel = some c →
      (p.journal c).openBlock = some b → p.JournalsQuiet → p.StoreQuiet → p.Supplied →
      ∃ t, exec (.lockBlocks tag [first, last]) s = .next t ∧ t.part.entry b = { p.entry b with pending := .lock }
        ∧ (t.part.journal c).due = { (p.journal c).due with lock := true }
        ∧ t.part.ctl.array = some (.program
            { source := .journalEngine, op := .closeMark b (p.entry b).fill (p.entry b).last (p.journal c).due.fail }))

/-- UNLOCK_BLOCKS is answered OK with the blocks counted changed and refused. Every block of the range that is not OPEN, not
DOWN and has no lock pending then has its lock bit clear and keeps its down flag; one that is DOWN keeps its lock bit. A lock
pending LOCK of an OPEN block that is not DOWN is withdrawn, its lock bit and down flag as before, and LOCK leaves the close due
set of its journal where no close mark of the block has joined the backlog; where every OPEN block of the range has had its close
mark join, the close due set stays, LOCK with it, and the backlog is unchanged in every case (R23). -/
def Obligations.BlocksUnlocked : Prop :=
  ∀ (s : State) (tag first last : Byte) (p : Part), s.part.device = .ready → first.toNat ≤ last.toNat →
    last.toNat ≤ 127 → Requested s 0x0B#8 tag [first, last] p →
    let q := (p.lockRange Part.unlockOne first.toNat last.toNat).part
    let changed := p.tally first.toNat last.toNat (fun b e => decide (p.lockOf b ≠ .down)
      && if e.state = .opened then decide (e.pending = .lock) else e.lockBit)
    let refused := p.tally first.toNat last.toNat (fun b e => decide (p.lockOf b = .down)
      || (decide (e.state = .opened) && decide (e.pending = .down)))
    let reply : Reply :=
      { tag, kind := 0x0B#8, status := .ok, contents := [BitVec.ofNat 8 changed, BitVec.ofNat 8 refused] }
    (∃ t, ReactsFrom (exec (.unlockBlocks tag [first, last]) s) s (q.placeReply tag 0x0B#8 .ok reply.contents) t
      ∧ t.part.ctrl.reply = some reply ∧ t.part.store = s.part.store
      ∧ (∀ b : Block, first.toNat ≤ b.val → b.val ≤ last.toNat → (p.entry b).state ≠ .opened →
        (p.entry b).pending = .clear →
        (p.lockOf b ≠ .down →
          (t.part.entry b).lockBit = false ∧ (t.part.entry b).downFlag = (p.entry b).downFlag)
        ∧ (p.lockOf b = .down → (t.part.entry b).lockBit = (p.entry b).lockBit))
      ∧ (∀ b : Block, first.toNat ≤ b.val → b.val ≤ last.toNat → (p.entry b).state = .opened → p.lockOf b ≠ .down →
        (p.entry b).pending = .lock → (t.part.entry b).pending = .clear
          ∧ (t.part.entry b).lockBit = (p.entry b).lockBit ∧ (t.part.entry b).downFlag = (p.entry b).downFlag))
    ∧ (∀ (b : Block) (c : Channel), first.toNat ≤ b.val → b.val ≤ last.toNat → (p.entry b).state = .opened →
      p.lockOf b ≠ .down → (p.entry b).pending = .lock → (p.entry b).channel = some c →
      (∀ fill last worn, ProgramOp.closeMark b fill last worn ∉ p.je.backlog) → (q.journal c).due.lock = false)
    ∧ (∀ c : Channel, (∀ b : Block, first.toNat ≤ b.val → b.val ≤ last.toNat → (p.entry b).state = .opened →
        (p.entry b).channel = some c → ∃ fill last worn, ProgramOp.closeMark b fill last worn ∈ p.je.backlog) →
      (q.journal c).due = (p.journal c).due)
    ∧ q.je.backlog = p.je.backlog

/-- DOWN_BLOCKS is answered OK with the blocks counted changed and none refused. Every block of the range that is not OPEN then
has its down flag and its lock bit set. An OPEN block of the range takes lock-pending DOWN, which LOCK gives way to; with the
units at rest and the supply good the close mark of one such block begins, its lock bit and down flag as before (R24, R26,
R68). -/
def Obligations.BlocksDowned : Prop :=
  ∀ (s : State) (tag first last : Byte) (p : Part), s.part.device = .ready → first.toNat ≤ last.toNat →
    last.toNat ≤ 127 → Requested s 0x0C#8 tag [first, last] p →
    let q := (p.lockRange Part.downOne first.toNat last.toNat).part
    let changed := p.tally first.toNat last.toNat (fun _ e =>
      if e.state = .opened then decide (e.pending ≠ .down) else !(e.downFlag && e.lockBit))
    let reply : Reply := { tag, kind := 0x0C#8, status := .ok, contents := [BitVec.ofNat 8 changed, 0#8] }
    (∃ t, ReactsFrom (exec (.downBlocks tag [first, last]) s) s (q.placeReply tag 0x0C#8 .ok reply.contents) t
      ∧ t.part.ctrl.reply = some reply ∧ t.part.store = s.part.store
      ∧ (∀ b : Block, first.toNat ≤ b.val → b.val ≤ last.toNat → (p.entry b).state ≠ .opened →
        (t.part.entry b).downFlag = true ∧ (t.part.entry b).lockBit = true))
    ∧ (∀ b : Block, first.toNat ≤ b.val → b.val ≤ last.toNat → (p.entry b).state = .opened →
      q.entry b = { p.entry b with pending := .down }
        ∧ (∀ c, (p.entry b).pending ≠ .down → (p.entry b).channel = some c → (q.journal c).due.lock = true))
    ∧ (∀ (b : Block) (c : Channel), b.val = first.toNat → first = last → (p.entry b).state = .opened →
      p.lockOf b = .unlocked → (p.entry b).pending = .clear → (p.entry b).channel = some c →
      (p.journal c).openBlock = some b → p.JournalsQuiet → p.StoreQuiet → p.Supplied →
      ∃ t, exec (.downBlocks tag [first, last]) s = .next t ∧ t.part.entry b = { p.entry b with pending := .down }
        ∧ (t.part.journal c).due = { (p.journal c).due with lock := true }
        ∧ t.part.ctl.array = some (.program
            { source := .journalEngine, op := .closeMark b (p.entry b).fill (p.entry b).last (p.journal c).due.fail }))

/-! ### Retention Map -/

/-- R90: MAP_WRITE_CONTROL replaces both staged flags and keeps the staged descriptors; a value that encodes neither set
nor clear is answered BAD_VALUE and changes no flag. -/
def Obligations.MapControlWritten : Prop :=
  ∀ (s : State) (tag enable fixedEnable : Byte) (p : Part), s.part.device = .ready →
    Requested s 0x10#8 tag [enable, fixedEnable] p →
    (enable.toNat ≤ 1 → fixedEnable.toNat ≤ 1 →
      let staged := { p.staged with enable := decide (enable = 1#8), fixedEnable := decide (fixedEnable = 1#8) }
      exec (.mapWriteControl tag [enable, fixedEnable]) s
        = .next (s.withPart (({ p with staged }).placeReply tag 0x10#8 .ok [])))
    ∧ (1 < enable.toNat ∨ 1 < fixedEnable.toNat →
      exec (.mapWriteControl tag [enable, fixedEnable]) s
        = .next (s.withPart (p.placeReply tag 0x10#8 .badValue [])))

/-- R91: MAP_WRITE_FIXED by its checks, whatever fixed-enable is in either copy; and a fixed descriptor decides its block
only in a copy whose fixed-enable is set. -/
def Obligations.MapFixedWritten : Prop :=
  (∀ (s : State) (tag index cls set : Byte) (p : Part), s.part.device = .ready →
    Requested s 0x11#8 tag [index, cls, set] p →
    (15 < index.toNat ∨ 2 < cls.toNat ∨ 15 < set.toNat →
      exec (.mapWriteFixed tag [index, cls, set]) s = .next (s.withPart (p.placeReply tag 0x11#8 .badValue [])))
    ∧ (∀ i : Fin 16, i.val = index.toNat → cls.toNat ≤ 2 → set.toNat ≤ 15 →
      let d : Descriptor := { cls := classOf cls.toNat, set := set.setWidth 4 }
      let staged := { p.staged with fixed := p.staged.fixed.set i.val d i.isLt }
      exec (.mapWriteFixed tag [index, cls, set]) s
        = .next (s.withPart (({ p with staged }).placeReply tag 0x11#8 .ok []))))
  ∧ (∀ (m : RetentionMap) (fixed : Vector Descriptor 16) (b : Block), m.fixedEnable = false →
    ({ m with fixed }).eval b = m.eval b)
  ∧ (∀ (m : RetentionMap) (i : Fin 16) (b : Block), m.enable = true → m.fixedEnable = true → b.val = i.val →
    m.eval b = { cls := m.fixed[i].cls, set := m.fixed[i].set, source := .fixed i.val })

/-- MAP_WRITE_VARIABLE by its checks in order (R92). -/
def Obligations.MapVariableWritten : Prop :=
  ∀ (s : State) (tag index valid base span cls set : Byte) (p : Part), s.part.device = .ready →
    Requested s 0x12#8 tag [index, valid, base, span, cls, set] p →
    let run := exec (.mapWriteVariable tag [index, valid, base, span, cls, set]) s
    let answer := fun status => Host.Outcome.next (State.mk (p.placeReply tag 0x12#8 status []) s.pending)
    let sound := valid.toNat ≤ 1 ∧ cls.toNat ≤ 2 ∧ set.toNat ≤ 15 ∧ span.toNat ∈ [1, 2, 4, 8, 16, 32, 64, 128]
    (7 < index.toNat ∨ ¬sound → run = answer .badValue)
    ∧ (∀ i : Fin 8, i.val = index.toNat → sound →
      (base.toNat % span.toNat ≠ 0 ∨ 128 < base.toNat + span.toNat → run = answer .align)
      ∧ (base.toNat % span.toNat = 0 → base.toNat + span.toNat ≤ 128 →
        let d : VariableDescriptor :=
          { valid := decide (valid = 1#8), base := base.toNat, span := span.toNat, cls := classOf cls.toNat
            set := set.setWidth 4 }
        let staged := { p.staged with vars := p.staged.vars.set i.val d i.isLt }
        run = .next (s.withPart (({ p with staged }).placeReply tag 0x12#8 .ok []))))

/-- R93: MAP_WRITE_DEFAULT replaces the staged default descriptor, or is answered BAD_VALUE and changes nothing. -/
def Obligations.MapDefaultWritten : Prop :=
  ∀ (s : State) (tag cls set : Byte) (p : Part), s.part.device = .ready → Requested s 0x13#8 tag [cls, set] p →
    (2 < cls.toNat ∨ 15 < set.toNat →
      exec (.mapWriteDefault tag [cls, set]) s = .next (s.withPart (p.placeReply tag 0x13#8 .badValue [])))
    ∧ (cls.toNat ≤ 2 → set.toNat ≤ 15 →
      let staged := { p.staged with dflt := { cls := classOf cls.toNat, set := set.setWidth 4 } }
      exec (.mapWriteDefault tag [cls, set]) s
        = .next (s.withPart (({ p with staged }).placeReply tag 0x13#8 .ok [])))

/-- MAP_READ and MAP_QUERY answer from the copies as they stand and change nothing (R94, R95). -/
def Obligations.MapReadAndQueried : Prop :=
  (∀ (s : State) (tag : Byte) (p : Part), s.part.device = .ready →
    (Requested s 0x14#8 tag [0#8] p →
      exec (.mapRead tag [0#8]) s = .next (s.withPart (p.placeReply tag 0x14#8 .ok p.staged.bytes)))
    ∧ (Requested s 0x14#8 tag [1#8] p →
      exec (.mapRead tag [1#8]) s = .next (s.withPart (p.placeReply tag 0x14#8 .ok p.active.bytes))))
  ∧ (∀ (s : State) (tag x : Byte) (p : Part), s.part.device = .ready → Requested s 0x15#8 tag [x] p →
    (127 < x.toNat →
      exec (.mapQuery tag [x]) s = .next (s.withPart (p.placeReply tag 0x15#8 .badValue [])))
    ∧ (∀ b : Block, b.val = x.toNat →
      exec (.mapQuery tag [x]) s = .next (s.withPart (p.placeReply tag 0x15#8 .ok
        [x, (p.active.eval b).cls.code, (p.active.eval b).set.setWidth 8, (p.active.eval b).source.code
          , (p.active.eval b).source.detail]))))

/-- MAP_APPLY copies the staged copy into the active copy, keeps the staged copy and is answered OK with the channels whose open
block has MAP in its close due set: those whose open block the new copy makes PARKED or closes to the channel, and those that
had it. With one open block, made ineligible, the units at rest and the supply good, its close mark begins; with no open block
and the units at rest nothing else happens (R69, R96). -/
def Obligations.MapApplied : Prop :=
  ∀ (s : State) (tag : Byte) (p : Part), s.part.device = .ready → Requested s 0x16#8 tag [] p →
    let lost := fun (c : Channel) (b : Block) =>
      (p.staged.eval b).cls = .parked ∨ (p.staged.eval b).set.getLsbD c.val = false
    (∃ t r x, exec (.mapApply tag []) s = .next t ∧ t.pending = s.pending ∧ t.part.active = p.staged
      ∧ t.part.staged = p.staged ∧ t.part.store = p.store ∧ t.part.settings = p.settings
      ∧ t.part.ctrl.reply = some r ∧ r.tag = tag ∧ r.kind = 0x16#8 ∧ r.status = .ok ∧ r.contents = [x]
      ∧ ∀ c : Channel, x.getLsbD c.val = true
          ↔ ∃ b, (p.journal c).openBlock = some b ∧ ((p.journal c).due.map = true ∨ lost c b))
    ∧ (∀ (c : Channel) (b : Block), (p.journal c).openBlock = some b → lost c b →
      (∀ c', c' ≠ c → (p.journal c').openBlock = none) → p.lockOf b = .unlocked → p.JournalsQuiet → p.StoreQuiet →
      p.Supplied → p.je.wait = [] →
      ∃ t, exec (.mapApply tag []) s = .next t ∧ t.part.dir = p.dir
        ∧ (t.part.journal c).due = { (p.journal c).due with map := true }
        ∧ t.part.ctl.array = some (.program
            { source := .journalEngine, op := .closeMark b (p.entry b).fill (p.entry b).last (p.journal c).due.fail }))
    ∧ ((∀ c, (p.journal c).openBlock = none) → p.JournalsQuiet → p.StoreQuiet → p.je.wait = [] →
      exec (.mapApply tag []) s
        = .next (s.withPart (({ p with active := p.staged }).placeReply tag 0x16#8 .ok [0#8])))

/-! ### Event Unit -/

/-- TRIGGER: BAD_VALUE, a retrigger of the channel's COLLECTING event, TABLE_FULL, or a new event, with the reply of R105
and the notices of R109 and R110 (that a retrigger's TRIGGERED carries the event's own cause is the model's choice, log 28). A
marker trigger does the same as a commit is told, and makes TRIGGER_LOST where the table is full (R104, R106, R111). The new
event's values are those of R107 and R109; it holds its anchor block, then the CLOSED blocks of the pre-window walk in
descending sequence, then the channel's open block (R108). -/
def Obligations.TriggerAnswered : Prop :=
  (∀ (s : State) (tag x : Byte) (p : Part), s.part.device = .ready → Requested s 0x18#8 tag [x] p →
    (3 < x.toNat → exec (.trigger tag [x]) s = .next (s.withPart (p.placeReply tag 0x18#8 .badValue [])))
    ∧ (∀ c : Channel, c.val = x.toNat →
      let noted := p.notices.mask = 0x01FC#16 ∧ p.notices.queue.length ≤ 14
      (∀ e, p.events.collecting c = some e →
        ∃ q : Part, exec (.trigger tag [x]) s = .next (s.withPart (q.placeReply tag 0x18#8 .ok
            ([BitVec.ofNat 8 e.id] ++ recordField e.anchor ++ [1#8])))
          ∧ q.dir = p.dir ∧ q.events.nextId = p.events.nextId
          ∧ q.events.table = p.events.table.map (fun y =>
              if y.id = e.id then e.retrigger (p.setting c).postWindow else y)
          ∧ (noted → q.notices.queue = p.notices.queue
            ++ [.triggered e.id e.channel e.cause e.anchor (min (e.triggerCount + 1) 255) e.held.length true]
            ++ (if (p.setting c).postWindow = 0 then [.eventDone e.id e.channel e.short e.held.length] else [])))
      ∧ (p.events.collecting c = none → 16 ≤ p.events.table.length →
        exec (.trigger tag [x]) s = .next (s.withPart (p.placeReply tag 0x18#8 .tableFull [])))
      ∧ (p.events.collecting c = none → p.events.table.length < 16 →
        let e := p.newEvent c .host
        ∃ q : Part, exec (.trigger tag [x]) s = .next (s.withPart (q.placeReply tag 0x18#8 .ok
            ([BitVec.ofNat 8 p.events.nextId] ++ recordField (p.anchorOf c) ++ [0#8])))
          ∧ q.events.table = p.events.table ++ [e] ∧ q.store = p.store ∧ q.queue = p.queue
          ∧ (e.held.Nodup → ∀ b, (q.entry b).holdCount
              = if b ∈ e.held then (p.entry b).holdCount + 1 else (p.entry b).holdCount)
          ∧ (noted → q.notices.queue = p.notices.queue
            ++ [.triggered p.events.nextId c .host (p.anchorOf c) 1 e.held.length false]
            ++ (if (p.setting c).postWindow = 0 then [.eventDone p.events.nextId c false e.held.length] else [])))))
  ∧ (∀ (p : Part) (c : Channel) (record : Nat) (code : Byte), (p.setting c).triggerCode = some code →
    let q := p.eventCommit c record (.mark code)
    (∀ e, p.events.collecting c = some e → q.dir = p.dir ∧ q.events.nextId = p.events.nextId
      ∧ q.events.table = p.events.table.map (fun y =>
          if y.id = e.id then e.retrigger (p.setting c).postWindow else y))
    ∧ (p.events.collecting c = none → 16 ≤ p.events.table.length → q = p.notify (.triggerLost c code record))
    ∧ (p.events.collecting c = none → p.events.table.length < 16 →
      let e := p.newEvent c (.marker code)
      q.events.table = p.events.table ++ [e]
      ∧ (e.held.Nodup → ∀ b, (q.entry b).holdCount
          = if b ∈ e.held then (p.entry b).holdCount + 1 else (p.entry b).holdCount)))
  ∧ (∀ (p : Part) (c : Channel) (cause : EventCause),
    let e := p.newEvent c cause
    let st := p.setting c
    let seq := fun b => (p.entry b).seq.getD 0
    let holds := fun (b : Block) (n : Nat) => ((p.entry b).state = .opened ∨ (p.entry b).state = .closed)
      ∧ (p.entry b).channel = some c ∧ 0 < (p.entry b).fill
      ∧ ∃ f l, (p.entry b).first = some f ∧ (p.entry b).last = some l ∧ f ≤ n ∧ n ≤ l
    let older := fun b => (p.entry b).channel = some c
      ∧ ((p.entry b).state = .closed ∨ (p.entry b).state = .erasing) ∧ ∀ a, e.anchorBlock = some a → seq b < seq a
    e.id = p.events.nextId ∧ e.channel = c ∧ e.cause = cause ∧ e.triggerCount = 1 ∧ e.short = false
    ∧ e.anchor = (if (p.journal c).nextRec = 0 then none else some ((p.journal c).nextRec - 1))
    ∧ e.remaining = st.postWindow ∧ e.state = (if 0 < st.postWindow then .collecting else .complete)
    ∧ (∀ b, e.anchorBlock = some b → ∃ n, e.anchor = some n ∧ holds b n)
    ∧ (∀ n, e.anchor = some n → e.anchorBlock = none → ∀ b, ¬holds b n)
    ∧ ∃ pre opened, e.held = e.anchorBlock.toList ++ pre ++ opened
      ∧ pre.length ≤ st.preWindow ∧ (e.anchor = none → pre = []) ∧ (∀ b ∈ pre, (p.entry b).state = .closed ∧ older b)
      ∧ pre.Pairwise (fun b b' => seq b' ≤ seq b)
      ∧ (e.anchor ≠ none → ∀ b, older b → b ∉ pre → (∀ b' ∈ pre, seq b ≤ seq b')
        ∧ (pre.length = st.preWindow ∨ ∃ x, older x ∧ (p.entry x).state = .erasing ∧ seq b ≤ seq x))
      ∧ opened.length ≤ 1
      ∧ ∀ b, b ∈ opened ↔ 0 < st.postWindow ∧ (p.journal c).openBlock = some b ∧ e.anchorBlock ≠ some b)

/-- RELEASE_EVENT: NOT_FOUND for an id no entry carries; otherwise, with the units at rest, the entry leaves the table, its
blocks are released once each and the reply tells what it was (R117). -/
def Obligations.EventReleased : Prop :=
  ∀ (s : State) (tag x : Byte) (p : Part), s.part.device = .ready → Requested s 0x19#8 tag [x] p →
    ((∀ e ∈ p.events.table, e.id ≠ x.toNat) →
      exec (.releaseEvent tag [x]) s = .next (s.withPart (p.placeReply tag 0x19#8 .notFound [])))
    ∧ (∀ e, p.events.table.find? (fun e => decide (e.id = x.toNat)) = some e →
      p.JournalsQuiet → p.StoreQuiet → p.je.wait = [] →
      exec (.releaseEvent tag [x]) s = .next (s.withPart ((p.dropEvent e).placeReply tag 0x19#8 .ok
        [x, e.state.code, BitVec.ofNat 8 e.held.length]))
      ∧ (p.dropEvent e).events.table = p.events.table.filter (fun y => decide (y.id ≠ e.id))
      ∧ (e.held.Nodup → ∀ b, ((p.dropEvent e).entry b).holdCount
          = if b ∈ e.held then (p.entry b).holdCount - 1 else (p.entry b).holdCount))

/-- LIST_EVENTS, GET_EVENT, LIST_JOURNAL and GET_BLOCK answer from the table and the directory as they stand and change nothing
(R119, R180, R181). -/
def Obligations.EventsAndBlocksListed : Prop :=
  ((∀ (s : State) (tag : Byte) (p : Part), s.part.device = .ready → Requested s 0x1A#8 tag [] p →
      exec (.listEvents tag []) s = .next (s.withPart (p.placeReply tag 0x1A#8 .ok
        (BitVec.ofNat 8 p.events.table.length :: p.events.table.flatMap (fun e =>
          [BitVec.ofNat 8 e.id, channelByte e.channel, e.state.code, e.cause.code, e.cause.markerByte])))))
    ∧ (∀ (s : State) (tag x : Byte) (p : Part), s.part.device = .ready → Requested s 0x1B#8 tag [x] p →
      ((∀ e ∈ p.events.table, e.id ≠ x.toNat) →
        exec (.getEvent tag [x]) s = .next (s.withPart (p.placeReply tag 0x1B#8 .notFound [])))
      ∧ (∀ e, p.events.table.find? (fun e => decide (e.id = x.toNat)) = some e →
        exec (.getEvent tag [x]) s = .next (s.withPart (p.placeReply tag 0x1B#8 .ok e.bytes))))) ∧
  ((∀ (s : State) (tag x start : Byte) (p : Part), s.part.device = .ready → Requested s 0x29#8 tag [x, start] p →
      (3 < x.toNat ∨ 127 < start.toNat →
        exec (.listJournal tag [x, start]) s = .next (s.withPart (p.placeReply tag 0x29#8 .badValue [])))
      ∧ (∀ c : Channel, c.val = x.toNat → start.toNat ≤ 127 →
        exec (.listJournal tag [x, start]) s
          = .next (s.withPart (p.placeReply tag 0x29#8 .ok (p.journalListing c start.toNat)))))
    ∧ (∀ (s : State) (tag x : Byte) (p : Part), s.part.device = .ready → Requested s 0x2A#8 tag [x] p →
      (127 < x.toNat → exec (.getBlock tag [x]) s = .next (s.withPart (p.placeReply tag 0x2A#8 .badValue [])))
      ∧ (∀ b : Block, b.val = x.toNat →
        exec (.getBlock tag [x]) s = .next (s.withPart (p.placeReply tag 0x2A#8 .ok
          ((p.entry b).bytes ++ [(p.lockOf b).code] ++ (p.active.eval b).bytes ++ p.blockPlaces b))))))

/-! ### Capture Queue -/

/-- SET_QUEUE by its checks: both marks are replaced and HOLD_N evaluated against the lines held (R134, R135). -/
def Obligations.QueueMarksReplaced : Prop :=
  ∀ (s : State) (tag : Byte) (high low : BitVec 16) (p : Part), s.part.device = .ready →
    Requested s 0x20#8 tag (leBytes 2 high.toNat ++ leBytes 2 low.toNat) p →
    let run := exec (.setQueue tag (leBytes 2 high.toNat ++ leBytes 2 low.toNat)) s
    let hold := if high.toNat ≤ p.linesHeld then true else if p.linesHeld ≤ low.toNat then false else p.queue.hold
    (high.toNat < 33 ∨ 2048 < high.toNat ∨ high.toNat < low.toNat + 33 →
      run = .next (s.withPart (p.placeReply tag 0x20#8 .badValue [])))
    ∧ (33 ≤ high.toNat → high.toNat ≤ 2048 → low.toNat + 33 ≤ high.toNat →
      let queue := { p.queue with high := high.toNat, low := low.toNat, hold }
      run = .next (s.withPart (({ p with queue }).placeReply tag 0x20#8 .ok
        (leBytes 2 high.toNat ++ leBytes 2 low.toNat ++ [flagByte hold]))))

/-- A push is accepted at the tail while fewer than 64 entries are held and its lines keep the total at or below 2,048, and
HOLD_N is evaluated; otherwise it is lost: list, last accepted kind and HOLD_N stay and the overrun counter increments
(R123, R124). -/
def Obligations.PushFitsOrOverruns : Prop :=
  ∀ (p : Part) (e : Entry),
    (p.queue.entries.length < 64 → p.linesHeld + e.lines ≤ 2048 →
      (p.push e).queue.entries = p.queue.entries ++ [e]
      ∧ (p.push e).lastKind e.channel = some e.content.kind
      ∧ (p.push e).queue.hold = (if p.queue.high ≤ p.linesHeld + e.lines then true
          else if p.linesHeld + e.lines ≤ p.queue.low then false else p.queue.hold)
      ∧ (∀ c, ((p.push e).chan c) = p.chan c))
    ∧ (64 ≤ p.queue.entries.length ∨ 2048 < p.linesHeld + e.lines →
      (p.push e).queue = p.queue
      ∧ ((p.push e).chan e.channel).counters.overruns = min ((p.chan e.channel).counters.overruns + 1) 4294967295
      ∧ (∀ c, c ≠ e.channel → (p.push e).chan c = p.chan c))

/-- FLUSH_CHANNEL: BAD_VALUE above channel 3; otherwise answered OK with the number removed, the entries-flushed counter
grown by it, every entry of the channel removed but a head whose record program is in flight, the others in their order, and
HOLD_N evaluated. With such a program in flight nothing else happens; nor with the units at rest where every entry is the
channel's (R129). -/
def Obligations.ChannelFlushed : Prop :=
  ∀ (s : State) (tag x : Byte) (p : Part), s.part.device = .ready → Requested s 0x21#8 tag [x] p →
    (3 < x.toNat → exec (.flushChannel tag [x]) s = .next (s.withPart (p.placeReply tag 0x21#8 .badValue [])))
    ∧ (∀ c : Channel, c.val = x.toNat →
      let q := p.flush c
      let others := fun entries : List Entry => entries.filter (fun e => decide (e.channel ≠ c))
      let removed := p.queue.entries.length - q.queue.entries.length
      let answered := q.placeReply tag 0x21#8 .ok [BitVec.ofNat 8 removed]
      (p.je.outstanding ≠ some .record → q.queue.entries = others p.queue.entries)
      ∧ (∀ e rest, p.queue.entries = e :: rest → p.je.outstanding = some .record → q.queue.entries = e :: others rest)
      ∧ q.queue.hold = (if p.queue.high ≤ q.linesHeld then true else if q.linesHeld ≤ p.queue.low then false
          else p.queue.hold)
      ∧ (∃ t, ReactsFrom (exec (.flushChannel tag [x]) s) s answered t
        ∧ (t.part.ctrl.reply
            = some { tag, kind := 0x21#8, status := .ok, contents := [BitVec.ofNat 8 removed] })
        ∧ (t.part.chan c).counters.flushed = min ((p.chan c).counters.flushed + removed) 4294967295)
      ∧ ((p.chan c).state ≠ .stopping →
        (p.CommitInFlight → exec (.flushChannel tag [x]) s = .next (s.withPart answered))
        ∧ ((∀ e ∈ p.queue.entries, e.channel = c) → p.je.backlog = [] → p.je.outstanding = none →
          (∀ c', (p.journal c').due.any = false) → p.StoreQuiet →
          q.queue.entries = [] ∧ exec (.flushChannel tag [x]) s = .next (s.withPart answered))))

/-! ### Channel Conditioner -/

/-- SET_CHANNEL by its checks: BAD_VALUE above channel 3, STATE unless STOPPED, BAD_VALUE for a record out of its ranges,
otherwise the whole settings record is replaced and nothing else changes (R139). -/
def Obligations.ChannelSettingsReplaced : Prop :=
  ∀ (s : State) (tag x : Byte) (record : List Byte) (p : Part), s.part.device = .ready → record.length = 20 →
    Requested s 0x24#8 tag (x :: record) p →
    let run := exec (.setChannel tag (x :: record)) s
    (3 < x.toNat → run = .next (s.withPart (p.placeReply tag 0x24#8 .badValue [])))
    ∧ (∀ c : Channel, c.val = x.toNat →
      ((p.chan c).state ≠ .stopped → run = .next (s.withPart (p.placeReply tag 0x24#8 .state [])))
      ∧ ((p.chan c).state = .stopped → settingsOf record = none →
        run = .next (s.withPart (p.placeReply tag 0x24#8 .badValue [])))
      ∧ (∀ r, (p.chan c).state = .stopped → settingsOf record = some r →
        let settings := p.settings.set c.val r c.isLt
        run = .next (s.withPart (({ p with settings }).placeReply tag 0x24#8 .ok []))))

/-- GET_CHANNEL answers the channel's state, and with clear set its nine counters then read 0 (R140). START_CHANNEL: a STOPPED
channel becomes RUNNING with its cadence at 0 and no expected number; any other is answered STATE (R143). -/
def Obligations.ChannelReportedAndStarted : Prop :=
  (∀ (s : State) (tag x clear : Byte) (p : Part), s.part.device = .ready → Requested s 0x25#8 tag [x, clear] p →
      (3 < x.toNat → clear.toNat ≤ 1 →
        exec (.getChannel tag [x, clear]) s = .next (s.withPart (p.placeReply tag 0x25#8 .badValue [])))
      ∧ (∀ c : Channel, c.val = x.toNat →
        (clear = 0#8 →
          exec (.getChannel tag [x, clear]) s = .next (s.withPart (p.placeReply tag 0x25#8 .ok (p.channelBytes c))))
        ∧ (clear = 1#8 → exec (.getChannel tag [x, clear]) s = .next (s.withPart
            ((p.updChan c (fun k => { k with counters := .zero })).placeReply tag 0x25#8 .ok (p.channelBytes c)))))) ∧
  (∀ (s : State) (tag x : Byte) (p : Part), s.part.device = .ready → Requested s 0x26#8 tag [x] p →
      (3 < x.toNat → exec (.startChannel tag [x]) s = .next (s.withPart (p.placeReply tag 0x26#8 .badValue [])))
      ∧ (∀ c : Channel, c.val = x.toNat →
        ((p.chan c).state ≠ .stopped →
          exec (.startChannel tag [x]) s = .next (s.withPart (p.placeReply tag 0x26#8 .state [])))
        ∧ ((p.chan c).state = .stopped →
          let q := p.updChan c (fun k => { k with state := .running, cadence := 0, expected := none })
          exec (.startChannel tag [x]) s = .next (s.withPart (q.placeReply tag 0x26#8 .ok [])))))

/-- STOP_CHANNEL by the channel's state: STATE; close pending kept or set; or the slot cleared and the drain begun, the
reply carrying the state reached (R144, R145). -/
def Obligations.ChannelStopped : Prop :=
  ∀ (s : State) (tag x close : Byte) (p : Part), s.part.device = .ready → close.toNat ≤ 1 →
    Requested s 0x27#8 tag [x, close] p →
    let run := exec (.stopChannel tag [x, close]) s
    (3 < x.toNat → run = .next (s.withPart (p.placeReply tag 0x27#8 .badValue [])))
    ∧ (∀ c : Channel, c.val = x.toNat →
      ((p.chan c).state = .stopped → run = .next (s.withPart (p.placeReply tag 0x27#8 .state [])))
      ∧ ((p.chan c).state = .stopping →
        let q := p.updChan c (fun k => { k with closePending := k.closePending || decide (close = 1#8) })
        run = .next (s.withPart (q.placeReply tag 0x27#8 .ok [2#8])))
      ∧ ((p.chan c).state = .running →
        ∃ t, ReactsFrom run s ((p.beginStop c (decide (close = 1#8))).replyStop tag c) t
          ∧ t.part.slot c = .idle ∧ (t.part.chan c).state ≠ .running
          ∧ (p.channelEntries c = 0 → (t.part.chan c).state = .stopped)))

/-! ### Readout -/

/-- READ_RECORDS: BAD_VALUE, NOT_YET with the next record number, GONE with the next retained number, or, with the units at
rest, the gathering begun with the read of line 1 of the record's block (R172 to R174). -/
def Obligations.RecordsRead : Prop :=
  ∀ (s : State) (tag x most : Byte) (start : Nat) (p : Part), s.part.device = .ready → start < 256 ^ 6 →
    Requested s 0x28#8 tag (x :: leBytes 6 start ++ [most]) p →
    let run := exec (.readRecords tag (x :: leBytes 6 start ++ [most])) s
    (3 < x.toNat ∨ most.toNat < 1 ∨ 32 < most.toNat →
      run = .next (s.withPart (p.placeReply tag 0x28#8 .badValue [])))
    ∧ (∀ c : Channel, c.val = x.toNat → 1 ≤ most.toNat → most.toNat ≤ 32 →
      ((p.journal c).nextRec ≤ start →
        run = .next (s.withPart (p.placeReply tag 0x28#8 .notYet (leBytes 6 (p.journal c).nextRec))))
      ∧ (start < (p.journal c).nextRec → p.blockHolding c start = none →
        run = .next (s.withPart (p.placeReply tag 0x28#8 .gone (recordField (p.nextRetained c start)))))
      ∧ (∀ b, start < (p.journal c).nextRec → p.blockHolding c start = some b → p.JournalsQuiet → p.StoreQuiet →
        run = .next (s.withPart ({ p with
          ctrl := { p.ctrl with serving := some (.gathering
            { tag, channel := c, start, max := most.toNat, sought := start, block := b, line := 1
              expected := (p.entry b).first.getD 0, fill := (p.entry b).fill, stage := .header, records := []
              lines := 0 }) }
          ctl := { p.ctl with
            array := some (.read { source := .requestServer, block := b, line := 1, count := 1 }) } }))))

/-! ### The sample link -/

/-- The cadence decision (R147), the continuity check (R149) and clipping (R148) by their tables; a sound packet's samples
are the words it was built from (R157, section 12.4). -/
def Obligations.CadenceContinuityClipping : Prop :=
  (∀ (s : Settings) (position : Nat),
    (s.mask = 0 → s.cadence position = (true, 0))
    ∧ (0 < s.mask → position < s.pass → s.cadence position = (true, (position + 1) % (s.pass + s.mask)))
    ∧ (0 < s.mask → s.pass ≤ position → s.cadence position = (false, (position + 1) % (s.pass + s.mask))))
  ∧ (∀ wrap r : Nat,
    (r < wrap → continuity wrap none r = (.none, 0))
    ∧ (r < wrap → continuity wrap (some r) r = (.none, 0))
    ∧ (∀ e, r < wrap → e < wrap → r ≠ e →
      (continuity wrap (some e) r).1 = { TagSet.none with gap := true }
      ∧ (continuity wrap (some e) r).2 = (if e < r then r - e else r + wrap - e))
    ∧ (∀ e, wrap ≤ r → continuity wrap e r = ({ TagSet.none with number := true }, 0)))
  ∧ (∀ (st : Settings) (w : Word16), st.clipLower ≤ st.clipUpper → st.clipUpper ≤ 4095 →
    (st.clipLower ≤ w.toNat → w.toNat ≤ st.clipUpper → st.clip w = w)
    ∧ (st.clipUpper < w.toNat → (st.clip w).toNat = st.clipUpper)
    ∧ (w.toNat < st.clipLower → (st.clip w).toNat = st.clipLower))
  ∧ (∀ (count : Word16) (words : List Word16), words.length = count.toNat →
    soundSamples count (soundTail words) = some words)

/-- FS_PACKET at a RUNNING channel: a frame that is ASSEMBLING is ended first, tagged TRUNCATED, counted and offered to the queue
or dropped; the slot opens the new frame ASSEMBLING or MASKED by the cadence, with the tags and gap count of the continuity check,
and cadence, expected number and counters move; while a commit is in flight that is all (R123, R147, R149, R151, R152, R161). -/
def Obligations.FrameStarted : Prop :=
  ∀ (s : State) (c : Channel) (n : Word16), TakesPacket s c →
    let st := s.part.setting c
    let decision := st.cadence (s.part.chan c).cadence
    let check := continuity st.wrap (s.part.chan c).expected n.toNat
    let timer := if 0 < st.timeout then some st.timeout else none
    ∃ t, ReactsFrom (exec (.fsPacket c n) s) s (s.part.takeFs c n) t
      ∧ t.part.slot c = (if decision.1 then
          .assembling { number := n, samples := [], tags := check.1, clipped := 0, gap := check.2, timer }
        else .masked n timer)
      ∧ (t.part.chan c).cadence = decision.2 ∧ (t.part.chan c).expected = some ((n.toNat + 1) % st.wrap)
      ∧ (t.part.chan c).counters.passed
        = (if decision.1 then min ((s.part.chan c).counters.passed + 1) 4294967295 else (s.part.chan c).counters.passed)
      ∧ (t.part.chan c).counters.masked
        = (if decision.1 then (s.part.chan c).counters.masked else min ((s.part.chan c).counters.masked + 1) 4294967295)
      ∧ (∀ c', c' ≠ c → t.part.slot c' = s.part.slot c')
      ∧ (∀ f, s.part.slot c = .assembling f →
        let tags := { f.tags with truncated := true }
        let entry : Entry :=
          { channel := c, content := .frame f.number f.samples tags f.clipped (if tags.gap then f.gap else 0) }
        (s.part.takeFs c n).queue.entries = (if st.dropTagged = false ∧ s.part.queue.entries.length < 64
            ∧ s.part.linesHeld + entry.lines ≤ 2048 then s.part.queue.entries ++ [entry] else s.part.queue.entries)
        ∧ (t.part.chan c).counters.tagged = min ((s.part.chan c).counters.tagged + 1) 4294967295
        ∧ (t.part.chan c).counters.dropped = (if st.dropTagged then
            min ((s.part.chan c).counters.dropped + 1) 4294967295 else (s.part.chan c).counters.dropped))
      ∧ (s.part.CommitInFlight → t.part = s.part.takeFs c n)

/-- DATA_PACKET at a RUNNING channel, by the slot and by whether the packet is sound (R162, R163, R169). -/
def Obligations.SamplesTaken : Prop :=
  ∀ (s : State) (c : Channel) (count : Word16) (tail : List Nibble), TakesPacket s c → 1 ≤ count.toNat →
    count.toNat ≤ 256 →
    let st := s.part.setting c
    let timer := if 0 < st.timeout then some st.timeout else none
    let run := exec (.dataPacket c count tail) s
    let counted := { s.part.link with malformed := min (s.part.link.malformed + 1) 4294967295 }
    (s.part.slot c = .idle → run = .next (s.withPart ({ s.part with
        link := { s.part.link with orphan := min (s.part.link.orphan + 1) 4294967295 } })))
    ∧ (∀ n old, s.part.slot c = .masked n old →
      (∀ words, soundSamples count tail = some words →
        run = .next (s.withPart (s.part.setSlot c (.masked n timer))))
      ∧ (soundSamples count tail = none →
        run = .next (s.withPart (({ s.part with link := counted }).setSlot c (.masked n timer)))))
    ∧ (∀ f, s.part.slot c = .assembling f →
      (∀ words, soundSamples count tail = some words →
        let room := 512 - f.samples.length
        let clipped := st.clippedAmong (words.take room)
        run = .next (s.withPart ((s.part.updCounters c (fun k => { k with
            clipped := min (k.clipped + clipped) 4294967295 })).setSlot c (.assembling { f with
              samples := f.samples ++ (words.take room).map st.clip
              clipped := f.clipped + clipped
              tags := { f.tags with overlong := f.tags.overlong || decide (room < words.length) }
              timer }))))
      ∧ (soundSamples count tail = none →
        run = .next (s.withPart (({ s.part with link := counted }).setSlot c
          (.assembling { f with tags := { f.tags with check := true }, timer })))))

/-- FE_PACKET at a RUNNING channel: an open passed frame completes with NUMBER for a differing number, a masked one
closes, and with no frame open the packet is an orphan; the slot is then IDLE. A completed frame's entry, its number, samples,
tags, clipped count and gap count, joins the queue's tail where it fits, unless it is tagged and dropped; with a commit in
flight nothing more happens in the step (R123, R151, R152, R164, R169). -/
def Obligations.FrameEnded : Prop :=
  ∀ (s : State) (c : Channel) (n : Word16), TakesPacket s c →
    (s.part.slot c = .idle → ∃ t, ReactsFrom (exec (.fePacket c n) s) s s.part.orphan t
      ∧ t.part.slot c = .idle ∧ t.part.link.orphan = min (s.part.link.orphan + 1) 4294967295)
    ∧ (∀ m old, s.part.slot c = .masked m old →
      ∃ t, ReactsFrom (exec (.fePacket c n) s) s (s.part.setSlot c .idle) t ∧ t.part.slot c = .idle
        ∧ t.part.link = s.part.link)
    ∧ (∀ f, s.part.slot c = .assembling f →
      let tags := { f.tags with number := f.tags.number || decide (n ≠ f.number) }
      let q := (s.part.setSlot c .idle).completeFrame c f tags
      let entry : Entry :=
        { channel := c, content := .frame f.number f.samples tags f.clipped (if tags.gap then f.gap else 0) }
      let dropped := tags.tagged && (s.part.setting c).dropTagged
      (∃ t, ReactsFrom (exec (.fePacket c n) s) s q t
        ∧ t.part.slot c = .idle ∧ t.part.link = s.part.link
        ∧ (t.part.chan c).counters.tagged = (if tags.tagged then
            min ((s.part.chan c).counters.tagged + 1) 4294967295 else (s.part.chan c).counters.tagged)
        ∧ (t.part.chan c).counters.dropped = (if dropped then
            min ((s.part.chan c).counters.dropped + 1) 4294967295 else (s.part.chan c).counters.dropped)
        ∧ (s.part.CommitInFlight → t.part = q))
      ∧ q.queue.entries = (if dropped = false ∧ s.part.queue.entries.length < 64 ∧ s.part.linesHeld + entry.lines ≤ 2048
          then s.part.queue.entries ++ [entry] else s.part.queue.entries))

/-- ABORT_PACKET and MARK_PACKET at a RUNNING channel: an ABORT leaves the slot IDLE and offers an entry under the one-only
rule, except for a masked frame; a MARK is offered and leaves the slot (R153, R165, R166). -/
def Obligations.AbortAndMarkTaken : Prop :=
  ∀ (s : State) (c : Channel), TakesPacket s c →
    (∀ value, ∃ t, ReactsFrom (exec (.abortPacket c value) s) s (s.part.takeAbort c) t ∧ t.part.slot c = .idle
      ∧ (s.part.lastKind c = some .abort → t.part.lastKind c = some .abort
        ∧ (t.part.chan c).counters.overruns = (s.part.chan c).counters.overruns)
      ∧ ((∀ m old, s.part.slot c ≠ .masked m old) → s.part.queue.entries.length < 64 → s.part.linesHeld + 1 ≤ 2048 →
        t.part.lastKind c = some .abort))
    ∧ (∀ code, ∃ t, ReactsFrom (exec (.markPacket c code) s) s (s.part.push { channel := c, content := .mark code }) t
      ∧ (∀ c', t.part.slot c' = s.part.slot c')
      ∧ (s.part.queue.entries.length < 64 → s.part.linesHeld + 1 ≤ 2048 → t.part.lastKind c = some .mark)
      ∧ (64 ≤ s.part.queue.entries.length →
        (t.part.chan c).counters.overruns = min ((s.part.chan c).counters.overruns + 1) 4294967295))

/-- FRAME_TIMEOUT_EXPIRY of a running timer: an ASSEMBLING frame completes TRUNCATED, a MASKED one closes, and the slot is
IDLE. The completed frame's entry, its number, samples, tags, clipped count and gap count, joins the queue's tail where it fits,
unless tagged frames are dropped; with a commit in flight nothing more happens in the step (R123, R151, R152, R167). -/
def Obligations.FrameTimedOut : Prop :=
  ∀ (s : State) (c : Channel), s.part.live = true →
    (∀ n ms, s.part.slot c = .masked n (some ms) →
      ∃ t, ReactsFrom (exec (.frameTimeoutExpiry c) s) s (s.part.setSlot c .idle) t ∧ t.part.slot c = .idle)
    ∧ (∀ f ms, s.part.slot c = .assembling f → f.timer = some ms →
      let tags := { f.tags with truncated := true }
      let q := (s.part.setSlot c .idle).completeFrame c f tags
      let entry : Entry :=
        { channel := c, content := .frame f.number f.samples tags f.clipped (if tags.gap then f.gap else 0) }
      let dropped := (s.part.setting c).dropTagged
      (∃ t, ReactsFrom (exec (.frameTimeoutExpiry c) s) s q t
        ∧ t.part.slot c = .idle
        ∧ (t.part.chan c).counters.tagged = min ((s.part.chan c).counters.tagged + 1) 4294967295
        ∧ (t.part.chan c).counters.dropped = (if dropped then
            min ((s.part.chan c).counters.dropped + 1) 4294967295 else (s.part.chan c).counters.dropped)
        ∧ (s.part.CommitInFlight → t.part = q))
      ∧ q.queue.entries = (if dropped = false ∧ s.part.queue.entries.length < 64 ∧ s.part.linesHeld + entry.lines ≤ 2048
          then s.part.queue.entries ++ [entry] else s.part.queue.entries))

/-- Packets of a channel that is not RUNNING are refused and counted once; while SCANNING every packet is discarded without
a count; a malformed packet is counted in every channel state. Where the last reset ended with SLSEL_N low, the packet then in
progress is lost at its end, in every state and without a count, and the next is taken (R154, R156, R160). -/
def Obligations.PacketsRefusedOrDiscarded : Prop :=
  ∀ (s : State), s.part.live = true →
    let waits := s.part.awaitsSelection
    let lost := State.mk { s.part with awaitsSelection := false } s.pending
    (∀ (c : Channel) (i : Instr), (∃ n, i = .fsPacket c n ∨ i = .fePacket c n ∨ i = .abortPacket c n)
        ∨ (∃ code, i = .markPacket c code)
        ∨ (∃ count tail, 1 ≤ count.toNat ∧ count.toNat ≤ 256 ∧ i = .dataPacket c count tail) →
      (waits = true → exec i s = .next lost)
      ∧ (waits = false → s.part.device = .scanning → exec i s = .next s)
      ∧ (waits = false → s.part.device = .ready → (s.part.chan c).state ≠ .running →
        exec i s = .next (s.withPart ({ s.part with
          link := { s.part.link with refused := min (s.part.link.refused + 1) 4294967295 } }))))
    ∧ (∀ nibbles, decodePacket nibbles = .malformedPacket nibbles →
      (waits = true → exec (.malformedPacket nibbles) s = .next lost)
      ∧ (waits = false → s.part.device = .scanning → exec (.malformedPacket nibbles) s = .next s)
      ∧ (waits = false → s.part.device = .ready → exec (.malformedPacket nibbles) s = .next (s.withPart ({ s.part with
          link := { s.part.link with malformed := min (s.part.link.malformed + 1) 4294967295 } }))))

/-! ### The store array -/

/-- PROGRAM_COMPLETE of a program of the blocks: on OK the intended bytes stand in the store, after a failing line those
before it do, and every other byte of the store is as before (R28, R29). -/
def Obligations.ProgramWritesItsBytes : Prop :=
  ∀ (s : State) (req : ProgramReq) (a : Nat) (bytes : List Byte) (reported : ProgramEnd),
    s.part.ctl.array = some (.program req) → req.op.target = some (a, bytes) →
    ∃ t, exec (.programComplete reported) s = .next t ∧ t.pending = s.pending
      ∧ (∀ x, x < a ∨ a + bytes.length ≤ x → Memory.read t.part.store x = Memory.read s.part.store x)
      ∧ (s.part.storeCanonical = true →
        (programFailure s.part.store req.op reported = none →
          ∀ i, (h : i < bytes.length) → Memory.read t.part.store (a + i) = bytes[i])
        ∧ (∀ line, programFailure s.part.store req.op reported = some line →
          ∀ i, (h : i < bytes.length) → i < line * 32 → Memory.read t.part.store (a + i) = bytes[i]))
      ∧ t.part.settings = s.part.settings ∧ t.part.slots = s.part.slots ∧ t.part.unitArea = s.part.unitArea

/-- PROGRAM_COMPLETE of a unit program ending OK: the word or the lock is written, the image shows it, and the request that
waits is answered OK (R49, R51, R52). -/
def Obligations.UnitProgramAnswered : Prop :=
  ∀ (s : State) (tag kind : Byte), s.part.ctrl.serving = some (.unitProgram tag kind) →
    (∀ w v, s.part.ctl.array = some (.program { source := .requestServer, op := .unitWord w v }) →
      ∃ t, exec (.programComplete .ok) s = .next t ∧ t.pending = s.pending ∧ t.part.store = s.part.store
        ∧ t.part.unitArea = { s.part.unitArea with words := s.part.unitArea.words.set w.val (some v) w.isLt }
        ∧ t.part.image.area.words[w] = some v
        ∧ t.part.ctrl.reply = some { tag, kind, status := .ok, contents := [] })
    ∧ (s.part.ctl.array = some (.program { source := .requestServer, op := .unitLock }) →
      ∃ t, exec (.programComplete .ok) s = .next t ∧ t.pending = s.pending ∧ t.part.store = s.part.store
        ∧ t.part.unitArea = { s.part.unitArea with locked := true } ∧ t.part.image.area.locked = true
        ∧ t.part.ctrl.reply = some { tag, kind, status := .ok, contents := [] })

/-- READ_COMPLETE gives its requester the lines as the array holds them and changes no byte of the store: the last record
of a gathering, a one-line one, is answered with the lines read (R30, R175, R176). -/
def Obligations.ReadReturnsLines : Prop :=
  ∀ (s : State) (req : ReadReq), s.part.ctl.array = some (.read req) →
    (∃ t, exec .readComplete s = .next t ∧ t.pending = s.pending ∧ t.part.store = s.part.store
      ∧ t.part.unitArea = s.part.unitArea ∧ t.part.settings = s.part.settings ∧ t.part.slots = s.part.slots)
    ∧ (∀ g, req.source = .requestServer → s.part.ctrl.serving = some (.gathering g) → g.stage = .header →
      g.expected = g.sought → g.max = g.records.length + 1 →
      let header := readLines s.part.store req.block req.line req.count
      let contents := [channelByte g.channel, BitVec.ofNat 8 (g.records.length + 1), 0#8]
        ++ leBytes 6 (g.start + (g.records.length + 1)) ++ leBytes 6 0xFFFFFFFFFFFF ++ List.replicate 15 0#8
        ++ (g.records ++ [deliveredRecord header []]).flatten
      g.sound header = true → headerLines header = 1 → g.lines + 1 ≤ 33 →
      ∃ t, exec .readComplete s = .next t ∧ t.part.ctrl.serving = none
        ∧ t.part.ctrl.reply = some { tag := g.tag, kind := 0x28#8, status := .ok, contents })

/-- ERASE_PULSE_END. A block that verifies reads blank and no other byte changes; with the units at rest it is BLANK at the free
list's tail and has left the erase queue. One that does not verify goes on to its next pulse of 25 ms. After the 16th pulse the
erase has ended ERASE_FAIL: the fault is set, the block is RETIRED and in no erase queue, and no byte outside it has changed;
with the units at rest, the supply good and room for the notices, its retire mark begins and the notices are made, in the order
that is the model's choice (log 38) (R12, R14, R31, R42, R45). -/
def Obligations.ErasePulseEnded : Prop :=
  ∀ (s : State) (e : RunningErase), s.part.ctl.erase = some e →
    let b := e.block
    let alone := fun r : EraseRequester => s.part.JournalsQuiet ∧ s.part.je.wait = [] ∧ s.part.ctl.array = none
      ∧ s.part.ctl.suspended = none ∧ s.part.ctl.programs = [] ∧ s.part.ctl.readSlot = none
      ∧ s.part.ctl.eraseQueue = [{ block := b, requester := r }]
    let emptied := fun state : BlockState => { s.part.entry b with
      state, prior := none, channel := none, seq := none, fill := 0, first := none, last := none, worn := false }
    (∃ t, exec (.erasePulseEnd true) s = .next t ∧ t.pending = s.pending ∧ t.part.settings = s.part.settings
      ∧ (∀ x, Memory.read t.part.store x
        = if lineAddress b 0 ≤ x ∧ x < lineAddress b 0 + 32768 then 0xFF#8 else Memory.read s.part.store x)
      ∧ (∀ r, alone r → t.part.entry b = emptied .blank ∧ (∀ b', b' ≠ b → t.part.entry b' = s.part.entry b')
        ∧ t.part.freeList = s.part.freeList ++ [b] ∧ t.part.ctl.eraseQueue = [] ∧ t.part.ctl.erase = none
        ∧ t.part.ctl.slice = .stopped ∧ t.part.ctl.faults = s.part.ctl.faults))
    ∧ (e.pulses + 1 < 16 → exec (.erasePulseEnd false) s = .next (s.withPart ({ s.part with
        ctl := { s.part.ctl with erase := some { e with pulses := e.pulses + 1, remaining := 25000 } } })))
    ∧ (16 ≤ e.pulses + 1 → ∃ t, exec (.erasePulseEnd false) s = .next t ∧ t.pending = s.pending
      ∧ (∀ x, x < lineAddress b 0 ∨ lineAddress b 0 + 32768 ≤ x →
        Memory.read t.part.store x = Memory.read s.part.store x)
      ∧ t.part.ctl.faults.eraseFail = true
      ∧ (s.part.device = .ready → (t.part.entry b).state = .retired ∧ ∀ y ∈ t.part.ctl.eraseQueue, y.block ≠ b)
      ∧ (∀ tag, alone (.host tag) → s.part.Supplied → s.part.lockOf b = .unlocked → s.part.notices.mask = 0x01FC#16 →
        s.part.notices.queue.length ≤ 13 →
        t.part.entry b = emptied .retired ∧ (∀ b', b' ≠ b → t.part.entry b' = s.part.entry b')
        ∧ t.part.ctl.eraseQueue = [] ∧ t.part.ctl.erase = none ∧ t.part.ctl.slice = .stopped
        ∧ t.part.je.backlog = [.retireMark b]
        ∧ t.part.ctl.array = some (.program { source := .journalEngine, op := .retireMark b })
        ∧ t.part.notices.queue = s.part.notices.queue
          ++ [.storeFault .eraseFail .erase (some b), .blockRetired b .eraseFail, .opDone tag b .eraseFail]))

/-- ERASE_SLICE_TIMER_EXPIRY: the slice has reached 2 ms, and suspension is requested when a program or a read waits (R37).
SUSPENSION_TAKES_EFFECT: the record keeps the pulses completed and the running time left, and the waiting read is taken
(R36, R38; here with the Journal Engine at rest). With the array free and no program or read waiting the arbiter takes the
resumption of a suspended erase, or the erase at the queue's head: with the supply good the resumption runs on for the time left,
whatever the lock; the erase begins where its block is UNLOCKED, and is otherwise refused, its block back in its prior state, out
of the queue, LOCKED_HIT set and a host told by OP_DONE. With the supply low SUPPLY is set, STORE_FAULT is made and the erase keeps
its place or its record (R13, R36, R39, R40, R41, R44). -/
def Obligations.SliceTimerAndSuspension : Prop :=
  (∀ (s : State) (e : RunningErase), s.part.ctl.erase = some e → s.part.ctl.slice = .below →
      let waits := !s.part.ctl.programs.isEmpty || s.part.ctl.readSlot.isSome
      let ctl := { s.part.ctl with
        slice := .reached, erase := some { e with suspending := e.suspending || waits } }
      exec .eraseSliceTimerExpiry s = .next (s.withPart { s.part with ctl })) ∧
  (∀ (s : State) (e : RunningErase) (r : ReadReq) (ran : Nat), s.part.ctl.erase = some e → e.suspending = true →
      ran ≤ e.remaining → s.part.JournalsQuiet → s.part.ctl.array = none → s.part.ctl.programs = [] →
      s.part.ctl.readSlot = some r → (s.part.entry r.block).state ≠ .erasing →
      let ctl := { s.part.ctl with
        erase := none
        suspended := some { block := e.block, pulses := e.pulses, remaining := e.remaining - ran }
        slice := .stopped
        readSlot := none
        array := some (.read r) }
      exec (.suspensionTakesEffect ran) s = .next (s.withPart { s.part with ctl })) ∧
  (∀ p : Part, p.ctl.array = none → p.ctl.erase = none → p.ctl.programs = [] → p.ctl.readSlot = none →
      p.ctl.faults.supply = false → p.supply.coming = [] →
      let runs := fun b pulses remaining => { p with ctl := { p.ctl with
        erase := some { block := b, pulses, remaining, suspending := false }, suspended := none, slice := .below } }
      let refusedSupply := fun b => ∃ q, p.arbiterTake = some (q, [.eraseSupply])
        ∧ q.ctl = { p.ctl with faults := { p.ctl.faults with supply := true } } ∧ q.dir = p.dir ∧ q.store = p.store
        ∧ (p.notices.mask = 0x01FC#16 → p.notices.queue.length < 16 →
          q.notices.queue = p.notices.queue ++ [.storeFault .supply .erase (some b)])
      (∀ r, p.ctl.suspended = some r →
        (2850 ≤ p.supply.vstMv → p.arbiterTake = some (runs r.block r.pulses r.remaining, []))
        ∧ (p.supply.vstMv < 2650 → refusedSupply r.block))
      ∧ (∀ x rest, p.ctl.suspended = none → p.ctl.eraseQueue = x :: rest →
        (p.supply.vstMv < 2650 → refusedSupply x.block)
        ∧ (2850 ≤ p.supply.vstMv → p.lockOf x.block = .unlocked → p.arbiterTake = some (runs x.block 0 25000, []))
        ∧ (2850 ≤ p.supply.vstMv → p.lockOf x.block ≠ .unlocked → ∃ q, p.arbiterTake = some (q, [.retryDue])
          ∧ q.ctl = { p.ctl with faults := { p.ctl.faults with lockedHit := true }
                                 eraseQueue := p.ctl.eraseQueue.filter (fun y => decide (y.block ≠ x.block)) }
          ∧ (∀ prior, (p.entry x.block).prior = some prior →
            q.entry x.block = { p.entry x.block with
              state := (match prior with | .closed => .closed | .torn => .torn), prior := none })
          ∧ (∀ b, b ≠ x.block → q.entry b = p.entry b) ∧ q.je = p.je ∧ q.store = p.store
          ∧ (∀ tag, x.requester = .host tag → p.notices.queue.length < 16 →
            q.notices.queue = p.notices.queue ++ [.opDone tag x.block .locked])
          ∧ (∀ c, x.requester = .journal c → q.notices = p.notices))))

/-! ### Journals and the scan -/

/-- A journal that allocates: NUMBERS at the end of the sequences; STORE_FAULT under the supply hold; the first eligible
block of the free list is opened for it, and the channel's COLLECTING event holds that block or, with 32 held, completes short;
with none, the TORN choice is enqueued for erase and it waits; with none, the CLOSED block of lowest sequence that reclaim may
take is, or is retired where it is worn; with none, it stalls with NO_SPACE and takes nothing. While it is WAITING its subject
waits; while it is STALLED its subject waits under BLOCK, and under SHED leaves the queue, counted, with no record number spent and
no event told (R8, R11, R15, R18, R58, R71 to R74, R79 to R81, R113, R114). -/
def Obligations.BlockAllocated : Prop :=
  ∀ (p : Part) (c : Channel),
    let q := p.allocate c
    (4294967295 ≤ p.je.nextSeq → (q.journal c).state = .stalled .numbers)
    ∧ (p.je.nextSeq < 4294967295 → p.je.hold = true → (q.journal c).state = .stalled .storeFault)
    ∧ (p.je.nextSeq < 4294967295 → p.je.hold = false →
      (∀ b, p.freeChoice c = some b →
        b ∈ p.freeList ∧ (p.entry b).state = .blank ∧ p.lockOf b = .unlocked ∧ (p.entry b).downFlag = false ∧ (p.active.eval b).cls ≠ .parked
        ∧ (p.active.eval b).set.getLsbD c.val = true
        ∧ (q.entry b).state = .opened ∧ (q.entry b).channel = some c ∧ (q.entry b).seq = some p.je.nextSeq
        ∧ (q.entry b).fill = 0 ∧ (q.entry b).first = none ∧ (q.entry b).last = none
        ∧ b ∉ q.freeList ∧ q.je.nextSeq = p.je.nextSeq + 1
        ∧ q.je.backlog = p.je.backlog ++ [ProgramOp.headerOpen b c p.je.nextSeq (p.journal c).nextRec]
        ∧ (q.journal c).state = .writing ∧ (q.journal c).openBlock = some b ∧ c ∉ q.je.wait
        ∧ (p.events.collecting c = none → q.events = p.events ∧ (q.entry b).holdCount = (p.entry b).holdCount)
        ∧ (∀ e, p.events.collecting c = some e →
          let joins := decide (e.held.length < 32)
          q.events.table = p.events.table.map (fun y => if y.id = e.id then
              (if joins then { e with held := e.held ++ [b] } else { e with short := true, state := .complete }) else y)
          ∧ (q.entry b).holdCount = (p.entry b).holdCount + (if joins then 1 else 0)))
      ∧ (∀ b, p.freeChoice c = none → p.tornChoice c = some b →
        (p.entry b).state = .torn ∧ (q.entry b).state = .erasing ∧ (q.entry b).prior = some .torn
        ∧ q.ctl.eraseQueue = p.ctl.eraseQueue ++ [{ block := b, requester := .journal c }]
        ∧ (q.journal c).state = .waiting ∧ (q.journal c).reclaim = some b ∧ c ∈ q.je.wait)
      ∧ (∀ b, p.freeChoice c = none → p.tornChoice c = none → p.reclaimChoice c = some b →
        let may := fun b => (p.entry b).state = .closed ∧ (p.entry b).channel = some c ∧ (p.entry b).holdCount = 0
          ∧ p.lockOf b = .unlocked ∧ (p.entry b).downFlag = false ∧ (p.active.eval b).cls = .ring
          ∧ (p.active.eval b).set.getLsbD c.val = true
        may b ∧ (∀ b', may b' → (p.entry b).seq.getD 0 ≤ (p.entry b').seq.getD 0)
        ∧ ((p.entry b).worn = false → (q.entry b).state = .erasing ∧ (q.entry b).prior = some .closed
          ∧ q.ctl.eraseQueue = p.ctl.eraseQueue ++ [{ block := b, requester := .journal c }]
          ∧ (q.journal c).state = .waiting ∧ (q.journal c).reclaim = some b ∧ c ∈ q.je.wait)
        ∧ ((p.entry b).worn = true → (q.entry b).state = .retired ∧ ProgramOp.retireMark b ∈ q.je.backlog))
      ∧ (p.freeChoice c = none → p.tornChoice c = none → p.reclaimChoice c = none →
        (q.journal c).state = .stalled .noSpace ∧ q.dir = p.dir ∧ q.freeList = p.freeList ∧ q.ctl = p.ctl
        ∧ q.je.backlog = p.je.backlog
        ∧ ((p.journal c).state = .stalled .noSpace → q = p)
        ∧ ((p.journal c).state ≠ .stalled .noSpace → c ∈ q.je.wait
          ∧ (p.notices.mask.getLsbD 2 = true → p.notices.queue.length < 16 →
            q.notices.queue = p.notices.queue ++ [.stalled c .noSpace]))))
    ∧ (∀ (e : Entry) (rest : List Entry), p.queue.entries = e :: rest → e.channel = c →
      ((p.journal c).state = .waiting → p.subjectAct = none)
      ∧ (∀ cause, (p.journal c).state = .stalled cause → (p.setting c).policy = .block → p.subjectAct = none)
      ∧ (∀ cause, (p.journal c).state = .stalled cause → (p.setting c).policy = .shed → p.je.outstanding ≠ some .record →
        ∃ t, p.subjectAct = some t ∧ t.queue.entries = rest ∧ t.dir = p.dir ∧ t.events = p.events ∧ t.store = p.store
          ∧ (t.chan c).counters.shed = min ((p.chan c).counters.shed + 1) 4294967295
          ∧ (t.chan c).counters.committed = (p.chan c).counters.committed
          ∧ (t.journal c).nextRec = (p.journal c).nextRec
          ∧ ((p.chan c).state ≠ .stopping → t.journal c = p.journal c ∧ t.notices = p.notices)))

/-- The outcomes of the Journal Engine's programs. A record that ends OK is committed: its block's fill and record
numbers, the channel's next record number and committed counter move, the subject leaves the queue, and a record that is no
marker trigger counts against the channel's COLLECTING event, which is COMPLETE at 0; a MARK is told to the Event Unit with its
number once block and number have moved. One that fails leaves block, number and
subject, and the block's close mark, worn, joins the backlog. A close mark joins once a close is due and the block has no
program of its own. When it ends the block is CLOSED, worn as the mark says or for a failure, its pending lock in effect, and
its journal has no open block; with nothing else to do that is all the step does. A header-open that ends OK leaves the backlog;
one that fails retires its block, a pending lock in effect and a retire mark in the backlog, and the journal allocates again. A
program refused for SUPPLY sets the supply hold and keeps its backlog entry: of the journals not STALLED already, the refused one,
every WAITING one and every owner of a header-open or close mark in the backlog become STALLED with STORE_FAULT, keep their blocks
and stand in the wait queue (R9, R10, R20, R61, R62, R65, R67, R68, R81, R104, R112, R114, R127). -/
def Obligations.RecordCommitted : Prop :=
  (∀ (p : Part) (e : Entry) (rest : List Entry) (b : Block) (line : Nat) (bytes : List Byte)
      (h : line * 32 + bytes.length ≤ 32768),
    p.queue.entries = e :: rest →
    (let q := p.journalOutcome (.record b line bytes h) .ok
      let record := (p.journal e.channel).nextRec
      q.queue.entries = rest ∧ q.je.outstanding = none
      ∧ (q.entry b).fill = (p.entry b).fill + e.lines ∧ (q.entry b).last = some record
      ∧ (q.entry b).first = some ((p.entry b).first.getD record)
      ∧ (∀ b', b' ≠ b → (q.entry b').fill = (p.entry b').fill ∧ (q.entry b').last = (p.entry b').last)
      ∧ (q.journal e.channel).nextRec = record + 1
      ∧ (∀ c, c ≠ e.channel → q.journal c = p.journal c)
      ∧ (q.chan e.channel).counters.committed = min ((p.chan e.channel).counters.committed + 1) 4294967295
      ∧ q.store = p.store
      ∧ ((∀ code, e.content = .mark code → (p.setting e.channel).triggerCode ≠ some code) →
        (p.events.collecting e.channel = none → q.events = p.events)
        ∧ (∀ x, p.events.collecting e.channel = some x → q.events.table = p.events.table.map (fun y => if y.id = x.id then
            { x with remaining := x.remaining - 1, state := if x.remaining - 1 = 0 then .complete else x.state } else y)))
      ∧ (∀ code, e.content = .mark code → ∃ r : Part, r.events = p.events ∧ r.settings = p.settings
        ∧ (r.entry b).last = some record ∧ (r.journal e.channel).nextRec = record + 1
        ∧ q.events = (r.eventCommit e.channel record (.mark code)).events))
    ∧ (let q := p.journalOutcome (.record b line bytes h) .programFail
      (p.journal e.channel).openBlock = some b → (∀ op ∈ p.je.backlog, op.block ≠ some b) →
      q.queue = p.queue ∧ q.dir = p.dir ∧ q.je.outstanding = none ∧ (q.journal e.channel).due.fail = true
      ∧ (q.journal e.channel).nextRec = (p.journal e.channel).nextRec
      ∧ q.je.backlog = p.je.backlog ++ [.closeMark b (p.entry b).fill (p.entry b).last true]))
  ∧ (∀ (p : Part) (c : Channel) (b : Block), (p.journal c).openBlock = some b →
    ((p.journal c).due.any = true → (∀ op ∈ p.je.backlog, op.block ≠ some b) → p.je.outstanding ≠ some .record →
      p.joinClose c = { p with je := { p.je with
        backlog := p.je.backlog ++ [.closeMark b (p.entry b).fill (p.entry b).last (p.journal c).due.fail] } })
    ∧ ((p.journal c).due.any = false ∨ (∃ op ∈ p.je.backlog, op.block = some b) → p.joinClose c = p))
  ∧ (∀ (p : Part) (b : Block) (c : Channel) (fill : Nat) (last : Option Nat) (worn failed : Bool),
    (p.entry b).channel = some c →
    let op := ProgramOp.closeMark b fill last worn
    let q := p.journalOutcome op (if failed then .programFail else .ok)
    let e := p.entry b
    q.entry b = { e with
        state := .closed, worn := worn || failed, pending := .clear
        lockBit := e.lockBit || decide (e.pending ≠ .clear), downFlag := e.downFlag || decide (e.pending = .down) }
    ∧ (∀ b', b' ≠ b → q.entry b' = p.entry b')
    ∧ (q.journal c).openBlock = none ∧ (q.journal c).due.any = false
    ∧ (q.journal c).state = (if (p.journal c).state = .writing then .noBlock else (p.journal c).state)
    ∧ q.je.backlog = p.je.backlog.tail ∧ q.je.outstanding = none
    ∧ (∀ s : State, s.part = p → p.ctl.array = some (.program { source := .journalEngine, op }) → p.queue.entries = [] →
      p.je.backlog = [op] → (∀ c', c' ≠ c → (p.journal c').due.any = false) → p.ctl.erase = none →
      p.ctl.suspended = none → p.ctl.programs = [] → p.ctl.readSlot = none → p.ctl.eraseQueue = [] →
      ∃ t, exec (.programComplete (if failed then .fail 0 else .ok)) s = .next t ∧ t.pending = s.pending
        ∧ t.part.dir = q.dir ∧ t.part.je = q.je))
  ∧ (∀ (p : Part) (b : Block) (c : Channel) (seq first : Nat),
    let op := ProgramOp.headerOpen b c seq first
    p.journalOutcome op .ok = { p with je := { p.je with outstanding := none, backlog := p.je.backlog.tail } }
    ∧ ∃ r : Part, p.journalOutcome op .programFail = r.allocate c
      ∧ r.entry b = { p.entry b with
          state := .retired, prior := none, channel := none, seq := none, fill := 0, first := none, last := none
          worn := false, pending := .clear
          lockBit := (p.entry b).lockBit || decide ((p.entry b).pending ≠ .clear)
          downFlag := (p.entry b).downFlag || decide ((p.entry b).pending = .down) }
      ∧ (∀ b', b' ≠ b → r.entry b' = p.entry b')
      ∧ r.je.backlog = p.je.backlog.tail ++ [.retireMark b] ∧ r.je.outstanding = none ∧ r.je.wait = p.je.wait
      ∧ r.journal c = { p.journal c with openBlock := none, due := .none }
      ∧ (∀ c', c' ≠ c → r.journal c' = p.journal c')
      ∧ (p.notices.mask = 0x01FC#16 → p.notices.queue.length < 16 →
        r.notices.queue = p.notices.queue ++ [.blockRetired b .openFail]))
  ∧ (∀ (p : Part) (refused : Option Channel),
    let q := p.setHold refused
    let stalls := fun c => refused = some c ∨ (p.journal c).state = .waiting
      ∨ ∃ b, (p.journal c).openBlock = some b ∧ ∃ op ∈ p.je.backlog, op.block = some b
    q.je.hold = true ∧ q.je.backlog = p.je.backlog ∧ q.dir = p.dir ∧ q.ctl = p.ctl ∧ q.queue = p.queue
    ∧ (∀ c, (∀ cause, (p.journal c).state = .stalled cause → q.journal c = p.journal c)
      ∧ ((∀ cause, (p.journal c).state ≠ .stalled cause) → stalls c →
        q.journal c = { p.journal c with state := .stalled .storeFault } ∧ c ∈ q.je.wait)
      ∧ (¬stalls c → q.journal c = p.journal c))
    ∧ (∀ (op : ProgramOp) (e : Entry), p.queue.entries.head? = some e →
      let told := fun c => p.journalOutcome op .refusedSupply
        = ({ p with je := { p.je with outstanding := none } } : Part).setHold c
      (∀ b line bytes h, op = .record b line bytes h → told (some e.channel))
      ∧ (∀ b c seq first, op = .headerOpen b c seq first → told (some c))
      ∧ (∀ b fill last worn, op = .closeMark b fill last worn → told (p.entry b).channel)
      ∧ (∀ b, op = .retireMark b → told none)))

/-- A header read while SCANNING is judged by the first case of R200 that applies. Blank, retire mark, no valid open section, a
sequence seen before and a valid close section read nothing more: the scan then comes to the next block and no other entry
changes. A block left open is walked from line 1: a header line that is blank, not acceptable or ends past line 1,023 ends the
walk, a whole record is taken when its check matches and ends the walk otherwise, each line a read of its own; the walk's end makes
the block TORN for conflicting numbers, or presents its close mark, whose outcome (or refusal) makes it CLOSED and cut. When the block is block 127 the scan ends: the part is READY, every block is locked, the free
list holds the BLANK blocks in order, the next numbers lie one above the highest of the CLOSED blocks, HOLD_N is released, and
STARTED is made; with the units at rest READ_COMPLETE does this and nothing else (R199 to R204). -/
def Obligations.HeaderClassified : Prop :=
  ∀ (p : Part) (h : List Byte),
    let q := p.scanJudge h
    let x := q.entry p.scanBlock
    (p.scan.classified < 127 →
      let moved := q.scan.classified = p.scan.classified + 1 ∧ ∀ b, b ≠ p.scanBlock → q.entry b = p.entry b
      (readsBlank h = true → x.state = .blank ∧ x.channel = none ∧ x.seq = none ∧ moved)
      ∧ (readsBlank h = false → retirePresent h = true → x.state = .retired ∧ x.channel = none ∧ x.seq = none ∧ moved)
      ∧ (readsBlank h = false → retirePresent h = false → openValid h = false ∨ p.seqSeen (openSeq h) = true →
        x.state = .torn ∧ x.channel = none ∧ x.seq = none ∧ moved)
      ∧ (readsBlank h = false → retirePresent h = false → openValid h = true → p.seqSeen (openSeq h) = false →
        closeValid h = true →
        (p.numbersConflict (openChannel h) (openSeq h) (openFirst h) (closeFill h) (closeLast h) = true →
          x.state = .torn ∧ x.channel = none ∧ x.seq = none ∧ moved)
        ∧ (p.numbersConflict (openChannel h) (openSeq h) (openFirst h) (closeFill h) (closeLast h) = false →
          x.state = .closed ∧ x.channel = some (openChannel h) ∧ x.seq = some (openSeq h) ∧ x.fill = closeFill h
          ∧ x.first = (if 0 < closeFill h then some (openFirst h) else none)
          ∧ x.last = (if 0 < closeFill h then closeLast h else none)
          ∧ x.worn = decide (byteAt h 22 = 1) ∧ x.cut = false ∧ moved)))
    ∧ (p.scan.classified = 127 → (openValid h = true → closeValid h = true ∨ p.seqSeen (openSeq h) = true) →
      let count := fun f : DirEntry → Bool => q.tally 0 127 (fun _ e => f e)
      let started := Notice.started p.power.cause (count (fun e => decide (e.state = .blank)))
        (count (fun e => decide (e.state = .closed))) (count (fun e => decide (e.state = .retired)))
        (count (fun e => decide (e.state = .torn))) (count (·.cut))
      q.device = .ready ∧ q.scan = { classified := 128, phase := .done }
      ∧ (∀ b, (q.entry b).lockBit = true) ∧ (∀ b, b ≠ 127 → q.entry b = { p.entry b with lockBit := true })
      ∧ q.freeList = allBlocks.filter (fun b => decide ((q.entry b).state = .blank))
      ∧ (∀ c, (∀ b last, (q.entry b).state = .closed → (q.entry b).channel = some c → (q.entry b).last = some last →
            last < (q.journal c).nextRec)
          ∧ ((q.journal c).nextRec = 0 ∨ ∃ b, (q.entry b).state = .closed ∧ (q.entry b).channel = some c
            ∧ (q.entry b).last = some ((q.journal c).nextRec - 1)))
      ∧ (∀ b seq, (q.entry b).state = .closed → (q.entry b).seq = some seq → seq < q.je.nextSeq)
      ∧ (q.je.nextSeq = 0 ∨ ∃ b, (q.entry b).state = .closed ∧ (q.entry b).seq = some (q.je.nextSeq - 1))
      ∧ (p.queue.entries = [] → 0 < p.queue.high → q.queue.hold = false)
      ∧ (p.notices.queue.length < 16 → q.notices.queue = p.notices.queue ++ [started])
      ∧ (16 ≤ p.notices.queue.length → q.notices.queue = p.notices.queue ∧ q.notices.dropped = true)
      ∧ (∀ s : State,
        let reading := ArrayOp.read { source := .storeScanner, block := 127, line := 0, count := 1 }
        s.part = { p with ctl := { p.ctl with array := some reading } } →
        h = readLines p.store 127 0 1 → p.device = .scanning → p.scan.phase = .header → p.JournalsQuiet → p.StoreQuiet →
        exec .readComplete s = .next (s.withPart q)))
    ∧ (p.ctl.erase = none → readsBlank h = false → retirePresent h = false → openValid h = true →
      p.seqSeen (openSeq h) = false → closeValid h = false → q = { p with
        scan := { p.scan with phase := .walk { channel := openChannel h, seq := openSeq h, first := openFirst h, line := 1
                                               expected := openFirst h, fill := 0, last := none, record := none } }
        ctl := { p.ctl with
          readSlot := some { source := .storeScanner, block := p.scanBlock, line := 1, count := 1 } } })
    ∧ (∀ w : ScanWalk, p.ctl.erase = none →
      let lines := headerLines h
      let acceptable := byteAt h 0 ≤ 2 ∧ byteAt h 1 = w.channel.val ∧ fieldAt h 3 6 = w.expected ∧ fieldAt h 11 2 ≤ 512
        ∧ (byteAt h 0 ≠ 0 → fieldAt h 11 2 = 0)
      let reads := fun (r : Part) (w' : ScanWalk) (line : Nat) =>
        ∃ inBlock : line + 1 ≤ 1024, r = { p with
          scan := { p.scan with phase := .walk w' }
          ctl := { p.ctl with
            readSlot := some { source := .storeScanner, block := p.scanBlock, line, count := 1, inBlock } } }
      (h.length = 32 → w.record = none →
        (readsBlank h = true ∨ ¬acceptable ∨ 1023 < w.line + lines - 1 → p.walkRead w h = p.walkEnds w)
        ∧ (readsBlank h = false → acceptable → w.line + lines - 1 ≤ 1023 →
          (1 < lines → reads (p.walkRead w h) { w with record := some (h, lines - 1) } (w.line + 1))
          ∧ (lines ≤ 1 → p.walkRead w h = p.walkRecord w h)))
      ∧ (∀ bytes toCome, h.length = 32 → w.record = some (bytes, toCome) →
        (1 < toCome → w.line + (bytes.length + 32) / 32 ≤ 1023 →
          reads (p.walkRead w h) { w with record := some (bytes ++ h, toCome - 1) } (w.line + (bytes.length + 32) / 32))
        ∧ (toCome ≤ 1 → p.walkRead w h = p.walkRecord w (bytes ++ h)))
      ∧ (∀ whole : List Byte,
        let lines := headerLines (whole.take 32)
        let taken := { w with
          line := w.line + lines, expected := w.expected + 1, fill := w.fill + lines, last := some w.expected
          record := none }
        let sound := checkBytes ((whole.take 32).take 18 ++ whole.drop 32) = ((whole.take 32).drop 18).take 2
        (sound → w.line + lines ≤ 1023 → reads (p.walkRecord w whole) taken (w.line + lines))
        ∧ (sound → 1023 < w.line + lines → p.walkRecord w whole = p.walkEnds taken)
        ∧ (¬sound → p.walkRecord w whole = p.walkEnds { w with record := none }))
      ∧ (let closed := fun worn => { p.entry p.scanBlock with
          state := .closed, prior := none, channel := some w.channel, seq := some w.seq, fill := w.fill
          first := (if 0 < w.fill then some w.first else none), last := (if 0 < w.fill then w.last else none)
          worn, cut := true }
        let conflict := p.numbersConflict w.channel w.seq w.first w.fill w.last
        p.scan.classified < 127 →
          (conflict = true → ((p.walkEnds w).entry p.scanBlock).state = .torn)
          ∧ (conflict = false → p.ctl.faults.supply = true → (p.walkEnds w).entry p.scanBlock = closed false)
          ∧ (conflict = false → p.ctl.faults.supply = false → p.walkEnds w = { p with
              scan := { p.scan with phase := .close w }
              ctl := { p.ctl with programs := p.ctl.programs ++
                [{ source := .storeScanner, op := .closeMark p.scanBlock w.fill w.last false }] } })
          ∧ (p.scan.phase = .close w →
            (p.scanProgramOutcome .ok).entry p.scanBlock = closed false
            ∧ (p.scanProgramOutcome .programFail).entry p.scanBlock = closed true
            ∧ (p.scanProgramOutcome .refusedSupply).entry p.scanBlock = closed false)))

/-! ### Packets, and invariants that every step keeps -/

/-- Every well-formed packet command is what the receiver reads from the nibbles a front end clocks for it (R154 to R156,
section 12.4). -/
def Obligations.PacketsDecodeAsEncoded : Prop :=
  ∀ i : Instr, i.wellFormed = true →
    (∃ c n, i = .fsPacket c n ∨ i = .fePacket c n ∨ i = .abortPacket c n) ∨ (∃ c code, i = .markPacket c code)
      ∨ (∃ c n tail, i = .dataPacket c n tail) ∨ (∃ nibbles, i = .malformedPacket nibbles) →
    decodePacket (encodePacket i) = i

/-- Every step keeps the store in the one canonical form of its memory. -/
def Obligations.StepKeepsStoreCanonical : Prop :=
  ∀ s t : State, s.part.storeCanonical = true → step s = .next t → t.part.storeCanonical = true

/-- Every step keeps every variable descriptor of both map copies aligned and inside the store (R83, R92), the queue's marks in
their ranges (R121), and the request buffer at 2 requests or fewer (R185). -/
def Obligations.StepKeepsMapsAndBounds : Prop :=
  (∀ s t : State, s.part.mapsAligned = true → step s = .next t → t.part.mapsAligned = true) ∧
  (∀ s t : State, s.part.marksInRange = true → s.part.bufferBounded = true → step s = .next t →
      t.part.marksInRange = true ∧ t.part.bufferBounded = true)

/-- The state after reset meets the invariants of the two statements above: the map descriptors, the queue marks and the request
buffer as the part's units reset (R197). That the store is canonical is of the model's choice for a new part's store (log 6), and
that no command waits is of its queue and its start (logs 2 and 4). -/
def Obligations.ResetMeetsInvariants : Prop :=
  State.reset.part.storeCanonical = true ∧ State.reset.part.mapsAligned = true ∧ State.reset.part.marksInRange = true
    ∧ State.reset.part.bufferBounded = true ∧ State.reset.pending = []
end

