-- ==== Sys2Proof/Laws/Formats.lean ====
section
/-! SUPPORT. Little-endian fields and nibbles read back: what the byte layouts' round trips rest on; and the length of a
record's bytes. -/

namespace Sys2Proof

@[simp] theorem leBytes_length (k n : Nat) : (leBytes k n).length = k := by
  induction k generalizing n with
  | zero => rfl
  | succ k ih => simp [leBytes, ih]

/-- A field read back is its value, where it fits. -/
theorem leValue_leBytes (k n : Nat) (h : n < 256 ^ k) : leValue (leBytes k n) = n := by
  induction k generalizing n with
  | zero => simp at h; simp [leBytes, leValue, h]
  | succ k ih =>
    have : n / 256 < 256 ^ k := by
      rw [Nat.div_lt_iff_lt_mul (by norm_num)]
      rw [pow_succ] at h
      exact h
    simp only [leBytes, leValue, ih _ this, BitVec.toNat_ofNat]
    omega

/-- The field of `k` bytes that begins after `front` in a body. -/
theorem fieldAt_append (front rest : List Byte) (k n : Nat) (h : n < 256 ^ k) :
    fieldAt (front ++ leBytes k n ++ rest) front.length k = n := by
  unfold fieldAt
  rw [List.append_assoc, List.drop_left, List.take_left' (leBytes_length k n), leValue_leBytes k n h]

@[simp] theorem checkBytes_length (bytes : List Byte) : (checkBytes bytes).length = 2 := leBytes_length 2 _

@[simp] theorem nibblesOfBytes_length (bytes : List Byte) : (nibblesOfBytes bytes).length = 2 * bytes.length := by
  induction bytes with
  | nil => rfl
  | cons b bs ih => simp only [nibblesOfBytes, List.length_cons, ih]; omega

/-- The bytes of a run that opens with the nibbles of bytes (R154). -/
theorem bytesOfNibbles_append (bytes : List Byte) (tail : List Nibble) :
    bytesOfNibbles (nibblesOfBytes bytes ++ tail) = bytes ++ bytesOfNibbles tail := by
  induction bytes with
  | nil => rfl
  | cons b bs ih =>
    simp only [nibblesOfBytes, List.cons_append, bytesOfNibbles, ih]
    congr 1
    bv_normalize

@[simp] theorem sampleBytes_length (words : List Word16) : (sampleBytes words).length = 2 * words.length := by
  induction words with
  | nil => rfl
  | cons w ws ih =>
    unfold sampleBytes at ih ⊢
    simp only [List.flatMap_cons, List.length_append, leBytes_length, List.length_cons, ih]
    omega

namespace Machine

/-- A record has the lines of its entry (R3, R64). -/
theorem recordBytes_length (e : Entry) (record : Nat) : (recordBytes e record).length = e.lines * Config.lineBytes := by
  obtain ⟨c, content⟩ := e
  cases content <;>
    simp [recordBytes, recordFields, Entry.sampleLines, Entry.lines, sampleLineBytes, frameLines, Config.lineBytes]
  omega

/-- A record that fits has all its lines in the block, so its program is presented (R64). -/
theorem recordFits_inBlock (p : Part) (b : Block) (e : Entry) (record : Nat) (h : p.recordFits b e = true) :
    ((p.entry b).fill + 1) * Config.lineBytes + (recordBytes e record).length ≤ Config.blockBytes := by
  rw [recordBytes_length]
  have := of_decide_eq_true h
  simp only [Config.maxFill, Config.lineBytes, Config.blockBytes] at this ⊢
  omega

/-- A program of the 128 blocks writes inside the store (R1, R27). -/
theorem ProgramOp.target_inStore (op : ProgramOp) (a : Nat) (bytes : List Byte) (h : op.target = some (a, bytes)) :
    a + bytes.length ≤ Config.storeBytes := by
  cases op <;> simp only [ProgramOp.target, Option.some.injEq, Prod.mk.injEq, reduceCtorEq] at h
  case record block line bytes inBlock =>
    obtain ⟨rfl, rfl⟩ := h
    have := block.isLt
    simp only [lineAddress, Config.storeBytes, Config.blockBytes, Config.lineBytes] at inBlock ⊢
    omega
  case headerOpen block _ _ _ =>
    obtain ⟨rfl, rfl⟩ := h
    have := block.isLt
    simp [lineAddress, Config.storeBytes, Config.blockBytes, Config.lineBytes, openSectionBytes]
    omega
  case closeMark block _ _ _ =>
    obtain ⟨rfl, rfl⟩ := h
    have := block.isLt
    simp [lineAddress, Config.storeBytes, Config.blockBytes, Config.lineBytes, closeSectionBytes]
    omega
  case retireMark block =>
    obtain ⟨rfl, rfl⟩ := h
    have := block.isLt
    simp [lineAddress, Config.storeBytes, Config.blockBytes, Config.lineBytes, retireMarkBytes]
    omega

end Machine

end Sys2Proof
end

