-- ==== Sys2Proof/Laws/State.lean ====
section
/-! SUPPORT. What each named update does to each register: one lemma per field, true by rfl, so that later proofs unfold
no record update. -/

namespace Sys2Proof.Machine

/-! ### Reading back an array field after an update -/

@[simp] theorem Part.entry_updEntry (p : Part) (b b' : Block) (f : DirEntry → DirEntry) :
    (p.updEntry b f).entry b' = if b = b' then f (p.entry b) else p.entry b' := by
  simp only [Part.entry, Part.updEntry, Fin.getElem_fin, Vector.getElem_set]
  by_cases h : b = b'
  · subst h; simp
  · have : b.val ≠ b'.val := fun hv => h (Fin.ext hv)
    simp [h, this]

@[simp] theorem Part.journal_updJournal (p : Part) (c c' : Channel) (f : Journal → Journal) :
    (p.updJournal c f).journal c' = if c = c' then f (p.journal c) else p.journal c' := by
  simp only [Part.journal, Part.updJournal, Fin.getElem_fin, Vector.getElem_set]
  by_cases h : c = c'
  · subst h; simp
  · have : c.val ≠ c'.val := fun hv => h (Fin.ext hv)
    simp [h, this]

@[simp] theorem Part.chan_updChan (p : Part) (c c' : Channel) (f : ChannelStatus → ChannelStatus) :
    (p.updChan c f).chan c' = if c = c' then f (p.chan c) else p.chan c' := by
  simp only [Part.chan, Part.updChan, Fin.getElem_fin, Vector.getElem_set]
  by_cases h : c = c'
  · subst h; simp
  · have : c.val ≠ c'.val := fun hv => h (Fin.ext hv)
    simp [h, this]

@[simp] theorem Part.slot_setSlot (p : Part) (c c' : Channel) (slot : Slot) :
    (p.setSlot c slot).slot c' = if c = c' then slot else p.slot c' := by
  simp only [Part.slot, Part.setSlot, Fin.getElem_fin, Vector.getElem_set]
  by_cases h : c = c'
  · subst h; simp
  · have : c.val ≠ c'.val := fun hv => h (Fin.ext hv)
    simp [h, this]

/-! ### Each of these updates leaves the other registers -/

@[simp] theorem Part.chan_setSlot (p : Part) (c c' : Channel) (slot : Slot) : (p.setSlot c slot).chan c' = p.chan c' := rfl

@[simp] theorem Part.slot_updChan (p : Part) (c c' : Channel) (f : ChannelStatus → ChannelStatus) :
    (p.updChan c f).slot c' = p.slot c' := rfl

@[simp] theorem Part.chan_updEntry (p : Part) (b : Block) (f : DirEntry → DirEntry) (c : Channel) :
    (p.updEntry b f).chan c = p.chan c := rfl

@[simp] theorem Part.entry_updJournal (p : Part) (c : Channel) (f : Journal → Journal) (b : Block) :
    (p.updJournal c f).entry b = p.entry b := rfl

@[simp] theorem Part.entry_updChan (p : Part) (c : Channel) (f : ChannelStatus → ChannelStatus) (b : Block) :
    (p.updChan c f).entry b = p.entry b := rfl

@[simp] theorem Part.journal_updEntry (p : Part) (b : Block) (f : DirEntry → DirEntry) (c : Channel) :
    (p.updEntry b f).journal c = p.journal c := rfl

@[simp] theorem Part.journal_updChan (p : Part) (c c' : Channel) (f : ChannelStatus → ChannelStatus) :
    (p.updChan c f).journal c' = p.journal c' := rfl

@[simp] theorem Part.journal_updCounters (p : Part) (c c' : Channel) (f : Counters → Counters) :
    (p.updCounters c f).journal c' = p.journal c' := rfl

@[simp] theorem Part.entry_updCounters (p : Part) (c : Channel) (f : Counters → Counters) (b : Block) :
    (p.updCounters c f).entry b = p.entry b := rfl

@[simp] theorem Part.slot_updCounters (p : Part) (c c' : Channel) (f : Counters → Counters) :
    (p.updCounters c f).slot c' = p.slot c' := rfl

@[simp] theorem Part.chan_updCounters (p : Part) (c c' : Channel) (f : Counters → Counters) :
    (p.updCounters c f).chan c' = if c = c' then { p.chan c with counters := f (p.chan c).counters } else p.chan c' :=
  p.chan_updChan c c' _

@[simp] theorem Part.chan_notify (p : Part) (n : Notice) (c : Channel) : (p.notify n).chan c = p.chan c := by
  unfold Part.notify
  split
  · split <;> rfl
  · rfl

@[simp] theorem Part.slot_notify (p : Part) (n : Notice) (c : Channel) : (p.notify n).slot c = p.slot c := by
  unfold Part.notify
  split
  · split <;> rfl
  · rfl

/-! ### A notice touches the notice queue and the dropped flag only -/

/-- A notice leaves everything but the notice box, and there the mask. -/
theorem Part.notify_eq (p : Part) (n : Notice) :
    ∃ box : NoticeBox, p.notify n = { p with notices := box } ∧ box.mask = p.notices.mask := by
  unfold Part.notify
  split
  · split
    · exact ⟨_, rfl, rfl⟩
    · exact ⟨_, rfl, rfl⟩
  · exact ⟨p.notices, rfl, rfl⟩

/-- R190, step 1: a notice that the mask has off is not made. -/
theorem Part.notify_masked (p : Part) (n : Notice) (h : p.notices.admits n = false) : p.notify n = p := by
  simp [Part.notify, h]

/-- R190, step 2. -/
theorem Part.notify_queued (p : Part) (n : Notice) (h : p.notices.admits n = true)
    (room : p.notices.queue.length < Config.noticePlaces) :
    p.notify n = { p with notices := { p.notices with queue := p.notices.queue ++ [n] } } := by
  simp [Part.notify, h, room]

/-- R190, step 3. -/
theorem Part.notify_dropped (p : Part) (n : Notice) (h : p.notices.admits n = true)
    (full : ¬ p.notices.queue.length < Config.noticePlaces) :
    p.notify n = { p with notices := { p.notices with dropped := true } } := by
  simp [Part.notify, h, full]

@[simp] theorem Part.entry_notify (p : Part) (n : Notice) (b : Block) : (p.notify n).entry b = p.entry b := by
  obtain ⟨box, h, -⟩ := p.notify_eq n
  rw [h]; rfl

@[simp] theorem Part.journal_notify (p : Part) (n : Notice) (c : Channel) : (p.notify n).journal c = p.journal c := by
  obtain ⟨box, h, -⟩ := p.notify_eq n
  rw [h]; rfl

/-! ### A reply touches the reply slot only -/

@[simp] theorem Part.reply_placeReply (p : Part) (tag kind : Byte) (status : Status) (contents : List Byte) :
    (p.placeReply tag kind status contents).ctrl.reply = some { tag, kind, status, contents } := rfl

@[simp] theorem Part.serving_placeReply (p : Part) (tag kind : Byte) (status : Status) (contents : List Byte) :
    (p.placeReply tag kind status contents).ctrl.serving = p.ctrl.serving := rfl

@[simp] theorem Part.ctl_placeReply (p : Part) (tag kind : Byte) (status : Status) (contents : List Byte) :
    (p.placeReply tag kind status contents).ctl = p.ctl := rfl

@[simp] theorem Part.je_placeReply (p : Part) (tag kind : Byte) (status : Status) (contents : List Byte) :
    (p.placeReply tag kind status contents).je = p.je := rfl

@[simp] theorem Part.queue_placeReply (p : Part) (tag kind : Byte) (status : Status) (contents : List Byte) :
    (p.placeReply tag kind status contents).queue = p.queue := rfl

@[simp] theorem Part.entry_placeReply (p : Part) (tag kind : Byte) (status : Status) (contents : List Byte) (b : Block) :
    (p.placeReply tag kind status contents).entry b = p.entry b := rfl

/-! ### The end of a packet's selection (R154) -/

@[simp] theorem Part.selectionEnds_taken (p : Part) (take : Part → Part) (h : p.awaitsSelection = false) :
    p.selectionEnds take = take p := by
  simp [Part.selectionEnds, h]

@[simp] theorem Part.selectionEnds_lost (p : Part) (take : Part → Part) (h : p.awaitsSelection = true) :
    p.selectionEnds take = { p with awaitsSelection := false } := by
  simp [Part.selectionEnds, h]

/-- A packet for a channel of a part that waits for no selection is judged. -/
@[simp] theorem Part.receive_taken (p : Part) (c : Channel) (act : Part → Part) (h : p.awaitsSelection = false) :
    p.receive c act = p.judge c act :=
  p.selectionEnds_taken _ h

@[simp] theorem Part.receive_lost (p : Part) (c : Channel) (act : Part → Part) (h : p.awaitsSelection = true) :
    p.receive c act = { p with awaitsSelection := false } :=
  p.selectionEnds_lost _ h

end Sys2Proof.Machine
end

