-- ==== Sys2Proof/Laws/Kept.lean ====
section
/-! SUPPORT. What the units' reactions leave alone: `Kept p q` says it once, and every operation that `settle` can run has
its lemma, so that no statement about a command unfolds the reactions that follow it. -/

namespace Sys2Proof.Machine

theorem LockKept.refl (e : DirEntry) : LockKept e e := ⟨id, id, rfl, fun h => ⟨h, rfl, rfl⟩⟩

theorem LockKept.trans {e e' e'' : DirEntry} (h : LockKept e e') (h' : LockKept e' e'') : LockKept e e'' where
  lockBit := h'.lockBit ∘ h.lockBit
  downFlag := h'.downFlag ∘ h.downFlag
  cut := h'.cut.trans h.cut
  still := fun hp =>
    have a := h.still hp
    have b := h'.still a.1
    ⟨b.1, b.2.1.trans a.2.1, b.2.2.trans a.2.2⟩

/-- An update that leaves the lock fields, the lock-pending and the cut flag alone. -/
theorem LockKept.same {e e' : DirEntry} (l : e'.lockBit = e.lockBit) (d : e'.downFlag = e.downFlag)
    (c : e'.cut = e.cut) (p : e'.pending = e.pending) : LockKept e e' :=
  ⟨fun h => l.trans h, fun h => d.trans h, c, fun h => ⟨p.trans h, l, d⟩⟩

theorem FaultsKept.refl (f : FaultSet) : FaultsKept f f := ⟨id, id, id, id⟩

theorem FaultsKept.trans {f f' f'' : FaultSet} (h : FaultsKept f f') (h' : FaultsKept f' f'') : FaultsKept f f'' :=
  ⟨h'.supply ∘ h.supply, h'.programFail ∘ h.programFail, h'.eraseFail ∘ h.eraseFail, h'.lockedHit ∘ h.lockedHit⟩

theorem ChanKept.refl (k : ChannelStatus) : ChanKept k k :=
  ⟨rfl, rfl, rfl, rfl, rfl, rfl, rfl, rfl, rfl, .inl rfl⟩

theorem ChanKept.trans {k k' k'' : ChannelStatus} (h : ChanKept k k') (h' : ChanKept k' k'') : ChanKept k k'' where
  cadence := h'.cadence.trans h.cadence
  expected := h'.expected.trans h.expected
  passed := h'.passed.trans h.passed
  masked := h'.masked.trans h.masked
  overruns := h'.overruns.trans h.overruns
  tagged := h'.tagged.trans h.tagged
  dropped := h'.dropped.trans h.dropped
  flushed := h'.flushed.trans h.flushed
  clipped := h'.clipped.trans h.clipped
  state := by
    rcases h.state with a | ⟨a, b⟩ <;> rcases h'.state with c | ⟨c, d⟩
    · exact .inl (c.trans a)
    · exact .inr ⟨a ▸ c, d⟩
    · exact .inr ⟨a, c.trans b⟩
    · exact absurd (b.symm.trans c) (by decide)

namespace Kept

/-! ### One frozen register each -/

theorem power_eq {p q : Part} (h : Kept p q) : q.power = p.power := congrArg Frozen.power h.frozen
theorem pins_eq {p q : Part} (h : Kept p q) : q.pins = p.pins := congrArg Frozen.pins h.frozen
theorem store_eq {p q : Part} (h : Kept p q) : q.store = p.store := congrArg Frozen.store h.frozen
theorem unitArea_eq {p q : Part} (h : Kept p q) : q.unitArea = p.unitArea := congrArg Frozen.unitArea h.frozen
theorem image_eq {p q : Part} (h : Kept p q) : q.image = p.image := congrArg Frozen.image h.frozen
theorem staged_eq {p q : Part} (h : Kept p q) : q.staged = p.staged := congrArg Frozen.staged h.frozen
theorem active_eq {p q : Part} (h : Kept p q) : q.active = p.active := congrArg Frozen.active h.frozen
theorem settings_eq {p q : Part} (h : Kept p q) : q.settings = p.settings := congrArg Frozen.settings h.frozen
theorem slots_eq {p q : Part} (h : Kept p q) : q.slots = p.slots := congrArg Frozen.slots h.frozen
theorem link_eq {p q : Part} (h : Kept p q) : q.link = p.link := congrArg Frozen.link h.frozen
theorem mask_eq {p q : Part} (h : Kept p q) : q.notices.mask = p.notices.mask := congrArg Frozen.mask h.frozen
theorem lastKind_eq {p q : Part} (h : Kept p q) : q.queue.lastKind = p.queue.lastKind := congrArg Frozen.lastKind h.frozen
theorem high_eq {p q : Part} (h : Kept p q) : q.queue.high = p.queue.high := congrArg Frozen.high h.frozen
theorem low_eq {p q : Part} (h : Kept p q) : q.queue.low = p.queue.low := congrArg Frozen.low h.frozen
theorem framer_eq {p q : Part} (h : Kept p q) : q.ctrl.framer = p.ctrl.framer := congrArg Frozen.framer h.frozen
theorem buffer_eq {p q : Part} (h : Kept p q) : q.ctrl.buffer = p.ctrl.buffer := congrArg Frozen.buffer h.frozen
theorem restartPlaced_eq {p q : Part} (h : Kept p q) : q.ctrl.restartPlaced = p.ctrl.restartPlaced := congrArg Frozen.restartPlaced h.frozen
theorem discarded_eq {p q : Part} (h : Kept p q) : q.ctrl.discarded = p.ctrl.discarded := congrArg Frozen.discarded h.frozen
theorem sending_eq {p q : Part} (h : Kept p q) : q.ctrl.sending = p.ctrl.sending := congrArg Frozen.sending h.frozen
theorem slot_eq {p q : Part} (h : Kept p q) (c : Channel) : q.slot c = p.slot c := by
  unfold Part.slot
  rw [h.slots_eq]
/-- A reply in the slot stays there while no request is served. -/
theorem reply_eq {p q : Part} (h : Kept p q) (free : p.ctrl.serving = none) : q.ctrl.reply = p.ctrl.reply :=
  (h.serving free).2

theorem refl (p : Part) : Kept p p :=
  ⟨rfl, .refl _, fun h => ⟨h, rfl, fun _ => .refl _⟩, fun h => ⟨h, rfl⟩, fun _ => .refl _⟩

theorem trans {p q r : Part} (h : Kept p q) (h' : Kept q r) : Kept p r where
  frozen := h'.frozen.trans h.frozen
  faults := h.faults.trans h'.faults
  ready := fun hd =>
    have a := h.ready hd
    have b := h'.ready a.1
    ⟨b.1, b.2.1.trans a.2.1, fun x => (a.2.2 x).trans (b.2.2 x)⟩
  serving := fun hs =>
    have a := h.serving hs
    have b := h'.serving a.1
    ⟨b.1, b.2.trans a.2⟩
  chans := fun c => (h.chans c).trans (h'.chans c)

/-- A change of registers outside all that is kept. -/
theorem other {p q : Part} (f : q.frozen = p.frozen) (x : q.ctl.faults = p.ctl.faults) (d : q.device = p.device) (s : q.scan = p.scan) (e : q.dir = p.dir)
    (k : q.ctrl.serving = p.ctrl.serving ∧ q.ctrl.reply = p.ctrl.reply) (c : q.chans = p.chans) : Kept p q where
  frozen := f
  faults := x ▸ .refl _
  ready := fun h => ⟨d.trans h, s, fun b => by
    have : q.entry b = p.entry b := by simp [Part.entry, e]
    rw [this]; exact .refl _⟩
  serving := fun h => ⟨k.1.trans h, k.2⟩
  chans := fun x => by
    have : q.chan x = p.chan x := by simp [Part.chan, c]
    rw [this]; exact .refl _

theorem je (p : Part) (x : JournalEngine) : Kept p { p with je := x } := other rfl rfl rfl rfl rfl ⟨rfl, rfl⟩ rfl
theorem ctl (p : Part) (x : Controller) (h : x.faults = p.ctl.faults := by rfl) : Kept p { p with ctl := x } :=
  other rfl h rfl rfl rfl ⟨rfl, rfl⟩ rfl
theorem supply (p : Part) (x : Supply) : Kept p { p with supply := x } := other rfl rfl rfl rfl rfl ⟨rfl, rfl⟩ rfl
theorem events (p : Part) (x : EventUnit) : Kept p { p with events := x } := other rfl rfl rfl rfl rfl ⟨rfl, rfl⟩ rfl
theorem freeList (p : Part) (x : List Block) : Kept p { p with freeList := x } := other rfl rfl rfl rfl rfl ⟨rfl, rfl⟩ rfl

theorem notify (p : Part) (n : Notice) : Kept p (p.notify n) := by
  obtain ⟨box, h, m⟩ := p.notify_eq n
  rw [h]
  exact other (by simp [Part.frozen, m]) rfl rfl rfl rfl ⟨rfl, rfl⟩ rfl

theorem updEntry (p : Part) (b : Block) (f : DirEntry → DirEntry) (h : ∀ e, LockKept e (f e)) : Kept p (p.updEntry b f) where
  frozen := rfl
  faults := .refl _
  ready := fun hd => ⟨hd, rfl, fun b' => by
    rw [Part.entry_updEntry]; split
    · subst_vars; exact h _
    · exact .refl _⟩
  serving := fun hs => ⟨hs, rfl⟩
  chans := fun _ => .refl _

theorem updJournal (p : Part) (c : Channel) (f : Journal → Journal) : Kept p (p.updJournal c f) := je p _

theorem updChan (p : Part) (c : Channel) (f : ChannelStatus → ChannelStatus) (h : ChanKept (p.chan c) (f (p.chan c))) :
    Kept p (p.updChan c f) where
  frozen := rfl
  faults := .refl _
  ready := fun hd => ⟨hd, rfl, fun _ => .refl _⟩
  serving := fun hs => ⟨hs, rfl⟩
  chans := fun c' => by
    rw [Part.chan_updChan]; split
    · subst_vars; exact h
    · exact .refl _

theorem foldl {α : Type} (f : Part → α → Part) (h : ∀ p a, Kept p (f p a)) (l : List α) (p : Part) : Kept p (l.foldl f p) := by
  induction l generalizing p with
  | nil => exact refl p
  | cons a l ih => exact (h p a).trans (ih _)

/-! ### Journals -/

theorem joinWait (p : Part) (c : Channel) : Kept p (p.joinWait c) := by
  unfold Part.joinWait; split
  · exact refl p
  · exact je p _

theorem leaveWait (p : Part) (c : Channel) : Kept p (p.leaveWait c) := je p _

theorem stall (p : Part) (c : Channel) (cause : StallCause) : Kept p (p.stall c cause) := by
  unfold Part.stall; split
  · exact refl p
  · exact ((updJournal p c _).trans (joinWait _ c)).trans (notify _ _)

theorem unstall (p : Part) (c : Channel) (state : JournalState) : Kept p (p.unstall c state) := by
  unfold Part.unstall; split
  · exact (updJournal p c _).trans (notify _ _)
  · exact updJournal p c _

theorem joinClose (p : Part) (c : Channel) : Kept p (p.joinClose c) := by
  unfold Part.joinClose; split
  · exact refl p
  · split
    · exact je p _
    · exact refl p

theorem addDue (p : Part) (c : Channel) (f : CloseDue → CloseDue) : Kept p (p.addDue c f) :=
  (updJournal p c _).trans (joinClose _ c)

theorem enqueueErase (p : Part) (b : Block) (r : EraseRequester) : Kept p (p.enqueueErase b r) :=
  trans (updEntry p b
    (fun e => { e with state := .erasing, prior := some (if e.state = .torn then .torn else .closed) })
    (fun _ => .same rfl rfl rfl rfl)) (ctl _ _)

theorem retire (p : Part) (b : Block) (cause : RetireCause) : Kept p (p.retire b cause) :=
  ((updEntry p b (DirEntry.emptied .retired) (fun _ => .same rfl rfl rfl rfl)).trans (je _ _)).trans (notify _ _)

theorem holdBlock (p : Part) (b : Block) : Kept p (p.holdBlock b) := updEntry p b _ (fun _ => .same rfl rfl rfl rfl)

theorem eventOpen (p : Part) (c : Channel) (b : Block) : Kept p (p.eventOpen c b) := by
  unfold Part.eventOpen; split
  · exact refl p
  · split
    · exact (events p _).trans (notify _ _)
    · exact (events p _).trans (holdBlock _ b)

theorem openFor (p : Part) (c : Channel) (b : Block) : Kept p (p.openFor c b) := by
  unfold Part.openFor
  extract_lets seq q1 j q2 q3 q4
  have h1 : Kept p q1 := updEntry p b _ (fun e => ⟨id, id, rfl, fun _ => ⟨rfl, rfl, rfl⟩⟩)
  have h2 : Kept q1 q2 := other rfl rfl rfl rfl rfl ⟨rfl, rfl⟩ rfl
  exact ((((h1.trans h2).trans (eventOpen q2 c b)).trans (updJournal q3 c _)).trans (leaveWait q4 c)).trans (unstall _ c _)

theorem waitOn (p : Part) (c : Channel) (b : Block) : Kept p (p.waitOn c b) :=
  (((enqueueErase p b _).trans (updJournal _ c _)).trans (joinWait _ c)).trans (unstall _ c _)

theorem reclaimStep (n : Nat) (p : Part) (c : Channel) : Kept p (Part.reclaimStep n p c) := by
  induction n generalizing p with
  | zero => exact stall p c _
  | succ n ih =>
    unfold Part.reclaimStep; split
    · exact stall p c _
    · split
      · exact (retire p _ _).trans (ih _)
      · exact waitOn p c _

theorem tornOrReclaim (p : Part) (c : Channel) : Kept p (p.tornOrReclaim c) := by
  unfold Part.tornOrReclaim; split
  · exact waitOn p c _
  · exact reclaimStep _ p c

theorem freeOr (p : Part) (c : Channel) (q : Part) (h : Kept p q) : Kept p (p.freeOr c q) := by
  unfold Part.freeOr; split
  · exact openFor p c _
  · exact h

theorem allocate (p : Part) (c : Channel) : Kept p (p.allocate c) := by
  unfold Part.allocate; split
  · exact stall p c _
  · split
    · exact stall p c _
    · exact freeOr p c _ (tornOrReclaim p c)

theorem dropReclaim (p : Part) (c : Channel) : Kept p (p.dropReclaim c) := updJournal p c _

theorem seeReclaim (p : Part) (c : Channel) : Kept p (p.seeReclaim c) := by
  unfold Part.seeReclaim; split
  · exact refl p
  · exact dropReclaim p c

theorem retrySeen (p : Part) (c : Channel) : Kept p (p.retrySeen c) := by
  unfold Part.retrySeen; split
  · split
    · exact stall p c _
    · apply freeOr; split
      · exact refl p
      · exact tornOrReclaim p c
  · exact allocate p c
  · split
    · exact (leaveWait p c).trans (unstall _ c _)
    · split
      · exact unstall p c _
      · exact allocate p c
  all_goals exact refl p

theorem retryOne (p : Part) (c : Channel) : Kept p (p.retryOne c) := (seeReclaim p c).trans (retrySeen _ c)

theorem retryTurn (p : Part) (c : Channel) : Kept p (p.retryTurn c) := by
  unfold Part.retryTurn; split
  · exact retryOne p c
  · exact refl p

theorem retryPass (p : Part) : Kept p p.retryPass := foldl _ retryTurn _ _

theorem stallForSupply (p : Part) (c : Channel) : Kept p (p.stallForSupply c) := by
  unfold Part.stallForSupply; split
  · exact refl p
  · exact stall p c _

theorem setHold (p : Part) (c : Option Channel) : Kept p (p.setHold c) := by
  unfold Part.setHold
  refine trans (q := match c with
    | some c => ({ p with je := { p.je with hold := true } }).stallForSupply c
    | none => { p with je := { p.je with hold := true } }) ?_ ?_
  · cases c
    · exact je p _
    · exact (je p _).trans (stallForSupply _ _)
  · exact foldl _ (fun q c => by
      split
      · exact stallForSupply q c
      · exact refl q) _ _

theorem journalStop (p : Part) (c : Channel) (close : Bool) : Kept p (p.journalStop c close) := by
  unfold Part.journalStop
  extract_lets q q' j
  have hq : Kept p q := by
    unfold q; split
    · exact addDue p c _
    · exact refl p
  have hq' : Kept p q' := hq.trans (dropReclaim q c)
  split
  · exact (hq'.trans (leaveWait q' c)).trans (unstall _ c _)
  · exact hq'

/-! ### Capture Queue -/

theorem entries (p : Part) (x : List Entry) : Kept p { p with queue := { p.queue with entries := x } } :=
  other rfl rfl rfl rfl rfl ⟨rfl, rfl⟩ rfl

theorem evalHold (p : Part) : Kept p p.evalHold := other rfl rfl rfl rfl rfl ⟨rfl, rfl⟩ rfl

theorem drain (p : Part) (c : Channel) : Kept p (p.drain c) := by
  unfold Part.drain; split
  · rename_i h
    unfold Part.becomeStopped
    exact (updChan p c _ ⟨rfl, rfl, rfl, rfl, rfl, rfl, rfl, rfl, rfl, .inr ⟨h.1, rfl⟩⟩).trans (journalStop _ c _)
  · exact refl p

theorem setEntries (p : Part) (x : List Entry) (c : Channel) : Kept p (p.setEntries x c) :=
  ((entries p x).trans (evalHold _)).trans (drain _ c)

theorem dropHead (p : Part) : Kept p p.dropHead := by
  unfold Part.dropHead; split
  · exact refl p
  · exact setEntries p _ _

theorem errorFrame (p : Part) (c : Channel) (x : Content) (d : Disposition) (r : Option Nat) :
    Kept p (p.errorFrame c x d r) := by
  unfold Part.errorFrame; split
  · exact notify p _
  · exact refl p

/-- A change of the counters that the Journal Engine keeps. -/
theorem updCounters (p : Part) (c : Channel) (f : Counters → Counters)
    (h : ∀ k, (f k).passed = k.passed ∧ (f k).masked = k.masked ∧ (f k).overruns = k.overruns ∧ (f k).tagged = k.tagged
      ∧ (f k).dropped = k.dropped ∧ (f k).flushed = k.flushed ∧ (f k).clipped = k.clipped) :
    Kept p (p.updCounters c f) := by
  have := h (p.chan c).counters
  exact updChan p c _ ⟨rfl, rfl, this.1, this.2.1, this.2.2.1, this.2.2.2.1, this.2.2.2.2.1, this.2.2.2.2.2.1,
    this.2.2.2.2.2.2, .inl rfl⟩

/-! ### Event Unit -/

theorem notifyIfComplete (p : Part) (e : Event) : Kept p (p.notifyIfComplete e) := by
  unfold Part.notifyIfComplete; split
  · exact notify p _
  · exact refl p

theorem takeTrigger (p : Part) (c : Channel) (cause : EventCause) : Kept p (p.takeTrigger c cause).1 := by
  unfold Part.takeTrigger; split
  · exact ((events p _).trans (notify _ _)).trans (notifyIfComplete _ _)
  · split
    · exact refl p
    · exact (((foldl _ holdBlock _ p).trans (events _ _)).trans (notify _ _)).trans (notifyIfComplete _ _)

theorem countCommit (p : Part) (c : Channel) : Kept p (p.countCommit c) := by
  unfold Part.countCommit; split
  · exact refl p
  · exact (events p _).trans (notifyIfComplete _ _)

theorem eventCommit (p : Part) (c : Channel) (n : Nat) (x : Content) : Kept p (p.eventCommit c n x) := by
  unfold Part.eventCommit; split
  · rename_i code
    split
    · have h := takeTrigger p c (.marker code)
      split
      · rename_i q hq
        rw [hq] at h
        exact h.trans (notify _ _)
      · rename_i q o _ hq
        rw [hq] at h
        exact h
    · exact countCommit p c
  · exact countCommit p c

/-! ### The Journal Engine at work -/

theorem requestSuspension_faults (k : Controller) : k.requestSuspension.faults = k.faults := by
  unfold Controller.requestSuspension; split
  · split <;> rfl
  · rfl

theorem requestSuspension_eraseQueue (k : Controller) : k.requestSuspension.eraseQueue = k.eraseQueue := by
  unfold Controller.requestSuspension; split
  · split <;> rfl
  · rfl

theorem joinPrograms (p : Part) (req : ProgramReq) : Kept p (p.joinPrograms req) :=
  ctl p _ (requestSuspension_faults _)
theorem presentRead (p : Part) (req : ReadReq) : Kept p (p.presentRead req) := ctl p _ (requestSuspension_faults _)

theorem presentJournal (p : Part) (what : Outstanding) (op : ProgramOp) : Kept p (p.presentJournal what op).1 := by
  unfold Part.presentJournal; simp only; split
  · exact je p _
  · exact (je p _).trans (joinPrograms _ _)

theorem presentRecord (p : Part) (e : Entry) (b : Block) : Kept p (p.presentRecord e b).1 := by
  unfold Part.presentRecord; simp only; split
  · exact presentJournal p _ _
  · exact refl p

theorem present (p : Part) : Kept p p.present.1 := by
  unfold Part.present; split
  · exact refl p
  · split
    · exact presentJournal p _ _
    · split
      · exact refl p
      · split
        · exact refl p
        · exact presentRecord p _ _

theorem shedHead (p : Part) (c : Channel) : Kept p (p.shedHead c) :=
  (updCounters p c (fun k => { k with shed := satAdd k.shed 1 }) (fun _ => ⟨rfl, rfl, rfl, rfl, rfl, rfl, rfl⟩)).trans
    (dropHead _)

theorem subjectWriting (p : Part) (e : Entry) (b : Block) (q : Part) (h : p.subjectWriting e b = some q) : Kept p q := by
  unfold Part.subjectWriting at h
  simp only at h
  split at h
  · cases h
  · split at h
    · cases h; exact stall p _ _
    · split at h
      · cases h
      · split at h
        · cases h; exact stall p _ _
        · split at h
          · cases h
          · cases h; exact addDue p _ _

theorem subjectAct (p q : Part) (h : p.subjectAct = some q) : Kept p q := by
  unfold Part.subjectAct at h
  split at h
  · cases h
  · simp only at h
    split at h
    · cases h; exact allocate p _
    · cases h
    · split at h
      · cases h; exact shedHead p _
      · cases h
    · split at h
      · exact subjectWriting p _ _ q h
      · cases h

theorem subjectLoop (n : Nat) (p : Part) : Kept p (Part.subjectLoop n p) := by
  induction n generalizing p with
  | zero => exact refl p
  | succ n ih =>
    unfold Part.subjectLoop; split
    · exact refl p
    · rename_i q hq
      exact (subjectAct p q hq).trans (ih q)

theorem joinCloses (p : Part) : Kept p p.joinCloses := foldl _ joinClose _ p

theorem engine (p : Part) : Kept p p.engine.1 :=
  ((joinCloses p).trans (subjectLoop _ _)).trans (present _)

theorem reported (p : Part) : Kept p p.reported := je p _
theorem popBacklog (p : Part) : Kept p p.popBacklog := je p _

theorem applyPending (e : DirEntry) : LockKept e e.applyPending where
  lockBit h := by simp [DirEntry.applyPending, h]
  downFlag h := by simp [DirEntry.applyPending, h]
  cut := rfl
  still h := by simp [DirEntry.applyPending, h]

theorem openFailed (p : Part) (b : Block) (c : Channel) : Kept p (p.openFailed b c) :=
  (((updEntry p b _ applyPending).trans (retire _ b _)).trans (updJournal _ c _)).trans (allocate _ c)

theorem closeEnded (p : Part) (b : Block) (c : Channel) (worn : Bool) : Kept p (p.closeEnded b c worn) := by
  unfold Part.closeEnded
  extract_lets q
  have h : Kept p q := updEntry p b _ (fun e => (applyPending e).trans (.same rfl rfl rfl rfl))
  exact h.trans (updJournal q c _)

theorem headerOutcome (p : Part) (op : ProgramOp) (o : ProgramOutcome) : Kept p (p.headerOutcome op o) := by
  have hp : Kept p p.reported.popBacklog := (reported p).trans (popBacklog _)
  unfold Part.headerOutcome; split
  · exact hp
  · exact hp.trans (openFailed _ _ _)
  · exact (reported p).trans (setHold _ _)
  · split
    · exact hp.trans (closeEnded _ _ _ _)
    · exact hp
  · split
    · exact hp.trans (closeEnded _ _ _ _)
    · exact hp
  · exact (reported p).trans (setHold _ _)
  · exact (reported p).trans (setHold _ _)
  · exact hp
  · exact refl p

theorem commit (p : Part) (e : Entry) (b : Block) : Kept p (p.commit e b) := by
  have h := (((((updEntry p b (DirEntry.takeRecord e.lines (p.journal e.channel).nextRec)
      (fun _ => .same rfl rfl rfl rfl)).trans
    (updJournal _ e.channel (fun j => { j with nextRec := j.nextRec + 1 }))).trans
    (updCounters _ e.channel (fun k => { k with committed := satAdd k.committed 1 })
      (fun _ => ⟨rfl, rfl, rfl, rfl, rfl, rfl, rfl⟩))).trans
    (eventCommit _ e.channel (p.journal e.channel).nextRec e.content)).trans (dropHead _))
  unfold Part.commit
  simp only
  split
  · exact h.trans (errorFrame _ _ _ _ _)
  · exact h

theorem recordOutcome (p : Part) (b : Block) (o : ProgramOutcome) : Kept p (p.recordOutcome b o) := by
  unfold Part.recordOutcome; split
  · exact reported p
  · split
    · exact (reported p).trans (commit _ _ _)
    · exact (reported p).trans (addDue _ _ _)
    · exact (reported p).trans (setHold _ _)
    · exact refl p

theorem journalOutcome (p : Part) (op : ProgramOp) (o : ProgramOutcome) : Kept p (p.journalOutcome op o) := by
  unfold Part.journalOutcome; split
  · exact recordOutcome p _ _
  · exact headerOutcome p _ _

/-! ### Store Controller -/

theorem sampled (p : Part) : Kept p p.sampled := supply p _
/-- A change of the fault set that clears none. -/
theorem updFaults (p : Part) (f : FaultSet → FaultSet) (h : ∀ x, FaultsKept x (f x)) : Kept p (p.updFaults f) where
  frozen := rfl
  faults := h _
  ready := fun hd => ⟨hd, rfl, fun _ => .refl _⟩
  serving := fun hs => ⟨hs, rfl⟩
  chans := fun _ => .refl _
theorem lockedHit (p : Part) : Kept p p.lockedHit := updFaults p _ (fun _ => ⟨id, id, id, fun _ => rfl⟩)
theorem begin (p : Part) (op : ArrayOp) : Kept p (p.begin op) := ctl p _
theorem runErase (p : Part) (b : Block) (n r : Nat) : Kept p (p.runErase b n r) := ctl p _
theorem leaveEraseQueue (p : Part) (b : Block) : Kept p (p.leaveEraseQueue b) := ctl p _

theorem supplyFails (p : Part) (op : StoreOp) (b : Option Block) : Kept p (p.supplyFails op b) := by
  have h := updFaults p (fun f => { f with supply := true }) (fun _ => ⟨fun _ => rfl, id, id, id⟩)
  unfold Part.supplyFails; simp only; split
  · exact h
  · exact h.trans (notify _ _)

theorem takeProgram (p : Part) (req : ProgramReq) : Kept p (p.takeProgram req).1 := by
  unfold Part.takeProgram; split
  · exact refl p
  · split
    · exact (sampled p).trans (supplyFails _ _ _)
    · split
      · exact (sampled p).trans (begin _ _)
      · exact (sampled p).trans (lockedHit _)

theorem takeRead (p : Part) (req : ReadReq) : Kept p (p.takeRead req).1 := by
  unfold Part.takeRead; split
  · exact refl p
  · exact begin p _

theorem takeResumption (p : Part) (r : SuspendedErase) : Kept p (p.takeResumption r).1 := by
  unfold Part.takeResumption; split
  · exact (sampled p).trans (runErase _ _ _ _)
  · exact (sampled p).trans (supplyFails _ _ _)

theorem opDone (p : Part) (r : EraseRequester) (b : Block) (o : OpOutcome) : Kept p (p.opDone r b o) := by
  unfold Part.opDone; split
  · exact notify p _
  · exact refl p

theorem refuseErase (p : Part) (x : EraseEntry) : Kept p (p.refuseErase x) :=
  (((lockedHit p).trans (leaveEraseQueue _ _)).trans
    (updEntry _ x.block DirEntry.returned (fun _ => .same rfl rfl rfl rfl))).trans (opDone _ _ _ _)

theorem takeErase (p : Part) (x : EraseEntry) : Kept p (p.takeErase x).1 := by
  unfold Part.takeErase; split
  · exact (sampled p).trans (supplyFails _ _ _)
  · split
    · exact (sampled p).trans (runErase _ _ _ _)
    · exact (sampled p).trans (refuseErase _ _)

theorem arbiterTake (p : Part) (r : Part × List Report) (h : p.arbiterTake = some r) : Kept p r.1 := by
  unfold Part.arbiterTake at h
  split at h
  · cases h
  · split at h
    · cases h; exact (ctl p _).trans (takeProgram _ _)
    · split at h
      · cases h; exact (ctl p _).trans (takeRead _ _)
      · split at h
        · cases h
        · split at h
          · cases h; exact takeResumption p _
          · cases h; exact takeErase p _
          · cases h

theorem arbiterLoop (n : Nat) (p : Part) : Kept p (Part.arbiterLoop n p).1 := by
  induction n generalizing p with
  | zero => exact refl p
  | succ n ih =>
    unfold Part.arbiterLoop; split
    · exact refl p
    · rename_i q reports hq
      exact (arbiterTake p _ hq).trans (ih q)

theorem arbitrate (p : Part) : Kept p p.arbitrate.1 := arbiterLoop _ p

/-! ### Store Scanner -/

/-- What the scanner does keeps all that a scan does not write; it acts only while SCANNING. -/
theorem scanning {p q : Part} (d : p.device = .scanning) (f : q.frozen = p.frozen) (y : q.ctl.faults = p.ctl.faults)
    (k : q.ctrl.serving = p.ctrl.serving ∧ q.ctrl.reply = p.ctrl.reply) (c : q.chans = p.chans) : Kept p q where
  frozen := f
  faults := y ▸ .refl _
  ready := fun h => by rw [d] at h; cases h
  serving := fun h => ⟨k.1.trans h, k.2⟩
  chans := fun x => by
    have : q.chan x = p.chan x := by simp [Part.chan, c]
    rw [this]; exact .refl _

/-- What a scanner operation leaves alone. -/
def ScanKept (p q : Part) : Prop :=
  q.frozen = p.frozen ∧ q.ctrl = p.ctrl ∧ q.chans = p.chans ∧ q.ctl.faults = p.ctl.faults

theorem ScanKept.trans {p q r : Part} (h : ScanKept p q) (h' : ScanKept q r) : ScanKept p r :=
  ⟨h'.1.trans h.1, h'.2.1.trans h.2.1, h'.2.2.1.trans h.2.2.1, h'.2.2.2.trans h.2.2.2⟩

theorem scan_notify (p : Part) (n : Notice) : ScanKept p (p.notify n) := by
  obtain ⟨box, h, m⟩ := p.notify_eq n
  rw [h]; exact ⟨by simp [Part.frozen, m], rfl, rfl, rfl⟩

theorem scan_end (p : Part) : ScanKept p p.scanEnd := by
  unfold Part.scanEnd; exact (show ScanKept p _ from ⟨rfl, rfl, rfl, rfl⟩).trans (scan_notify _ _)

theorem scan_read (p : Part) (line : Nat) (h : line + 1 ≤ Config.linesPerBlock) : ScanKept p (p.scanRead line h) :=
  ⟨rfl, rfl, rfl, requestSuspension_faults _⟩

theorem scan_header (p : Part) : ScanKept p p.scanHeader :=
  (show ScanKept p { p with scan := { p.scan with phase := .header } } from ⟨rfl, rfl, rfl, rfl⟩).trans (scan_read _ _ _)

theorem scan_classify (p : Part) (f : DirEntry → DirEntry) : ScanKept p (p.classify f) := by
  unfold Part.classify; simp only; split
  · exact (show ScanKept p (p.updEntry p.scanBlock f) from ⟨rfl, rfl, rfl, rfl⟩).trans (scan_end _)
  · exact (show ScanKept p _ from ⟨rfl, rfl, rfl, rfl⟩).trans (scan_header _)

theorem scan_walkEnds (p : Part) (w : ScanWalk) : ScanKept p (p.walkEnds w) := by
  unfold Part.walkEnds; split
  · exact scan_classify p _
  · split
    · exact scan_classify p _
    · exact ⟨rfl, rfl, rfl, requestSuspension_faults _⟩

theorem scan_walkOn (p : Part) (w : ScanWalk) : ScanKept p (p.walkOn w) := by
  have h : ScanKept p { p with scan := { p.scan with phase := .walk w } } := ⟨rfl, rfl, rfl, rfl⟩
  unfold Part.walkOn
  dsimp only
  split <;> split
  all_goals first
    | exact h.trans (scan_read _ _ _)
    | exact scan_walkEnds p _

theorem scan_walkRecord (p : Part) (w : ScanWalk) (bytes : List Byte) : ScanKept p (p.walkRecord w bytes) := by
  unfold Part.walkRecord; simp only; split
  · exact scan_walkOn p _
  · exact scan_walkEnds p _

theorem scan_walkRead (p : Part) (w : ScanWalk) (line : List Byte) : ScanKept p (p.walkRead w line) := by
  unfold Part.walkRead; split
  · split
    · exact scan_walkRecord p _ _
    · exact scan_walkOn p _
  · split
    · exact scan_walkEnds p _
    · split
      · exact scan_walkRecord p _ _
      · exact scan_walkOn p _

theorem scan_judge (p : Part) (h : List Byte) : ScanKept p (p.scanJudge h) := by
  unfold Part.scanJudge
  repeat' split
  all_goals first
    | exact scan_classify p _
    | exact scan_walkOn p _

theorem scan_line (p : Part) (line : List Byte) : ScanKept p (p.scanLine line) := by
  unfold Part.scanLine; split
  · exact scan_judge p line
  · exact scan_walkRead p _ line
  · exact ⟨rfl, rfl, rfl, rfl⟩

theorem scan_outcome (p : Part) (o : ProgramOutcome) : ScanKept p (p.scanProgramOutcome o) := by
  unfold Part.scanProgramOutcome; split
  · exact scan_classify p _
  · exact ⟨rfl, rfl, rfl, rfl⟩

theorem scannerTold (p : Part) (r : Report) : Kept p (p.scannerTold r) := by
  unfold Part.scannerTold; split
  · rename_i h
    have k := scan_outcome p ‹_›
    exact scanning h k.1 k.2.2.2 (by rw [k.2.1]; exact ⟨rfl, rfl⟩) k.2.2.1
  · rename_i h
    have k := scan_line p ‹_›
    exact scanning h k.1 k.2.2.2 (by rw [k.2.1]; exact ⟨rfl, rfl⟩) k.2.2.1
  · exact refl p

/-! ### Readout and the Request Server -/

/-- What a gathering leaves alone. -/
def GatherKept (p q : Part) : Prop :=
  q.frozen = p.frozen ∧ q.device = p.device ∧ q.scan = p.scan ∧ q.dir = p.dir ∧ q.chans = p.chans
    ∧ q.ctl.faults = p.ctl.faults ∧ q.ctl.eraseQueue = p.ctl.eraseQueue

theorem gather_reply (p : Part) (g : Gather) (s : Status) (x : List Byte) : GatherKept p (p.gatherReply g s x) :=
  ⟨rfl, rfl, rfl, rfl, rfl, rfl, rfl⟩

theorem gather_ends (p : Part) (g : Gather) (r : EndReason) : GatherKept p (p.gatherEnds g r) := gather_reply p _ _ _

theorem gather_lost (p : Part) (g : Gather) (r : EndReason) : GatherKept p (p.gatherLost g r) := by
  unfold Part.gatherLost; split
  · exact gather_reply p _ _ _
  · exact gather_ends p _ _

theorem gather_present (p : Part) (g : Gather) (line count : Nat) : GatherKept p (p.gatherPresent g line count) := by
  unfold Part.gatherPresent; split
  · split
    · exact ⟨rfl, rfl, rfl, rfl, rfl, requestSuspension_faults _, requestSuspension_eraseQueue _⟩
    · exact gather_reply p _ _ _
  · exact gather_lost p _ _

theorem gather_next (p : Part) (g : Gather) : GatherKept p (p.gatherNext g) := by
  unfold Part.gatherNext; split
  · exact gather_ends p _ _
  · split
    · exact gather_ends p _ _
    · split
      · exact gather_ends p _ _
      · exact gather_present p _ _ _

theorem gather_judge (p : Part) (g : Gather) (h : List Byte) : GatherKept p (p.gatherJudge g h) := by
  unfold Part.gatherJudge; simp only
  repeat' split
  · exact gather_reply p _ _ _
  · exact gather_present p _ _ _
  · exact gather_ends p _ _
  · exact gather_present p _ _ _
  · exact gather_next p _

theorem gather_read (p : Part) (lines : Option (List Byte)) : GatherKept p (p.gatherRead lines) := by
  unfold Part.gatherRead; split
  · split
    · exact gather_lost p _ _
    · split
      · exact gather_judge p _ _
      · exact gather_next p _
  · exact ⟨rfl, rfl, rfl, rfl, rfl, rfl, rfl⟩

theorem gatherRead (p : Part) (lines : Option (List Byte)) : Kept p (p.gatherRead lines) := by
  have h := gather_read p lines
  exact {
    frozen := h.1
    faults := h.2.2.2.2.2.1 ▸ .refl _
    ready := fun hd => ⟨h.2.1.trans hd, h.2.2.1, fun b => by
      have : (p.gatherRead lines).entry b = p.entry b := by simp [Part.entry, h.2.2.2.1]
      rw [this]; exact .refl _⟩
    serving := fun hs => by
      have : p.gatherRead lines = p := by simp [Part.gatherRead, hs]
      rw [this]
      exact ⟨hs, rfl⟩
    chans := fun x => by
      have : (p.gatherRead lines).chan x = p.chan x := by simp [Part.chan, h.2.2.2.2.1]
      rw [this]; exact .refl _ }

theorem unitOutcome (p : Part) (o : ProgramOutcome) : Kept p (p.unitOutcome o) := by
  unfold Part.unitOutcome; split
  · rename_i hg
    simp only
    split <;> exact
      { frozen := rfl
        faults := .refl _
        ready := fun hd => ⟨hd, rfl, fun _ => .refl _⟩
        serving := fun hs => by rw [hg] at hs; cases hs
        chans := fun _ => .refl _ }
  · exact refl p

/-! ### The reactions together -/

/-! ### The ends of programs and erases, beside what they leave in the array -/

theorem freeArray (p : Part) : Kept p p.freeArray := ctl p _
theorem eraseStops (p : Part) : Kept p p.eraseStops := ctl p _

theorem tellHost (p : Part) (r : Option EraseRequester) (b : Block) (o : OpOutcome) : Kept p (p.tellHost r b o) := by
  unfold Part.tellHost
  split
  · exact opDone p _ b o
  · exact refl p

/-- An erase that ends OK: the block's bytes apart, nothing kept is touched. -/
theorem eraseOk (p : Part) (b : Block) :
    Kept { p with store := Memory.eraseRange p.store (lineAddress b 0) Config.blockBytes } (p.eraseOk b) := by
  unfold Part.eraseOk
  dsimp only
  refine trans ?_ (tellHost _ _ b .ok)
  refine trans ?_ (freeList _ _)
  refine trans ?_ (updEntry _ b _ (fun _ => .same rfl rfl rfl rfl))
  exact trans (eraseStops _) (leaveEraseQueue _ b)

/-- An erase that ends ERASE_FAIL: the block's bytes apart, nothing kept is touched. -/
theorem eraseFails (p : Part) (b : Block) : Kept (p.scramble (lineAddress b 0) Config.blockBytes) (p.eraseFails b) := by
  unfold Part.eraseFails
  dsimp only
  refine trans ?_ (tellHost _ _ b .eraseFail)
  refine trans ?_ (retire _ b .eraseFail)
  refine trans ?_ (notify _ _)
  refine trans ?_ (updFaults _ _ (fun _ => ⟨id, id, fun _ => rfl, id⟩))
  exact trans (eraseStops _) (leaveEraseQueue _ b)

/-- A program that ends: what it leaves apart, nothing kept is touched. -/
theorem programEnds (p : Part) (op : ProgramOp) (failure : Option Nat) :
    Kept (p.programLeaves op failure) (p.programEnds op failure) := by
  unfold Part.programEnds
  dsimp only
  split
  · unfold Part.programFails
    refine trans ?_ (notify _ _)
    exact trans (freeArray _) (updFaults _ _ (fun _ => ⟨id, fun _ => rfl, id, id⟩))
  · exact freeArray _

theorem handle (p : Part) (r : Report) : Kept p (p.handle r) := by
  cases r with
  | program req outcome =>
    simp only [Part.handle]
    split
    · exact journalOutcome p _ _
    · exact scannerTold p _
    · exact unitOutcome p _
  | read req lines =>
    simp only [Part.handle]
    split
    · exact scannerTold p _
    · exact gatherRead p _
    · exact refl p
  | eraseSupply => simp only [Part.handle]; exact setHold p _
  | retryDue => exact refl p
  | retry c => exact refl p

theorem arbitrated (p : Part) (acted : Part × List Report) (h : Kept p acted.1) : Kept p (Part.arbitrated acted).1 :=
  h.trans (arbitrate _)

theorem takeWork (p : Part) : Kept p p.takeWork.1 := arbitrated p _ ((joinCloses p).trans (present _))

theorem takeTurn (p : Part) (c : Channel) : Kept p (p.takeTurn c).1 := (retryTurn p c).trans (takeWork _)

/-- Actions taken one after the other, each with the reports that it gives. -/
theorem foldReports {α : Type} (f : Part × List Report → α → Part × List Report) (k : ∀ a x, Kept a.1 (f a x).1)
    (l : List α) (a : Part × List Report) : Kept a.1 (l.foldl f a).1 := by
  induction l generalizing a with
  | nil => exact refl _
  | cons x l ih => exact (k a x).trans (ih _)

theorem nextTurn (a : Part × List Report) (c : Channel) : Kept a.1 (Part.nextTurn a c).1 := by
  unfold Part.nextTurn; split
  · exact takeTurn _ c
  · exact refl _

theorem told (p : Part) (r : Report) : Kept p (p.told r).1 := by
  unfold Part.told; split
  · split
    · exact refl p
    · exact (takeWork p).trans (foldReports _ nextTurn _ _)
  · exact (takeWork p).trans (nextTurn _ _)
  · exact handle p _

theorem nextReport (a : Part × List Report) (r : Report) : Kept a.1 (Part.nextReport a r).1 := by
  unfold Part.nextReport; split
  · exact told _ r
  · exact refl _

theorem round (p : Part) (reports : List Report) : Kept p (p.round reports).1 := by
  have acted : Kept p (reports.foldl Part.nextReport (p, [])).1 := foldReports _ nextReport reports (p, [])
  unfold Part.round; simp only; split
  · exact acted.trans (arbitrated _ _ (engine _))
  · exact acted

theorem settleLoop (n : Nat) (p : Part) (reports : List Report) : Kept p (Part.settleLoop n p reports) := by
  induction n generalizing p reports with
  | zero => exact refl p
  | succ n ih =>
    unfold Part.settleLoop; simp only; split
    · exact round p reports
    · exact (round p reports).trans (ih _ _)

/-- Every reaction of the units keeps what `Kept` says. -/
theorem settle (p : Part) (reports : List Report) : Kept p (p.settle reports) := by
  unfold Part.settle
  exact settleLoop _ p reports

theorem settleAfter (p : Part) (report : Option Report) : Kept p (p.settleAfter report) :=
  (arbitrate p).trans (settle _ _)

end Kept

end Sys2Proof.Machine
end

