-- ==== Sys2Proof/Laws/Quiet.lean ====
section
/-! SUPPORT. The units at rest: where nothing waits, the reactions that follow a command change nothing, and work presented
alone is taken at once. -/

namespace Sys2Proof.Machine

theorem Part.joinClose_quiet (p : Part) (h : p.JournalsQuiet) (c : Channel) : p.joinClose c = p := by
  unfold Part.joinClose
  split
  · rfl
  · simp [h.due c]

theorem foldl_fixed {α β : Type} (f : β → α → β) (p : β) (h : ∀ a, f p a = p) (l : List α) : l.foldl f p = p := by
  induction l with
  | nil => rfl
  | cons a l ih => rw [List.foldl_cons, h a, ih]

/-- With nothing to do the Journal Engine does nothing. -/
theorem Part.engine_quiet (p : Part) (h : p.JournalsQuiet) : p.engine = (p, []) := by
  have hs : p.subject = none := by simp [Part.subject, h.entries]
  have hl : ∀ n, Part.subjectLoop n p = p := by
    intro n
    cases n with
    | zero => rfl
    | succ n => simp [Part.subjectLoop, Part.subjectAct, hs]
  unfold Part.engine Part.joinCloses
  simp only [foldl_fixed _ p (p.joinClose_quiet h), hl]
  unfold Part.present
  simp [h.backlog, h.outstanding, hs]

/-- The arbiter takes nothing. -/
theorem Part.arbitrate_idle (p : Part) (h : p.arbiterTake = none) : p.arbitrate = (p, []) := by
  simp [Part.arbitrate, Part.arbiterLoop, h]

theorem Part.arbiterTake_quiet (p : Part) (h : p.StoreQuiet) : p.arbiterTake = none := by
  simp [Part.arbiterTake, h.array, h.erase, h.suspended, h.programs, h.readSlot, h.eraseQueue]

/-- The arbiter takes nothing while the array carries an operation. -/
theorem Part.arbiterTake_busy (p : Part) (op : ArrayOp) (h : p.ctl.array = some op) : p.arbiterTake = none := by
  simp [Part.arbiterTake, h]

/-- The arbiter takes nothing while an erase runs. -/
theorem Part.arbiterTake_erasing (p : Part) (e : RunningErase) (h : p.ctl.erase = some e) : p.arbiterTake = none := by
  simp [Part.arbiterTake, h]

/-- One choice of the arbiter that begins an operation is its last. -/
theorem Part.arbitrate_once (p q : Part) (h : p.arbiterTake = some (q, [])) (hq : q.arbiterTake = none) :
    p.arbitrate = (q, []) := by
  simp [Part.arbitrate, Part.arbiterLoop, h, hq]

/-- The reactions where the Journal Engine and then the arbiter act, and neither gives a report. -/
theorem Part.settle_acts (p q r : Part) (acted : p.engine = (q, [])) (chosen : q.arbitrate = (r, [])) : p.settle [] = r := by
  simp [Part.settle, Part.settleLoop, settleRounds, Part.round, Part.arbitrated, acted, chosen]

/-- The reactions where the Journal Engine is quiet and the arbiter's choices give no report. -/
theorem Part.settle_of (p q : Part) (h : p.JournalsQuiet) (a : p.arbitrate = (q, [])) : p.settle [] = q := by
  exact p.settle_acts p q (p.engine_quiet h) a

/-- The first report is acted on; where that gives no further report, the reactions go on from there. -/
theorem Part.settle_told (p q : Part) (report : Report) (reports : List Report) (h : p.told report = (q, [])) :
    p.settle (report :: reports) = q.settle reports := by
  have round : p.round (report :: reports) = q.round reports := by
    simp only [Part.round, List.foldl_cons, Part.nextReport, List.isEmpty_nil, if_true, h]
  unfold Part.settle settleRounds Part.settleLoop
  simp only [round]

/-- A retry pass with nobody in the wait queue has no turn. -/
theorem Part.settle_retryDue (p : Part) (reports : List Report) (h : p.je.wait = []) :
    p.settle (.retryDue :: reports) = p.settle reports :=
  p.settle_told p _ _ (by simp [Part.told, Part.retryTurns, h])

/-- The end of an operation in the array, told to its requester. -/
theorem Part.settleAfter_told (p q : Part) (report : Report) (h : p.arbitrate.1.told report = (q, [])) :
    p.settleAfter (some report) = q.settle p.arbitrate.2 :=
  Part.settle_told _ _ _ _ h

/-- The units at rest stay at rest. -/
theorem Part.settle_quiet (p : Part) (h : p.JournalsQuiet) (s : p.StoreQuiet) : p.settle [] = p :=
  p.settle_of p h (p.arbitrate_idle (p.arbiterTake_quiet s))

theorem Part.subjectLoop_none (n : Nat) (p : Part) (h : p.subjectAct = none) : Part.subjectLoop n p = p := by
  cases n with
  | zero => rfl
  | succ n => simp [Part.subjectLoop, h]

theorem Part.joinClose_noDue (p : Part) (c : Channel) (h : (p.journal c).due.any = false) : p.joinClose c = p := by
  unfold Part.joinClose
  split
  · rfl
  · simp [h]

/-- While a commit is in flight the units wait. -/
theorem Part.settle_commitInFlight (p : Part) (h : p.CommitInFlight) : p.settle [] = p := by
  obtain ⟨e, hs, hw⟩ := h.subject
  have hi : p.inFlight = true := by simp [Part.inFlight, h.outstanding]
  have ha : p.subjectAct = none := by
    unfold Part.subjectAct
    simp only [hs, hw]
    split
    · simp [Part.subjectWriting, hi]
    · rfl
  have he : p.engine = (p, []) := by
    unfold Part.engine Part.joinCloses
    simp only [foldl_fixed _ p (fun c => p.joinClose_noDue c (h.due c)), Part.subjectLoop_none _ p ha]
    simp [Part.present, h.outstanding]
  obtain ⟨op, hop⟩ := Option.isSome_iff_exists.mp h.array
  exact p.settle_acts p p he (p.arbitrate_idle (p.arbiterTake_busy op hop))

/-- With one header program in the backlog, every close that is due served by it, nothing else to do and the supply good,
the program is presented and begins. -/
theorem Part.settle_runsHeader (p : Part) (op : ProgramOp) (entries : p.queue.entries = []) (backlog : p.je.backlog = [op])
    (outstanding : p.je.outstanding = none) (closes : ∀ c, p.joinClose c = p) (store : p.StoreQuiet) (supplied : p.Supplied)
    (free : p.protectionOk op.block = true) : p.settle [] = p.runsHeader op := by
  have hs : p.subject = none := by simp [Part.subject, entries]
  have ha : p.subjectAct = none := by simp [Part.subjectAct, hs]
  have hr : ({ p.ctl with programs := [{ source := .journalEngine, op : ProgramReq }] }).requestSuspension
      = { p.ctl with programs := [{ source := .journalEngine, op : ProgramReq }] } := by
    simp [Controller.requestSuspension, store.erase]
  let q : Part := { p with
    je := { p.je with outstanding := some .header }
    ctl := { p.ctl with programs := [{ source := .journalEngine, op }] } }
  have he : p.engine = (q, []) := by
    unfold Part.engine Part.joinCloses
    simp only [foldl_fixed _ p closes, Part.subjectLoop_none _ p ha]
    simp [Part.present, supplied.hold, outstanding, backlog, Part.presentJournal, supplied.fault, Part.joinPrograms,
      store.programs, hr, q]
  have hsample : p.supply.next = p.supply := by simp [Supply.next, supplied.coming]
  have htake : q.arbiterTake = some (p.runsHeader op, []) := by
    have hok : supplyPasses p.supply.vstMv = true := by simp [supplyPasses, supplied.level]
    have hp : ∀ x : Part, x.dir = p.dir → x.pins = p.pins → x.protectionOk op.block = true := by
      intro x hd hpin
      rw [← free]
      unfold Part.protectionOk Part.lockOf Part.entry
      rw [hd, hpin]
    simp only [Part.arbiterTake, q, store.array, store.erase, Option.isSome_none, Bool.or_self, Bool.false_eq_true, if_false]
    unfold Part.takeProgram
    simp only [supplied.fault, Bool.false_eq_true, if_false, Part.sampled, Part.supplyOk, hsample, hok, Bool.not_true]
    split
    · simp [Part.begin, Part.runsHeader, ← store.programs, ← store.erase]
    · rename_i h
      exact absurd (hp _ rfl rfl) h
  have hbusy : (p.runsHeader op).arbiterTake = none := Part.arbiterTake_busy _ _ rfl
  have hc := Part.arbitrate_once q _ htake hbusy
  exact p.settle_acts q _ he hc

/-- A close that falls due alone joins the backlog at once. -/
theorem Part.addDue_joins (p : Part) (c : Channel) (b : Block) (f : CloseDue → CloseDue)
    (opened : (p.journal c).openBlock = some b) (due : (f (p.journal c).due).any = true) (backlog : p.je.backlog = [])
    (outstanding : p.je.outstanding = none) :
    p.addDue c f = { p with je := { (p.updJournal c (fun j => { j with due := f j.due })).je with
      backlog := [.closeMark b (p.entry b).fill (p.entry b).last (f (p.journal c).due).fail] } } := by
  let q := p.updJournal c (fun j => { j with due := f j.due })
  have hj : q.journal c = { p.journal c with due := f (p.journal c).due } := by simp [q]
  have hb : q.je.backlog = [] := backlog
  have ho : q.recordOutstanding c = false := by
    simp [Part.recordOutstanding, Part.inFlight, show q.je.outstanding = none from outstanding]
  show q.joinClose c = _
  unfold Part.joinClose
  simp only [hj, opened, due, JournalEngine.hasHeader, hb, List.any_nil, ho, Bool.not_false, Bool.and_self, if_true,
    List.nil_append]
  rfl

/-- No close joins the backlog where one journal's close mark is in it and no other close is due. -/
theorem Part.joinClose_served (p : Part) (c : Channel) (b : Block) (opened : (p.journal c).openBlock = some b)
    (served : p.je.hasHeader b = true) (due : ∀ c', c' ≠ c → (p.journal c').due.any = false) (c' : Channel) :
    p.joinClose c' = p := by
  by_cases h : c' = c
  · subst h
    simp [Part.joinClose, opened, served]
  · exact p.joinClose_noDue c' (due c' h)

/-- With nobody in the wait queue a retry pass does nothing. -/
theorem Part.retryPass_quiet (p : Part) (h : p.je.wait = []) : p.retryPass = p := by
  simp [Part.retryPass, Part.retryTurns, h]

/-! ### The arbiter leaves the control link and the Journal Engine alone -/

theorem Part.notify_ctrl (p : Part) (n : Notice) : (p.notify n).ctrl = p.ctrl ∧ (p.notify n).je = p.je := by
  unfold Part.notify
  split
  · split <;> exact ⟨rfl, rfl⟩
  · exact ⟨rfl, rfl⟩

theorem Part.supplyFails_ctrl (p : Part) (op : StoreOp) (b : Option Block) :
    (p.supplyFails op b).ctrl = p.ctrl ∧ (p.supplyFails op b).je = p.je := by
  unfold Part.supplyFails
  dsimp only
  split
  · exact ⟨rfl, rfl⟩
  · exact Part.notify_ctrl _ _

theorem Part.takeProgram_ctrl (p : Part) (req : ProgramReq) :
    (p.takeProgram req).1.ctrl = p.ctrl ∧ (p.takeProgram req).1.je = p.je := by
  unfold Part.takeProgram
  split
  · exact ⟨rfl, rfl⟩
  · split
    · exact Part.supplyFails_ctrl p.sampled _ _
    · split <;> exact ⟨rfl, rfl⟩

theorem Part.takeRead_ctrl (p : Part) (req : ReadReq) :
    (p.takeRead req).1.ctrl = p.ctrl ∧ (p.takeRead req).1.je = p.je := by
  unfold Part.takeRead
  split <;> exact ⟨rfl, rfl⟩

theorem Part.takeResumption_ctrl (p : Part) (r : SuspendedErase) :
    (p.takeResumption r).1.ctrl = p.ctrl ∧ (p.takeResumption r).1.je = p.je := by
  unfold Part.takeResumption
  split
  · exact ⟨rfl, rfl⟩
  · exact Part.supplyFails_ctrl p.sampled _ _

theorem Part.takeErase_ctrl (p : Part) (x : EraseEntry) :
    (p.takeErase x).1.ctrl = p.ctrl ∧ (p.takeErase x).1.je = p.je := by
  unfold Part.takeErase
  split
  · exact Part.supplyFails_ctrl p.sampled _ _
  · split
    · exact ⟨rfl, rfl⟩
    · unfold Part.refuseErase Part.opDone
      dsimp only
      split
      · exact Part.notify_ctrl _ _
      · exact ⟨rfl, rfl⟩

theorem Part.arbiterTake_ctrl (p : Part) (r : Part × List Report) (h : p.arbiterTake = some r) :
    r.1.ctrl = p.ctrl ∧ r.1.je = p.je := by
  unfold Part.arbiterTake at h
  repeat' split at h
  all_goals simp only [reduceCtorEq, Option.some.injEq] at h
  all_goals subst h
  · exact Part.takeProgram_ctrl _ _
  · exact Part.takeRead_ctrl _ _
  · exact Part.takeResumption_ctrl _ _
  · exact Part.takeErase_ctrl _ _

theorem Part.arbitrate_ctrl (p : Part) : p.arbitrate.1.ctrl = p.ctrl ∧ p.arbitrate.1.je = p.je := by
  unfold Part.arbitrate
  generalize p.ctl.programs.length + p.ctl.eraseQueue.length + 3 = fuel
  induction fuel generalizing p with
  | zero => exact ⟨rfl, rfl⟩
  | succ fuel ih =>
    unfold Part.arbiterLoop
    split
    · exact ⟨rfl, rfl⟩
    · rename_i q reports h
      have taken := p.arbiterTake_ctrl _ h
      exact ⟨(ih q).1.trans taken.1, (ih q).2.trans taken.2⟩

end Sys2Proof.Machine
end

