-- ==== Sys2Proof/Laws/Locks.lean ====
section
/-! SUPPORT. What a lock request does over its range: to each block as if it stood alone, to nothing else but the journals and
the backlog, and how its counts come out (R22 to R24, R26). -/

namespace Sys2Proof.Machine

/-- A lock request on one block looks at its entry and PROT_N alone, writes its entry alone, and besides the Journal Engine
changes nothing else. -/
structure LockLocal (one : Part → Block → LockEffect × Part) (effect : Bool → DirEntry → LockEffect)
    (entry : Bool → DirEntry → DirEntry) : Prop where
  effect : ∀ p b, (one p b).1 = effect p.pins.protN (p.entry b)
  part : ∀ p b, ∃ je, (one p b).2 = { p.updEntry b (entry p.pins.protN) with je }

/-- The effect of LOCK_BLOCKS on a block (R22). -/
def lockEffect (protN : Bool) (e : DirEntry) : LockEffect :=
  if e.lockState protN = .down then .refused
  else if e.state = .opened then if e.pending = .clear then .changed else .neither
  else if e.lockBit then .neither else .changed

/-- The entry LOCK_BLOCKS leaves (R22, R26). -/
def lockEntry (protN : Bool) (e : DirEntry) : DirEntry :=
  if e.lockState protN = .down then e
  else if e.state = .opened then if e.pending = .clear then { e with pending := .lock } else e
  else { e with lockBit := true }

/-- The effect of UNLOCK_BLOCKS on a block (R23). -/
def unlockEffect (protN : Bool) (e : DirEntry) : LockEffect :=
  if e.lockState protN = .down then .refused
  else if e.state = .opened then
    if e.pending = .lock then .changed else if e.pending = .down then .refused else .neither
  else if e.lockBit then .changed else .neither

/-- The entry UNLOCK_BLOCKS leaves (R23). -/
def unlockEntry (protN : Bool) (e : DirEntry) : DirEntry :=
  if e.lockState protN = .down then e
  else if e.state = .opened then if e.pending = .lock then { e with pending := .clear } else e
  else { e with lockBit := false }

/-- The effect of DOWN_BLOCKS on a block (R24). -/
def downEffect (_protN : Bool) (e : DirEntry) : LockEffect :=
  if e.state = .opened then if e.pending = .down then .neither else .changed
  else if e.downFlag && e.lockBit then .neither else .changed

/-- The entry DOWN_BLOCKS leaves (R24, R26). -/
def downEntry (_protN : Bool) (e : DirEntry) : DirEntry :=
  if e.state = .opened then { e with pending := .down } else { e with downFlag := true, lockBit := true }

theorem Part.updEntry_eq (p : Part) (b : Block) (f g : DirEntry → DirEntry) (h : f (p.entry b) = g (p.entry b)) :
    p.updEntry b f = p.updEntry b g := by
  unfold Part.entry at h
  unfold Part.updEntry
  rw [h]

theorem Part.updEntry_same (p : Part) (b : Block) (f : DirEntry → DirEntry) (h : f (p.entry b) = p.entry b) :
    p.updEntry b f = p := by
  unfold Part.entry at h
  unfold Part.updEntry
  rw [h]
  simp

theorem Part.joinClose_je (p : Part) (c : Channel) : ∃ je, p.joinClose c = { p with je } ∧ je.journals = p.je.journals := by
  unfold Part.joinClose
  split
  · exact ⟨p.je, rfl, rfl⟩
  · split
    · exact ⟨_, rfl, rfl⟩
    · exact ⟨p.je, rfl, rfl⟩

/-- LOCK joining a close due set writes the Journal Engine alone, and of the journals this close due set. -/
theorem Part.lockDue_je (p : Part) (b : Block) : ∃ je, p.lockDue b = { p with je } := by
  unfold Part.lockDue
  split
  · rename_i c _
    obtain ⟨je, h, -⟩ := (p.updJournal c (fun j => { j with due := { j.due with lock := true } })).joinClose_je c
    exact ⟨je, h⟩
  · exact ⟨p.je, rfl⟩

theorem Part.lockNotDue_je (p : Part) (b : Block) : ∃ je, p.lockNotDue b = { p with je } := by
  unfold Part.lockNotDue
  split
  · split
    · exact ⟨p.je, rfl⟩
    · exact ⟨_, rfl⟩
  · exact ⟨p.je, rfl⟩

theorem lockOne_local : LockLocal Part.lockOne lockEffect lockEntry where
  effect p b := by
    by_cases down : p.lockOf b = .down
    · simp [Part.lockOne, lockEffect, down, show DirEntry.lockState p.pins.protN (p.entry b) = .down from down]
    · have up : ¬DirEntry.lockState p.pins.protN (p.entry b) = .down := down
      simp only [Part.lockOne, lockEffect, down, up, if_false]
      repeat' split
      all_goals rfl
  part p b := by
    by_cases down : p.lockOf b = .down
    · have down' : DirEntry.lockState p.pins.protN (p.entry b) = .down := down
      refine ⟨p.je, ?_⟩
      rw [p.updEntry_same b _ (by simp [lockEntry, down'])]
      simp [Part.lockOne, down]
    · have up : ¬DirEntry.lockState p.pins.protN (p.entry b) = .down := down
      by_cases opened : (p.entry b).state = .opened
      · by_cases clear : (p.entry b).pending = .clear
        · obtain ⟨je, h⟩ := (p.updEntry b (fun e => { e with pending := .lock })).lockDue_je b
          refine ⟨je, ?_⟩
          rw [p.updEntry_eq b (lockEntry p.pins.protN) (fun e => { e with pending := .lock })
            (by simp [lockEntry, up, opened, clear])]
          simp [Part.lockOne, down, opened, clear, h]
        · refine ⟨p.je, ?_⟩
          rw [p.updEntry_same b _ (by simp [lockEntry, up, opened, clear])]
          simp [Part.lockOne, down, opened, clear]
      · refine ⟨p.je, ?_⟩
        by_cases bit : (p.entry b).lockBit = true
        · rw [p.updEntry_same b _ (by simp only [lockEntry, up, opened, if_false]; rw [← bit])]
          simp [Part.lockOne, down, opened, bit]
        · rw [p.updEntry_eq b (lockEntry p.pins.protN) (fun e => { e with lockBit := true })
            (by simp [lockEntry, up, opened])]
          simp [Part.lockOne, down, opened, bit, Part.updEntry]

theorem unlockOne_local : LockLocal Part.unlockOne unlockEffect unlockEntry where
  effect p b := by
    by_cases down : p.lockOf b = .down
    · simp [Part.unlockOne, unlockEffect, down, show DirEntry.lockState p.pins.protN (p.entry b) = .down from down]
    · have up : ¬DirEntry.lockState p.pins.protN (p.entry b) = .down := down
      simp only [Part.unlockOne, unlockEffect, down, up, if_false]
      by_cases opened : (p.entry b).state = .opened
      · cases h : (p.entry b).pending <;> simp [opened]
      · simp only [opened, if_false]
        split <;> rfl
  part p b := by
    by_cases down : p.lockOf b = .down
    · have down' : DirEntry.lockState p.pins.protN (p.entry b) = .down := down
      refine ⟨p.je, ?_⟩
      rw [p.updEntry_same b _ (by simp [unlockEntry, down'])]
      simp [Part.unlockOne, down]
    · have up : ¬DirEntry.lockState p.pins.protN (p.entry b) = .down := down
      by_cases opened : (p.entry b).state = .opened
      · cases pending : (p.entry b).pending with
        | lock =>
          obtain ⟨je, h⟩ := (p.updEntry b (fun e => { e with pending := .clear })).lockNotDue_je b
          refine ⟨je, ?_⟩
          rw [p.updEntry_eq b (unlockEntry p.pins.protN) (fun e => { e with pending := .clear })
            (by simp [unlockEntry, up, opened, pending])]
          simp [Part.unlockOne, down, opened, pending, h]
        | down | clear =>
          refine ⟨p.je, ?_⟩
          rw [p.updEntry_same b _ (by simp [unlockEntry, up, opened, pending])]
          simp [Part.unlockOne, down, opened, pending]
      · refine ⟨p.je, ?_⟩
        by_cases bit : (p.entry b).lockBit = true
        · rw [p.updEntry_eq b (unlockEntry p.pins.protN) (fun e => { e with lockBit := false })
            (by simp [unlockEntry, up, opened])]
          simp [Part.unlockOne, down, opened, bit, Part.updEntry]
        · rw [p.updEntry_same b _ (by
            simp only [Bool.not_eq_true] at bit
            simp only [unlockEntry, up, opened, if_false]
            rw [← bit])]
          simp [Part.unlockOne, down, opened, bit]

theorem downOne_local : LockLocal Part.downOne downEffect downEntry where
  effect p b := by
    simp only [Part.downOne, downEffect]
    by_cases opened : (p.entry b).state = .opened
    · simp only [opened, if_true]
      split <;> rfl
    · simp only [opened, if_false]
      split <;> rfl
  part p b := by
    by_cases opened : (p.entry b).state = .opened
    · by_cases pending : (p.entry b).pending = .down
      · refine ⟨p.je, ?_⟩
        rw [p.updEntry_same b _ (by simp only [downEntry, opened, if_true]; rw [← pending, ← opened])]
        simp [Part.downOne, opened, pending]
      · obtain ⟨je, h⟩ := (p.updEntry b (fun e => { e with pending := .down })).lockDue_je b
        refine ⟨je, ?_⟩
        rw [p.updEntry_eq b (downEntry p.pins.protN) (fun e => { e with pending := .down }) (by simp [downEntry, opened])]
        simp [Part.downOne, opened, pending, h]
    · refine ⟨p.je, ?_⟩
      by_cases set : ((p.entry b).downFlag && (p.entry b).lockBit) = true
      · have both := Bool.and_eq_true_iff.mp set
        rw [p.updEntry_same b _ (by
          simp only [downEntry, opened, if_false]
          generalize p.entry b = e at both
          cases e
          simp_all)]
        simp [Part.downOne, opened, both.1, both.2]
      · rw [p.updEntry_eq b (downEntry p.pins.protN) (fun e => { e with downFlag := true, lockBit := true })
          (by simp [downEntry, opened])]
        simp only [Part.downOne, opened, if_false, set, Bool.false_eq_true]
        rfl

/-! ### Over a range -/

/-- A lock request over blocks named once each. -/
theorem LockLocal.foldl {one : Part → Block → LockEffect × Part} {effect : Bool → DirEntry → LockEffect}
    {entry : Bool → DirEntry → DirEntry} (h : LockLocal one effect entry) (l : List Block) (once : l.Nodup) (t : LockTally) :
    let r := l.foldl (fun t b => t.count (one t.part b).1 (one t.part b).2) t
    let protN := t.part.pins.protN
    (∃ dir je, r.part = { t.part with dir, je })
      ∧ (∀ b, r.part.entry b = if b ∈ l then entry protN (t.part.entry b) else t.part.entry b)
      ∧ r.changed = t.changed + (l.filter (fun b => decide (effect protN (t.part.entry b) = .changed))).length
      ∧ r.refused = t.refused + (l.filter (fun b => decide (effect protN (t.part.entry b) = .refused))).length := by
  induction l generalizing t with
  | nil => exact ⟨⟨_, _, rfl⟩, by simp, rfl, rfl⟩
  | cons a l ih =>
    obtain ⟨out, once⟩ := List.nodup_cons.mp once
    obtain ⟨je, part⟩ := h.part t.part a
    have ent : ∀ b, (one t.part a).2.entry b = if a = b then entry t.part.pins.protN (t.part.entry a) else t.part.entry b := by
      intro b
      rw [part]
      exact Part.entry_updEntry t.part a b _
    have pins : (one t.part a).2.pins = t.part.pins := by rw [part]; rfl
    obtain ⟨⟨dir, je', other⟩, entries, changed, refused⟩ := ih once (t.count (one t.part a).1 (one t.part a).2)
    have same : ∀ b ∈ l, (one t.part a).2.entry b = t.part.entry b := by
      intro b hb
      rw [ent b, if_neg (fun e : a = b => out (e ▸ hb))]
    have tally : ∀ x : LockEffect, l.filter (fun b => decide (effect (one t.part a).2.pins.protN ((one t.part a).2.entry b) = x))
        = l.filter (fun b => decide (effect t.part.pins.protN (t.part.entry b) = x)) := by
      intro x
      refine List.filter_congr (fun b hb => ?_)
      rw [same b hb, pins]
    simp only [LockTally.count] at other entries changed refused ⊢
    simp only [List.foldl_cons]
    refine ⟨⟨dir, je', ?_⟩, ?_, ?_, ?_⟩
    · rw [other, part]
      rfl
    · intro b
      rw [entries b, pins]
      by_cases hb : b ∈ l
      · simp [hb, same b hb]
      · by_cases ha : b = a
        · subst ha
          simp [hb, ent]
        · simp [hb, ha, ent, Ne.symm ha]
    · refine changed.trans ((congrArg (_ + ·) (congrArg List.length (tally .changed))).trans ?_)
      rw [List.filter_cons, h.effect t.part a]
      by_cases x : effect t.part.pins.protN (t.part.entry a) = .changed
      · simp only [x, if_true, decide_true, List.length_cons]
        omega
      · simp only [x, if_false, decide_false, Bool.false_eq_true]
        omega
    · refine refused.trans ((congrArg (_ + ·) (congrArg List.length (tally .refused))).trans ?_)
      rw [List.filter_cons, h.effect t.part a]
      by_cases x : effect t.part.pins.protN (t.part.entry a) = .refused
      · simp only [x, if_true, decide_true, List.length_cons]
        omega
      · simp only [x, if_false, decide_false, Bool.false_eq_true]
        omega

theorem mem_blockRange (first last : Nat) (b : Block) : b ∈ blockRange first last ↔ first ≤ b.val ∧ b.val ≤ last := by
  simp [blockRange, allBlocks]

/-- A lock request over a range. -/
theorem LockLocal.range {one : Part → Block → LockEffect × Part} {effect : Bool → DirEntry → LockEffect}
    {entry : Bool → DirEntry → DirEntry} (h : LockLocal one effect entry) (p : Part) (first last : Nat) :
    let r := p.lockRange one first last
    (∃ dir je, r.part = { p with dir, je })
      ∧ (∀ b : Block, r.part.entry b
        = if first ≤ b.val ∧ b.val ≤ last then entry p.pins.protN (p.entry b) else p.entry b)
      ∧ r.changed = p.tally first last (fun _ e => decide (effect p.pins.protN e = .changed))
      ∧ r.refused = p.tally first last (fun _ e => decide (effect p.pins.protN e = .refused)) := by
  obtain ⟨part, entries, changed, refused⟩ := h.foldl (blockRange first last) ((List.nodup_finRange 128).filter _)
    { part := p, changed := 0, refused := 0 }
  refine ⟨part, fun b => ?_, ?_, ?_⟩
  · rw [Part.lockRange, entries b]
    simp only [mem_blockRange]
  · rw [Part.lockRange, changed]
    simp [Part.tally, blockRange, List.filter_filter, Bool.and_comm]
  · rw [Part.lockRange, refused]
    simp [Part.tally, blockRange, List.filter_filter, Bool.and_comm]

/-- A range of one block. -/
theorem blockRange_one (b : Block) : blockRange b.val b.val = [b] := by
  revert b
  decide +kernel

end Sys2Proof.Machine
end

