-- ==== Sys2Proof/Laws/Memory.lean ====
section
/-! SUPPORT. The store as memory: every operation keeps the canonical form, and what a read gives after a write or an
erase. -/

namespace Sys2Proof.Machine.Memory

theorem wfFrom_mono {low low' : Nat} {m : List Host.Cell} (h : low' ≤ low) (w : wfFrom low m = true) :
    wfFrom low' m = true := by
  cases m with
  | nil => rfl
  | cons x rest =>
    simp only [wfFrom, Bool.and_eq_true, decide_eq_true_eq] at w ⊢
    exact ⟨⟨⟨Nat.le_trans h w.1.1.1, w.1.1.2⟩, w.1.2⟩, w.2⟩

/-- `put` keeps the canonical form. -/
theorem wfFrom_put {low a : Nat} {b : Byte} {m : List Host.Cell} (w : wfFrom low m = true) (h : low ≤ a)
    (ha : a < Config.storeBytes) : wfFrom low (put m a b) = true := by
  induction m generalizing low with
  | nil =>
    unfold put; split
    · rfl
    · rename_i hb
      simp [wfFrom, h, ha, hb]
  | cons x rest ih =>
    obtain ⟨a', b'⟩ := x
    simp only [wfFrom, Bool.and_eq_true, decide_eq_true_eq] at w
    unfold put
    split
    · rename_i hlt
      split
      · simp [wfFrom, w.1.1.1, w.1.1.2, w.1.2, w.2]
      · rename_i hb
        simp [wfFrom, h, ha, hb, w.1.1.2, w.1.2, w.2]; omega
    · split
      · rename_i heq
        subst heq
        split
        · exact wfFrom_mono (by omega) w.2
        · rename_i hb
          simp [wfFrom, h, ha, hb, w.2]
      · rename_i h1 h2
        simp [wfFrom, w.1.1.1, w.1.1.2, w.1.2]
        exact ih w.2 (by omega)

theorem wf_write {m : List Host.Cell} (a : Nat) (b : Byte) (w : wf m = true) : wf (write m a b) = true := by
  unfold write; split
  · exact wfFrom_put w (Nat.zero_le _) ‹_›
  · exact w

theorem wf_writeBytes {m : List Host.Cell} (a : Nat) (bytes : List Byte) (w : wf m = true) :
    wf (writeBytes m a bytes) = true := by
  induction bytes generalizing m a with
  | nil => exact w
  | cons b bs ih => exact ih _ (wf_write a b w)

theorem wfFrom_filter {low : Nat} {m : List Host.Cell} (f : Host.Cell → Bool) (w : wfFrom low m = true) :
    wfFrom low (m.filter f) = true := by
  induction m generalizing low with
  | nil => rfl
  | cons x rest ih =>
    obtain ⟨a, b⟩ := x
    simp only [wfFrom, Bool.and_eq_true, decide_eq_true_eq] at w
    rw [List.filter_cons]
    split
    · simp [wfFrom, w.1.1.1, w.1.1.2, w.1.2, ih w.2]
    · exact wfFrom_mono (by omega) (ih w.2)

theorem wf_eraseRange {m : List Host.Cell} (a n : Nat) (w : wf m = true) : wf (eraseRange m a n) = true :=
  wfFrom_filter _ w

/-! ### Reading back -/

theorem read_below {low a : Nat} {m : List Host.Cell} (w : wfFrom low m = true) (h : a < low) : read m a = erasedByte := by
  induction m generalizing low with
  | nil => rfl
  | cons x rest ih =>
    obtain ⟨a', b'⟩ := x
    simp only [wfFrom, Bool.and_eq_true, decide_eq_true_eq] at w
    have : a ≠ a' := by omega
    simp only [read, this, if_false]
    exact ih w.2 (by omega)

theorem read_put_other {a a' : Nat} {b : Byte} (m : List Host.Cell) (h : a' ≠ a) : read (put m a b) a' = read m a' := by
  induction m with
  | nil => unfold put; split <;> simp [read, h]
  | cons x rest ih =>
    obtain ⟨x, y⟩ := x
    unfold put; split
    · split
      · rfl
      · simp [read, h]
    · split
      · rename_i heq
        split <;> simp [read, h, ← heq]
      · simp only [read, ih]

theorem read_put_same {low a : Nat} {b : Byte} {m : List Host.Cell} (w : wfFrom low m = true) : read (put m a b) a = b := by
  induction m generalizing low with
  | nil =>
    unfold put; split
    · rename_i h; simp [read, h]
    · simp [read]
  | cons x rest ih =>
    obtain ⟨x, y⟩ := x
    simp only [wfFrom, Bool.and_eq_true, decide_eq_true_eq] at w
    unfold put; split
    · rename_i hlt
      split
      · rename_i hb
        have hne : a ≠ x := by omega
        rw [hb]; simp only [read, hne, if_false]
        exact read_below w.2 (by omega)
      · simp [read]
    · split
      · rename_i heq
        split
        · rename_i hb
          rw [hb, heq]
          exact read_below w.2 (by omega)
        · simp [read]
      · rename_i h1 h2
        simp only [read, h2, if_false]
        exact ih w.2

/-- A byte written inside the store reads back. -/
theorem read_write_same {m : List Host.Cell} {a : Nat} {b : Byte} (w : wf m = true) (h : a < Config.storeBytes) :
    read (write m a b) a = b := by
  unfold write; rw [if_pos h]; exact read_put_same w

/-- A write leaves every other byte. -/
theorem read_write_other {a a' : Nat} {b : Byte} (m : List Host.Cell) (h : a' ≠ a) : read (write m a b) a' = read m a' := by
  unfold write; split
  · exact read_put_other m h
  · rfl

/-- Writing consecutive bytes leaves every byte outside them. -/
theorem read_writeBytes_outside (m : List Host.Cell) (a a' : Nat) (bytes : List Byte)
    (h : a' < a ∨ a + bytes.length ≤ a') : read (writeBytes m a bytes) a' = read m a' := by
  induction bytes generalizing m a with
  | nil => rfl
  | cons b bs ih =>
    simp only [List.length_cons] at h
    rw [writeBytes, ih _ _ (by omega), read_write_other m (by omega)]

/-- Consecutive bytes written inside the store read back. -/
theorem read_writeBytes_inside {m : List Host.Cell} (w : wf m = true) (a i : Nat) (bytes : List Byte)
    (h : i < bytes.length) (room : a + bytes.length ≤ Config.storeBytes) :
    read (writeBytes m a bytes) (a + i) = bytes[i] := by
  induction bytes generalizing m a i with
  | nil => exact absurd h (Nat.not_lt_zero _)
  | cons b bs ih =>
    simp only [List.length_cons] at h room
    rw [writeBytes]
    cases i with
    | zero =>
      rw [read_writeBytes_outside _ _ _ _ (by omega)]
      exact read_write_same w (by omega)
    | succ i =>
      have := ih (wf_write a b w) (a + 1) i (by omega) (by omega)
      rw [show a + (i + 1) = a + 1 + i by omega, this]
      rfl

/-- What reads after an erase of a range: erased inside it, as before outside it. -/
theorem read_eraseRange (m : List Host.Cell) (a n a' : Nat) :
    read (eraseRange m a n) a' = if a ≤ a' ∧ a' < a + n then erasedByte else read m a' := by
  induction m with
  | nil => simp [eraseRange, read]
  | cons x rest ih =>
    obtain ⟨x, y⟩ := x
    unfold eraseRange at ih ⊢
    rw [List.filter_cons]
    by_cases hx : x < a ∨ a + n ≤ x
    · simp only [hx, decide_true, if_true, read, ih]
      by_cases he : a' = x
      · subst he
        have : ¬ (a ≤ a' ∧ a' < a + n) := by omega
        simp [this]
      · simp [he]
    · simp only [hx, decide_false, Bool.false_eq_true, if_false, ih, read]
      by_cases he : a' = x
      · subst he
        have : a ≤ a' ∧ a' < a + n := by omega
        simp [this]
      · simp [he]

end Sys2Proof.Machine.Memory
end

