-- ==== Sys2Proof/Laws/OutOfUse.lean ====
section
/-! SUPPORT. A block out of use, RETIRED or ERASING: no reaction of the units takes it into use, so that a statement about a
command that retires or enqueues a block unfolds none of them. -/

namespace Sys2Proof.Machine

/-- A report that no program of the array has ended: the arbiter's refusals, a read, the end of an erase. -/
def Report.noEnd : Report → Bool
  | .program _ .ok => false
  | .program _ .programFail => false
  | _ => true

/-- How a block is out of use: RETIRED and in no erase queue, RETIRED and unlocked, or ERASING, unlocked and in the erase
queue on a request. -/
inductive OutAs where
  | retired
  | retiredUnlocked
  | erasing (requester : EraseRequester)

/-- A block out of use while the part is READY. -/
structure Part.OutOfUse (p : Part) (b : Block) (x : OutAs) : Prop where
  ready : p.device = .ready
  held : match x with
    | .retired => (p.entry b).state = .retired ∧ ∀ y ∈ p.ctl.eraseQueue, y.block ≠ b
    | .retiredUnlocked => (p.entry b).state = .retired ∧ p.lockOf b = .unlocked
    | .erasing r =>
      (p.entry b).state = .erasing ∧ p.lockOf b = .unlocked ∧ { block := b, requester := r } ∈ p.ctl.eraseQueue

namespace Part.OutOfUse

variable {b : Block} {x : OutAs}

theorem notState {p : Part} (h : p.OutOfUse b x) :
    (p.entry b).state ≠ .blank ∧ (p.entry b).state ≠ .torn ∧ (p.entry b).state ≠ .closed := by
  cases x <;> simp [h.held.1]

/-- What leaves the block's state and lock and the erase queue alone. -/
theorem same {p q : Part} (h : p.OutOfUse b x) (d : q.device = p.device) (n : q.pins = p.pins)
    (s : (q.entry b).state = (p.entry b).state) (l : (q.entry b).lockBit = (p.entry b).lockBit)
    (f : (q.entry b).downFlag = (p.entry b).downFlag) (e : q.ctl.eraseQueue = p.ctl.eraseQueue) : q.OutOfUse b x := by
  have hl : q.lockOf b = p.lockOf b := by simp [Part.lockOf, DirEntry.lockState, n, l, f]
  refine ⟨d.trans h.ready, ?_⟩
  cases x with
  | retired => exact ⟨s.trans h.held.1, e ▸ h.held.2⟩
  | retiredUnlocked => exact ⟨s.trans h.held.1, hl.trans h.held.2⟩
  | erasing r => exact ⟨s.trans h.held.1, hl.trans h.held.2.1, e ▸ h.held.2.2⟩

/-- What leaves the directory alone. -/
theorem dir {p q : Part} (h : p.OutOfUse b x) (d : q.device = p.device) (n : q.pins = p.pins) (y : q.dir = p.dir)
    (e : q.ctl.eraseQueue = p.ctl.eraseQueue) : q.OutOfUse b x := by
  have he : q.entry b = p.entry b := by simp [Part.entry, y]
  exact h.same d n (by rw [he]) (by rw [he]) (by rw [he]) e

theorem notify {p : Part} (h : p.OutOfUse b x) (n : Notice) : (p.notify n).OutOfUse b x := by
  obtain ⟨box, e, -⟩ := p.notify_eq n
  rw [e]
  exact h.dir rfl rfl rfl rfl

theorem updOther {p : Part} (h : p.OutOfUse b x) (b' : Block) (hb : b' ≠ b) (f : DirEntry → DirEntry) :
    (p.updEntry b' f).OutOfUse b x := by
  have e : (p.updEntry b' f).entry b = p.entry b := by simp [hb]
  exact h.same rfl rfl (by rw [e]) (by rw [e]) (by rw [e]) rfl

theorem foldl {α : Type} (f : Part → α → Part) (k : ∀ p a, p.OutOfUse b x → (f p a).OutOfUse b x) (l : List α) {p : Part}
    (h : p.OutOfUse b x) : (l.foldl f p).OutOfUse b x := by
  induction l generalizing p with
  | nil => exact h
  | cons a l ih => exact ih (k p a h)

/-! ### Journals -/

theorem updJournal {p : Part} (h : p.OutOfUse b x) (c : Channel) (f : Journal → Journal) : (p.updJournal c f).OutOfUse b x :=
  h.dir rfl rfl rfl rfl

theorem joinWait {p : Part} (h : p.OutOfUse b x) (c : Channel) : (p.joinWait c).OutOfUse b x := by
  unfold Part.joinWait; split
  · exact h
  · exact h.dir rfl rfl rfl rfl

theorem leaveWait {p : Part} (h : p.OutOfUse b x) (c : Channel) : (p.leaveWait c).OutOfUse b x := h.dir rfl rfl rfl rfl

theorem stall {p : Part} (h : p.OutOfUse b x) (c : Channel) (cause : StallCause) : (p.stall c cause).OutOfUse b x := by
  unfold Part.stall; split
  · exact h
  · exact ((h.updJournal c _).joinWait c).notify _

theorem unstall {p : Part} (h : p.OutOfUse b x) (c : Channel) (state : JournalState) : (p.unstall c state).OutOfUse b x := by
  unfold Part.unstall; split
  · exact (h.updJournal c _).notify _
  · exact h.updJournal c _

theorem joinClose {p : Part} (h : p.OutOfUse b x) (c : Channel) : (p.joinClose c).OutOfUse b x := by
  unfold Part.joinClose; split
  · exact h
  · split
    · exact h.dir rfl rfl rfl rfl
    · exact h

theorem addDue {p : Part} (h : p.OutOfUse b x) (c : Channel) (f : CloseDue → CloseDue) : (p.addDue c f).OutOfUse b x :=
  (h.updJournal c _).joinClose c

theorem enqueueErase {p : Part} (h : p.OutOfUse b x) (b' : Block) (r : EraseRequester) (hb : b' ≠ b) :
    (p.enqueueErase b' r).OutOfUse b x := by
  have k := h.updOther b' hb (fun e =>
    { e with state := .erasing, prior := some (if e.state = .torn then .torn else .closed) })
  unfold Part.enqueueErase
  refine ⟨k.ready, ?_⟩
  cases x with
  | retiredUnlocked => exact k.held
  | retired =>
    refine ⟨k.held.1, fun y hy => ?_⟩
    rcases List.mem_append.mp hy with hy | hy
    · exact k.held.2 y hy
    · simp only [List.mem_singleton] at hy
      subst hy
      exact hb
  | erasing r => exact ⟨k.held.1, k.held.2.1, List.mem_append_left _ k.held.2.2⟩

theorem retire {p : Part} (h : p.OutOfUse b x) (b' : Block) (cause : RetireCause) (hb : b' ≠ b) : (p.retire b' cause).OutOfUse b x := by
  unfold Part.retire
  refine Part.OutOfUse.notify ?_ _
  exact (h.updOther b' hb (DirEntry.emptied .retired)).dir rfl rfl rfl rfl

theorem holdBlock {p : Part} (h : p.OutOfUse b x) (b' : Block) : (p.holdBlock b').OutOfUse b x := by
  have e : ((p.holdBlock b').entry b).state = (p.entry b).state ∧ ((p.holdBlock b').entry b).lockBit = (p.entry b).lockBit
      ∧ ((p.holdBlock b').entry b).downFlag = (p.entry b).downFlag := by
    unfold Part.holdBlock
    rw [Part.entry_updEntry]
    split
    · subst_vars; exact ⟨rfl, rfl, rfl⟩
    · exact ⟨rfl, rfl, rfl⟩
  exact h.same rfl rfl e.1 e.2.1 e.2.2 rfl

theorem eventOpen {p : Part} (h : p.OutOfUse b x) (c : Channel) (b' : Block) : (p.eventOpen c b').OutOfUse b x := by
  unfold Part.eventOpen; split
  · exact h
  · have k : ∀ u, ({ p with events := u } : Part).OutOfUse b x := fun u => h.dir rfl rfl rfl rfl
    split
    · exact (k _).notify _
    · exact (k _).holdBlock b'

theorem openFor {p : Part} (h : p.OutOfUse b x) (c : Channel) (b' : Block) (hb : b' ≠ b) : (p.openFor c b').OutOfUse b x := by
  unfold Part.openFor
  extract_lets seq q1 j q2 q3 q4
  have h1 : q1.OutOfUse b x := h.updOther b' hb _
  have h2 : q2.OutOfUse b x := h1.dir rfl rfl rfl rfl
  exact (((h2.eventOpen c b').updJournal c _).leaveWait c).unstall c _

theorem waitOn {p : Part} (h : p.OutOfUse b x) (c : Channel) (b' : Block) (hb : b' ≠ b) : (p.waitOn c b').OutOfUse b x :=
  (((h.enqueueErase b' _ hb).updJournal c _).joinWait c).unstall c _

theorem reclaimChoice_closed {p : Part} {c : Channel} {b' : Block} (h : p.reclaimChoice c = some b') :
    (p.entry b').state = .closed := by
  unfold Part.reclaimChoice at h
  have k : ∀ l : List Block, lowestSeq (fun b => (p.entry b).seq.getD 0) l = some b' → b' ∈ l := by
    intro l
    induction l with
    | nil => intro h; cases h
    | cons a l ih =>
      intro h
      unfold lowestSeq at h
      split at h
      · cases h; exact List.mem_cons_self
      · rename_i y hy
        split at h
        · cases h; exact List.mem_cons_of_mem _ (ih hy)
        · cases h; exact List.mem_cons_self
  have m := k _ h
  simp only [List.mem_filter, Part.reclaimable, Bool.and_eq_true, decide_eq_true_eq] at m
  exact m.2.1.1.1.1

theorem reclaimStep (n : Nat) {p : Part} (h : p.OutOfUse b x) (c : Channel) : (Part.reclaimStep n p c).OutOfUse b x := by
  induction n generalizing p with
  | zero => exact h.stall c _
  | succ n ih =>
    unfold Part.reclaimStep; split
    · exact h.stall c _
    · rename_i b' hc
      have hb : b' ≠ b := fun e => h.notState.2.2 (e ▸ reclaimChoice_closed hc)
      split
      · exact ih (h.retire b' _ hb)
      · exact h.waitOn c b' hb

theorem tornOrReclaim {p : Part} (h : p.OutOfUse b x) (c : Channel) : (p.tornOrReclaim c).OutOfUse b x := by
  unfold Part.tornOrReclaim; split
  · rename_i b' hc
    refine h.waitOn c b' (fun e => h.notState.2.1 ?_)
    have := List.find?_some hc
    simp only [Bool.and_eq_true, decide_eq_true_eq] at this
    exact e ▸ this.1.1
  · exact h.reclaimStep _ c

theorem freeOr {p q : Part} (h : p.OutOfUse b x) (k : q.OutOfUse b x) (c : Channel) : (p.freeOr c q).OutOfUse b x := by
  unfold Part.freeOr; split
  · rename_i b' hc
    refine h.openFor c b' (fun e => h.notState.1 ?_)
    have := List.find?_some hc
    simp only [Bool.and_eq_true, decide_eq_true_eq] at this
    exact e ▸ this.1
  · exact k

theorem allocate {p : Part} (h : p.OutOfUse b x) (c : Channel) : (p.allocate c).OutOfUse b x := by
  unfold Part.allocate; split
  · exact h.stall c _
  · split
    · exact h.stall c _
    · exact h.freeOr (h.tornOrReclaim c) c

theorem dropReclaim {p : Part} (h : p.OutOfUse b x) (c : Channel) : (p.dropReclaim c).OutOfUse b x := h.updJournal c _

theorem seeReclaim {p : Part} (h : p.OutOfUse b x) (c : Channel) : (p.seeReclaim c).OutOfUse b x := by
  unfold Part.seeReclaim; split
  · exact h
  · exact h.dropReclaim c

theorem retrySeen {p : Part} (h : p.OutOfUse b x) (c : Channel) : (p.retrySeen c).OutOfUse b x := by
  unfold Part.retrySeen; split
  · split
    · exact h.stall c _
    · refine h.freeOr ?_ c
      split
      · exact h
      · exact h.tornOrReclaim c
  · exact h.allocate c
  · split
    · exact (h.leaveWait c).unstall c _
    · split
      · exact h.unstall c _
      · exact h.allocate c
  all_goals exact h

theorem retryOne {p : Part} (h : p.OutOfUse b x) (c : Channel) : (p.retryOne c).OutOfUse b x :=
  (h.seeReclaim c).retrySeen c

theorem retryTurn {p : Part} (h : p.OutOfUse b x) (c : Channel) : (p.retryTurn c).OutOfUse b x := by
  unfold Part.retryTurn; split
  · exact h.retryOne c
  · exact h

theorem retryPass {p : Part} (h : p.OutOfUse b x) : p.retryPass.OutOfUse b x := foldl _ (fun _ c k => k.retryTurn c) _ h

theorem stallForSupply {p : Part} (h : p.OutOfUse b x) (c : Channel) : (p.stallForSupply c).OutOfUse b x := by
  unfold Part.stallForSupply; split
  · exact h
  · exact h.stall c _

theorem setHold {p : Part} (h : p.OutOfUse b x) (c : Option Channel) : (p.setHold c).OutOfUse b x := by
  unfold Part.setHold
  refine foldl _ (fun q c k => ?_) _ ?_
  · split
    · exact k.stallForSupply c
    · exact k
  have k : ({ p with je := { p.je with hold := true } } : Part).OutOfUse b x := h.dir rfl rfl rfl rfl
  cases c with
  | none => exact k
  | some c => exact k.stallForSupply c

theorem updChan {p : Part} (h : p.OutOfUse b x) (c : Channel) (f : ChannelStatus → ChannelStatus) : (p.updChan c f).OutOfUse b x :=
  h.dir rfl rfl rfl rfl

theorem journalStop {p : Part} (h : p.OutOfUse b x) (c : Channel) (close : Bool) : (p.journalStop c close).OutOfUse b x := by
  unfold Part.journalStop
  extract_lets q q' j
  have hq : q.OutOfUse b x := by
    unfold q; split
    · exact h.addDue c _
    · exact h
  have hq' : q'.OutOfUse b x := hq.dropReclaim c
  split
  · exact (hq'.leaveWait c).unstall c _
  · exact hq'

theorem drain {p : Part} (h : p.OutOfUse b x) (c : Channel) : (p.drain c).OutOfUse b x := by
  unfold Part.drain; split
  · exact (h.updChan c _).journalStop c _
  · exact h

theorem dropHead {p : Part} (h : p.OutOfUse b x) : p.dropHead.OutOfUse b x := by
  unfold Part.dropHead; split
  · exact h
  · unfold Part.setEntries
    refine drain ?_ _
    exact h.dir rfl rfl rfl rfl

/-! ### The Journal Engine at work -/

theorem joinPrograms {p : Part} (h : p.OutOfUse b x) (req : ProgramReq) : (p.joinPrograms req).OutOfUse b x :=
  h.dir rfl rfl rfl (Kept.requestSuspension_eraseQueue _)

theorem presentRead {p : Part} (h : p.OutOfUse b x) (req : ReadReq) : (p.presentRead req).OutOfUse b x :=
  h.dir rfl rfl rfl (Kept.requestSuspension_eraseQueue _)

theorem presentJournal {p : Part} (h : p.OutOfUse b x) (what : Outstanding) (op : ProgramOp) :
    (p.presentJournal what op).1.OutOfUse b x ∧ ∀ r ∈ (p.presentJournal what op).2, r.noEnd = true := by
  have k : ({ p with je := { p.je with outstanding := some what } } : Part).OutOfUse b x := h.dir rfl rfl rfl rfl
  unfold Part.presentJournal; simp only; split
  · exact ⟨k, by simp [Report.noEnd]⟩
  · exact ⟨k.joinPrograms _, by simp⟩

theorem present {p : Part} (h : p.OutOfUse b x) : p.present.1.OutOfUse b x ∧ ∀ r ∈ p.present.2, r.noEnd = true := by
  have idle : p.OutOfUse b x ∧ ∀ r ∈ ([] : List Report), r.noEnd = true := ⟨h, by simp⟩
  unfold Part.present; split
  · exact idle
  · split
    · exact h.presentJournal _ _
    · split
      · exact idle
      · split
        · exact idle
        · unfold Part.presentRecord
          simp only
          split
          · exact h.presentJournal _ _
          · exact idle

theorem subjectAct {p q : Part} (h : p.OutOfUse b x) (a : p.subjectAct = some q) : q.OutOfUse b x := by
  unfold Part.subjectAct at a
  split at a
  · cases a
  · simp only at a
    split at a
    · cases a; exact h.allocate _
    · cases a
    · split at a
      · cases a; exact (h.updChan _ _).dropHead
      · cases a
    · split at a
      · unfold Part.subjectWriting at a
        simp only at a
        repeat' split at a
        all_goals first
          | cases a; done
          | (cases a; exact h.stall _ _)
          | (cases a; exact h.addDue _ _)
      · cases a

theorem subjectLoop (n : Nat) {p : Part} (h : p.OutOfUse b x) : (Part.subjectLoop n p).OutOfUse b x := by
  induction n generalizing p with
  | zero => exact h
  | succ n ih =>
    unfold Part.subjectLoop; split
    · exact h
    · rename_i q hq
      exact ih (h.subjectAct hq)

theorem joinCloses {p : Part} (h : p.OutOfUse b x) : p.joinCloses.OutOfUse b x := foldl _ (fun _ c k => k.joinClose c) _ h

theorem engine {p : Part} (h : p.OutOfUse b x) : p.engine.1.OutOfUse b x ∧ ∀ r ∈ p.engine.2, r.noEnd = true :=
  (subjectLoop _ h.joinCloses).present

/-! ### Store Controller -/

theorem sampled {p : Part} (h : p.OutOfUse b x) : p.sampled.OutOfUse b x := h.dir rfl rfl rfl rfl

theorem supplyFails {p : Part} (h : p.OutOfUse b x) (op : StoreOp) (t : Option Block) : (p.supplyFails op t).OutOfUse b x := by
  have k : (p.updFaults (fun f => { f with supply := true })).OutOfUse b x := h.dir rfl rfl rfl rfl
  unfold Part.supplyFails; simp only; split
  · exact k
  · exact k.notify _

theorem takeErase {p : Part} (h : p.OutOfUse b x) (y : EraseEntry) (hy : y ∈ p.ctl.eraseQueue) :
    (p.takeErase y).1.OutOfUse b x := by
  unfold Part.takeErase; split
  · exact h.sampled.supplyFails _ _
  · split
    · exact h.sampled.dir rfl rfl rfl rfl
    · rename_i blocked
      have locked : p.lockOf b = .unlocked → y.block ≠ b := by
        intro free e
        apply blocked
        subst e
        exact decide_eq_true free
      have hb : y.block ≠ b := by
        cases x with
        | retired => exact h.held.2 y hy
        | retiredUnlocked => exact locked h.held.2
        | erasing r => exact locked h.held.2.1
      have k : (p.sampled.lockedHit.leaveEraseQueue y.block).OutOfUse b x := by
        refine ⟨h.ready, ?_⟩
        cases x with
        | retiredUnlocked => exact h.held
        | retired => exact ⟨h.held.1, fun z hz => h.held.2 z ((List.mem_filter.mp hz).1)⟩
        | erasing r => exact ⟨h.held.1, h.held.2.1, List.mem_filter.mpr ⟨h.held.2.2, by simpa using Ne.symm hb⟩⟩
      have k' := k.updOther y.block hb DirEntry.returned
      unfold Part.refuseErase Part.opDone
      dsimp only
      split
      · exact k'.notify _
      · exact k'

theorem takeProgram {p : Part} (h : p.OutOfUse b x) (req : ProgramReq) :
    (p.takeProgram req).1.OutOfUse b x ∧ ∀ r ∈ (p.takeProgram req).2, r.noEnd = true := by
  unfold Part.takeProgram; split
  · exact ⟨h, by simp [Report.noEnd]⟩
  · split
    · exact ⟨h.sampled.supplyFails _ _, by simp [Report.noEnd]⟩
    · split
      · exact ⟨h.dir rfl rfl rfl rfl, by simp⟩
      · exact ⟨h.dir rfl rfl rfl rfl, by simp [Report.noEnd]⟩

theorem arbiterTake {p : Part} (h : p.OutOfUse b x) (r : Part × List Report) (hr : p.arbiterTake = some r) :
    r.1.OutOfUse b x ∧ ∀ y ∈ r.2, y.noEnd = true := by
  unfold Part.arbiterTake at hr
  split at hr
  · cases hr
  · split at hr
    · cases hr
      rename_i req rest hp
      have k : ({ p with ctl := { p.ctl with programs := rest } } : Part).OutOfUse b x := h.dir rfl rfl rfl rfl
      exact k.takeProgram req
    · split at hr
      · cases hr
        have k : ({ p with ctl := { p.ctl with readSlot := none } } : Part).OutOfUse b x := h.dir rfl rfl rfl rfl
        unfold Part.takeRead
        split
        · exact ⟨k, by simp [Report.noEnd]⟩
        · exact ⟨k.dir rfl rfl rfl rfl, by simp⟩
      · split at hr
        · cases hr
        · split at hr
          · cases hr
            unfold Part.takeResumption
            split
            · exact ⟨h.dir rfl rfl rfl rfl, by simp⟩
            · exact ⟨h.sampled.supplyFails _ _, by simp [Report.noEnd]⟩
          · rename_i y _ _ hq
            cases hr
            refine ⟨h.takeErase y (by rw [hq]; exact List.mem_cons_self), ?_⟩
            unfold Part.takeErase
            split
            · simp [Report.noEnd]
            · split <;> simp [Report.noEnd]
          · cases hr

theorem arbiterLoop (n : Nat) {p : Part} (h : p.OutOfUse b x) :
    (Part.arbiterLoop n p).1.OutOfUse b x ∧ ∀ y ∈ (Part.arbiterLoop n p).2, y.noEnd = true := by
  induction n generalizing p with
  | zero => exact ⟨h, by simp [Part.arbiterLoop]⟩
  | succ n ih =>
    unfold Part.arbiterLoop; split
    · exact ⟨h, by simp⟩
    · rename_i q reports hq
      have k := h.arbiterTake _ hq
      have l := ih k.1
      refine ⟨l.1, fun y hy => ?_⟩
      rcases List.mem_append.mp hy with hy | hy
      · exact k.2 y hy
      · exact l.2 y hy

theorem arbitrate {p : Part} (h : p.OutOfUse b x) : p.arbitrate.1.OutOfUse b x ∧ ∀ y ∈ p.arbitrate.2, y.noEnd = true :=
  arbiterLoop _ h

/-! ### The reactions together -/

theorem scannerTold {p : Part} (h : p.OutOfUse b x) (r : Report) : (p.scannerTold r).OutOfUse b x := by
  unfold Part.scannerTold
  split
  · rename_i d; rw [h.ready] at d; cases d
  · rename_i d; rw [h.ready] at d; cases d
  · exact h

theorem journalOutcome {p : Part} (h : p.OutOfUse b x) (op : ProgramOp) (o : ProgramOutcome) (ok : o ≠ .ok)
    (fail : o ≠ .programFail) : (p.journalOutcome op o).OutOfUse b x := by
  have k : p.reported.OutOfUse b x := h.dir rfl rfl rfl rfl
  unfold Part.journalOutcome
  split
  · unfold Part.recordOutcome
    split
    · exact k
    · split
      · exact absurd rfl ok
      · exact absurd rfl fail
      · exact k.setHold _
      · exact h
  · unfold Part.headerOutcome
    split
    · exact absurd rfl ok
    · exact absurd rfl fail
    · exact k.setHold _
    · exact absurd rfl ok
    · exact absurd rfl fail
    · exact k.setHold _
    · exact k.setHold _
    · exact k.dir rfl rfl rfl rfl
    · exact h

theorem unitOutcome {p : Part} (h : p.OutOfUse b x) (o : ProgramOutcome) : (p.unitOutcome o).OutOfUse b x := by
  unfold Part.unitOutcome; split
  · simp only
    split <;> exact h.dir rfl rfl rfl rfl
  · exact h

theorem handle {p : Part} (h : p.OutOfUse b x) (r : Report) (hr : r.noEnd = true) : (p.handle r).OutOfUse b x := by
  cases r with
  | program req outcome =>
    simp only [Part.handle]
    split
    · refine h.journalOutcome _ _ ?_ ?_ <;> (intro e; subst e; simp [Report.noEnd] at hr)
    · exact h.scannerTold _
    · exact h.unitOutcome _
  | read req lines =>
    simp only [Part.handle]
    split
    · exact h.scannerTold _
    · have k := Kept.gather_read p lines
      exact h.dir k.2.1 (congrArg Frozen.pins k.1) k.2.2.2.1 k.2.2.2.2.2.2
    · exact h
  | eraseSupply => exact h.setHold none
  | retryDue => exact h
  | retry c => exact h

/-- What an action leaves: the block out of use still, and reports that no program has ended. -/
def Acted (b : Block) (x : OutAs) (a : Part × List Report) : Prop := a.1.OutOfUse b x ∧ ∀ r ∈ a.2, r.noEnd = true

theorem arbitrated {a : Part × List Report} (h : Acted b x a) : Acted b x (Part.arbitrated a) := by
  have k := h.1.arbitrate
  refine ⟨k.1, fun r hr => ?_⟩
  rcases List.mem_append.mp hr with hr | hr
  · exact h.2 r hr
  · exact k.2 r hr

theorem takeWork {p : Part} (h : p.OutOfUse b x) : Acted b x p.takeWork := arbitrated h.joinCloses.present

theorem takeTurn {p : Part} (h : p.OutOfUse b x) (c : Channel) : Acted b x (p.takeTurn c) := (h.retryTurn c).takeWork

/-- A report or a turn that waits behind the reports already given. -/
theorem Acted.append {a : Part × List Report} (h : Acted b x a) (r : Report) (hr : r.noEnd = true) :
    Acted b x (a.1, a.2 ++ [r]) := by
  refine ⟨h.1, fun y hy => ?_⟩
  rcases List.mem_append.mp hy with hy | hy
  · exact h.2 y hy
  · rw [List.mem_singleton.mp hy]; exact hr

theorem nextTurn {a : Part × List Report} (h : Acted b x a) (c : Channel) : Acted b x (Part.nextTurn a c) := by
  unfold Part.nextTurn; split
  · exact h.1.takeTurn c
  · exact h.append _ rfl

/-- Actions taken one after the other. -/
theorem Acted.foldl {α : Type} (f : Part × List Report → α → Part × List Report) (l : List α)
    (k : ∀ a, ∀ y ∈ l, Acted b x a → Acted b x (f a y)) {a : Part × List Report} (h : Acted b x a) :
    Acted b x (l.foldl f a) := by
  induction l generalizing a with
  | nil => exact h
  | cons y l ih =>
    exact ih (fun a z hz => k a z (List.mem_cons_of_mem _ hz)) (k a y List.mem_cons_self h)

theorem none {p : Part} (h : p.OutOfUse b x) : Acted b x (p, []) := ⟨h, by simp⟩

theorem told {p : Part} (h : p.OutOfUse b x) (r : Report) (hr : r.noEnd = true) : Acted b x (p.told r) := by
  unfold Part.told; split
  · split
    · exact h.none
    · exact Acted.foldl _ _ (fun _ c _ k => nextTurn k c) h.takeWork
  · exact nextTurn h.takeWork _
  · exact (h.handle _ hr).none

theorem round {p : Part} (h : p.OutOfUse b x) (reports : List Report) (hr : ∀ r ∈ reports, r.noEnd = true) :
    Acted b x (p.round reports) := by
  have acted : Acted b x (reports.foldl Part.nextReport (p, [])) := by
    refine Acted.foldl _ _ (fun a r hm k => ?_) h.none
    unfold Part.nextReport; split
    · exact k.1.told r (hr r hm)
    · exact k.append r (hr r hm)
  unfold Part.round; simp only; split
  · exact arbitrated acted.1.engine
  · exact acted

/-- A block out of use stays so in the reactions of the units, where no program has ended. -/
theorem settle {p : Part} (h : p.OutOfUse b x) (reports : List Report) (hr : ∀ r ∈ reports, r.noEnd = true) :
    (p.settle reports).OutOfUse b x := by
  unfold Part.settle
  generalize settleRounds = n
  induction n generalizing p reports with
  | zero => exact h
  | succ n ih =>
    have k := h.round reports hr
    unfold Part.settleLoop; simp only; split
    · exact k.1
    · exact ih k.1 _ k.2

theorem settleAfter {p : Part} (h : p.OutOfUse b x) (report : Option Report) (hr : ∀ r ∈ report, r.noEnd = true) :
    (p.settleAfter report).OutOfUse b x := by
  have a := h.arbitrate
  refine a.1.settle _ (fun r h => ?_)
  rcases List.mem_append.mp h with h | h
  · exact hr r (by simpa using h)
  · exact a.2 r h

end Part.OutOfUse

/-! ### What takes a block out of use -/

/-- A retirement empties the block's entry, puts the retire mark at the backlog's tail and makes a notice. -/
theorem Part.retire_eq (p : Part) (b : Block) (cause : RetireCause) :
    ∃ box, p.retire b cause = { p.updEntry b (DirEntry.emptied .retired) with
      je := { p.je with backlog := p.je.backlog ++ [ProgramOp.retireMark b] }, notices := box } := by
  unfold Part.retire
  extract_lets q
  obtain ⟨box, e, -⟩ := ({ q with je := { q.je with backlog := q.je.backlog ++ [ProgramOp.retireMark b] } } : Part).notify_eq
    (.blockRetired b cause)
  exact ⟨box, e⟩

theorem Part.entry_updEntry_self (p : Part) (b : Block) (f : DirEntry → DirEntry) : (p.updEntry b f).entry b = f (p.entry b) := by
  simp

/-- The retirement of an unlocked block. -/
theorem Part.OutOfUse.ofRetire {p : Part} {b : Block} (ready : p.device = .ready) (free : p.lockOf b = .unlocked)
    (cause : RetireCause) : (p.retire b cause).OutOfUse b .retiredUnlocked := by
  obtain ⟨box, e⟩ := p.retire_eq b cause
  rw [e]
  have k := p.entry_updEntry_self b (DirEntry.emptied .retired)
  refine ⟨ready, congrArg DirEntry.state k, ?_⟩
  rw [← free]
  have l := congrArg (fun x : DirEntry => x.lockState p.pins.protN) k
  exact l

/-- The retirement of a block that no erase queue holds. -/
theorem Part.OutOfUse.ofRetireDequeued {p : Part} {b : Block} (ready : p.device = .ready)
    (gone : ∀ y ∈ p.ctl.eraseQueue, y.block ≠ b) (cause : RetireCause) : (p.retire b cause).OutOfUse b .retired := by
  obtain ⟨box, e⟩ := p.retire_eq b cause
  rw [e]
  exact ⟨ready, congrArg DirEntry.state (p.entry_updEntry_self b (DirEntry.emptied .retired)), gone⟩

/-- An unlocked block enqueued for erase. -/
theorem Part.OutOfUse.ofEnqueue {p : Part} {b : Block} (ready : p.device = .ready) (free : p.lockOf b = .unlocked)
    (r : EraseRequester) : (p.enqueueErase b r).OutOfUse b (.erasing r) := by
  have k := p.entry_updEntry_self b
    (fun e => { e with state := .erasing, prior := some (if e.state = .torn then .torn else .closed) })
  refine ⟨ready, congrArg DirEntry.state k, ?_, List.mem_append_right _ List.mem_cons_self⟩
  rw [← free]
  have l := congrArg (fun x : DirEntry => x.lockState p.pins.protN) k
  exact l

end Sys2Proof.Machine
end

