-- ==== Sys2Proof/Laws/PerInstr.lean ====
section
/-! SUPPORT. One lemma per command: a well-formed request is what the Request Server reads from its kind code, tag and body
(R186, R206). -/

namespace Sys2Proof.Laws.RequestBody

/-- A well-formed request with this kind code is decoded from that code and some tag and body that fits a frame. -/
def Statement (i : Instr) : Prop :=
  i.wellFormed = true → ∀ kind, requestCode i = some kind →
    ∃ tag body, body.length ≤ Config.maxBody ∧ decodeRequest kind tag body = i

theorem powerOnReset (rate1 rate0 : Bool) : Statement (.powerOnReset rate1 rate0) := by
  intro _ k hk
  cases hk

theorem powerFall  : Statement .powerFall := by
  intro _ k hk
  cases hk

theorem resetNAssert (lowNanos : Nat) : Statement (.resetNAssert lowNanos) := by
  intro _ k hk
  cases hk

theorem resetNRelease (rate1 rate0 : Bool) : Statement (.resetNRelease rate1 rate0) := by
  intro _ k hk
  cases hk

theorem protNChange (asserted : Bool) : Statement (.protNChange asserted) := by
  intro _ k hk
  cases hk

theorem cpermNChange (asserted : Bool) : Statement (.cpermNChange asserted) := by
  intro _ k hk
  cases hk

theorem controlFrameReceive (chars : List RxChar) : Statement (.controlFrameReceive chars) := by
  intro _ k hk
  cases hk

theorem interByteGapExpiry  : Statement .interByteGapExpiry := by
  intro _ k hk
  cases hk

theorem messageBegin  : Statement .messageBegin := by
  intro _ k hk
  cases hk

theorem messageEnd  : Statement .messageEnd := by
  intro _ k hk
  cases hk

theorem unknownKind (kind tag : Byte) (body : List Byte) : Statement (.unknownKind kind tag body) := by
  intro h k hk
  simp only [Instr.wellFormed, bodyWellFormed, Bool.and_eq_true, decide_eq_true_eq] at h
  cases hk
  exact ⟨tag, body, h.1, h.2⟩

theorem identify (tag : Byte) (body : List Byte) : Statement (.identify tag body) := by
  intro h k hk
  cases hk
  exact ⟨tag, body, of_decide_eq_true h, rfl⟩

theorem getStatus (tag : Byte) (body : List Byte) : Statement (.getStatus tag body) := by
  intro h k hk
  cases hk
  exact ⟨tag, body, of_decide_eq_true h, rfl⟩

theorem restart (tag : Byte) (body : List Byte) : Statement (.restart tag body) := by
  intro h k hk
  cases hk
  exact ⟨tag, body, of_decide_eq_true h, rfl⟩

theorem setNotices (tag : Byte) (body : List Byte) : Statement (.setNotices tag body) := by
  intro h k hk
  cases hk
  exact ⟨tag, body, of_decide_eq_true h, rfl⟩

theorem clearFaults (tag : Byte) (body : List Byte) : Statement (.clearFaults tag body) := by
  intro h k hk
  cases hk
  exact ⟨tag, body, of_decide_eq_true h, rfl⟩

theorem eraseBlock (tag : Byte) (body : List Byte) : Statement (.eraseBlock tag body) := by
  intro h k hk
  cases hk
  exact ⟨tag, body, of_decide_eq_true h, rfl⟩

theorem unitRead (tag : Byte) (body : List Byte) : Statement (.unitRead tag body) := by
  intro h k hk
  cases hk
  exact ⟨tag, body, of_decide_eq_true h, rfl⟩

theorem unitWrite (tag : Byte) (body : List Byte) : Statement (.unitWrite tag body) := by
  intro h k hk
  cases hk
  exact ⟨tag, body, of_decide_eq_true h, rfl⟩

theorem unitLock (tag : Byte) (body : List Byte) : Statement (.unitLock tag body) := by
  intro h k hk
  cases hk
  exact ⟨tag, body, of_decide_eq_true h, rfl⟩

theorem lockBlocks (tag : Byte) (body : List Byte) : Statement (.lockBlocks tag body) := by
  intro h k hk
  cases hk
  exact ⟨tag, body, of_decide_eq_true h, rfl⟩

theorem unlockBlocks (tag : Byte) (body : List Byte) : Statement (.unlockBlocks tag body) := by
  intro h k hk
  cases hk
  exact ⟨tag, body, of_decide_eq_true h, rfl⟩

theorem downBlocks (tag : Byte) (body : List Byte) : Statement (.downBlocks tag body) := by
  intro h k hk
  cases hk
  exact ⟨tag, body, of_decide_eq_true h, rfl⟩

theorem mapWriteControl (tag : Byte) (body : List Byte) : Statement (.mapWriteControl tag body) := by
  intro h k hk
  cases hk
  exact ⟨tag, body, of_decide_eq_true h, rfl⟩

theorem mapWriteFixed (tag : Byte) (body : List Byte) : Statement (.mapWriteFixed tag body) := by
  intro h k hk
  cases hk
  exact ⟨tag, body, of_decide_eq_true h, rfl⟩

theorem mapWriteVariable (tag : Byte) (body : List Byte) : Statement (.mapWriteVariable tag body) := by
  intro h k hk
  cases hk
  exact ⟨tag, body, of_decide_eq_true h, rfl⟩

theorem mapWriteDefault (tag : Byte) (body : List Byte) : Statement (.mapWriteDefault tag body) := by
  intro h k hk
  cases hk
  exact ⟨tag, body, of_decide_eq_true h, rfl⟩

theorem mapRead (tag : Byte) (body : List Byte) : Statement (.mapRead tag body) := by
  intro h k hk
  cases hk
  exact ⟨tag, body, of_decide_eq_true h, rfl⟩

theorem mapQuery (tag : Byte) (body : List Byte) : Statement (.mapQuery tag body) := by
  intro h k hk
  cases hk
  exact ⟨tag, body, of_decide_eq_true h, rfl⟩

theorem mapApply (tag : Byte) (body : List Byte) : Statement (.mapApply tag body) := by
  intro h k hk
  cases hk
  exact ⟨tag, body, of_decide_eq_true h, rfl⟩

theorem trigger (tag : Byte) (body : List Byte) : Statement (.trigger tag body) := by
  intro h k hk
  cases hk
  exact ⟨tag, body, of_decide_eq_true h, rfl⟩

theorem releaseEvent (tag : Byte) (body : List Byte) : Statement (.releaseEvent tag body) := by
  intro h k hk
  cases hk
  exact ⟨tag, body, of_decide_eq_true h, rfl⟩

theorem listEvents (tag : Byte) (body : List Byte) : Statement (.listEvents tag body) := by
  intro h k hk
  cases hk
  exact ⟨tag, body, of_decide_eq_true h, rfl⟩

theorem getEvent (tag : Byte) (body : List Byte) : Statement (.getEvent tag body) := by
  intro h k hk
  cases hk
  exact ⟨tag, body, of_decide_eq_true h, rfl⟩

theorem setQueue (tag : Byte) (body : List Byte) : Statement (.setQueue tag body) := by
  intro h k hk
  cases hk
  exact ⟨tag, body, of_decide_eq_true h, rfl⟩

theorem flushChannel (tag : Byte) (body : List Byte) : Statement (.flushChannel tag body) := by
  intro h k hk
  cases hk
  exact ⟨tag, body, of_decide_eq_true h, rfl⟩

theorem setChannel (tag : Byte) (body : List Byte) : Statement (.setChannel tag body) := by
  intro h k hk
  cases hk
  exact ⟨tag, body, of_decide_eq_true h, rfl⟩

theorem getChannel (tag : Byte) (body : List Byte) : Statement (.getChannel tag body) := by
  intro h k hk
  cases hk
  exact ⟨tag, body, of_decide_eq_true h, rfl⟩

theorem startChannel (tag : Byte) (body : List Byte) : Statement (.startChannel tag body) := by
  intro h k hk
  cases hk
  exact ⟨tag, body, of_decide_eq_true h, rfl⟩

theorem stopChannel (tag : Byte) (body : List Byte) : Statement (.stopChannel tag body) := by
  intro h k hk
  cases hk
  exact ⟨tag, body, of_decide_eq_true h, rfl⟩

theorem readRecords (tag : Byte) (body : List Byte) : Statement (.readRecords tag body) := by
  intro h k hk
  cases hk
  exact ⟨tag, body, of_decide_eq_true h, rfl⟩

theorem listJournal (tag : Byte) (body : List Byte) : Statement (.listJournal tag body) := by
  intro h k hk
  cases hk
  exact ⟨tag, body, of_decide_eq_true h, rfl⟩

theorem getBlock (tag : Byte) (body : List Byte) : Statement (.getBlock tag body) := by
  intro h k hk
  cases hk
  exact ⟨tag, body, of_decide_eq_true h, rfl⟩

theorem fsPacket (channel : Channel) (number : Word16) : Statement (.fsPacket channel number) := by
  intro _ k hk
  cases hk

theorem dataPacket (channel : Channel) (count : Word16) (tail : List Nibble) : Statement (.dataPacket channel count tail) := by
  intro _ k hk
  cases hk

theorem fePacket (channel : Channel) (number : Word16) : Statement (.fePacket channel number) := by
  intro _ k hk
  cases hk

theorem abortPacket (channel : Channel) (value : Word16) : Statement (.abortPacket channel value) := by
  intro _ k hk
  cases hk

theorem markPacket (channel : Channel) (code : Byte) : Statement (.markPacket channel code) := by
  intro _ k hk
  cases hk

theorem malformedPacket (nibbles : List Nibble) : Statement (.malformedPacket nibbles) := by
  intro _ k hk
  cases hk

theorem frameTimeoutExpiry (channel : Channel) : Statement (.frameTimeoutExpiry channel) := by
  intro _ k hk
  cases hk

theorem programComplete (outcome : ProgramEnd) : Statement (.programComplete outcome) := by
  intro _ k hk
  cases hk

theorem readComplete  : Statement .readComplete := by
  intro _ k hk
  cases hk

theorem erasePulseEnd (verified : Bool) : Statement (.erasePulseEnd verified) := by
  intro _ k hk
  cases hk

theorem eraseSliceTimerExpiry  : Statement .eraseSliceTimerExpiry := by
  intro _ k hk
  cases hk

theorem suspensionTakesEffect (ranMicros : Nat) : Statement (.suspensionTakesEffect ranMicros) := by
  intro _ k hk
  cases hk

theorem unitAreaImageLoadEnd  : Statement .unitAreaImageLoadEnd := by
  intro _ k hk
  cases hk

end Sys2Proof.Laws.RequestBody
end

