-- ==== Sys2Proof/Laws/Requests.lean ====
section
/-! SUPPORT. The taking of a request: what a part looks like as a request leaves the buffer, and what a request command
answers, short of its owner's rule. -/

namespace Sys2Proof.Machine

/-- Taking a request changes nothing but the buffer. -/
theorem requested_part {s : State} {kind tag : Byte} {body : List Byte} {p : Part} (h : Requested s kind tag body p) :
    ∃ buffer, p = { s.part with ctrl := { s.part.ctrl with buffer } } := by
  have taken := h.2
  unfold Part.takeFromBuffer at taken
  split at taken
  · simp only [Option.some.injEq] at taken
    exact ⟨s.part.ctrl.buffer, taken.symm⟩
  · split at taken
    · simp only [Option.some.injEq] at taken
      exact ⟨_, taken.symm⟩
    · exact absurd taken (by simp)

theorem requested_device {s : State} {kind tag : Byte} {body : List Byte} {p : Part} (h : Requested s kind tag body p) :
    p.device = s.part.device := by
  obtain ⟨_, rfl⟩ := requested_part h
  rfl

/-- The Request Server is free when it takes a request, and the reply slot is empty. -/
theorem requested_free {s : State} {kind tag : Byte} {body : List Byte} {p : Part} (h : Requested s kind tag body p) :
    p.ctrl.serving = none ∧ p.ctrl.reply = none := by
  have free := h.1
  obtain ⟨_, rfl⟩ := requested_part h
  simp only [Part.canTake, Bool.and_eq_true, Option.isNone_iff_eq_none] at free
  exact ⟨free.1.1.2, free.1.2⟩

/-- A request that is taken is answered by the cases of R186. -/
theorem serve_answer {s : State} {kind tag : Byte} {body : List Byte} {p : Part} (h : Requested s kind tag body p)
    (work : Part → Part) : serve kind tag body work s = .next (s.withPart (p.answer kind tag body work)) := by
  unfold serve
  rw [if_pos h.1, h.2]

/-- Order 5 of R186: the owner's work is done. -/
theorem serve_work {s : State} {kind tag : Byte} {body : List Byte} {p : Part} (h : Requested s kind tag body p)
    (work : Part → Part) (length : bodyLength kind = some body.length) (ready : s.part.device = .ready)
    (allowed : encodingAllowed kind body = true) :
    serve kind tag body work s = .next (s.withPart (work p)) := by
  have notScanning : p.device ≠ .scanning := by rw [requested_device h, ready]; decide
  rw [serve_answer h]
  unfold Part.answer
  simp [length, notScanning, allowed]

/-- Order 4 of R186: a value its encoding does not allow. -/
theorem serve_badValue {s : State} {kind tag : Byte} {body : List Byte} {p : Part} (h : Requested s kind tag body p)
    (work : Part → Part) (length : bodyLength kind = some body.length) (ready : s.part.device = .ready)
    (refused : encodingAllowed kind body = false) :
    serve kind tag body work s = .next (s.withPart (p.placeReply tag kind .badValue [])) := by
  have notScanning : p.device ≠ .scanning := by rw [requested_device h, ready]; decide
  rw [serve_answer h]
  unfold Part.answer
  simp [length, notScanning, refused]

/-- A request that cannot be taken has no effect. -/
theorem serve_busy {s : State} {kind tag : Byte} {body : List Byte} (work : Part → Part)
    (busy : s.part.canTake = false) : serve kind tag body work s = .next s := by
  unfold serve
  simp [busy]

end Sys2Proof.Machine
end

