-- ==== Sys2Proof/Tests/Slice0.lean ====
section
/-! SUPPORT. Tests: what the well-formedness check refuses, packets written out by hand, a state for the hypotheses of
each statement and each of its clauses at the boundary of its range, and one step of the commands that need more. -/

namespace Sys2Proof.Tests

open Machine

set_option Elab.async false

/-! ### Small states -/

/-- A part with nothing waiting. -/
def on (p : Part) : State := { part := p, pending := [] }

/-- The part READY after the scan of an erased store, its blocks unlocked. -/
def idle : Part :=
  { State.reset.part with
    device := .ready
    scan := { classified := 128, phase := .done }
    image := { area := .unwritten, loaded := true }
    dir := Vector.replicate 128 { DirEntry.reset with state := .blank }
    freeList := allBlocks
    queue := { CaptureQueue.reset with hold := false } }

/-- The entry of a CLOSED block of channel 0 that holds record 0. -/
def closedEntry : DirEntry :=
  { DirEntry.reset with state := .closed, channel := some 0, seq := some 0, fill := 1, first := some 0, last := some 0 }

/-- The part with this entry for block 0. -/
def holding (e : DirEntry) : Part := { idle.updEntry 0 (fun _ => e) with freeList := allBlocks.drop 1 }

/-- Channel 0 WRITING in the OPEN block 0, whose entry is changed so; its next record number is 4. -/
def writing (f : DirEntry → DirEntry) : Part :=
  (holding (f { closedEntry with state := .opened, fill := 0, first := none, last := none })).updJournal 0 (fun j =>
    { j with state := .writing, openBlock := some 0, nextRec := 4 })

/-- The part with channel 0 RUNNING under these settings. -/
def running (r : Settings) : Part :=
  { idle.updChan 0 (fun k => { k with state := .running }) with settings := idle.settings.set 0 r }

/-- The part with this slot for channel 0, RUNNING. -/
def assembling (slot : Slot) : Part := (running .reset).setSlot 0 slot

/-- A frame just opened. -/
def frame : Frame := { number := 7#16, samples := [], tags := .none, clipped := 0, gap := 0, timer := some 5 }

/-- The part with this in its control link. -/
def linked (f : ControlLink → ControlLink) : Part := { idle with ctrl := f idle.ctrl }

/-- The part with this in its Store Controller. -/
def storing (f : Controller → Controller) : Part := { idle with ctl := f idle.ctl }

/-- The queue of a part filled with this many ABORT entries. -/
def queued (n : Nat) : Part :=
  { running .reset with queue :=
      { idle.queue with entries := List.replicate n { channel := 1, content := .abort } } }

/-- The part with a read of these lines in the array. -/
def reading (block : Block) (line count : Nat) (inBlock : line + count ≤ Config.linesPerBlock := by decide) : Part :=
  storing (fun k => { k with array := some (.read { source := .requestServer, block, line, count, inBlock }) })

/-- The part with this program in the array. -/
def programming (source : Source) (op : ProgramOp) : Part :=
  storing (fun k => { k with array := some (.program { source, op }) })

/-- The status and contents of the reply a command leaves. -/
def answer (i : Instr) (p : Part) : Option (Status × List Byte) :=
  match exec i (on p) with
  | .next t => t.part.ctrl.reply.map (fun r => (r.status, r.contents))
  | _ => none

/-- A test of the part a command leaves. -/
def after (i : Instr) (p : Part) (f : Part → Bool) : Bool :=
  match exec i (on p) with
  | .next t => f t.part
  | _ => false

/-- The Request Server of a part that is free takes any request. -/
theorem requested_of {p : Part} (kind tag : Byte) (body : List Byte) (free : p.canTake = true)
    (empty : p.ctrl.buffer = []) : Requested (on p) kind tag body p :=
  ⟨free, by simp [on, Part.takeFromBuffer, empty]⟩

/-- Any request is taken at the idle part: the hypothesis every request statement has. -/
theorem witness_requested (kind tag : Byte) (body : List Byte) :
    Requested (on idle) kind tag body idle ∧ (on idle).part.device = .ready :=
  ⟨requested_of kind tag body rfl rfl, rfl⟩

theorem witness_journalsQuiet : idle.JournalsQuiet := ⟨rfl, rfl, rfl, by decide⟩

theorem witness_storeQuiet : idle.StoreQuiet := ⟨rfl, rfl, rfl, rfl, rfl, rfl⟩

theorem witness_supplied : idle.Supplied := ⟨rfl, rfl, rfl, by decide +kernel⟩

/-- The part where channel 0 commits its first entry, an ABORT, and holds these others. -/
def committing (others : List Entry) : Part :=
  let p := writing id
  { p with
    je := { p.je with outstanding := some .record }
    queue := { p.queue with entries := { channel := 0, content := .abort } :: others }
    ctl := { p.ctl with
      array := some (.program { source := .journalEngine, op := .record 0 1 (List.replicate 32 0#8) }) } }

theorem witness_commitInFlight (others : List Entry) : (committing others).CommitInFlight :=
  ⟨rfl, rfl, by
    show ∀ c, ((committing []).journal c).due.any = false
    decide, ⟨_, rfl, rfl⟩, rfl⟩

/-- A request at the head of the buffer is taken from it; another one is not. -/
theorem test_taking_from_the_buffer :
    let head : Request := { kind := 0x02#8, tag := 3#8, body := [] }
    let p := linked (fun k => { k with buffer := [head, head] })
    p.takeFromBuffer head = some (linked (fun k => { k with buffer := [head] }))
      ∧ p.takeFromBuffer { head with tag := 4#8 } = none := by decide +kernel

/-! ### The well-formedness check -/

theorem test_wellFormed_accepts :
    [Instr.identify 0#8 [], .unknownKind 0#8 0#8 [], .dataPacket 0 1#16 [], .dataPacket 0 256#16 [], .malformedPacket []
      , .programComplete (.fail 32), .suspensionTakesEffect 25000].all Instr.wellFormed = true := by decide +kernel

theorem test_wellFormed_refuses_a_long_body : (Instr.getBlock 0#8 (List.replicate 1089 0#8)).wellFormed = false := by
  decide +kernel

theorem test_wellFormed_refuses_a_long_unknown_body :
    (Instr.unknownKind 0#8 0#8 (List.replicate 1089 0#8)).wellFormed = false := by decide +kernel

theorem test_wellFormed_refuses_a_known_kind : (Instr.unknownKind 0x01#8 0#8 []).wellFormed = false := by decide +kernel

theorem test_wellFormed_refuses_sample_counts :
    (Instr.dataPacket 0 0#16 []).wellFormed = false ∧ (Instr.dataPacket 0 257#16 []).wellFormed = false := by decide +kernel

theorem test_wellFormed_refuses_a_sound_packet :
    (Instr.malformedPacket (encodePacket (.fsPacket 0 0#16))).wellFormed = false := by decide +kernel

theorem test_wellFormed_refuses_a_failing_line : (Instr.programComplete (.fail 33)).wellFormed = false := by decide +kernel

theorem test_wellFormed_refuses_a_running_time : (Instr.suspensionTakesEffect 25001).wellFormed = false := by decide +kernel

/-! ### Checks and packets written out from chapter 12 -/

/-- The check values of the two polynomials for the digits 1 to 9. -/
theorem test_check_values :
    let digits := [0x31#8, 0x32#8, 0x33#8, 0x34#8, 0x35#8, 0x36#8, 0x37#8, 0x38#8, 0x39#8]
    crc16 digits = 0x29B1#16 ∧ crc8 digits = 0xF4#8 := by decide +kernel

/-- An FS packet of channel 2 with frame number 0x1234, its nibbles high first; and with one bit of the check changed. -/
theorem test_fs_packet_by_hand :
    let c := crc8 [0xC1#8, 0x02#8, 0x34#8, 0x12#8]
    let front := [0xC#4, 0x1#4, 0x0#4, 0x2#4, 0x3#4, 0x4#4, 0x1#4, 0x2#4]
    decodePacket (front ++ [c.extractLsb' 4 4, c.extractLsb' 0 4]) = .fsPacket 2 0x1234#16
      ∧ decodePacket (front ++ [c.extractLsb' 4 4, c.extractLsb' 0 4 ^^^ 1#4])
        = .malformedPacket (front ++ [c.extractLsb' 4 4, c.extractLsb' 0 4 ^^^ 1#4]) := by decide +kernel

def isMalformed : Instr → Bool
  | .malformedPacket _ => true
  | _ => false

/-- A packet that names channel 4, a MARK above 255, and an FS with a byte too many are malformed. -/
theorem test_malformed_packets :
    isMalformed (decodePacket (nibblesOfBytes ([0xC1#8, 4#8, 0#8, 0#8] ++ [crc8 [0xC1#8, 4#8, 0#8, 0#8]])))
      ∧ isMalformed (decodePacket (nibblesOfBytes (packetHeader 0xC4#8 0 256#16)))
      ∧ isMalformed (decodePacket (nibblesOfBytes (packetHeader 0xC1#8 0 0#16 ++ [0#8]))) := by decide +kernel

/-- The frame of a GET_STATUS request of tag 5, byte by byte before its check. -/
theorem test_request_frame_by_hand :
    (frameBytes 0x02#8 5#8 []).take 5 = [0x9C#8, 2#8, 0#8, 0x02#8, 5#8] ∧ (frameBytes 0x02#8 5#8 []).length = 7 := by
  decide +kernel

/-! ### The queue of commands -/

theorem test_step_takes_the_front :
    (match step { on idle with pending := [.cpermNChange true, .powerFall] } with
      | .next t => t.part.pins.cpermN && decide (t.pending = [.powerFall])
      | _ => false) = true := by decide +kernel

theorem test_step_idles : step (on idle) = .next (on idle) := rfl

theorem witness_CommandsKeepQueue : ∃ t, exec (.cpermNChange true) (on idle) = .next t := ⟨_, rfl⟩

/-- The array operations that end at line 1,023 complete. -/
theorem test_array_operations_complete :
    after .readComplete (reading 127 1023 1) (fun q => q.ctl.array.isNone)
      ∧ after (.programComplete .ok) (programming .journalEngine (.record 0 1023 (List.replicate 32 0#8)))
        (fun q => q.ctl.array.isNone) := by decide +kernel

/-! ### Resets, power and pins -/

/-- The record field of no record number reads all ones, and a reset part has no setting but the default. -/
theorem test_reset_settings :
    idle.resetUnits.settings = Vector.replicate 4 .reset ∧ Settings.reset.wrap = 65536 ∧ Settings.reset.postWindow = 64 := by
  decide +kernel

theorem witness_ResetEventsBeginStartUp :
    State.reset.part.ctl.array = none ∧ State.reset.part.ctl.begunErase = none
      ∧ State.reset.part.power.resetNLow = false ∧ State.reset.part.power.powered = true
      ∧ (after (.resetNAssert 10000) idle (fun q => q.power.resetNLow && decide (q.device = .scanning)))
      ∧ (after (.resetNAssert 9999) idle (fun q => decide (q.device = .ready)))
      ∧ after (.resetNRelease true false)
          { State.reset.part with power := { State.reset.part.power with resetNLow := true } }
          (fun q => q.live && q.power.bitRate == 1000000 && !q.awaitsSelection) := by decide +kernel

/-- The part whose coming resets end with SLSEL_N at these levels. -/
def selectedAt (levels : List Bool) : Part := { idle with pins := { idle.pins with selections := levels } }

/-- A reset that ends while SLSEL_N is low, and one that ends while it is high (R154). -/
theorem test_resets_look_at_the_selection :
    let restart : Reply := { tag := 1#8, kind := 0x03#8, status := .ok, contents := [] }
    let ending := fun levels => linked (fun k => { k with sending := some (.reply restart) })
      |> fun p : Part => { p with pins := (selectedAt levels).pins }
    after (.powerOnReset false false) (selectedAt [true, false]) (fun q => q.awaitsSelection && q.pins.selections == [false])
      ∧ after .powerFall (selectedAt [true]) (fun q => !q.awaitsSelection && q.pins.selections == [true])
      ∧ after .messageEnd (ending [true]) (·.awaitsSelection)
      ∧ after .messageEnd (ending [false, true]) (fun q => !q.awaitsSelection && q.pins.selections == [true])
      ∧ after .messageEnd (ending []) (fun q => !q.awaitsSelection) := by decide +kernel

theorem witness_ResetAbortsStoreWork :
    (∃ a bytes, ProgramOp.target (.retireMark 5) = some (a, bytes) ∧ a + bytes.length ≤ 4194304)
      ∧ (programming .journalEngine (.retireMark 5)).ctl.begunErase = none
      ∧ (storing (fun k => { k with suspended := some { block := 127, pulses := 1, remaining := 7 } })).ctl.begunErase
        = some 127 := ⟨⟨_, _, rfl, by decide⟩, rfl, rfl⟩

theorem witness_ImageLoadEndBeginsScan :
    State.reset.part.live = true ∧ State.reset.part.scan.phase = .imageLoad ∧ State.reset.part.ctrl.serving = none
      ∧ State.reset.part.JournalsQuiet ∧ State.reset.part.StoreQuiet
      ∧ (State.reset.part.entry State.reset.part.scanBlock).state ≠ .erasing
      ∧ ({ State.reset.part with ctrl :=
          { State.reset.part.ctrl with serving := some (.identifyHeld 9#8) } } : Part).scan.phase = .imageLoad :=
  ⟨rfl, rfl, rfl, ⟨rfl, rfl, rfl, by decide⟩, ⟨rfl, rfl, rfl, rfl, rfl, rfl⟩, by decide +kernel, rfl⟩

theorem witness_ProtectionPinFollowed :
    let down := ({ holding { closedEntry with downFlag := true, lockBit := true } with pins := { idle.pins with protN := true } } : Part)
    idle.pins.protN = false ∧ idle.live = true ∧ idle.device = .ready ∧ (idle.entry 127).pending = .clear
      ∧ down.lockOf 0 = .down ∧ (holding { closedEntry with downFlag := true, lockBit := true }).lockOf 0 = .locked
      ∧ idle.lockOf 0 = .unlocked := by decide +kernel

theorem witness_MessageBeginTakesReplyFirst :
    let reply : Reply := { tag := 1#8, kind := 0x16#8, status := .ok, contents := [0#8] }
    let ready := { linked (fun k => { k with reply := some reply }) with pins := { idle.pins with cpermN := true } }
    let notified : Part := { idle with
      pins := { idle.pins with cpermN := true }, notices := { idle.notices with queue := [.stalled 0 .noSpace] } }
    after .messageBegin ready (fun q => decide (q.ctrl.sending = some (.reply reply)))
      ∧ after .messageBegin notified (fun q => decide (q.ctrl.sending = some (.notice (.stalled 0 .noSpace))))
      ∧ idle.ctrl.reply = none ∧ idle.notices.queue = [] ∧ idle.pins.cpermN = false
      ∧ (linked (fun k => { k with sending := some (.reply reply) })).ctrl.sending ≠ none := by decide +kernel

/-! ### The control link -/

theorem witness_SoundFrameStoredOrCounted :
    let head : Request := { kind := 0x02#8, tag := 3#8, body := [] }
    let chars := (frameBytes 0x06#8 1#8 [5#8]).map (fun b => { byte := b, stopHigh := true : RxChar })
    idle.live = true ∧ idle.ctrl.framer = .hunting ∧ (List.replicate 1088 0#8 : List Byte).length ≤ 1088
      ∧ after (.controlFrameReceive chars) (linked (fun k => { k with buffer := [head] }))
        (fun q => decide (q.ctrl.buffer = [head, { kind := 0x06#8, tag := 1#8, body := [5#8] }]) && !q.crdyAsserted)
      ∧ after (.controlFrameReceive chars) (linked (fun k => { k with buffer := [head, head] }))
        (fun q => decide (q.ctrl.buffer = [head, head]) && q.ctrl.discarded == 1) := by decide +kernel

theorem witness_BrokenFrameDiscarded :
    idle.live = true ∧ (linked (fun k => { k with framer := .receiving [1#8] })).ctrl.framer = .receiving [1#8]
      ∧ (1#8).toNat + 256 * (0#8).toNat < 2 ∧ 1090 < (0x43#8).toNat + 256 * (4#8).toNat
      ∧ after (.controlFrameReceive [{ byte := 4#8, stopHigh := true }])
        (linked (fun k => { k with framer := .receiving [0x43#8] })) (fun q => q.ctrl.discarded == 1)
      ∧ after (.controlFrameReceive [{ byte := 4#8, stopHigh := true }])
        (linked (fun k => { k with framer := .receiving [0x42#8] })) (fun q => q.ctrl.discarded == 0)
      ∧ idle.ctrl.framer = .hunting ∧ (0x9D#8 : Byte) ≠ 0x9C#8 := by decide +kernel

/-- A frame of length 2 and its check, of which one byte is to come. -/
theorem witness_BrokenFrameDiscarded_check :
    let checked := [2#8, 0#8, 0x02#8, 5#8]
    let last := fun low high : Byte =>
      after (.controlFrameReceive [{ byte := high, stopHigh := true }])
        (linked (fun k => { k with framer := .receiving (checked ++ [low]) }))
    2 ≤ frameLength checked ∧ checked.length = 2 + frameLength checked
      ∧ [(checkBytes checked)[0]!, (checkBytes checked)[1]! ^^^ 1#8] ≠ checkBytes checked
      ∧ last (checkBytes checked)[0]! ((checkBytes checked)[1]! ^^^ 1#8) (fun q =>
        q.ctrl.discarded == 1 && q.ctrl.buffer.isEmpty)
      ∧ last (checkBytes checked)[0]! (checkBytes checked)[1]! (fun q =>
        q.ctrl.discarded == 0 && q.ctrl.buffer.length == 1) := by decide +kernel

theorem witness_MessageEndFreesArbiter :
    let restart : Reply := { tag := 1#8, kind := 0x03#8, status := .ok, contents := [] }
    (Message.notice (.stalled 0 .noSpace)).restarts = false ∧ (Message.reply { restart with status := .scanning }).restarts = false
      ∧ idle.ctl.array = none ∧ idle.ctl.begunErase = none
      ∧ after .messageEnd (linked (fun k => { k with sending := some (.reply restart) }))
        (fun q => decide (q.power.cause = .restart) && decide (q.device = .scanning)) := by decide +kernel

theorem witness_NoticeQueueFollowsR190 :
    let filled (n : Nat) : Part := { idle with notices := { idle.notices with queue := List.replicate n (.stalled 0 .noSpace) } }
    2 ≤ (Notice.overrun 0 .mark 0 1 .none 0 0).code
      ∧ idle.notices.mask.getLsbD (Notice.overrun 0 .mark 0 1 .none 0 0).code = false
      ∧ (Notice.opDone 1#8 0 .ok).code < 2 ∧ idle.notices.mask.getLsbD (Notice.stalled 0 .noSpace).code = true
      ∧ ((filled 15).notify (.stalled 1 .noSpace)).notices.queue.length = 16
      ∧ ((filled 16).notify (.stalled 1 .noSpace)).notices.dropped = true := by decide +kernel

/-! ### Requests judged before their owner's rule -/

theorem witness_RequestsJudgedInOrder :
    bodyLength 0x00#8 = none ∧ bodyLength 0x2B#8 = none ∧ bodyLength 0x02#8 = some 0 ∧ ([0#8] : List Byte).length ≠ 0
      ∧ State.reset.part.device = .scanning ∧ encodingAllowed 0x25#8 [0#8, 2#8] = false
      ∧ answer (.unknownKind 0x2B#8 1#8 []) idle = some (.unknownKind, [])
      ∧ answer (.getStatus 1#8 [0#8]) idle = some (.badLength, [])
      ∧ answer (.unitRead 1#8 []) State.reset.part = some (.scanning, [])
      ∧ answer (.getChannel 1#8 [0#8, 2#8]) idle = some (.badValue, []) := by decide +kernel

theorem witness_RequestsJudgedInOrder_taken (kind tag : Byte) (body : List Byte) :
    Requested (on State.reset.part) kind tag body State.reset.part := requested_of kind tag body rfl rfl

theorem witness_RequestsJudgedInOrder_busy :
    (linked (fun k => { k with serving := some (.identifyHeld 1#8) })).canTake = false
      ∧ (linked (fun k => { k with reply := some { tag := 0#8, kind := 0#8, status := .ok, contents := [] } })).canTake = false
      ∧ (linked (fun k => { k with restartPlaced := true })).canTake = false := by decide +kernel

theorem witness_LinkRequestsAnswered :
    idle.image.loaded = true ∧ State.reset.part.image.loaded = false ∧ idle.device = .ready
      ∧ (answer (.identify 1#8 []) idle).map (fun r => r.2.length) = some 32
      ∧ after (.identify 1#8 []) State.reset.part (fun q => decide (q.ctrl.serving = some (.identifyHeld 1#8)))
      ∧ (answer (.getStatus 1#8 []) State.reset.part).map (·.1) = some .ok
      ∧ after (.restart 1#8 []) idle (fun q => q.ctrl.restartPlaced) := by decide +kernel

theorem witness_NoticeMaskReplaced :
    (0x07FC#16 &&& ~~~0x07FC#16 : BitVec 16) = 0#16 ∧ answer (.setNotices 1#8 [0xFC#8, 0x07#8]) idle = some (.ok, [0xFC#8, 0x01#8])
      ∧ answer (.setNotices 1#8 [0x02#8, 0x00#8]) idle = some (.badValue, []) := by decide +kernel

/-! ### Store Controller requests -/

theorem witness_FaultsCleared :
    idle.je.wait = [] ∧ answer (.clearFaults 1#8 []) (storing (fun k => { k with faults := { k.faults with supply := true, lockedHit := true } }))
      = some (.ok, [9#8]) := by decide +kernel

/-- Channel 0 waits, STALLED with STORE_FAULT, its journal otherwise changed so and block 1 in this state. -/
def faulted (f : Journal → Journal) (state : BlockState) : Part :=
  let p := (writing id).updEntry 1 (fun e => { e with state })
  ({ p with je := { p.je with wait := [0], hold := true } }).updJournal 0 (fun j => f { j with state := .stalled .storeFault })

theorem witness_FaultsCleared_retry :
    let reclaiming := faulted (fun j => { j with openBlock := none, reclaim := some 1 })
    let p := faulted id .blank
    p.je.wait = [0] ∧ (p.journal 0).openBlock = some 0 ∧ p.notices.mask = 0x01FC#16 ∧ p.notices.queue.length < 16
      ∧ after (.clearFaults 1#8 []) p (fun q => decide ((q.journal 0).state = .writing)
        && decide (q.notices.queue = [.resumed 0 .writing]) && q.je.wait.isEmpty && !q.je.hold)
      ∧ (((reclaiming .erasing).retryOne 0).journal 0).state = .waiting
      ∧ ((reclaiming .erasing).retryOne 0).notices.queue = [.resumed 0 .waiting]
      ∧ (((reclaiming .blank).retryOne 0).journal 0).reclaim = none := by decide +kernel

theorem witness_FaultsCleared_retry_rest : (faulted id .blank).JournalsQuiet ∧ (faulted id .blank).StoreQuiet :=
  ⟨⟨rfl, rfl, rfl, by
    show ∀ c, ((faulted id .blank).journal c).due.any = false
    decide⟩, ⟨rfl, rfl, rfl, rfl, rfl, rfl⟩⟩

/-- CLEAR_FAULTS with a waiting erase and a subject ready to commit: the arbiter begins the erase, and the record's program
joins the list behind it (R43). -/
theorem test_clear_faults_chooses_before_programs_join :
    let p := writing id
    let stalled : Part := { p.updEntry 1 (fun e => { e with state := .erasing, prior := some .closed }) with
      je := { p.je with hold := true }
      queue := { p.queue with entries := [{ channel := 0, content := .abort }] }
      ctl := { p.ctl with
        faults := { p.ctl.faults with supply := true }, eraseQueue := [{ block := 1, requester := .host 1#8 }] } }
    after (.clearFaults 1#8 []) stalled (fun q =>
      decide (q.controllerState = .eraseRunning) && q.ctl.array.isNone && q.ctl.programs.length == 1) = true := by
  decide +kernel

/-- Two journals wait, channel 0 for the reclaim of its CLOSED block 0 and channel 1 for the BLANK block 1, which the map
gives to it alone. The array is free: the work of the first turn of the pass is taken, and that of the second waits (R36,
R60, R77). -/
theorem test_retry_turns_are_taken_in_order :
    let p := holding closedEntry
    let map : RetentionMap := { p.active with
      fixedEnable := true, fixed := p.active.fixed.set 1 { cls := .ring, set := 2#4 } }
    let waiting := fun wait : List Channel => ({ p with freeList := [1], active := map, je := { p.je with wait } } : Part)
      |>.updJournal 0 (fun j => { j with state := .stalled .noSpace })
      |>.updJournal 1 (fun j => { j with state := .stalled .noSpace })
    after (.protNChange true) (waiting [0, 1]) (fun q => decide (q.controllerState = .eraseRunning)
        && q.ctl.erase.any (fun e => e.block == 0) && q.ctl.programs.length == 1 && q.ctl.array.isNone) = true
      ∧ after (.protNChange true) (waiting [1, 0]) (fun q => decide (q.controllerState = .programming)
        && q.ctl.erase.isNone && q.ctl.eraseQueue.length == 1 && q.ctl.programs.isEmpty) = true := by decide +kernel

/-- MAP_APPLY takes block 0 from channel 0, and channel 1 waits with its CLOSED block 1 to reclaim. The close mark is taken
before the pass's first turn: refused for SUPPLY, it sets the hold, and block 1 stays CLOSED; with the supply good it begins, and
block 1 is then enqueued (log 33). -/
theorem test_close_marks_go_before_the_pass :
    let p := (writing id).updEntry 1 (fun _ => { closedEntry with channel := some 1 })
    let waiting := fun mv : Nat => ({ p with
        freeList := [], staged := { p.staged with dflt := { cls := .ring, set := 0xE#4 } }
        supply := { vstMv := mv, coming := [] }, je := { p.je with wait := [1] } } : Part)
      |>.updJournal 1 (fun j => { j with state := .stalled .noSpace })
    after (.mapApply 1#8 []) (waiting 0) (fun q => q.je.hold && q.ctl.eraseQueue.isEmpty
        && decide ((q.entry 1).state = .closed) && decide ((q.journal 0).state = .stalled .storeFault)) = true
      ∧ after (.mapApply 1#8 []) (waiting 3300) (fun q => decide (q.controllerState = .programming)
        && decide ((q.entry 1).state = .erasing) && q.ctl.erase.isNone) = true := by decide +kernel

/-- Channel 0 waits for its reclaim block 0 at the maximum block sequence and stalls with NUMBERS. The reclaim block is kept
while it is ERASING; a retry that finds it CLOSED makes it absent, in that stall or the next, and so does the channel's stop
(R53). -/
theorem test_reclaim_block_becomes_absent :
    let journal := fun (erasing : Bool) (state : JournalState) =>
      let p := holding { closedEntry with state := if erasing then .erasing else .closed }
      ({ p with je := { p.je with nextSeq := 4294967295, wait := [0] } } : Part).updJournal 0 (fun j =>
        { j with state, reclaim := some 0 })
    let seen := fun (p : Part) (block : Option Block) =>
      decide ((p.journal 0).state = .stalled .numbers) && (p.journal 0).reclaim == block && p.je.wait == [0]
    [.waiting, .stalled .numbers].all (fun state =>
        seen ((journal true state).retryOne 0) (some 0) && seen ((journal false state).retryOne 0) none) = true
      ∧ seen ((journal true (.stalled .numbers)).journalStop 0 true) none = true := by decide +kernel

theorem witness_EraseBlockRefused :
    127 < (128#8).toNat ∧ (127 : Block).val = (127#8).toNat ∧ (idle.entry 127).state = .blank
      ∧ answer (.eraseBlock 1#8 [128#8]) idle = some (.badValue, []) ∧ answer (.eraseBlock 1#8 [127#8]) idle = some (.state, [])
      ∧ answer (.eraseBlock 1#8 [0#8]) (holding { closedEntry with holdCount := 1 }) = some (.held, [])
      ∧ answer (.eraseBlock 1#8 [0#8]) (holding { closedEntry with lockBit := true }) = some (.locked, [])
      ∧ answer (.eraseBlock 1#8 [0#8]) (holding { closedEntry with state := .torn, lockBit := true }) = some (.locked, []) := by
  decide +kernel

theorem witness_EraseBlockAccepted :
    (holding closedEntry).lockOf 0 = .unlocked ∧ idle.supply.coming = [] ∧ 2850 ≤ idle.supply.vstMv ∧ idle.ctl.faults.supply = false
      ∧ after (.eraseBlock 1#8 [0#8]) (holding closedEntry)
        (fun q => decide ((q.entry 0).state = .erasing) && decide (q.controllerState = .eraseRunning))
      ∧ after (.eraseBlock 1#8 [0#8]) (holding { closedEntry with state := .torn })
        (fun q => decide ((q.entry 0).prior = some .torn) && decide (q.ctl.slice = .below))
      ∧ after (.eraseBlock 1#8 [0#8]) (holding { closedEntry with worn := true })
        (fun q => decide ((q.entry 0).state = .retired)
          && decide (q.notices.queue = [.blockRetired 0 .worn, .opDone 1#8 0 .retired])
          && decide (q.ctl.array = some (.program { source := .journalEngine, op := .retireMark 0 }))) := by decide +kernel

theorem witness_EraseBlockAccepted_worn :
    let worn := holding { closedEntry with worn := true }
    let crowded : Part :=
      { worn with notices := { worn.notices with queue := List.replicate 14 (.stalled 0 .noSpace) } }
    crowded.JournalsQuiet ∧ crowded.StoreQuiet ∧ crowded.Supplied ∧ crowded.notices.mask = 0x01FC#16
      ∧ crowded.notices.queue.length ≤ 14 :=
  ⟨⟨rfl, rfl, rfl, by decide⟩, ⟨rfl, rfl, rfl, rfl, rfl, rfl⟩, ⟨rfl, rfl, rfl, by decide +kernel⟩, rfl, by decide⟩

theorem witness_EraseBlockAccepted_rest : (holding closedEntry).JournalsQuiet ∧ (holding closedEntry).StoreQuiet :=
  ⟨⟨rfl, rfl, rfl, by decide⟩, ⟨rfl, rfl, rfl, rfl, rfl, rfl⟩⟩

/-- The part with this unit area in its image. -/
def imaged (f : UnitArea → UnitArea) : Part := { idle with image := { idle.image with area := f idle.image.area } }

theorem test_unit_read : (answer (.unitRead 1#8 []) idle).map (fun r => r.2.length) = some 67 := by decide +kernel

theorem witness_UnitProgramsRequested :
    let body (x : Byte) : List Byte := x :: leBytes 4 (0x01020304#32 : BitVec 32).toNat
    let supplied := storing (fun k => { k with faults := { k.faults with supply := true } })
    idle.image.area.locked = false ∧ idle.image.area.words[11] = none ∧ idle.supply.coming = []
      ∧ answer (.unitWrite 1#8 (body 12#8)) idle = some (.badValue, [])
      ∧ answer (.unitWrite 1#8 (body 11#8)) (imaged (fun a => { a with locked := true })) = some (.locked, [])
      ∧ answer (.unitWrite 1#8 (body 11#8)) (imaged (fun a => { a with words := a.words.set 11 (some 0#32) })) = some (.already, [])
      ∧ answer (.unitWrite 1#8 (body 11#8)) supplied = some (.state, [])
      ∧ after (.unitWrite 1#8 (body 11#8)) idle (fun q =>
        decide (q.ctl.array = some (.program { source := .requestServer, op := .unitWord 11 0x01020304#32 })))
      ∧ answer (.unitLock 1#8 []) (imaged (fun a => { a with locked := true })) = some (.already, [])
      ∧ answer (.unitLock 1#8 []) supplied = some (.state, [])
      ∧ after (.unitLock 1#8 []) idle (fun q => decide (q.ctrl.serving = some (.unitProgram 1#8 0x09#8))) := by decide +kernel

/-! ### Locks -/

theorem witness_LockRangeRefused :
    (4#8).toNat < (5#8).toNat ∧ 127 < (128#8).toNat ∧ answer (.lockBlocks 1#8 [5#8, 4#8]) idle = some (.badValue, [])
      ∧ answer (.unlockBlocks 1#8 [0#8, 128#8]) idle = some (.badValue, [])
      ∧ answer (.downBlocks 1#8 [128#8, 128#8]) idle = some (.badValue, []) := by decide +kernel

theorem witness_BlocksLocked :
    (idle.entry 127).state ≠ .opened ∧ idle.lockOf 127 ≠ .down ∧ (idle.entry 126).pending = .clear
      ∧ answer (.lockBlocks 1#8 [127#8, 127#8]) idle = some (.ok, [1#8, 0#8])
      ∧ answer (.lockBlocks 1#8 [0#8, 127#8]) idle = some (.ok, [128#8, 0#8]) := by decide +kernel

/-- The part with nothing to do but what an OPEN block 0 may ask for. -/
theorem witness_opened (f : DirEntry → DirEntry) : (writing f).JournalsQuiet ∧ (writing f).StoreQuiet :=
  ⟨⟨rfl, rfl, rfl, by
    show ∀ c, ((writing id).journal c).due.any = false
    decide⟩, ⟨rfl, rfl, rfl, rfl, rfl, rfl⟩⟩

/-- The close mark of the OPEN block 0 stands in the array. -/
def closing (q : Part) : Bool :=
  decide (q.ctl.array = some (.program { source := .journalEngine, op := .closeMark 0 0 none false }))

theorem witness_BlocksLocked_open :
    let p := writing id
    (p.entry 0).state = .opened ∧ p.lockOf 0 = .unlocked ∧ (p.entry 0).pending = .clear ∧ (p.entry 0).channel = some 0
      ∧ (p.journal 0).openBlock = some 0 ∧ p.ctl.faults.supply = false ∧ p.supply.coming = [] ∧ 2850 ≤ p.supply.vstMv
      ∧ answer (.lockBlocks 1#8 [0#8, 0#8]) p = some (.ok, [1#8, 0#8])
      ∧ after (.lockBlocks 1#8 [0#8, 0#8]) p (fun q =>
        closing q && decide ((q.entry 0).pending = .lock) && !(q.entry 0).lockBit)
      ∧ answer (.lockBlocks 1#8 [0#8, 0#8]) (writing (fun e => { e with pending := .lock })) = some (.ok, [0#8, 0#8]) := by
  decide +kernel

theorem witness_BlocksUnlocked :
    let down := ({ holding { closedEntry with downFlag := true, lockBit := true } with pins := { idle.pins with protN := true } } : Part)
    (holding { closedEntry with lockBit := true }).lockOf 0 ≠ .down ∧ down.lockOf 0 = .down
      ∧ answer (.unlockBlocks 1#8 [0#8, 0#8]) (holding { closedEntry with lockBit := true }) = some (.ok, [1#8, 0#8])
      ∧ answer (.unlockBlocks 1#8 [0#8, 1#8]) down = some (.ok, [0#8, 1#8]) := by decide +kernel

theorem witness_BlocksUnlocked_open :
    let p := (writing (fun e => { e with pending := .lock })).updJournal 0 (fun j => { j with due := { j.due with lock := true } })
    (p.entry 0).state = .opened ∧ p.lockOf 0 ≠ .down ∧ (p.entry 0).pending = .lock ∧ (p.entry 0).channel = some 0
      ∧ p.je.backlog = []
      ∧ answer (.unlockBlocks 1#8 [0#8, 0#8]) p = some (.ok, [1#8, 0#8])
      ∧ after (.unlockBlocks 1#8 [0#8, 0#8]) p (fun q =>
        decide ((q.entry 0).pending = .clear) && !(q.journal 0).due.any && q.ctl.array.isNone)
      ∧ answer (.unlockBlocks 1#8 [0#8, 0#8]) (writing (fun e => { e with pending := .down })) = some (.ok, [0#8, 1#8]) := by
  decide +kernel

/-- LOCK leaves the close due set while the header-open still waits, and stays once the close mark has joined (R23). -/
theorem witness_BlocksUnlocked_joined :
    let locked := fun op : ProgramOp => (({ committing [] with
      je := { (committing []).je with backlog := [op] } } : Part).updEntry 0 (fun e => { e with pending := .lock })).updJournal 0
        (fun j => { j with due := { j.due with lock := true } })
    after (.unlockBlocks 1#8 [0#8, 0#8]) (locked (.closeMark 0 0 none false)) (fun q =>
        decide ((q.entry 0).pending = .clear) && (q.journal 0).due.lock)
      ∧ after (.unlockBlocks 1#8 [0#8, 0#8]) (locked (.headerOpen 0 0 0 4)) (fun q =>
        decide ((q.entry 0).pending = .clear) && !(q.journal 0).due.lock) := by decide +kernel

theorem witness_BlocksDowned :
    (idle.entry 127).state ≠ .opened ∧ answer (.downBlocks 1#8 [127#8, 127#8]) idle = some (.ok, [1#8, 0#8])
      ∧ answer (.downBlocks 1#8 [0#8, 0#8]) (writing (fun e => { e with pending := .lock })) = some (.ok, [1#8, 0#8])
      ∧ answer (.downBlocks 1#8 [0#8, 0#8]) (writing (fun e => { e with pending := .down })) = some (.ok, [0#8, 0#8])
      ∧ after (.downBlocks 1#8 [0#8, 0#8]) (writing id) (fun q =>
        closing q && decide ((q.entry 0).pending = .down) && !(q.entry 0).downFlag) := by decide +kernel

/-! ### Retention Map -/

theorem witness_MapControlWritten :
    answer (.mapWriteControl 1#8 [1#8, 1#8]) idle = some (.ok, []) ∧ answer (.mapWriteControl 1#8 [2#8, 0#8]) idle = some (.badValue, [])
      ∧ answer (.mapWriteControl 1#8 [0#8, 2#8]) idle = some (.badValue, []) := by decide +kernel

theorem witness_MapFixedWritten :
    answer (.mapWriteFixed 1#8 [15#8, 2#8, 15#8]) idle = some (.ok, [])
      ∧ answer (.mapWriteFixed 1#8 [16#8, 2#8, 15#8]) idle = some (.badValue, [])
      ∧ answer (.mapWriteFixed 1#8 [15#8, 3#8, 15#8]) idle = some (.badValue, [])
      ∧ answer (.mapWriteFixed 1#8 [15#8, 2#8, 16#8]) idle = some (.badValue, [])
      ∧ idle.active.fixedEnable = false ∧ idle.active.enable = true ∧ (15 : Block).val = (15 : Fin 16).val
      ∧ (({ idle.active with fixedEnable := true }).eval 15).source = .fixed 15
      ∧ (({ idle.active with fixedEnable := true }).eval 16).source = .default := by decide +kernel

theorem witness_MapVariableWritten :
    answer (.mapWriteVariable 1#8 [7#8, 1#8, 64#8, 64#8, 2#8, 15#8]) idle = some (.ok, [])
      ∧ answer (.mapWriteVariable 1#8 [8#8, 1#8, 64#8, 64#8, 2#8, 15#8]) idle = some (.badValue, [])
      ∧ answer (.mapWriteVariable 1#8 [7#8, 1#8, 64#8, 3#8, 2#8, 15#8]) idle = some (.badValue, [])
      ∧ answer (.mapWriteVariable 1#8 [7#8, 0#8, 32#8, 64#8, 0#8, 0#8]) idle = some (.align, [])
      ∧ answer (.mapWriteVariable 1#8 [7#8, 0#8, 128#8, 64#8, 0#8, 0#8]) idle = some (.align, []) := by decide +kernel

theorem witness_MapDefaultWritten :
    answer (.mapWriteDefault 1#8 [2#8, 15#8]) idle = some (.ok, []) ∧ answer (.mapWriteDefault 1#8 [3#8, 15#8]) idle = some (.badValue, [])
      ∧ answer (.mapWriteDefault 1#8 [2#8, 16#8]) idle = some (.badValue, []) := by decide +kernel

theorem witness_MapReadAndQueried :
    (answer (.mapRead 1#8 [0#8]) idle).map (fun r => r.2.length) = some 84
      ∧ answer (.mapQuery 1#8 [127#8]) idle = some (.ok, [127#8, 0#8, 15#8, 3#8, 0#8])
      ∧ answer (.mapQuery 1#8 [128#8]) idle = some (.badValue, []) := by decide +kernel

theorem witness_MapApplied :
    let parking : Part := { writing id with staged := { idle.staged with dflt := { idle.staged.dflt with cls := .parked } } }
    let shutting : Part := { writing id with staged := { idle.staged with dflt := { idle.staged.dflt with set := 0xE#4 } } }
    (∀ c, (idle.journal c).openBlock = none) ∧ idle.je.wait = [] ∧ answer (.mapApply 1#8 []) idle = some (.ok, [0#8])
      ∧ (parking.journal 0).openBlock = some 0 ∧ (∀ c, c ≠ 0 → (parking.journal c).openBlock = none)
      ∧ parking.lockOf 0 = .unlocked ∧ parking.je.wait = [] ∧ parking.ctl.faults.supply = false
      ∧ (parking.staged.eval 0).cls = .parked ∧ (shutting.staged.eval 0).set.getLsbD 0 = false
      ∧ answer (.mapApply 1#8 []) parking = some (.ok, [1#8]) ∧ after (.mapApply 1#8 []) parking closing
      ∧ answer (.mapApply 1#8 []) shutting = some (.ok, [1#8]) ∧ after (.mapApply 1#8 []) shutting closing
      ∧ answer (.mapApply 1#8 []) (writing id) = some (.ok, [0#8]) := by
  decide +kernel

/-! ### Event Unit -/

/-- An event of channel 0 that collects, and holds block 0. -/
def event (id : Nat) (c : Channel) : Event :=
  { id, channel := c, cause := .host, triggerCount := 1, anchor := none, anchorBlock := none, remaining := 3
    state := .collecting, short := false, held := [0] }

/-- The part with these events, block 0 held once. -/
def noted (events : List Event) : Part :=
  { holding { closedEntry with holdCount := 1 } with events := { table := events, nextId := 17 } }

theorem witness_TriggerAnswered :
    answer (.trigger 1#8 [4#8]) idle = some (.badValue, []) ∧ (noted [event 1 3]).events.collecting 3 = some (event 1 3)
      ∧ answer (.trigger 1#8 [3#8]) (noted [event 1 3]) = some (.ok, [1#8] ++ List.replicate 6 0xFF#8 ++ [1#8])
      ∧ answer (.trigger 1#8 [3#8]) (noted ((List.range 16).map (fun i => event (i + 1) 0))) = some (.tableFull, [])
      ∧ answer (.trigger 1#8 [3#8]) (noted ((List.range 15).map (fun i => event (i + 1) 0)))
        = some (.ok, [17#8] ++ List.replicate 6 0xFF#8 ++ [0#8])
      ∧ (idle.newEvent 3 .host).held.Nodup := by decide +kernel

/-- Channel 0 with record 6 in its OPEN block 5 and older blocks 1 to 4, of which block 2 is in this state; code 9 triggers. -/
def retained (second : BlockState) (preWindow postWindow : Nat) : Part :=
  let closed := fun n : Nat => { closedEntry with seq := some n, first := some n, last := some n }
  let p := (List.range 4).foldl (fun p n => p.updEntry (Fin.ofNat 128 (n + 1)) (fun _ => closed (n + 1))) idle
  let q := (p.updEntry 2 (fun e => { e with state := second })).updEntry 5 (fun _ =>
    { closed 6 with state := .opened })
  { q.updJournal 0 (fun j => { j with state := .writing, openBlock := some 5, nextRec := 7 }) with
    settings := q.settings.set 0 { Settings.reset with preWindow, postWindow, triggerCode := some 9#8 } }

theorem witness_TriggerAnswered_window :
    ((retained .closed 7 1).newEvent 0 .host).held = [5, 4, 3, 2, 1] ∧ ((retained .closed 2 1).newEvent 0 .host).held = [5, 4, 3]
      ∧ ((retained .erasing 7 1).newEvent 0 .host).held = [5, 4, 3] ∧ ((retained .closed 0 0).newEvent 0 .host).held = [5]
      ∧ ((retained .closed 0 0).newEvent 0 .host).state = .complete
      ∧ ((retained .closed 0 1).updJournal 0 (fun j => { j with nextRec := 0 })).anchorOf 0 = none
      ∧ (((retained .closed 7 1).updJournal 0 (fun j => { j with nextRec := 10 })).newEvent 0 .host).held = [4, 3, 2, 1, 5]
      ∧ (retained .closed 7 0).notices.mask = 0x01FC#16 ∧ (retained .closed 7 0).notices.queue.length ≤ 14
      ∧ after (.trigger 1#8 [0#8]) (retained .closed 7 0) (fun q => decide (q.notices.queue
        = [.triggered 1 0 .host (some 6) 1 5 false, .eventDone 1 0 false 5])) := by decide +kernel

theorem witness_TriggerAnswered_marker :
    let p := retained .closed 1 0
    let full : Part := { p with events := { table := (List.range 16).map (fun i => event (i + 1) 3), nextId := 17 } }
    let again : Part := { p with events := { table := [event 1 0], nextId := 2 } }
    (p.setting 0).triggerCode = some 9#8 ∧ p.events.collecting 0 = none ∧ full.events.collecting 0 = none
      ∧ ((p.eventCommit 0 6 (.mark 9#8)).events.table.map (·.cause)) = [.marker 9#8]
      ∧ (full.eventCommit 0 6 (.mark 9#8)).notices.queue = [.triggerLost 0 9#8 6]
      ∧ again.events.collecting 0 = some (event 1 0)
      ∧ (again.eventCommit 0 6 (.mark 9#8)).notices.queue
        = [.triggered 1 0 .host none 2 1 true, .eventDone 1 0 false 1] := by decide +kernel

theorem witness_EventReleased :
    answer (.releaseEvent 1#8 [2#8]) (noted [event 1 0]) = some (.notFound, [])
      ∧ (noted [event 1 0]).events.table.find? (fun e => decide (e.id = (1#8).toNat)) = some (event 1 0)
      ∧ (noted [event 1 0]).je.wait = [] ∧ (event 1 0).held.Nodup
      ∧ answer (.releaseEvent 1#8 [1#8]) (noted [event 1 0]) = some (.ok, [1#8, 0#8, 1#8])
      ∧ after (.releaseEvent 1#8 [1#8]) (noted [event 1 0]) (fun q => (q.entry 0).holdCount == 0) := by decide +kernel

theorem witness_EventReleased_rest : (noted [event 1 0]).JournalsQuiet ∧ (noted [event 1 0]).StoreQuiet :=
  ⟨⟨rfl, rfl, rfl, by decide⟩, ⟨rfl, rfl, rfl, rfl, rfl, rfl⟩⟩

theorem witness_EventsAndBlocksListed :
    answer (.listEvents 1#8 []) (noted [event 1 3]) = some (.ok, [1#8, 1#8, 3#8, 0#8, 1#8, 0#8])
      ∧ (answer (.getEvent 1#8 [1#8]) (noted [event 1 3])).map (fun r => r.2.length) = some 18
      ∧ answer (.getEvent 1#8 [0#8]) (noted [event 1 3]) = some (.notFound, [])
      ∧ answer (.listJournal 1#8 [4#8, 0#8]) idle = some (.badValue, []) ∧ answer (.listJournal 1#8 [0#8, 128#8]) idle = some (.badValue, [])
      ∧ answer (.listJournal 1#8 [3#8, 127#8]) idle = some (.ok, [0#8, 0#8])
      ∧ answer (.getBlock 1#8 [128#8]) idle = some (.badValue, [])
      ∧ (answer (.getBlock 1#8 [127#8]) idle).map (fun r => r.2.length) = some 36 := by decide +kernel

/-! ### Capture Queue and channels -/

theorem witness_QueueMarksReplaced :
    answer (.setQueue 1#8 [33#8, 0#8, 0#8, 0#8]) idle = some (.ok, [33#8, 0#8, 0#8, 0#8, 0#8])
      ∧ answer (.setQueue 1#8 [0#8, 8#8, 0xDF#8, 7#8]) idle = some (.ok, [0#8, 8#8, 0xDF#8, 7#8, 0#8])
      ∧ answer (.setQueue 1#8 [32#8, 0#8, 0#8, 0#8]) idle = some (.badValue, [])
      ∧ answer (.setQueue 1#8 [1#8, 8#8, 0#8, 0#8]) idle = some (.badValue, [])
      ∧ answer (.setQueue 1#8 [0#8, 8#8, 0xE0#8, 7#8]) idle = some (.badValue, [])
      ∧ answer (.setQueue 1#8 [33#8, 0#8, 0#8, 0#8]) (queued 33) = some (.ok, [33#8, 0#8, 0#8, 0#8, 1#8]) := by decide +kernel

theorem witness_PushFitsOrOverruns :
    let e : Entry := { channel := 0, content := .mark 1#8 }
    let long (n : Nat) : Entry := { channel := 0, content := .frame 0#16 (List.replicate (16 * n) 0#16) .none 0 0 }
    let full : Part := { idle with queue := { idle.queue with entries := List.replicate 62 (long 32) } }
    (queued 63).queue.entries.length < 64 ∧ (queued 63).linesHeld + e.lines ≤ 2048 ∧ 64 ≤ (queued 64).queue.entries.length
      ∧ full.linesHeld + (long 1).lines ≤ 2048 ∧ 2048 < full.linesHeld + (long 2).lines
      ∧ ((queued 64).push e).linesHeld = 64 := by decide +kernel

theorem witness_ChannelFlushed :
    let mark (c : Channel) : Entry := { channel := c, content := .mark 1#8 }
    let mixed : Part := { queued 3 with queue := { (queued 3).queue with entries := [mark 0, mark 1, mark 2, mark 1] } }
    let flying := committing [mark 1, mark 0, mark 2, mark 0]
    answer (.flushChannel 1#8 [4#8]) idle = some (.badValue, [])
      ∧ answer (.flushChannel 1#8 [3#8]) (queued 3) = some (.ok, [0#8])
      ∧ mixed.je.outstanding ≠ some .record
      ∧ answer (.flushChannel 1#8 [1#8]) mixed = some (.ok, [2#8])
      ∧ decide ((mixed.flush 1).queue.entries = [mark 0, mark 2])
      ∧ (flying.chan 0).state ≠ .stopping
      ∧ answer (.flushChannel 1#8 [0#8]) flying = some (.ok, [2#8])
      ∧ after (.flushChannel 1#8 [0#8]) flying (fun q =>
        decide (q.queue.entries = [{ channel := 0, content := .abort }, mark 1, mark 2]))
      ∧ (∀ e ∈ (queued 3).queue.entries, e.channel = 1) ∧ ((queued 3).chan 1).state ≠ .stopping
      ∧ (queued 3).je.backlog = [] ∧ (queued 3).je.outstanding = none
      ∧ after (.flushChannel 1#8 [1#8]) (queued 3) (fun q =>
        q.queue.entries.isEmpty && (q.chan 1).counters.flushed == 3) := by decide +kernel

theorem witness_ChannelSettingsReplaced :
    Settings.reset.bytes.length = 20 ∧ settingsOf Settings.reset.bytes = some .reset
      ∧ settingsOf { Settings.reset with timeout := 1001 }.bytes = none
      ∧ answer (.setChannel 1#8 (4#8 :: Settings.reset.bytes)) idle = some (.badValue, [])
      ∧ answer (.setChannel 1#8 (0#8 :: Settings.reset.bytes)) (running .reset) = some (.state, [])
      ∧ answer (.setChannel 1#8 (3#8 :: { Settings.reset with timeout := 1001 }.bytes)) idle = some (.badValue, [])
      ∧ answer (.setChannel 1#8 (3#8 :: { Settings.reset with timeout := 1000, pass := 15, mask := 15 }.bytes)) idle
        = some (.ok, []) := by decide +kernel

theorem witness_ChannelReportedAndStarted :
    answer (.getChannel 1#8 [4#8, 1#8]) idle = some (.badValue, [])
      ∧ (answer (.getChannel 1#8 [3#8, 1#8]) idle).map (fun r => r.2.length) = some 66
      ∧ answer (.startChannel 1#8 [4#8]) idle = some (.badValue, []) ∧ answer (.startChannel 1#8 [3#8]) idle = some (.ok, [])
      ∧ answer (.startChannel 1#8 [0#8]) (running .reset) = some (.state, []) := by decide +kernel

theorem witness_ChannelStopped :
    let stopping := idle.updChan 3 (fun k => { k with state := .stopping })
    answer (.stopChannel 1#8 [4#8, 1#8]) idle = some (.badValue, []) ∧ answer (.stopChannel 1#8 [3#8, 1#8]) idle = some (.state, [])
      ∧ answer (.stopChannel 1#8 [3#8, 1#8]) stopping = some (.ok, [2#8])
      ∧ answer (.stopChannel 1#8 [0#8, 0#8]) (running .reset) = some (.ok, [0#8])
      ∧ (running .reset).channelEntries 0 = 0 := by decide +kernel

/-! ### Readout -/

/-- The part with one CLOSED block of channel 0, whose next record number is 1. -/
def recorded : Part := (holding closedEntry).updJournal 0 (fun j => { j with nextRec := 1 })

theorem witness_RecordsRead :
    let body (x most : Byte) (start : Nat) : List Byte := x :: leBytes 6 start ++ [most]
    answer (.readRecords 1#8 (body 4#8 1#8 0)) recorded = some (.badValue, [])
      ∧ answer (.readRecords 1#8 (body 0#8 33#8 0)) recorded = some (.badValue, [])
      ∧ answer (.readRecords 1#8 (body 0#8 0#8 0)) recorded = some (.badValue, [])
      ∧ answer (.readRecords 1#8 (body 0#8 32#8 1)) recorded = some (.notYet, [1#8, 0#8, 0#8, 0#8, 0#8, 0#8])
      ∧ answer (.readRecords 1#8 (body 0#8 32#8 0)) (idle.updJournal 0 (fun j => { j with nextRec := 1 }))
        = some (.gone, List.replicate 6 0xFF#8)
      ∧ recorded.blockHolding 0 0 = some 0
      ∧ after (.readRecords 1#8 (body 0#8 32#8 0)) recorded (fun q =>
        decide (q.ctl.array = some (.read { source := .requestServer, block := 0, line := 1, count := 1 }))) := by decide +kernel

theorem witness_RecordsRead_rest : recorded.JournalsQuiet ∧ recorded.StoreQuiet :=
  ⟨⟨rfl, rfl, rfl, by decide⟩, ⟨rfl, rfl, rfl, rfl, rfl, rfl⟩⟩

/-- The gathering of a record whose header would lie past line 1,023, after a sound one that ends there. -/
def gatheringPast : Part :=
  let g : Gather :=
    { tag := 1#8, channel := 0, start := 0, max := 4, sought := 1, block := 0, line := 1023, expected := 0, fill := 1023
      stage := .header, records := [], lines := 0 }
  let p := (holding { closedEntry with fill := 1023, last := some 1 }).updJournal 0 (fun j => { j with nextRec := 2 })
  { p with
    ctrl := { p.ctrl with serving := some (.gathering g) }
    ctl := { p.ctl with array := some (.read { source := .requestServer, block := 0, line := 1023, count := 1 }) }
    store := Memory.writeBytes [] (1023 * 32) (recordBytes { channel := 0, content := .mark 9#8 } 0) }

/-- The block has no line 1,024: the gathering ends UNREADABLE there, whether it walks or has delivered (R174, R175). -/
theorem test_gathering_past_the_block_is_unreadable :
    (answer .readComplete gatheringPast).map (fun r => (r.1, r.2.take 3)) = some (.ok, [0#8, 0#8, 4#8])
      ∧ (answer .readComplete { gatheringPast with ctrl := { gatheringPast.ctrl with serving :=
          match gatheringPast.ctrl.serving with
          | some (.gathering g) => some (.gathering { g with sought := 0 })
          | x => x } }).map (fun r => (r.1, r.2.take 3)) = some (.ok, [0#8, 1#8, 4#8]) := by decide +kernel

/-! ### The sample link -/

theorem witness_TakesPacket (r : Settings) : TakesPacket (on (running r)) 0 := ⟨rfl, rfl, rfl, rfl⟩

theorem witness_CadenceContinuityClipping :
    let s : Settings := { Settings.reset with pass := 2, mask := 1, clipLower := 10, clipUpper := 4095 }
    s.cadence 1 = (true, 2) ∧ s.cadence 2 = (false, 0) ∧ Settings.reset.cadence 0 = (true, 0)
      ∧ continuity 8 none 7 = (.none, 0) ∧ continuity 8 (some 7) 7 = (.none, 0)
      ∧ continuity 8 (some 6) 7 = ({ TagSet.none with gap := true }, 1) ∧ continuity 8 (some 7) 0 = ({ TagSet.none with gap := true }, 1)
      ∧ continuity 8 none 8 = ({ TagSet.none with number := true }, 0)
      ∧ s.clip 9#16 = 10#16 ∧ s.clip 10#16 = 10#16 ∧ s.clip 4095#16 = 4095#16 ∧ s.clip 4096#16 = 4095#16
      ∧ ([1#16, 2#16] : List Word16).length = (2#16).toNat := by decide +kernel

/-- A frame of a passed channel opened, one masked, and one opened over an open frame, which ends TRUNCATED. -/
theorem test_frame_started :
    after (.fsPacket 0 5#16) (running .reset) (fun q => (q.slot 0).code == 1#8 && (q.chan 0).expected == some 6)
      ∧ after (.fsPacket 0 5#16) ((running { Settings.reset with pass := 1, mask := 1 }).updChan 0 (fun k => { k with cadence := 1 }))
        (fun q => (q.slot 0).code == 2#8 && (q.chan 0).cadence == 0)
      ∧ after (.fsPacket 0 5#16) (assembling (.assembling frame)) (fun q => q.taggedEntries == 1) := by decide +kernel

/-- Channel 0 commits while it assembles a frame with a gap before it. -/
def assemblingInFlight (dropTagged : Bool) : Part :=
  let p := (committing []).updChan 0 (fun k => { k with state := .running })
  { p with settings := p.settings.set 0 { Settings.reset with dropTagged } }.setSlot 0
    (.assembling { frame with samples := [5#16], tags := { TagSet.none with gap := true }, gap := 2 })

theorem witness_FrameStarted_over :
    after (.fsPacket 0 9#16) (assemblingInFlight false) (fun q => decide (q.queue.entries.drop 1
        = [{ channel := 0, content := .frame 7#16 [5#16] { TagSet.none with gap := true, truncated := true } 0 2 }])
        && (q.slot 0).code == 1#8 && (q.chan 0).counters.tagged == 1)
      ∧ after (.fsPacket 0 9#16) (assemblingInFlight true) (fun q =>
        q.queue.entries.length == 1 && (q.chan 0).counters.dropped == 1) := by decide +kernel

theorem witness_SamplesTaken :
    (1 : Nat) ≤ (256#16).toNat ∧ (256#16).toNat ≤ 256 ∧ (running .reset).slot 0 = .idle
      ∧ (assembling (.masked 7#16 none)).slot 0 = .masked 7#16 none ∧ (assembling (.assembling frame)).slot 0 = .assembling frame
      ∧ soundSamples 1#16 (soundTail [5#16]) = some [5#16] ∧ soundSamples 1#16 [] = none
      ∧ after (.dataPacket 0 1#16 (soundTail [5#16])) (assembling (.assembling frame)) (fun q => (q.slot 0).appended == 1)
      ∧ after (.dataPacket 0 1#16 []) (assembling (.masked 7#16 none)) (fun q => q.link.malformed == 1)
      ∧ after (.dataPacket 0 1#16 []) (running .reset) (fun q => q.link.orphan == 1) := by decide +kernel

theorem test_frame_overlong :
    let long := { frame with samples := List.replicate 511 0#16 }
    after (.dataPacket 0 2#16 (soundTail [5#16, 6#16])) (assembling (.assembling long)) (fun q =>
      match q.slot 0 with
      | .assembling f => f.samples.length == 512 && f.tags.overlong
      | _ => false) = true := by decide +kernel

theorem witness_FrameEnded :
    after (.fePacket 0 7#16) (assembling (.assembling frame)) (fun q => q.entriesHeld == 1 && q.taggedEntries == 0)
      ∧ after (.fePacket 0 8#16) (assembling (.assembling frame)) (fun q => q.taggedEntries == 1)
      ∧ after (.fePacket 0 7#16) (assembling (.masked 7#16 none)) (fun q => q.entriesHeld == 0 && q.link.orphan == 0)
      ∧ after (.fePacket 0 7#16) (running .reset) (fun q => q.link.orphan == 1) := by decide +kernel

theorem witness_FrameEnded_entry :
    (assemblingInFlight false).CommitInFlight ∧ TakesPacket (on (assemblingInFlight false)) 0
      ∧ after (.fePacket 0 7#16) (assemblingInFlight false) (fun q => decide (q.queue.entries.drop 1
          = [{ channel := 0, content := .frame 7#16 [5#16] { TagSet.none with gap := true } 0 2 }]))
      ∧ after (.fePacket 0 7#16) (assemblingInFlight true) (fun q =>
        q.queue.entries.length == 1 && (q.chan 0).counters.dropped == 1)
      ∧ after (.frameTimeoutExpiry 0) (assemblingInFlight false) (fun q => decide (q.queue.entries.drop 1
          = [{ channel := 0, content := .frame 7#16 [5#16] { TagSet.none with gap := true, truncated := true } 0 2 }]))
      ∧ (queued 63).linesHeld + 1 ≤ 2048 ∧ 64 ≤ (queued 64).queue.entries.length :=
  ⟨⟨rfl, rfl, by decide +kernel, ⟨_, rfl, rfl⟩, rfl⟩, ⟨rfl, rfl, rfl, rfl⟩, by decide +kernel⟩

theorem witness_AbortAndMarkTaken :
    (queued 63).queue.entries.length < 64 ∧ (queued 63).linesHeld + 1 ≤ 2048 ∧ 64 ≤ (queued 64).queue.entries.length
      ∧ after (.abortPacket 0 0#16) (running .reset) (fun q => q.entriesHeld == 1 && q.lastKind 0 == some .abort)
      ∧ after (.abortPacket 0 0#16) ({ running .reset with queue :=
          { idle.queue with lastKind := idle.queue.lastKind.set 0 (some .abort) } }) (fun q => q.entriesHeld == 0)
      ∧ after (.markPacket 0 255#8) (queued 64) (fun q => (q.chan 0).counters.overruns == 1) := by decide +kernel

theorem witness_FrameTimedOut :
    (assembling (.assembling frame)).live = true ∧ frame.timer = some 5
      ∧ after (.frameTimeoutExpiry 0) (assembling (.assembling frame)) (fun q => q.taggedEntries == 1)
      ∧ after (.frameTimeoutExpiry 0) (assembling (.masked 7#16 (some 5))) (fun q => (q.slot 0).code == 0#8) := by decide +kernel

theorem witness_PacketsRefusedOrDiscarded :
    (idle.chan 0).state ≠ .running ∧ idle.live = true ∧ State.reset.part.live = true ∧ State.reset.part.device = .scanning
      ∧ decodePacket [0xC#4] = .malformedPacket [0xC#4]
      ∧ after (.fsPacket 0 0#16) idle (fun q => q.link.refused == 1)
      ∧ after (.malformedPacket [0xC#4]) idle (fun q => q.link.malformed == 1)
      ∧ after (.malformedPacket [0xC#4]) State.reset.part (fun q => q.link.malformed == 0) := by decide +kernel

/-- The packet in progress when a reset ended is lost, in each device state, and the one after it is judged (R154). -/
theorem witness_PacketsRefusedOrDiscarded_lost :
    let waiting := fun p : Part => { p with awaitsSelection := true }
    let lost := fun q : Part => !q.awaitsSelection && q.link.refused == 0 && q.link.malformed == 0
    (waiting idle).live = true ∧ (waiting State.reset.part).awaitsSelection = true
      ∧ after (.fsPacket 0 0#16) (waiting idle) lost ∧ after (.malformedPacket [0xC#4]) (waiting idle) lost
      ∧ after (.dataPacket 0 256#16 []) (waiting State.reset.part) lost
      ∧ after (.fsPacket 0 0#16) (waiting (running .reset)) (fun q => lost q
        && after (.fsPacket 0 1#16) q (fun r => (r.slot 0).code == 1#8)) := by decide +kernel

/-! ### The store array -/

theorem witness_ProgramWritesItsBytes :
    let op : ProgramOp := .record 127 1022 (List.replicate 64 0x5A#8)
    op.target = some (4194240, List.replicate 64 0x5A#8) ∧ idle.storeCanonical = true
      ∧ programFailure [] op .ok = none ∧ programFailure [] op (.fail 1) = some 1
      ∧ after (.programComplete .ok) (programming .journalEngine op) (fun q => Memory.read q.store 4194303 == 0x5A#8)
      ∧ after (.programComplete (.fail 1)) (programming .journalEngine op) (fun q =>
        Memory.read q.store 4194271 == 0x5A#8 && q.ctl.faults.programFail) := by decide +kernel

/-- The part serving a unit program that runs. -/
def servingUnit (op : ProgramOp) : Part :=
  { programming .requestServer op with ctrl := { idle.ctrl with serving := some (.unitProgram 1#8 0x08#8) } }

theorem witness_UnitProgramAnswered :
    answer (.programComplete .ok) (servingUnit (.unitWord 11 5#32)) = some (.ok, [])
      ∧ after (.programComplete .ok) (servingUnit .unitLock) (fun q => q.unitArea.locked && q.image.area.locked) := by
  decide +kernel

/-- A gathering of one record, of which the header line is being read. -/
def gathering : Part :=
  let g : Gather :=
    { tag := 1#8, channel := 0, start := 0, max := 1, sought := 0, block := 0, line := 1, expected := 0, fill := 1
      stage := .header, records := [], lines := 0 }
  { recorded with
    ctrl := { recorded.ctrl with serving := some (.gathering g) }
    ctl := { recorded.ctl with array := some (.read { source := .requestServer, block := 0, line := 1, count := 1 }) }
    store := Memory.writeBytes [] 32 (recordBytes { channel := 0, content := .mark 9#8 } 0) }

theorem witness_ReadReturnsLines :
    (answer .readComplete gathering).map (fun r => r.1) = some .ok
      ∧ (answer .readComplete gathering).map (fun r => r.2.take 3) = some [0#8, 1#8, 0#8]
      ∧ headerLines (readLines gathering.store 0 1 1) = 1 := by decide +kernel

/-- The part with an erase of block 127 that runs. -/
def erasing (pulses : Nat) (slice : SliceTimer) (suspending : Bool) : Part :=
  storing (fun k => { k with
    erase := some { block := 127, pulses, remaining := 25000, suspending }, slice
    eraseQueue := [{ block := 127, requester := .host 1#8 }] })

theorem witness_ErasePulseEnded :
    after (.erasePulseEnd true) { erasing 0 .below false with store := [(4194303, 0#8)] } (fun q => decide (q.store = []))
      ∧ after (.erasePulseEnd false) (erasing 14 .below false) (fun q => decide (q.ctl.erase.map (·.pulses) = some 15))
      ∧ (16 : Nat) ≤ 15 + 1 ∧ (erasing 15 .below false).ctl.erase.map (·.pulses) = some 15 := by decide +kernel

/-- The part with an erase of block 127 alone at work, which runs its 16th pulse. -/
def erasingAlone : Part := (erasing 15 .below false).updEntry 127 (fun _ => { closedEntry with state := .erasing, prior := some .closed })

theorem witness_ErasePulseEnded_alone :
    erasingAlone.je.wait = [] ∧ erasingAlone.ctl.array = none ∧ erasingAlone.ctl.programs = []
      ∧ erasingAlone.ctl.readSlot = none ∧ erasingAlone.ctl.suspended = none
      ∧ erasingAlone.ctl.eraseQueue = [{ block := 127, requester := .host 1#8 }]
      ∧ erasingAlone.notices.queue.length ≤ 13 ∧ erasingAlone.notices.mask = 0x01FC#16
      ∧ after (.erasePulseEnd true) erasingAlone (fun q =>
        decide ((q.entry 127).state = .blank) && decide (q.freeList.getLast? = some 127) && q.ctl.eraseQueue.isEmpty)
      ∧ after (.erasePulseEnd false) erasingAlone (fun q =>
        decide ((q.entry 127).state = .retired) && q.ctl.faults.eraseFail && q.ctl.eraseQueue.isEmpty
        && decide (q.notices.queue.length = 3)
        && decide (q.ctl.array = some (.program { source := .journalEngine, op := .retireMark 127 }))) := by decide +kernel

theorem witness_ErasePulseEnded_rest : erasingAlone.JournalsQuiet ∧ erasingAlone.Supplied :=
  ⟨⟨rfl, rfl, rfl, by decide⟩, ⟨rfl, rfl, rfl, by decide +kernel⟩⟩

/-- The part whose erase is asked to suspend for a read. -/
def suspending : Part :=
  { erasing 3 .reached true with ctl :=
      { (erasing 3 .reached true).ctl with readSlot := some { source := .requestServer, block := 0, line := 1, count := 1 } } }

theorem witness_SliceTimerAndSuspension :
    after .eraseSliceTimerExpiry (erasing 0 .below false) (fun q => decide (q.ctl.slice = .reached))
      ∧ suspending.ctl.array = none ∧ suspending.ctl.programs = [] ∧ (suspending.entry 0).state ≠ .erasing
      ∧ after (.suspensionTakesEffect 25000) suspending (fun q =>
        decide (q.ctl.suspended = some { block := 127, pulses := 3, remaining := 0 }) && q.ctl.array.isSome) := by decide +kernel

theorem witness_SliceTimerAndSuspension_rest : suspending.JournalsQuiet := ⟨rfl, rfl, rfl, by decide⟩

/-- An erase of the CLOSED block 1, LOCKED or not, heads the queue at this level of VST, or is suspended. -/
def erasesWaiting (lockBit : Bool) (vstMv : Nat) (suspended : Option SuspendedErase) : Part :=
  let p := idle.updEntry 1 (fun _ => { closedEntry with state := .erasing, prior := some .closed, lockBit })
  { p with
    supply := { vstMv, coming := [] }
    ctl := { p.ctl with suspended, eraseQueue := [{ block := 1, requester := .host 1#8 }] } }

theorem witness_SliceTimerAndSuspension_arbiter :
    let taken := fun (p : Part) (f : Part → List Report → Bool) => p.arbiterTake.any (fun r => f r.1 r.2)
    let record : SuspendedErase := { block := 1, pulses := 3, remaining := 7 }
    taken (erasesWaiting true 2850 (some record)) (fun q r => r.isEmpty && decide (q.ctl.suspended = none)
        && decide (q.ctl.erase = some { block := 1, pulses := 3, remaining := 7, suspending := false }))
      ∧ taken (erasesWaiting false 2649 (some record)) (fun q r => decide (r = [.eraseSupply]) && q.ctl.faults.supply
        && decide (q.ctl.suspended = some record) && decide (q.notices.queue = [.storeFault .supply .erase (some 1)]))
      ∧ taken (erasesWaiting false 2850 none) (fun q r => r.isEmpty && q.ctl.erase.isSome)
      ∧ taken (erasesWaiting true 2850 none) (fun q r => decide (r = [.retryDue]) && q.ctl.faults.lockedHit
        && decide ((q.entry 1).state = .closed) && q.ctl.eraseQueue.isEmpty
        && decide (q.notices.queue = [.opDone 1#8 1 .locked]))
      ∧ taken (erasesWaiting true 2649 none) (fun q r => decide (r = [.eraseSupply]) && q.ctl.eraseQueue.length == 1)
      ∧ (erasesWaiting true 2649 none).ctl.faults.supply = false := by decide +kernel

/-! ### Journals and the scan -/

theorem witness_BlockAllocated :
    let spent : Part := { idle with je := { idle.je with nextSeq := 4294967295 } }
    let held : Part := { idle with je := { idle.je with nextSeq := 4294967294, hold := true } }
    let torn : Part := { holding { closedEntry with state := .torn, channel := none } with freeList := [] }
    let collecting (n : Nat) : Part :=
      { idle with events := { table := [{ event 1 3 with held := List.replicate n 5 }], nextId := 2 } }
    ((spent.allocate 3).journal 3).state = .stalled .numbers ∧ ((held.allocate 3).journal 3).state = .stalled .storeFault
      ∧ idle.freeChoice 3 = some 0 ∧ ((idle.allocate 3).entry 0).state = .opened ∧ idle.events.collecting 3 = none
      ∧ torn.freeChoice 3 = none ∧ torn.tornChoice 3 = some 0 ∧ ((torn.allocate 3).journal 3).state = .waiting
      ∧ (collecting 31).events.collecting 3 = some { event 1 3 with held := List.replicate 31 5 }
      ∧ (((collecting 31).allocate 3).entry 0).holdCount = 1 ∧ (((collecting 32).allocate 3).entry 0).holdCount = 0
      ∧ ((collecting 32).allocate 3).events.table.map (fun e => (e.short, e.state)) = [(true, .complete)] := by decide +kernel

/-- The part with no free block, this entry for block 0 and its next sequence for block 1, both of channel 0. -/
def crowded (e : DirEntry) : Part :=
  { (holding e).updEntry 1 (fun _ => { closedEntry with seq := some 1, first := some 1, last := some 1 }) with freeList := [] }

theorem witness_BlockAllocated_reclaim :
    let worn := crowded { closedEntry with worn := true }
    let stuck := (crowded closedEntry).allocate 3
    (crowded closedEntry).freeChoice 0 = none ∧ (crowded closedEntry).tornChoice 0 = none
      ∧ (crowded closedEntry).reclaimChoice 0 = some 0 ∧ (((crowded closedEntry).allocate 0).entry 0).state = .erasing
      ∧ worn.reclaimChoice 0 = some 0 ∧ ((worn.allocate 0).entry 0).state = .retired
      ∧ ((worn.allocate 0).entry 1).state = .erasing
      ∧ (crowded closedEntry).freeChoice 3 = none ∧ (crowded closedEntry).tornChoice 3 = none
      ∧ (crowded closedEntry).reclaimChoice 3 = none ∧ stuck.notices.queue = [.stalled 3 .noSpace] ∧ stuck.je.wait = [3]
      ∧ stuck.notices.mask.getLsbD 2 = true ∧ (stuck.journal 3).state = .stalled .noSpace ∧ stuck.reclaimChoice 3 = none := by
  decide +kernel

/-- Channel 0 of this policy in this journal state, an ABORT of it the subject. -/
def subjectOf (policy : StallPolicy) (state : JournalState) : Part :=
  let p := (queued 0).updJournal 0 (fun j => { j with state, nextRec := 4 })
  { p with
    settings := p.settings.set 0 { Settings.reset with policy }
    queue := { p.queue with entries := [{ channel := 0, content := .abort }] } }

theorem witness_BlockAllocated_subject :
    (subjectOf .shed .waiting).subjectAct = none ∧ (subjectOf .block (.stalled .noSpace)).subjectAct = none
      ∧ (subjectOf .shed (.stalled .noSpace)).je.outstanding ≠ some .record
      ∧ ((subjectOf .shed (.stalled .noSpace)).chan 0).state ≠ .stopping
      ∧ (subjectOf .shed (.stalled .noSpace)).subjectAct.map (fun q =>
        (q.queue.entries, (q.chan 0).counters.shed, (q.journal 0).nextRec)) = some ([], 1, 4) := by decide +kernel

theorem witness_RecordCommitted_open :
    let op := ProgramOp.headerOpen 0 0 0 4
    let p := writing (fun e => { e with pending := .down })
    let opening : Part := { p with je := { p.je with backlog := [op], outstanding := some .header } }
    let failed := opening.journalOutcome op .programFail
    let refused := opening.journalOutcome op .refusedSupply
    (opening.journalOutcome op .ok).je.backlog = [] ∧ (failed.entry 0).state = .retired ∧ (failed.entry 0).downFlag = true
      ∧ failed.notices.queue = [.blockRetired 0 .openFail] ∧ (failed.journal 0).openBlock = some 1
      ∧ refused.je.hold = true ∧ refused.je.backlog = [op] ∧ (refused.journal 0).state = .stalled .storeFault
      ∧ (refused.journal 0).openBlock = some 0 ∧ refused.je.wait = [0] := by decide +kernel

theorem witness_RecordCommitted_hold :
    let p := (idle.updJournal 1 (fun j => { j with state := .waiting, reclaim := some 1 })).updJournal 2
      (fun j => { j with state := .stalled .noSpace })
    let q := ({ p with queue := { p.queue with entries := [{ channel := 0, content := .mark 3#8 }] } } : Part)
    ((p.setHold none).journal 1).state = .stalled .storeFault ∧ ((p.setHold none).journal 2).state = .stalled .noSpace
      ∧ ((p.setHold none).journal 0).state = .noBlock ∧ (p.setHold none).je.wait = [1]
      ∧ q.queue.entries.head? = some { channel := 0, content := .mark 3#8 }
      ∧ ((q.journalOutcome (.record 0 1 (List.replicate 32 0#8)) .refusedSupply).journal 0).state = .stalled .storeFault := by
  decide +kernel

theorem witness_RecordCommitted :
    let op := ProgramOp.record 0 1 (List.replicate 32 0#8)
    let collecting : Part := { committing [] with events := { table := [{ event 1 0 with remaining := 1 }], nextId := 2 } }
    (committing []).queue.entries = [{ channel := 0, content := .abort }]
      ∧ (((committing []).journalOutcome op .ok).entry 0).fill = 1
      ∧ (((committing []).journalOutcome op .ok).entry 0).first = some 4
      ∧ (committing []).events.collecting 0 = none
      ∧ collecting.events.collecting 0 = some { event 1 0 with remaining := 1 }
      ∧ ((collecting.journalOutcome op .ok).events.table.map (·.state)) = [.complete]
      ∧ ((committing []).journal 0).openBlock = some 0 ∧ (committing []).je.backlog = []
      ∧ ((committing []).journalOutcome op .programFail).je.backlog = [.closeMark 0 0 none true] := by decide +kernel

/-- The OPEN block 0 under a pending lock, its close mark in the array. -/
def endingClose : Part :=
  let p := (writing (fun e => { e with fill := 1, first := some 3, last := some 3, pending := .down })).updJournal 0 (fun j =>
    { j with due := { j.due with lock := true } })
  let op := ProgramOp.closeMark 0 1 (some 3) false
  { p with
    je := { p.je with backlog := [op], outstanding := some .header }
    ctl := { p.ctl with array := some (.program { source := .journalEngine, op }) } }

theorem witness_RecordCommitted_close :
    let due := (writing id).updJournal 0 (fun j => { j with due := { j.due with stop := true } })
    (due.journal 0).due.any = true ∧ due.je.outstanding ≠ some .record
      ∧ (due.joinClose 0).je.backlog = [.closeMark 0 0 none false] ∧ ((due.joinClose 0).joinClose 0) = due.joinClose 0
      ∧ (endingClose.entry 0).channel = some 0 ∧ endingClose.queue.entries = []
      ∧ (∀ c, c ≠ 0 → (endingClose.journal c).due.any = false) ∧ endingClose.ctl.erase = none
      ∧ endingClose.ctl.suspended = none ∧ endingClose.ctl.programs = [] ∧ endingClose.ctl.readSlot = none
      ∧ endingClose.ctl.eraseQueue = []
      ∧ after (.programComplete .ok) endingClose (fun q => decide (q.entry 0 = { closedEntry with
          first := some 3, last := some 3, lockBit := true, downFlag := true }) && decide ((q.journal 0).state = .noBlock))
      ∧ after (.programComplete (.fail 0)) endingClose (fun q => (q.entry 0).worn) := by decide +kernel

/-- The header line of a CLOSED block of channel 3 with one record, number 9. -/
def closedHeader : List Byte := openSectionBytes 3 5 9 ++ closeSectionBytes 1 (some 9) true ++ List.replicate 7 0xFF#8

theorem witness_HeaderClassified :
    let scanning : Part := { State.reset.part with scan := { classified := 126, phase := .header } }
    let blank : List Byte := List.replicate 32 0xFF#8
    let seen : Part := scanning.updEntry 0 (fun _ => { closedEntry with seq := some 5 })
    let against : Part := scanning.updEntry 0 (fun _ =>
      { closedEntry with channel := some 3, seq := some 7, first := some 9, last := some 9 })
    readsBlank blank = true ∧ retirePresent (blank.take 31 ++ [0#8]) = true ∧ openValid (0#8 :: blank.drop 1) = false
      ∧ openValid closedHeader = true ∧ closeValid closedHeader = true ∧ readsBlank closedHeader = false
      ∧ retirePresent closedHeader = false ∧ seen.seqSeen (openSeq closedHeader) = true
      ∧ against.numbersConflict 3 5 9 1 (some 9) = true
      ∧ ((scanning.scanJudge closedHeader).entry 126).state = .closed ∧ ((scanning.scanJudge closedHeader).entry 126).worn = true := by
  decide +kernel

/-- The header line of a block of channel 3 left open, whose records begin at 9. -/
def openHeader : List Byte := openSectionBytes 3 5 9 ++ List.replicate 18 0xFF#8

/-- The walk of that block at a line, the fill as it follows from the line. -/
def walking (line : Nat) (record : Option (List Byte × Nat)) : ScanWalk :=
  { channel := 3, seq := 5, first := 9, line, expected := 9, fill := line - 1, last := none, record }

theorem witness_HeaderClassified_walk :
    let p : Part := { State.reset.part with scan := { classified := 126, phase := .header } }
    let abort := recordBytes { channel := 3, content := .abort } 9
    let long := recordBytes { channel := 3, content := .frame 0#16 [5#16, 6#16] .none 0 0 } 9
    let asks := fun (q : Part) (line : Nat) => q.ctl.readSlot.any (fun r => r.line == line)
    let marks := fun q : Part => q.ctl.programs.length == 1
    p.ctl.erase = none ∧ closeValid openHeader = false ∧ openValid openHeader = true ∧ asks (p.scanJudge openHeader) 1
      ∧ abort.length = 32 ∧ headerLines abort = 1 ∧ asks (p.walkRead (walking 1 none) abort) 2
      ∧ marks (p.walkRead (walking 1023 none) abort) ∧ marks (p.walkRead (walking 1 none) (0#8 :: abort.drop 1))
      ∧ marks (p.walkRead (walking 1 none) (abort.take 31 ++ [0#8])) = false
      ∧ marks (p.walkRead (walking 1 none) (abort.take 19 ++ List.replicate 13 0#8))
      ∧ marks (p.walkRead (walking 1 none) (List.replicate 32 0xFF#8))
      ∧ headerLines long = 2 ∧ asks (p.walkRead (walking 1 none) (long.take 32)) 2
      ∧ asks (p.walkRead (walking 1 (some (long.take 32, 1))) (long.drop 32)) 3
      ∧ asks (p.walkRead (walking 1 (some (abort, 2))) abort) 3 := by decide +kernel

theorem witness_HeaderClassified_close :
    let p : Part := { State.reset.part with scan := { classified := 126, phase := .close { walking 2 none with last := some 9 } } }
    let against : Part := p.updEntry 0 (fun _ =>
      { closedEntry with channel := some 3, seq := some 7, first := some 9, last := some 9 })
    let refusing : Part := { p with ctl := { p.ctl with faults := { p.ctl.faults with supply := true } } }
    ((against.walkEnds { walking 2 none with last := some 9 }).entry 126).state = .torn
      ∧ ((refusing.walkEnds { walking 2 none with last := some 9 }).entry 126).cut = true
      ∧ ((p.scanProgramOutcome .ok).entry 126).first = some 9 ∧ ((p.scanProgramOutcome .programFail).entry 126).worn = true
      ∧ ((p.scanProgramOutcome .refusedSupply).entry 126).worn = false := by decide +kernel

/-- The last block's header is being read: block 127 of an erased store but for it, or with this header. -/
def lastHeader (header : List Byte) : Part :=
  let p : Part := { State.reset.part with
    scan := { classified := 127, phase := .header }
    dir := Vector.replicate 128 { DirEntry.reset with state := .blank }
    store := Memory.writeBytes [] (lineAddress 127 0) header }
  { p with ctl := { p.ctl with array := some (.read { source := .storeScanner, block := 127, line := 0, count := 1 }) } }

theorem witness_HeaderClassified_last :
    let q := (lastHeader closedHeader).scanJudge closedHeader
    (lastHeader []).scan.classified = 127 ∧ readLines (lastHeader closedHeader).store 127 0 1 = closedHeader
      ∧ openValid (readLines (lastHeader []).store 127 0 1) = false ∧ (lastHeader []).queue.entries = []
      ∧ 0 < (lastHeader []).queue.high ∧ (lastHeader []).notices.queue.length < 16
      ∧ (lastHeader []).device = .scanning ∧ (lastHeader []).scan.phase = .header
      ∧ (q.journal 3).nextRec = 10 ∧ q.je.nextSeq = 6 ∧ q.freeList.length = 127 ∧ q.queue.hold = false
      ∧ q.notices.queue = [.started .powerOn 127 1 0 0 0]
      ∧ after .readComplete (lastHeader []) (fun q =>
        decide (q.device = .ready) && decide (q.freeList.length = 128)
        && decide (q.notices.queue = [.started .powerOn 128 0 0 0 0]) && q.ctl.array.isNone) := by decide +kernel

theorem witness_HeaderClassified_rest :
    let p : Part := { lastHeader [] with ctl := State.reset.part.ctl }
    p.JournalsQuiet ∧ p.StoreQuiet
      ∧ lastHeader [] = { p with ctl := { p.ctl with
          array := some (.read { source := .storeScanner, block := 127, line := 0, count := 1 }) } } :=
  ⟨⟨rfl, rfl, rfl, by decide⟩, ⟨rfl, rfl, rfl, rfl, rfl, rfl⟩, rfl⟩

/-! ### Headline results -/

theorem witness_PacketsDecodeAsEncoded :
    (Instr.fsPacket 3 0xFFFF#16).wellFormed = true ∧ (Instr.dataPacket 3 256#16 [0#4]).wellFormed = true
      ∧ (Instr.malformedPacket [0#4]).wellFormed = true ∧ (Instr.markPacket 3 255#8).wellFormed = true := by decide +kernel

theorem witness_StepKeeps_invariants :
    idle.storeCanonical = true ∧ idle.mapsAligned = true ∧ idle.marksInRange = true ∧ idle.bufferBounded = true
      ∧ (match step (on idle) with
        | .next _ => true
        | _ => false) = true := by decide +kernel

end Sys2Proof.Tests
end

/-! ## What every command does: it ends in a next state, and keeps the store canonical -/

section
namespace Sys2Proof.Machine

/-! ### Every command ends in a next state -/

/-- All that a request command can do: nothing, or the taking and answering of its request (R186, log 3). -/
theorem serve_cases (kind tag : Byte) (body : List Byte) (work : Part → Part) (s : State) :
    serve kind tag body work s = .next s
      ∨ ∃ p, s.part.takeFromBuffer { kind, tag, body } = some p
        ∧ serve kind tag body work s = .next (s.withPart (p.answer kind tag body work)) := by
  by_cases free : s.part.canTake = true
  · cases taken : s.part.takeFromBuffer { kind, tag, body } with
    | none => exact .inl (by simp [serve, taken])
    | some p => exact .inr ⟨p, rfl, serve_answer ⟨free, taken⟩ work⟩
  · exact .inl (serve_busy work (Bool.eq_false_iff.mpr free))

theorem serve_completes (kind tag : Byte) (body : List Byte) (work : Part → Part) (s : State) :
    completes (serve kind tag body work s) := by
  obtain idle | ⟨p, -, answered⟩ := serve_cases kind tag body work s
  · exact ⟨s, idle⟩
  · exact ⟨_, answered⟩

/-- Settles O3: a request command by the one lemma about `serve`, every other command along the guards of its meaning. -/
theorem commandsComplete : Obligations.CommandsComplete := by
  intro c s
  cases c
  case powerOnReset | powerFall | cpermNChange => exact ⟨_, rfl⟩
  case unknownKind kind tag body =>
    simp only [exec, execUnknownKind]
    split
    · exact serve_completes kind tag body _ s
    · exact ⟨s, rfl⟩
  case resetNAssert | protNChange | controlFrameReceive | messageBegin | eraseSliceTimerExpiry | unitAreaImageLoadEnd
      | fsPacket | dataPacket | fePacket | abortPacket | markPacket | malformedPacket | frameTimeoutExpiry =>
    simp only [exec, execResetNAssert, execProtNChange, execControlFrameReceive, execMessageBegin,
      execEraseSliceTimerExpiry, execUnitAreaImageLoadEnd, execFsPacket, execDataPacket, execFePacket, execAbortPacket,
      execMarkPacket, execMalformedPacket, execFrameTimeoutExpiry]
    split <;> exact ⟨_, rfl⟩
  case interByteGapExpiry | messageEnd | programComplete | readComplete | erasePulseEnd =>
    simp only [exec, execInterByteGapExpiry, execMessageEnd, execProgramComplete, execReadComplete, execErasePulseEnd]
    split <;> exact ⟨_, rfl⟩
  case resetNRelease =>
    simp only [exec, execResetNRelease]
    split
    · split <;> exact ⟨_, rfl⟩
    · exact ⟨s, rfl⟩
  case suspensionTakesEffect =>
    simp only [exec, execSuspensionTakesEffect]
    split
    · split <;> exact ⟨_, rfl⟩
    · exact ⟨s, rfl⟩
  all_goals exact serve_completes _ _ _ _ s

end Sys2Proof.Machine
end

/-! ## The store: which commands write it, and that every write keeps the canonical form -/

section
namespace Sys2Proof.Machine

/-! ### Operations that leave the store alone -/

namespace Part

@[simp] theorem store_updEntry (p : Part) (b : Block) (f : DirEntry → DirEntry) : (p.updEntry b f).store = p.store := rfl

@[simp] theorem store_updChan (p : Part) (c : Channel) (f : ChannelStatus → ChannelStatus) :
    (p.updChan c f).store = p.store := rfl

@[simp] theorem store_updCounters (p : Part) (c : Channel) (f : Counters → Counters) :
    (p.updCounters c f).store = p.store := rfl

@[simp] theorem store_setSlot (p : Part) (c : Channel) (slot : Slot) : (p.setSlot c slot).store = p.store := rfl

@[simp] theorem store_updFaults (p : Part) (f : FaultSet → FaultSet) : (p.updFaults f).store = p.store := rfl

@[simp] theorem store_placeReply (p : Part) (tag kind : Byte) (status : Status) (contents : List Byte) :
    (p.placeReply tag kind status contents).store = p.store := rfl

@[simp] theorem store_evalHold (p : Part) : p.evalHold.store = p.store := rfl

@[simp] theorem store_orphan (p : Part) : p.orphan.store = p.store := rfl

@[simp] theorem store_malformed (p : Part) : p.malformed.store = p.store := rfl

@[simp] theorem store_refused (p : Part) : p.refused.store = p.store := rfl

@[simp] theorem store_notify (p : Part) (n : Notice) : (p.notify n).store = p.store := (Kept.notify p n).store_eq

@[simp] theorem store_settle (p : Part) (reports : List Report) : (p.settle reports).store = p.store :=
  (Kept.settle p reports).store_eq

@[simp] theorem store_settleAfter (p : Part) (report : Option Report) : (p.settleAfter report).store = p.store :=
  (Kept.settleAfter p report).store_eq

@[simp] theorem store_retryPass (p : Part) : p.retryPass.store = p.store := (Kept.retryPass p).store_eq

@[simp] theorem store_retire (p : Part) (b : Block) (cause : RetireCause) : (p.retire b cause).store = p.store :=
  (Kept.retire p b cause).store_eq

@[simp] theorem store_enqueueErase (p : Part) (b : Block) (r : EraseRequester) : (p.enqueueErase b r).store = p.store :=
  (Kept.enqueueErase p b r).store_eq

@[simp] theorem store_opDone (p : Part) (r : EraseRequester) (b : Block) (o : OpOutcome) :
    (p.opDone r b o).store = p.store := (Kept.opDone p r b o).store_eq

@[simp] theorem store_addDue (p : Part) (c : Channel) (f : CloseDue → CloseDue) : (p.addDue c f).store = p.store :=
  (Kept.addDue p c f).store_eq

@[simp] theorem store_takeTrigger (p : Part) (c : Channel) (cause : EventCause) :
    (p.takeTrigger c cause).1.store = p.store := (Kept.takeTrigger p c cause).store_eq

@[simp] theorem store_setEntries (p : Part) (entries : List Entry) (c : Channel) :
    (p.setEntries entries c).store = p.store := (Kept.setEntries p entries c).store_eq

@[simp] theorem store_drain (p : Part) (c : Channel) : (p.drain c).store = p.store := (Kept.drain p c).store_eq

@[simp] theorem store_errorFrame (p : Part) (c : Channel) (x : Content) (d : Disposition) (r : Option Nat) :
    (p.errorFrame c x d r).store = p.store := (Kept.errorFrame p c x d r).store_eq

@[simp] theorem store_joinPrograms (p : Part) (req : ProgramReq) : (p.joinPrograms req).store = p.store :=
  (Kept.joinPrograms p req).store_eq

@[simp] theorem store_presentRead (p : Part) (req : ReadReq) : (p.presentRead req).store = p.store :=
  (Kept.presentRead p req).store_eq

@[simp] theorem store_gatherHeader (p : Part) (g : Gather) : (p.gatherHeader g).store = p.store :=
  congrArg Frozen.store (Kept.gather_present p _ _ _).1

/-! ### Requests leave the store alone: what they ask of it, the Store Controller does later -/

/-- The cases of R186 leave the store to the owner's work. -/
theorem store_answer (p : Part) (kind tag : Byte) (body : List Byte) (work : Part → Part)
    (keeps : ∀ q, (work q).store = q.store) : (p.answer kind tag body work).store = p.store := by
  unfold answer
  split
  · rfl
  · repeat' split
    all_goals simp [keeps]

@[simp] theorem store_identify (p : Part) (tag : Byte) : (p.identify tag).store = p.store := by
  unfold identify
  split <;> rfl

@[simp] theorem store_clearFaults (p : Part) (tag : Byte) : (p.clearFaults tag).store = p.store := by
  simp [clearFaults]

@[simp] theorem store_eraseBlockAt (p : Part) (tag : Byte) (b : Block) : (p.eraseBlockAt tag b).store = p.store := by
  unfold eraseBlockAt
  dsimp only
  repeat' split
  all_goals simp

@[simp] theorem store_eraseBlock (p : Part) (tag : Byte) (body : List Byte) :
    (p.eraseBlock tag body).store = p.store := by
  unfold eraseBlock
  split <;> simp

@[simp] theorem store_presentUnit (p : Part) (tag kind : Byte) (op : ProgramOp) :
    (p.presentUnit tag kind op).store = p.store := by
  simp [presentUnit]

@[simp] theorem store_unitWrite (p : Part) (tag : Byte) (body : List Byte) : (p.unitWrite tag body).store = p.store := by
  unfold unitWrite
  repeat' split
  all_goals simp

@[simp] theorem store_unitLock (p : Part) (tag : Byte) : (p.unitLock tag).store = p.store := by
  unfold unitLock
  repeat' split
  all_goals simp

/-- A lock request writes the directory and the Journal Engine alone over its range. -/
theorem store_lockRange {one : Part → Block → LockEffect × Part} {effect : Bool → DirEntry → LockEffect}
    {entry : Bool → DirEntry → DirEntry} (h : LockLocal one effect entry) (p : Part) (first last : Nat) :
    (p.lockRange one first last).part.store = p.store := by
  obtain ⟨⟨dir, je, part⟩, -⟩ := h.range p first last
  rw [part]

@[simp] theorem store_lockBlocks (p : Part) (tag : Byte) (body : List Byte) :
    (p.lockBlocks tag body).store = p.store := by
  unfold lockBlocks
  split <;> simp [store_lockRange lockOne_local]

@[simp] theorem store_unlockBlocks (p : Part) (tag : Byte) (body : List Byte) :
    (p.unlockBlocks tag body).store = p.store := by
  unfold unlockBlocks
  split <;> simp [store_lockRange unlockOne_local]

@[simp] theorem store_downBlocks (p : Part) (tag : Byte) (body : List Byte) :
    (p.downBlocks tag body).store = p.store := by
  unfold downBlocks
  split <;> simp [store_lockRange downOne_local]

@[simp] theorem store_mapWriteFixed (p : Part) (tag : Byte) (body : List Byte) :
    (p.mapWriteFixed tag body).store = p.store := by
  unfold mapWriteFixed
  split <;> rfl

@[simp] theorem store_mapWriteVariable (p : Part) (tag : Byte) (body : List Byte) :
    (p.mapWriteVariable tag body).store = p.store := by
  unfold mapWriteVariable
  split <;> rfl

@[simp] theorem store_mapWriteDefault (p : Part) (tag : Byte) (body : List Byte) :
    (p.mapWriteDefault tag body).store = p.store := by
  unfold mapWriteDefault
  split <;> rfl

@[simp] theorem store_mapQuery (p : Part) (tag : Byte) (body : List Byte) : (p.mapQuery tag body).store = p.store := by
  unfold mapQuery
  split <;> rfl

/-- The examination of an apply makes closes due and changes nothing kept (R69). -/
theorem examine_kept (p : Part) (c : Channel) : Kept p (p.examine c) := by
  unfold examine
  split
  · split
    · exact .refl p
    · exact .addDue p c _
  · exact .refl p

@[simp] theorem store_mapApply (p : Part) (tag : Byte) : (p.mapApply tag).store = p.store := by
  have examined := (Kept.foldl examine examine_kept allChannels { p with active := p.staged }).store_eq
  simpa [mapApply] using examined

@[simp] theorem store_trigger (p : Part) (tag : Byte) (body : List Byte) : (p.trigger tag body).store = p.store := by
  unfold trigger
  split
  · rfl
  · rename_i c _
    have triggered := p.store_takeTrigger c .host
    split <;> rename_i taken <;> rw [taken] at triggered <;> exact triggered

/-- The blocks of a dropped event are released, and nothing kept changes (R117). -/
theorem dropEvent_kept (p : Part) (e : Event) : Kept p (p.dropEvent e) := by
  have released : Kept p (e.held.foldl releaseBlock p) :=
    .foldl releaseBlock (fun q b => .updEntry q b _ (fun _ => .same rfl rfl rfl rfl)) e.held p
  exact released.trans (.events _ _)

@[simp] theorem store_releaseEvent (p : Part) (tag : Byte) (body : List Byte) :
    (p.releaseEvent tag body).store = p.store := by
  unfold releaseEvent
  split
  · rfl
  · rename_i e _
    simp [(dropEvent_kept p e).store_eq]

@[simp] theorem store_getEvent (p : Part) (tag : Byte) (body : List Byte) : (p.getEvent tag body).store = p.store := by
  unfold getEvent
  split <;> rfl

@[simp] theorem store_setQueue (p : Part) (tag : Byte) (body : List Byte) : (p.setQueue tag body).store = p.store := by
  unfold setQueue
  dsimp only
  split <;> rfl

@[simp] theorem store_flushChannel (p : Part) (tag : Byte) (body : List Byte) :
    (p.flushChannel tag body).store = p.store := by
  unfold flushChannel
  split <;> simp [flush]

@[simp] theorem store_setChannel (p : Part) (tag : Byte) (body : List Byte) :
    (p.setChannel tag body).store = p.store := by
  unfold setChannel
  repeat' split
  all_goals rfl

@[simp] theorem store_getChannel (p : Part) (tag : Byte) (body : List Byte) :
    (p.getChannel tag body).store = p.store := by
  unfold getChannel
  repeat' split
  all_goals rfl

@[simp] theorem store_startChannel (p : Part) (tag : Byte) (body : List Byte) :
    (p.startChannel tag body).store = p.store := by
  unfold startChannel
  repeat' split
  all_goals rfl

@[simp] theorem store_stopChannelAt (p : Part) (tag : Byte) (c : Channel) (close : Bool) :
    (p.stopChannelAt tag c close).store = p.store := by
  unfold stopChannelAt
  split <;> simp [replyStop, beginStop]

@[simp] theorem store_stopChannel (p : Part) (tag : Byte) (body : List Byte) :
    (p.stopChannel tag body).store = p.store := by
  unfold stopChannel
  split <;> simp

@[simp] theorem store_readRecordsAt (p : Part) (tag : Byte) (c : Channel) (start max : Nat) :
    (p.readRecordsAt tag c start max).store = p.store := by
  unfold readRecordsAt
  repeat' split
  all_goals simp

@[simp] theorem store_readRecords (p : Part) (tag : Byte) (body : List Byte) :
    (p.readRecords tag body).store = p.store := by
  unfold readRecords
  repeat' split
  all_goals simp

@[simp] theorem store_listJournal (p : Part) (tag : Byte) (body : List Byte) :
    (p.listJournal tag body).store = p.store := by
  unfold listJournal
  repeat' split
  all_goals rfl

@[simp] theorem store_getBlock (p : Part) (tag : Byte) (body : List Byte) : (p.getBlock tag body).store = p.store := by
  unfold getBlock
  split <;> rfl

/-! ### Packets leave the store alone -/

@[simp] theorem store_arrivalNotice (p : Part) (e : Entry) (d : Disposition) : (p.arrivalNotice e d).store = p.store := by
  unfold arrivalNotice
  split <;> simp

@[simp] theorem store_push (p : Part) (e : Entry) : (p.push e).store = p.store := by
  unfold push
  split <;> simp [accept, overrun]

@[simp] theorem store_completeFrame (p : Part) (c : Channel) (f : Frame) (tags : TagSet) :
    (p.completeFrame c f tags).store = p.store := by
  unfold completeFrame
  dsimp only
  repeat' split
  all_goals simp

@[simp] theorem store_truncate (p : Part) (c : Channel) : (p.truncate c).store = p.store := by
  unfold truncate
  split <;> simp

@[simp] theorem store_takeFs (p : Part) (c : Channel) (number : Word16) : (p.takeFs c number).store = p.store := by
  unfold takeFs openFrame
  dsimp only
  split <;> simp

@[simp] theorem store_takeData (p : Part) (c : Channel) (words : Option (List Word16)) :
    (p.takeData c words).store = p.store := by
  unfold takeData
  split <;> simp [append]

@[simp] theorem store_takeFe (p : Part) (c : Channel) (number : Word16) : (p.takeFe c number).store = p.store := by
  unfold takeFe
  split <;> simp

@[simp] theorem store_offerAbort (p : Part) (c : Channel) : (p.offerAbort c).store = p.store := by
  unfold offerAbort
  split <;> simp

@[simp] theorem store_takeAbort (p : Part) (c : Channel) : (p.takeAbort c).store = p.store := by
  unfold takeAbort
  split <;> simp

@[simp] theorem store_takeMark (p : Part) (c : Channel) (code : Byte) : (p.takeMark c code).store = p.store := by
  simp [takeMark]

/-- The end of a selection leaves the store to what takes the packet (R154). -/
theorem store_selectionEnds (p : Part) (take : Part → Part) (keeps : ∀ q, (take q).store = q.store) :
    (p.selectionEnds take).store = p.store := by
  unfold selectionEnds
  split
  · rfl
  · exact keeps p

/-- The judging of a packet leaves the store to what the slot does with it (R156). -/
theorem store_receive (p : Part) (c : Channel) (act : Part → Part) (keeps : ∀ q, (act q).store = q.store) :
    (p.receive c act).store = p.store := by
  refine p.store_selectionEnds _ (fun q => ?_)
  unfold judge
  repeat' split
  all_goals simp [keeps]

/-! ### The Transmit Arbiter and the image load leave the store alone -/

@[simp] theorem store_beginMessage (p : Part) : p.beginMessage.store = p.store := by
  unfold beginMessage
  repeat' split
  all_goals rfl

@[simp] theorem store_answerHeldIdentify (p : Part) : p.answerHeldIdentify.store = p.store := by
  unfold answerHeldIdentify
  split <;> rfl

@[simp] theorem store_scanHeader (p : Part) : p.scanHeader.store = p.store :=
  congrArg Frozen.store (Kept.scan_header p).1

end Part

/-! ### The commands that leave the store alone -/

/-- A command that can write the store: one that can begin a reset, which aborts the store work in progress (R48), or that
ends a program or an erase pulse (R28, R31). -/
def writesStore : Instr → Bool
  | .powerOnReset _ _ | .powerFall | .resetNAssert _ | .resetNRelease _ _ | .messageEnd => true
  | .programComplete _ | .erasePulseEnd _ => true
  | _ => false

/-- A request command leaves the store alone where its owner's work does. -/
theorem serve_store {kind tag : Byte} {body : List Byte} {work : Part → Part} {s t : State}
    (h : serve kind tag body work s = .next t) (keeps : ∀ q, (work q).store = q.store) : t.part.store = s.part.store := by
  obtain idle | ⟨p, taken, answered⟩ := serve_cases kind tag body work s
  · cases idle.symm.trans h
    rfl
  · cases answered.symm.trans h
    have sameStore : p.store = s.part.store := by
      unfold Part.takeFromBuffer at taken
      repeat' split at taken
      all_goals cases taken
      all_goals rfl
    exact (p.store_answer kind tag body work keeps).trans sameStore

/-- A command that acts under a guard, and otherwise has no effect, leaves the store alone where its action does. -/
theorem guarded_store {guard : Prop} [Decidable guard] {s t : State} {q : Part}
    (h : (if guard then Host.Outcome.next (s.withPart q) else .next s : Host.Outcome State Fault Refusal) = .next t)
    (keeps : q.store = s.part.store) : t.part.store = s.part.store := by
  split at h <;> cases h
  · exact keeps
  · rfl

/-- Every command that is no reset and ends no program or pulse leaves every byte of the store. -/
theorem exec_store {c : Instr} {s t : State} (plain : writesStore c = false) (h : exec c s = .next t) :
    t.part.store = s.part.store := by
  cases c
  case powerOnReset | powerFall | resetNAssert | resetNRelease | messageEnd | programComplete | erasePulseEnd =>
    cases plain
  case protNChange asserted =>
    simp only [exec, execProtNChange] at h
    split at h <;> cases h
    · rfl
    · dsimp only
      split <;> simp
  case cpermNChange => cases h; rfl
  case controlFrameReceive => exact guarded_store h rfl
  case interByteGapExpiry =>
    simp only [exec, execInterByteGapExpiry] at h
    split at h <;> cases h <;> rfl
  case messageBegin => exact guarded_store h (Part.store_beginMessage _)
  case unknownKind kind tag body =>
    simp only [exec, execUnknownKind] at h
    split at h
    · exact serve_store h (fun _ => rfl)
    · cases h; rfl
  case identify => exact serve_store h (fun q => q.store_identify _)
  case getStatus | restart | setNotices | unitRead | mapWriteControl | mapRead | listEvents =>
    exact serve_store h (fun _ => rfl)
  case clearFaults => exact serve_store h (fun q => q.store_clearFaults _)
  case eraseBlock => exact serve_store h (fun q => q.store_eraseBlock _ _)
  case unitWrite => exact serve_store h (fun q => q.store_unitWrite _ _)
  case unitLock => exact serve_store h (fun q => q.store_unitLock _)
  case lockBlocks => exact serve_store h (fun q => q.store_lockBlocks _ _)
  case unlockBlocks => exact serve_store h (fun q => q.store_unlockBlocks _ _)
  case downBlocks => exact serve_store h (fun q => q.store_downBlocks _ _)
  case mapWriteFixed => exact serve_store h (fun q => q.store_mapWriteFixed _ _)
  case mapWriteVariable => exact serve_store h (fun q => q.store_mapWriteVariable _ _)
  case mapWriteDefault => exact serve_store h (fun q => q.store_mapWriteDefault _ _)
  case mapQuery => exact serve_store h (fun q => q.store_mapQuery _ _)
  case mapApply => exact serve_store h (fun q => q.store_mapApply _)
  case trigger => exact serve_store h (fun q => q.store_trigger _ _)
  case releaseEvent => exact serve_store h (fun q => q.store_releaseEvent _ _)
  case getEvent => exact serve_store h (fun q => q.store_getEvent _ _)
  case setQueue => exact serve_store h (fun q => q.store_setQueue _ _)
  case flushChannel => exact serve_store h (fun q => q.store_flushChannel _ _)
  case setChannel => exact serve_store h (fun q => q.store_setChannel _ _)
  case getChannel => exact serve_store h (fun q => q.store_getChannel _ _)
  case startChannel => exact serve_store h (fun q => q.store_startChannel _ _)
  case stopChannel => exact serve_store h (fun q => q.store_stopChannel _ _)
  case readRecords => exact serve_store h (fun q => q.store_readRecords _ _)
  case listJournal => exact serve_store h (fun q => q.store_listJournal _ _)
  case getBlock => exact serve_store h (fun q => q.store_getBlock _ _)
  case fsPacket c number => exact guarded_store h (Part.store_receive _ c _ (fun q => by simp))
  case dataPacket c count tail => exact guarded_store h (Part.store_receive _ c _ (fun q => by simp))
  case fePacket c number => exact guarded_store h (Part.store_receive _ c _ (fun q => by simp))
  case abortPacket c value => exact guarded_store h (Part.store_receive _ c _ (fun q => by simp))
  case markPacket c code => exact guarded_store h (Part.store_receive _ c _ (fun q => by simp))
  case malformedPacket nibbles =>
    refine guarded_store h (Part.store_selectionEnds _ _ (fun q => ?_))
    split <;> rfl
  case frameTimeoutExpiry => exact guarded_store h (by simp)
  case readComplete =>
    simp only [exec, execReadComplete] at h
    split at h <;> cases h
    · exact (Part.store_settleAfter _ _).trans (Kept.freeArray s.part).store_eq
    · rfl
  case eraseSliceTimerExpiry => exact guarded_store h rfl
  case suspensionTakesEffect ran =>
    simp only [exec, execSuspensionTakesEffect] at h
    split at h
    · exact guarded_store h (Part.store_settleAfter _ _)
    · cases h; rfl
  case unitAreaImageLoadEnd => exact guarded_store h (by simp [Part.loadImage])

/-! ### The commands that write the store keep it canonical -/

namespace Part

theorem storeCanonical_of_eq {p q : Part} (same : q.store = p.store) (w : p.storeCanonical = true) :
    q.storeCanonical = true := by
  unfold storeCanonical
  rw [same]
  exact w

theorem storeCanonical_of_kept {p q : Part} (h : Kept p q) (w : p.storeCanonical = true) : q.storeCanonical = true :=
  storeCanonical_of_eq h.store_eq w

/-- Free values drawn over some bytes (R48). -/
theorem storeCanonical_scramble {p : Part} (a n : Nat) (w : p.storeCanonical = true) :
    (p.scramble a n).storeCanonical = true := Memory.wf_writeBytes a _ w

/-- A program aborted by a reset (R48). -/
theorem storeCanonical_abortArray {p : Part} (w : p.storeCanonical = true) : p.abortArray.storeCanonical = true := by
  unfold abortArray
  split
  · unfold abortProgram
    split
    · exact storeCanonical_scramble _ _ w
    · split <;> exact w
  · exact w

/-- An erase aborted by a reset (R48). -/
theorem storeCanonical_abortErase {p : Part} (w : p.storeCanonical = true) : p.abortErase.storeCanonical = true := by
  unfold abortErase
  split
  · exact storeCanonical_scramble _ _ w
  · exact w

/-- A reset keeps what the aborted store work has left (R196). -/
theorem store_resetUnits (p : Part) : p.resetUnits.store = p.abortArray.abortErase.store := rfl

theorem store_startUp (p : Part) (cause : ResetCause) : (p.startUp cause).store = p.resetUnits.store := rfl

theorem storeCanonical_resetUnits {p : Part} (w : p.storeCanonical = true) : p.resetUnits.storeCanonical = true :=
  storeCanonical_of_eq p.store_resetUnits (storeCanonical_abortErase (storeCanonical_abortArray w))

theorem storeCanonical_startUp {p : Part} (cause : ResetCause) (w : p.storeCanonical = true) :
    (p.startUp cause).storeCanonical = true :=
  storeCanonical_of_eq (p.store_startUp cause) (storeCanonical_resetUnits w)

/-- A program of the 128 blocks that ends, verified or not (R28, R29). -/
theorem storeCanonical_writeProgram {p : Part} (a : Nat) (bytes : List Byte) (failure : Option Nat)
    (w : p.storeCanonical = true) : (p.writeProgram a bytes failure).storeCanonical = true := by
  cases failure with
  | none => exact Memory.wf_writeBytes a bytes w
  | some line => exact storeCanonical_scramble _ _ (Memory.wf_writeBytes a _ w)

/-- A program of the unit area writes no byte of the store (R51, R52). -/
theorem store_writeUnit (p : Part) (op : ProgramOp) (failed : Bool) : (p.writeUnit op failed).store = p.store := by
  cases op <;> cases failed <;> rfl

theorem store_readBackUnit (p : Part) (op : ProgramOp) : (p.readBackUnit op).store = p.store := by
  cases op <;> rfl

theorem storeCanonical_programEnds {p : Part} (op : ProgramOp) (failure : Option Nat) (w : p.storeCanonical = true) :
    (p.programEnds op failure).storeCanonical = true := by
  refine storeCanonical_of_kept (Kept.programEnds p op failure) ?_
  unfold programLeaves
  split
  · exact storeCanonical_writeProgram _ _ _ w
  · exact storeCanonical_of_eq ((store_readBackUnit _ op).trans (p.store_writeUnit op _)) w

/-- An erase that ends OK or ERASE_FAIL, and a pulse that another follows (R31, R45). -/
theorem storeCanonical_pulseEnds {p : Part} (e : RunningErase) (verified : Bool) (w : p.storeCanonical = true) :
    (p.pulseEnds e verified).storeCanonical = true := by
  have erased : (p.eraseOk e.block).storeCanonical = true :=
    storeCanonical_of_kept (Kept.eraseOk p e.block) (Memory.wf_eraseRange _ _ w)
  have failed : (p.eraseFails e.block).storeCanonical = true :=
    storeCanonical_of_kept (Kept.eraseFails p e.block) (storeCanonical_scramble _ _ w)
  unfold pulseEnds
  split
  · exact storeCanonical_of_kept (Kept.settleAfter _ _) erased
  · split
    · exact storeCanonical_of_kept (Kept.settleAfter _ _) failed
    · exact w

end Part

/-- A command that can write the store keeps its canonical form. -/
theorem exec_writing_keeps_storeCanonical {c : Instr} {s t : State} (writes : writesStore c = true)
    (w : s.part.storeCanonical = true) (h : exec c s = .next t) : t.part.storeCanonical = true := by
  cases c
  case powerOnReset rate1 rate0 =>
    cases h
    dsimp only
    split
    · exact Part.storeCanonical_resetUnits w
    · exact Part.storeCanonical_startUp _ w
  case powerFall =>
    cases h
    exact Part.storeCanonical_resetUnits w
  case resetNAssert low =>
    simp only [exec, execResetNAssert] at h
    split at h <;> cases h
    · exact Part.storeCanonical_resetUnits w
    · exact w
  case resetNRelease rate1 rate0 =>
    simp only [exec, execResetNRelease] at h
    repeat' split at h
    all_goals cases h
    · exact Part.storeCanonical_startUp _ w
    · exact w
    · exact w
  case messageEnd =>
    simp only [exec, execMessageEnd] at h
    split at h <;> cases h
    · dsimp only
      split
      · exact Part.storeCanonical_startUp _ w
      · exact w
    · exact w
  case programComplete outcome =>
    simp only [exec, execProgramComplete] at h
    split at h <;> cases h
    · exact Part.storeCanonical_of_kept (Kept.settleAfter _ _) (Part.storeCanonical_programEnds _ _ w)
    · exact w
  case erasePulseEnd verified =>
    simp only [exec, execErasePulseEnd] at h
    split at h <;> cases h
    · exact Part.storeCanonical_pulseEnds _ verified w
    · exact w
  all_goals cases writes

theorem exec_keeps_storeCanonical {c : Instr} {s t : State} (w : s.part.storeCanonical = true)
    (h : exec c s = .next t) : t.part.storeCanonical = true := by
  cases writes : writesStore c with
  | true => exact exec_writing_keeps_storeCanonical writes w h
  | false => exact Part.storeCanonical_of_eq (exec_store writes h) w

/-- Settles O58: the idle step changes nothing, and a command either leaves the store alone or writes it through
`Memory.writeBytes` and `Memory.eraseRange`, which keep the canonical form. -/
theorem stepKeepsStoreCanonical : Obligations.StepKeepsStoreCanonical := by
  intro s t w h
  obtain ⟨part, pending⟩ := s
  cases pending with
  | nil =>
    cases h
    exact w
  | cons c rest => exact exec_keeps_storeCanonical (s := { part, pending := rest }) w h

end Sys2Proof.Machine
end

/-! ## The protection pin and the lock requests (R21 to R26) -/

section
namespace Sys2Proof.Machine

/-- The three effective lock states exclude each other: DOWN before LOCKED before UNLOCKED (R21). -/
theorem DirEntry.lockState_iff (protN : Bool) (e : DirEntry) :
    (e.lockState protN = .down ↔ e.downFlag = true ∧ protN = true)
      ∧ (e.lockState protN = .locked ↔ ¬(e.downFlag = true ∧ protN = true) ∧ e.lockBit = true)
      ∧ (e.lockState protN = .unlocked ↔ ¬(e.downFlag = true ∧ protN = true) ∧ e.lockBit = false) := by
  unfold DirEntry.lockState
  by_cases down : e.downFlag = true ∧ protN = true
  · simp [down]
  · have notDown : (e.downFlag && protN) = false := by simpa using down
    cases bit : e.lockBit <;> simp [notDown, down]

/-- Settles O8: the reactions to a new level of PROT_N keep the pins, and the lock fields of a block with no lock pending. -/
theorem protectionPinFollowed : Obligations.ProtectionPinFollowed := by
  refine ⟨fun p b => (p.entry b).lockState_iff p.pins.protN, fun s a => ⟨fun same => ?_, fun changes live => ?_⟩⟩
  · simp [exec, execProtNChange, same]
  · let q : Part := { s.part with pins := { s.part.pins with protN := a } }
    have isLive : q.live = true := live
    have reacts : Kept q (q.settle [.retryDue]) := Kept.settle q _
    refine ⟨s.withPart (q.settle [.retryDue]), ⟨?_, rfl, reacts⟩, ?_, fun ready b clear => ?_⟩
    · simp [exec, execProtNChange, changes, q, isLive]
    · simp [reacts.pins_eq, q]
    · exact (((reacts.ready ready).2.2 b).still clear).2

/-! ### The range a lock request names -/

/-- A range is refused where it ends before it begins, or past block 127 (R22 to R24). -/
theorem badRange_iff (first last : Byte) :
    badRange [first, last] = true ↔ last.toNat < first.toNat ∨ 127 < last.toNat := by
  simp [badRange, byteAt]

/-- Settles O22: the three requests pass the checks of R186, and their owners' first check refuses the range. -/
theorem lockRangeRefused : Obligations.LockRangeRefused := by
  intro s tag first last p ready outside
  have bad : badRange [first, last] = true := (badRange_iff first last).mpr outside
  refine ⟨fun req => (serve_work req _ rfl ready rfl).trans ?_, fun req => (serve_work req _ rfl ready rfl).trans ?_,
    fun req => (serve_work req _ rfl ready rfl).trans ?_⟩
  · simp [Part.lockBlocks, bad]
  · simp [Part.unlockBlocks, bad]
  · simp [Part.downBlocks, bad]

theorem badRange_eq_false {first last : Byte} (le : first.toNat ≤ last.toNat) (inside : last.toNat ≤ 127) :
    badRange [first, last] = false := by
  rw [Bool.eq_false_iff, Ne, badRange_iff]
  omega

/-- A count depends on the test's value at the entries alone. -/
theorem Part.tally_congr (p : Part) (first last : Nat) {f g : Block → DirEntry → Bool}
    (same : ∀ b, f b (p.entry b) = g b (p.entry b)) : p.tally first last f = p.tally first last g := by
  simp [Part.tally, same]

/-! ### Invariants over the blocks of a lock request -/

namespace LockLocal

variable {one : Part → Block → LockEffect × Part} {effect : Bool → DirEntry → LockEffect}
  {entry : Bool → DirEntry → DirEntry}

/-- A block's turn writes its own entry. -/
theorem entry_one (h : LockLocal one effect entry) (p : Part) (a b : Block) :
    (one p a).2.entry b = if a = b then entry p.pins.protN (p.entry a) else p.entry b := by
  obtain ⟨je, part⟩ := h.part p a
  rw [part]
  exact Part.entry_updEntry p a b _

theorem pins_one (h : LockLocal one effect entry) (p : Part) (a : Block) : (one p a).2.pins = p.pins := by
  obtain ⟨je, part⟩ := h.part p a
  rw [part]
  rfl

/-- What each block's turn keeps, the request keeps; at its turn a block's entry is as it was before the request. -/
theorem range_invariant (h : LockLocal one effect entry) (p : Part) (first last : Nat) (I : Part → Prop) (init : I p)
    (turn : ∀ (q : Part) (b : Block), first ≤ b.val → b.val ≤ last → q.pins = p.pins → q.entry b = p.entry b → I q →
      I (one q b).2) :
    I (p.lockRange one first last).part := by
  have fold : ∀ (l : List Block) (t : LockTally), l.Nodup → (∀ b ∈ l, b ∈ blockRange first last) →
      t.part.pins = p.pins → (∀ b ∈ l, t.part.entry b = p.entry b) → I t.part →
      I (l.foldl (fun t b => t.count (one t.part b).1 (one t.part b).2) t).part := by
    intro l
    induction l with
    | nil => exact fun t _ _ _ _ now => now
    | cons a l ih =>
      intro t once inRange pins entries now
      obtain ⟨out, once⟩ := List.nodup_cons.mp once
      obtain ⟨low, high⟩ := (mem_blockRange first last a).mp (inRange a List.mem_cons_self)
      refine ih _ once (fun b hb => inRange b (List.mem_cons_of_mem a hb)) ((h.pins_one t.part a).trans pins)
        (fun b hb => ?_) (turn t.part a low high pins (entries a List.mem_cons_self) now)
      have other : a ≠ b := fun same => out (same ▸ hb)
      exact (h.entry_one t.part a b).trans ((if_neg other).trans (entries b (List.mem_cons_of_mem a hb)))
  exact fold (blockRange first last) _ ((List.nodup_finRange 128).filter _) (fun _ hb => hb) rfl (fun _ _ => rfl) init

/-- What the turn of one block of the range brings about and every other turn keeps holds after the request, where the
block's entry shows that its turn has come. -/
theorem range_reaches (h : LockLocal one effect entry) (p : Part) {first last : Nat} {b : Block} (low : first ≤ b.val)
    (high : b.val ≤ last) (changes : entry p.pins.protN (p.entry b) ≠ p.entry b) (P : Part → Prop)
    (turn : ∀ q : Part, q.pins = p.pins → q.entry b = p.entry b → P (one q b).2)
    (keeps : ∀ (q : Part) (a : Block), P q → P (one q a).2) :
    P (p.lockRange one first last).part := by
  have turned : (p.lockRange one first last).part.entry b ≠ p.entry b := by
    obtain ⟨-, entries, -⟩ := h.range p first last
    rw [entries b, if_pos ⟨low, high⟩]
    exact changes
  refine h.range_invariant p first last (fun q => q.entry b ≠ p.entry b → P q) (fun now => absurd rfl now)
    (fun q a _ _ pins same now => ?_) turned
  by_cases mine : a = b
  · subst mine
    exact fun _ => turn q pins same
  · rw [h.entry_one q a b, if_neg mine]
    exact fun later => keeps q a (now later)

/-- The reactions to a lock request that is answered OK: its reply and the store stay, and each block's lock fields follow
from the entry the request left. -/
theorem range_reacts (h : LockLocal one effect entry) {s : State} {kind tag : Byte} {body contents : List Byte} {p r : Part}
    {first last : Nat} (req : Requested s kind tag body p) (ready : s.part.device = .ready)
    (reacts : Kept ((p.lockRange one first last).part.placeReply tag kind .ok contents) r) :
    r.ctrl.reply = some { tag, kind, status := .ok, contents } ∧ r.store = s.part.store
      ∧ (∀ b : Block, first ≤ b.val → b.val ≤ last → LockKept (entry p.pins.protN (p.entry b)) (r.entry b))
      ∧ (∀ b : Block, b.val < first ∨ last < b.val → LockKept (p.entry b) (r.entry b)) := by
  obtain ⟨⟨dir, je, part⟩, entries, -, -⟩ := h.range p first last
  obtain ⟨buffer, taken⟩ := requested_part req
  have free : (p.lockRange one first last).part.ctrl.serving = none := by
    rw [part]
    exact (requested_free req).1
  have isReady : (p.lockRange one first last).part.device = .ready := by
    rw [part]
    exact (requested_device req).trans ready
  have kept := (reacts.ready isReady).2.2
  simp only [Part.entry_placeReply, entries] at kept
  refine ⟨reacts.reply_eq free, ?_, fun b low high => ?_, fun b outside => ?_⟩
  · rw [reacts.store_eq, Part.store_placeReply, Part.store_lockRange h, taken]
  · simpa [low, high] using kept b
  · have notIn : ¬(first ≤ b.val ∧ b.val ≤ last) := by omega
    simpa [notIn] using kept b

end LockLocal

/-! ### LOCK in the close due sets -/

namespace Part

@[simp] theorem journal_addDue (p : Part) (c c' : Channel) (f : CloseDue → CloseDue) :
    (p.addDue c f).journal c' = if c = c' then { p.journal c with due := f (p.journal c).due } else p.journal c' := by
  obtain ⟨je, joined, same⟩ := (p.updJournal c (fun j => { j with due := f j.due })).joinClose_je c
  rw [← p.journal_updJournal c c' (fun j => { j with due := f j.due }), addDue, joined]
  simp [journal, same]

/-- LOCK joins the close due set of the block's channel alone (R26). -/
theorem journal_lockDue (p : Part) (b : Block) (c : Channel) :
    (p.lockDue b).journal c = if (p.entry b).channel = some c
      then { p.journal c with due := { (p.journal c).due with lock := true } } else p.journal c := by
  unfold lockDue
  cases channel : (p.entry b).channel with
  | none => simp
  | some c' =>
    by_cases same : c' = c
    · subst same; simp
    · simp [same]

/-- LOCK leaves the close due set of the block's channel alone, where no close mark of the block has joined (R23). -/
theorem journal_lockNotDue (p : Part) (b : Block) (c : Channel) :
    (p.lockNotDue b).journal c = if (p.entry b).channel = some c ∧ p.je.closeMarked b = false
      then { p.journal c with due := { (p.journal c).due with lock := false } } else p.journal c := by
  unfold lockNotDue
  cases channel : (p.entry b).channel with
  | none => simp
  | some c' =>
    cases marked : p.je.closeMarked b with
    | true => simp
    | false =>
      by_cases same : c' = c
      · subst same; simp
      · simp [same]

theorem backlog_lockNotDue (p : Part) (b : Block) : (p.lockNotDue b).je.backlog = p.je.backlog := by
  unfold lockNotDue
  repeat' split
  all_goals rfl

/-! ### One block's turn -/

/-- LOCK_BLOCKS on an OPEN block with no lock pending (R22, R26). -/
theorem lockOne_opened (p : Part) (b : Block) (opened : (p.entry b).state = .opened) (up : p.lockOf b ≠ .down)
    (clear : (p.entry b).pending = .clear) :
    p.lockOne b = (.changed, (p.updEntry b (fun e => { e with pending := .lock })).lockDue b) := by
  simp [lockOne, opened, up, clear]

/-- DOWN_BLOCKS on an OPEN block without lock-pending DOWN (R24, R26). -/
theorem downOne_opened (p : Part) (b : Block) (opened : (p.entry b).state = .opened)
    (other : (p.entry b).pending ≠ .down) :
    p.downOne b = (.changed, (p.updEntry b (fun e => { e with pending := .down })).lockDue b) := by
  simp [downOne, opened, other]

/-- UNLOCK_BLOCKS on an OPEN block with lock-pending LOCK (R23). -/
theorem unlockOne_opened (p : Part) (b : Block) (opened : (p.entry b).state = .opened) (up : p.lockOf b ≠ .down)
    (lock : (p.entry b).pending = .lock) :
    p.unlockOne b = (.changed, (p.updEntry b (fun e => { e with pending := .clear })).lockNotDue b) := by
  simp [unlockOne, opened, up, lock]

/-- UNLOCK_BLOCKS on a block takes LOCK out of a close due set only with the block's lock-pending (R23). -/
theorem unlockOne_je (p : Part) (b : Block) :
    (p.unlockOne b).2.je = p.je
      ∨ (p.entry b).state = .opened
        ∧ (p.unlockOne b).2 = (p.updEntry b (fun e => { e with pending := .clear })).lockNotDue b := by
  unfold unlockOne
  dsimp only
  split
  · exact .inl rfl
  · split
    · split
      · exact .inr ⟨‹_›, rfl⟩
      · exact .inl rfl
      · exact .inl rfl
    · split <;> exact .inl rfl

theorem journal_of_je {p q : Part} (same : q.je = p.je) (c : Channel) : q.journal c = p.journal c := by
  simp [journal, same]

/-- A LOCK in a close due set stays there as LOCK joins another (R26). -/
theorem lockDue_keeps_due {p : Part} {c : Channel} (b : Block) (due : (p.journal c).due.lock = true) :
    ((p.lockDue b).journal c).due.lock = true := by
  rw [journal_lockDue]
  split
  · rfl
  · exact due

theorem lockOne_keeps_due {p : Part} {c : Channel} (b : Block) (due : (p.journal c).due.lock = true) :
    ((p.lockOne b).2.journal c).due.lock = true := by
  unfold lockOne
  dsimp only
  split
  · exact due
  · split
    · split
      · exact lockDue_keeps_due b due
      · exact due
    · split <;> exact due

theorem downOne_keeps_due {p : Part} {c : Channel} (b : Block) (due : (p.journal c).due.lock = true) :
    ((p.downOne b).2.journal c).due.lock = true := by
  unfold downOne
  dsimp only
  split
  · split
    · exact due
    · exact lockDue_keeps_due b due
  · split <;> exact due

theorem unlockOne_keeps_backlog (p : Part) (b : Block) : (p.unlockOne b).2.je.backlog = p.je.backlog := by
  obtain same | ⟨-, withdrawn⟩ := p.unlockOne_je b
  · rw [same]
  · rw [withdrawn, backlog_lockNotDue]
    rfl

theorem unlockOne_keeps_notDue {p : Part} {c : Channel} (b : Block) (due : (p.journal c).due.lock = false) :
    ((p.unlockOne b).2.journal c).due.lock = false := by
  obtain same | ⟨-, withdrawn⟩ := p.unlockOne_je b
  · rwa [journal_of_je same]
  · rw [withdrawn, journal_lockNotDue]
    split
    · rfl
    · exact due

end Part

/-- A close mark of the block stands in the backlog. -/
theorem JournalEngine.closeMarked_iff (je : JournalEngine) (b : Block) :
    je.closeMarked b = true ↔ ∃ fill last worn, ProgramOp.closeMark b fill last worn ∈ je.backlog := by
  unfold JournalEngine.closeMarked
  rw [List.any_eq_true]
  constructor
  · rintro ⟨op, member, mark⟩
    cases op with
    | closeMark b' fill last worn =>
      obtain rfl := of_decide_eq_true mark
      exact ⟨fill, last, worn, member⟩
    | _ => cases mark
  · rintro ⟨fill, last, worn, member⟩
    exact ⟨_, member, decide_eq_true rfl⟩

end Sys2Proof.Machine
end

/-! ## The three lock requests (R22 to R26) -/

section
namespace Sys2Proof.Machine

/-! ### The close of one OPEN block -/

/-- LOCK joins the close due set of a block that is its journal's open block, and with nothing in the backlog and no program
outstanding the close mark joins at once (R26, R68). -/
theorem Part.lockDue_joins (p : Part) (b : Block) (c : Channel) (channel : (p.entry b).channel = some c)
    (opened : (p.journal c).openBlock = some b) (backlog : p.je.backlog = []) (outstanding : p.je.outstanding = none) :
    p.lockDue b = { p with je := { (p.updJournal c (fun j => { j with due := { j.due with lock := true } })).je with
      backlog := [.closeMark b (p.entry b).fill (p.entry b).last (p.journal c).due.fail] } } := by
  have due : p.lockDue b = p.addDue c (fun d => { d with lock := true }) := by simp [Part.lockDue, channel]
  rw [due]
  exact p.addDue_joins c b (fun d => { d with lock := true }) opened (by simp [CloseDue.any]) backlog outstanding

/-- A lock pending of the one OPEN block of its journal, the units at rest and the supply good: LOCK joins the close due set,
the close mark joins the backlog, is presented and begins (R26, R60, R68). -/
theorem Part.settle_lockDue (p : Part) (b : Block) (c : Channel) (taken : LockPending) (tag kind : Byte) (status : Status)
    (contents : List Byte) (free : p.lockOf b = .unlocked) (channel : (p.entry b).channel = some c)
    (opened : (p.journal c).openBlock = some b) (quiet : p.JournalsQuiet) (rest : p.StoreQuiet) (supplied : p.Supplied) :
    let t := (((p.updEntry b (fun e => { e with pending := taken })).lockDue b).placeReply tag kind status contents).settle []
    t.entry b = { p.entry b with pending := taken }
      ∧ (t.journal c).due = { (p.journal c).due with lock := true }
      ∧ t.ctl.array = some (.program
          { source := .journalEngine, op := .closeMark b (p.entry b).fill (p.entry b).last (p.journal c).due.fail }) := by
  let q := p.updEntry b (fun e => { e with pending := taken })
  let r := (q.lockDue b).placeReply tag kind status contents
  let op : ProgramOp := .closeMark b (p.entry b).fill (p.entry b).last (p.journal c).due.fail
  have entryQ : q.entry b = { p.entry b with pending := taken } := p.entry_updEntry_self b _
  have channelQ : (q.entry b).channel = some c := by rw [entryQ]; exact channel
  have journals (c' : Channel) : r.journal c' = if c = c'
      then { p.journal c' with due := { (p.journal c').due with lock := true } } else p.journal c' := by
    have joined := q.journal_lockDue b c'
    simp only [channelQ, Option.some.injEq] at joined
    exact joined
  have fields : r.dir = q.dir ∧ r.pins = p.pins ∧ r.queue = p.queue ∧ r.ctl = p.ctl ∧ r.supply = p.supply
      ∧ r.je.backlog = [op] ∧ r.je.outstanding = none ∧ r.je.hold = p.je.hold := by
    simp only [r, q.lockDue_joins b c channelQ opened quiet.backlog quiet.outstanding, entryQ]
    exact ⟨rfl, rfl, rfl, rfl, rfl, rfl, quiet.outstanding, rfl⟩
  obtain ⟨dir, pins, queue, ctl, supply, backlog, outstanding, hold⟩ := fields
  have entryR : r.entry b = { p.entry b with pending := taken } := by
    rw [← entryQ, Part.entry, dir]
    rfl
  have closes := r.joinClose_served c b (by rw [journals, if_pos rfl]; exact opened)
    (by simp [JournalEngine.hasHeader, backlog, op, ProgramOp.block])
    (fun c' other => by rw [journals, if_neg (Ne.symm other)]; exact quiet.due c')
  have unlocked : r.protectionOk op.block = true := by
    have sameLock : r.lockOf b = p.lockOf b := by
      rw [lockOf, entryR, pins]
      rfl
    simp [protectionOk, op, ProgramOp.block, sameLock, free]
  have runs : r.settle [] = r.runsHeader op :=
    r.settle_runsHeader op (queue ▸ quiet.entries) backlog outstanding closes
      ⟨ctl ▸ rest.array, ctl ▸ rest.erase, ctl ▸ rest.suspended, ctl ▸ rest.programs, ctl ▸ rest.readSlot,
        ctl ▸ rest.eraseQueue⟩
      ⟨ctl ▸ supplied.fault, hold ▸ supplied.hold, supply ▸ supplied.coming, supply ▸ supplied.level⟩ unlocked
  show (r.settle []).entry b = _ ∧ ((r.settle []).journal c).due = _ ∧ (r.settle []).ctl.array = _
  rw [runs]
  refine ⟨entryR, ?_, rfl⟩
  show (r.journal c).due = _
  rw [journals, if_pos rfl]

/-- A range of one block is that block's turn. -/
theorem Part.lockRange_one (p : Part) (one : Part → Block → LockEffect × Part) (b : Block) :
    (p.lockRange one b.val b.val).part = (one p b).2 := by
  rw [Part.lockRange, blockRange_one]
  rfl

/-! ### LOCK_BLOCKS (R22) -/

/-- The counts of LOCK_BLOCKS: a DOWN block is refused; an OPEN block changes where no lock is pending, another where its
lock bit is clear. -/
theorem Part.lockRange_lockOne_bytes (p : Part) (first last : Nat) :
    (p.lockRange Part.lockOne first last).bytes
      = [BitVec.ofNat 8 (p.tally first last (fun b e => decide (p.lockOf b ≠ .down)
            && if e.state = .opened then decide (e.pending = .clear) else !e.lockBit)),
          BitVec.ofNat 8 (p.tally first last (fun b _ => decide (p.lockOf b = .down)))] := by
  obtain ⟨-, -, changed, refused⟩ := lockOne_local.range p first last
  rw [LockTally.bytes, changed, refused]
  refine congrArg₂ (fun m n => [BitVec.ofNat 8 m, BitVec.ofNat 8 n]) (p.tally_congr first last (fun b => ?_))
    (p.tally_congr first last (fun b => ?_))
  · by_cases down : (p.entry b).lockState p.pins.protN = .down
    · simp [lockEffect, lockOf, down]
    · by_cases opened : (p.entry b).state = .opened
      · by_cases clear : (p.entry b).pending = .clear <;> simp [lockEffect, lockOf, down, opened, clear]
      · cases bit : (p.entry b).lockBit <;> simp [lockEffect, lockOf, down, opened, bit]
  · by_cases down : (p.entry b).lockState p.pins.protN = .down
    · simp [lockEffect, lockOf, down]
    · have notRefused : lockEffect p.pins.protN (p.entry b) ≠ .refused := by
        simp only [lockEffect, down, if_false]
        repeat' split
        all_goals decide
      simp [lockOf, down, notRefused]

/-- LOCK_BLOCKS on a range that is one (R22). -/
theorem exec_lockBlocks {s : State} {tag first last : Byte} {p : Part} (ready : s.part.device = .ready)
    (le : first.toNat ≤ last.toNat) (inside : last.toNat ≤ 127) (req : Requested s 0x0A#8 tag [first, last] p) :
    exec (.lockBlocks tag [first, last]) s = .next (s.withPart
      (((p.lockRange Part.lockOne first.toNat last.toNat).part.placeReply tag 0x0A#8 .ok
        (p.lockRange Part.lockOne first.toNat last.toNat).bytes).settle [])) := by
  refine (serve_work req _ rfl ready rfl).trans ?_
  simp [Part.lockBlocks, badRange_eq_false le inside, byteAt]

/-- The entry of an OPEN block that is not DOWN and has no lock pending takes lock-pending LOCK (R26). -/
theorem lockEntry_opened {protN : Bool} {e : DirEntry} (opened : e.state = .opened) (up : e.lockState protN ≠ .down)
    (clear : e.pending = .clear) : lockEntry protN e = { e with pending := .lock } := by
  simp [lockEntry, opened, up, clear]

/-- Settles O23: the reactions keep what the request left of the lock fields; LOCK joins at the block's turn and no other
turn takes it out; and one block's close mark runs. -/
theorem blocksLocked : Obligations.BlocksLocked := by
  intro s tag first last p ready le inside req
  have run := exec_lockBlocks ready le inside req
  rw [p.lockRange_lockOne_bytes] at run
  refine ⟨⟨_, ⟨run, rfl, Kept.settle _ _⟩, ?_⟩, fun b low high opened up clear => ⟨?_, fun c channel => ?_⟩,
    fun b c isFirst isLast opened free clear channel openBlock quiet rest supplied => ?_⟩
  · obtain ⟨reply, store, within, outside⟩ := lockOne_local.range_reacts req ready (Kept.settle _ [])
    refine ⟨reply, store, fun b low high notOpened up => (within b low high).lockBit ?_,
      fun b out clear => ((outside b out).still clear).2⟩
    have up' : (p.entry b).lockState p.pins.protN ≠ .down := up
    simp [lockEntry, notOpened, up']
  · obtain ⟨-, entries, -⟩ := lockOne_local.range p first.toNat last.toNat
    rw [entries b, if_pos ⟨low, high⟩, lockEntry_opened opened up clear]
  · refine lockOne_local.range_reaches p low high ?_ (fun q => (q.journal c).due.lock = true) (fun q pins same => ?_)
      (fun q a due => q.lockOne_keeps_due a due)
    · rw [lockEntry_opened opened up clear]
      intro same
      exact absurd (clear.symm.trans (congrArg DirEntry.pending same).symm) (by simp)
    · have up' : q.lockOf b ≠ .down := by rwa [Part.lockOf, same, pins]
      rw [q.lockOne_opened b (same ▸ opened) up' (same ▸ clear), Part.journal_lockDue]
      simp [same, channel]
  · subst isLast
    rw [← isFirst, p.lockRange_one, p.lockOne_opened b opened (by rw [free]; decide) clear] at run
    exact ⟨_, run, p.settle_lockDue b c .lock tag _ _ _ free channel openBlock quiet rest supplied⟩

/-! ### UNLOCK_BLOCKS (R23) -/

/-- The counts of UNLOCK_BLOCKS: a DOWN block and one with lock-pending DOWN are refused; an OPEN block changes where LOCK is
pending, another where its lock bit is set. -/
theorem Part.lockRange_unlockOne_bytes (p : Part) (first last : Nat) :
    (p.lockRange Part.unlockOne first last).bytes
      = [BitVec.ofNat 8 (p.tally first last (fun b e => decide (p.lockOf b ≠ .down)
            && if e.state = .opened then decide (e.pending = .lock) else e.lockBit)),
          BitVec.ofNat 8 (p.tally first last (fun b e => decide (p.lockOf b = .down)
            || (decide (e.state = .opened) && decide (e.pending = .down))))] := by
  obtain ⟨-, -, changed, refused⟩ := unlockOne_local.range p first last
  rw [LockTally.bytes, changed, refused]
  refine congrArg₂ (fun m n => [BitVec.ofNat 8 m, BitVec.ofNat 8 n]) (p.tally_congr first last (fun b => ?_))
    (p.tally_congr first last (fun b => ?_))
  · by_cases down : (p.entry b).lockState p.pins.protN = .down
    · simp [unlockEffect, lockOf, down]
    · by_cases opened : (p.entry b).state = .opened
      · cases pending : (p.entry b).pending <;> simp [unlockEffect, lockOf, down, opened, pending]
      · cases bit : (p.entry b).lockBit <;> simp [unlockEffect, lockOf, down, opened, bit]
  · by_cases down : (p.entry b).lockState p.pins.protN = .down
    · simp [unlockEffect, lockOf, down]
    · by_cases opened : (p.entry b).state = .opened
      · cases pending : (p.entry b).pending <;> simp [unlockEffect, lockOf, down, opened, pending]
      · cases bit : (p.entry b).lockBit <;> simp [unlockEffect, lockOf, down, opened, bit]

/-- UNLOCK_BLOCKS on a range that is one (R23, R76). -/
theorem exec_unlockBlocks {s : State} {tag first last : Byte} {p : Part} (ready : s.part.device = .ready)
    (le : first.toNat ≤ last.toNat) (inside : last.toNat ≤ 127) (req : Requested s 0x0B#8 tag [first, last] p) :
    exec (.unlockBlocks tag [first, last]) s = .next (s.withPart
      (((p.lockRange Part.unlockOne first.toNat last.toNat).part.placeReply tag 0x0B#8 .ok
        (p.lockRange Part.unlockOne first.toNat last.toNat).bytes).settle
          (if 0 < (p.lockRange Part.unlockOne first.toNat last.toNat).changed then [.retryDue] else []))) := by
  refine (serve_work req _ rfl ready rfl).trans ?_
  simp [Part.unlockBlocks, badRange_eq_false le inside, byteAt]

/-- The entry of an OPEN block that is not DOWN: lock-pending LOCK is withdrawn (R23). -/
theorem unlockEntry_opened {protN : Bool} {e : DirEntry} (opened : e.state = .opened) (up : e.lockState protN ≠ .down)
    (lock : e.pending = .lock) : unlockEntry protN e = { e with pending := .clear } := by
  simp [unlockEntry, opened, up, lock]

/-- UNLOCK_BLOCKS leaves the backlog alone (R23). -/
theorem Part.lockRange_unlockOne_backlog (p : Part) (first last : Nat) :
    (p.lockRange Part.unlockOne first last).part.je.backlog = p.je.backlog :=
  unlockOne_local.range_invariant p first last (fun q => q.je.backlog = p.je.backlog) rfl
    (fun q b _ _ _ _ same => (q.unlockOne_keeps_backlog b).trans same)

/-- LOCK leaves the close due set with the lock-pending, where no close mark of the block has joined the backlog (R23). -/
theorem Part.lockRange_unlockOne_notDue (p : Part) {first last : Nat} {b : Block} {c : Channel} (low : first ≤ b.val)
    (high : b.val ≤ last) (opened : (p.entry b).state = .opened) (up : p.lockOf b ≠ .down)
    (lock : (p.entry b).pending = .lock) (channel : (p.entry b).channel = some c)
    (unmarked : p.je.closeMarked b = false) :
    ((p.lockRange Part.unlockOne first last).part.journal c).due.lock = false := by
  refine unlockOne_local.range_reaches p low high ?_
    (fun q => q.je.backlog = p.je.backlog → (q.journal c).due.lock = false) (fun q pins same backlog => ?_)
    (fun q a due backlog => q.unlockOne_keeps_notDue a (due ((q.unlockOne_keeps_backlog a).symm.trans backlog)))
    (p.lockRange_unlockOne_backlog first last)
  · rw [unlockEntry_opened opened up lock]
    intro same
    exact absurd (lock.symm.trans (congrArg DirEntry.pending same).symm) (by simp)
  · have up' : q.lockOf b ≠ .down := by rwa [lockOf, same, pins]
    have unmarked' : q.je.closeMarked b = false := by
      rw [← unmarked, JournalEngine.closeMarked, JournalEngine.closeMarked,
        (q.unlockOne_keeps_backlog b).symm.trans backlog]
    rw [q.unlockOne_opened b (same ▸ opened) up' (same ▸ lock), journal_lockNotDue, if_pos]
    exact ⟨by simp [same, channel], unmarked'⟩

/-- A close due set stays where every OPEN block of the range that could take LOCK out of it has had its close mark join
(R23). -/
theorem Part.lockRange_unlockOne_dueStays (p : Part) {first last : Nat} {c : Channel}
    (marked : ∀ b : Block, first ≤ b.val → b.val ≤ last → (p.entry b).state = .opened → (p.entry b).channel = some c →
      p.je.closeMarked b = true) :
    ((p.lockRange Part.unlockOne first last).part.journal c).due = (p.journal c).due := by
  refine (unlockOne_local.range_invariant p first last
    (fun q => q.je.backlog = p.je.backlog ∧ (q.journal c).due = (p.journal c).due) ⟨rfl, rfl⟩
    (fun q b low high pins same stays => ⟨(q.unlockOne_keeps_backlog b).trans stays.1, ?_⟩)).2
  obtain untouched | ⟨opened, withdrawn⟩ := q.unlockOne_je b
  · rw [journal_of_je untouched, stays.2]
  · rw [withdrawn, journal_lockNotDue, if_neg]
    · exact stays.2
    · rintro ⟨channel, unmarked⟩
      rw [entry_updEntry, if_pos rfl, same] at channel
      have joined := marked b low high (same ▸ opened) channel
      rw [JournalEngine.closeMarked, ← stays.1] at joined
      exact absurd (joined.symm.trans unmarked) (by simp)

/-- Settles O24: the reactions keep the lock fields of a block with no lock pending, as the request leaves them; and the close
due sets and the backlog by the turns of the range's blocks. -/
theorem blocksUnlocked : Obligations.BlocksUnlocked := by
  intro s tag first last p ready le inside req
  have run := exec_unlockBlocks ready le inside req
  rw [p.lockRange_unlockOne_bytes] at run
  refine ⟨⟨_, ⟨run, rfl, Kept.settle _ _⟩, ?_⟩, fun b c low high opened up lock channel unmarked => ?_,
    fun c marked => ?_, p.lockRange_unlockOne_backlog _ _⟩
  · obtain ⟨reply, store, within, -⟩ := unlockOne_local.range_reacts req ready (Kept.settle _ _)
    refine ⟨reply, store, fun b low high notOpened clear => ⟨fun up => ?_, fun down => ?_⟩,
      fun b low high opened up lock => ?_⟩
    · have entry : unlockEntry p.pins.protN (p.entry b) = { p.entry b with lockBit := false } := by
        have up' : (p.entry b).lockState p.pins.protN ≠ .down := up
        simp [unlockEntry, notOpened, up']
      exact ((entry ▸ within b low high).still clear).2
    · have entry : unlockEntry p.pins.protN (p.entry b) = p.entry b := if_pos down
      exact ((entry ▸ within b low high).still clear).2.1
    · have entry := unlockEntry_opened opened up lock
      exact (entry ▸ within b low high).still rfl
  · refine p.lockRange_unlockOne_notDue low high opened up lock channel ?_
    rw [Bool.eq_false_iff, Ne, JournalEngine.closeMarked_iff]
    rintro ⟨fill, last, worn, member⟩
    exact unmarked fill last worn member
  · exact p.lockRange_unlockOne_dueStays (fun b low high opened channel =>
      (p.je.closeMarked_iff b).mpr (marked b low high opened channel))

/-! ### DOWN_BLOCKS (R24) -/

/-- The counts of DOWN_BLOCKS: an OPEN block changes where DOWN is not pending, another where a flag of the two is clear; none
is refused. -/
theorem Part.lockRange_downOne_bytes (p : Part) (first last : Nat) :
    (p.lockRange Part.downOne first last).bytes
      = [BitVec.ofNat 8 (p.tally first last (fun _ e =>
            if e.state = .opened then decide (e.pending ≠ .down) else !(e.downFlag && e.lockBit))), 0#8] := by
  obtain ⟨-, -, changed, refused⟩ := downOne_local.range p first last
  have neverRefused : ∀ e : DirEntry, downEffect p.pins.protN e ≠ .refused := by
    intro e
    unfold downEffect
    repeat' split
    all_goals decide
  have noRefusal : p.tally first last (fun _ e => decide (downEffect p.pins.protN e = .refused)) = 0 := by
    simp [tally, neverRefused]
  rw [LockTally.bytes, changed, refused, noRefusal]
  congr 2
  refine p.tally_congr first last (fun b => ?_)
  by_cases opened : (p.entry b).state = .opened
  · by_cases down : (p.entry b).pending = .down <;> simp [downEffect, opened, down]
  · cases both : (p.entry b).downFlag && (p.entry b).lockBit <;> simp [downEffect, opened, both]

/-- DOWN_BLOCKS on a range that is one (R24). -/
theorem exec_downBlocks {s : State} {tag first last : Byte} {p : Part} (ready : s.part.device = .ready)
    (le : first.toNat ≤ last.toNat) (inside : last.toNat ≤ 127) (req : Requested s 0x0C#8 tag [first, last] p) :
    exec (.downBlocks tag [first, last]) s = .next (s.withPart
      (((p.lockRange Part.downOne first.toNat last.toNat).part.placeReply tag 0x0C#8 .ok
        (p.lockRange Part.downOne first.toNat last.toNat).bytes).settle [])) := by
  refine (serve_work req _ rfl ready rfl).trans ?_
  simp [Part.downBlocks, badRange_eq_false le inside, byteAt]

/-- Settles O25: as for LOCK_BLOCKS, with DOWN pending in the place of LOCK. -/
theorem blocksDowned : Obligations.BlocksDowned := by
  intro s tag first last p ready le inside req
  have run := exec_downBlocks ready le inside req
  rw [p.lockRange_downOne_bytes] at run
  have downs : ∀ b : Block, (p.entry b).state = .opened →
      downEntry p.pins.protN (p.entry b) = { p.entry b with pending := .down } := fun b opened => if_pos opened
  refine ⟨⟨_, ⟨run, rfl, Kept.settle _ _⟩, ?_⟩, fun b low high opened => ⟨?_, fun c other channel => ?_⟩,
    fun b c isFirst isLast opened free clear channel openBlock quiet rest supplied => ?_⟩
  · obtain ⟨reply, store, within, -⟩ := downOne_local.range_reacts req ready (Kept.settle _ [])
    refine ⟨reply, store, fun b low high notOpened => ?_⟩
    have entry : downEntry p.pins.protN (p.entry b) = { p.entry b with downFlag := true, lockBit := true } :=
      if_neg notOpened
    have kept := entry ▸ within b low high
    exact ⟨kept.downFlag rfl, kept.lockBit rfl⟩
  · obtain ⟨-, entries, -⟩ := downOne_local.range p first.toNat last.toNat
    rw [entries b, if_pos ⟨low, high⟩, downs b opened]
  · refine downOne_local.range_reaches p low high ?_ (fun q => (q.journal c).due.lock = true) (fun q pins same => ?_)
      (fun q a due => q.downOne_keeps_due a due)
    · rw [downs b opened]
      exact fun same => other (congrArg DirEntry.pending same).symm
    · rw [q.downOne_opened b (same ▸ opened) (same ▸ other), Part.journal_lockDue]
      simp [same, channel]
  · subst isLast
    rw [← isFirst, p.lockRange_one, p.downOne_opened b opened (by rw [clear]; decide)] at run
    exact ⟨_, run, p.settle_lockDue b c .down tag _ _ _ free channel openBlock quiet rest supplied⟩

end Sys2Proof.Machine
end

/-! ## The rules the Store Controller's statements use: notices, retirements and erase ends as record updates -/

section
namespace Sys2Proof.Machine

/-! ### Notices (R190) -/

/-- The notice box once a unit has made a notice (R190). -/
def NoticeBox.made (box : NoticeBox) (n : Notice) : NoticeBox :=
  if box.admits n then
    if box.queue.length < Config.noticePlaces then { box with queue := box.queue ++ [n] } else { box with dropped := true }
  else box

theorem Part.notify_eq_made (p : Part) (n : Notice) : p.notify n = { p with notices := p.notices.made n } := by
  unfold Part.notify NoticeBox.made
  repeat' split
  all_goals rfl

/-- The mask a reset leaves lets the notices of codes 0 to 8 be made (R191). -/
theorem NoticeBox.admits_resetMask {box : NoticeBox} {n : Notice} (mask : box.mask = 0x01FC#16) (code : n.code ≤ 8) :
    box.admits n = true := by
  have admitted : ∀ k, k ≤ 8 → (decide (k < 2) || (0x01FC#16).getLsbD k) = true := by decide
  rw [NoticeBox.admits, mask]
  exact admitted n.code code

theorem NoticeBox.made_queued {box : NoticeBox} {n : Notice} (admitted : box.admits n = true)
    (room : box.queue.length < 16) : box.made n = { box with queue := box.queue ++ [n] } := by
  simp [NoticeBox.made, admitted, Config.noticePlaces, room]

theorem NoticeBox.made_resetMask {box : NoticeBox} {n : Notice} (mask : box.mask = 0x01FC#16) (code : n.code ≤ 8)
    (room : box.queue.length < 16) : box.made n = { box with queue := box.queue ++ [n] } :=
  made_queued (admits_resetMask mask code) room

/-- An OP_DONE is made whatever the mask (R190, R191). -/
theorem NoticeBox.made_opDone {box : NoticeBox} (tag : Byte) (b : Block) (o : OpOutcome) (room : box.queue.length < 16) :
    box.made (.opDone tag b o) = { box with queue := box.queue ++ [.opDone tag b o] } :=
  made_queued rfl room

namespace Part

/-! ### Retirement, and how a requester is told (R14, R18, R45) -/

theorem retire_eq_made (p : Part) (b : Block) (cause : RetireCause) :
    p.retire b cause = { p.updEntry b (DirEntry.emptied .retired) with
      je := { p.je with backlog := p.je.backlog ++ [.retireMark b] }
      notices := p.notices.made (.blockRetired b cause) } := by
  unfold retire
  rw [notify_eq_made]
  rfl

/-- An emptied entry keeps its lock fields (R12, R18). -/
theorem lockOf_emptied (p : Part) (b : Block) (state : BlockState) :
    (p.updEntry b (DirEntry.emptied state)).lockOf b = p.lockOf b := by
  have lock := congrArg (DirEntry.lockState p.pins.protN) (p.entry_updEntry_self b (DirEntry.emptied state))
  exact lock

theorem opDone_host (p : Part) (tag : Byte) (b : Block) (o : OpOutcome) :
    p.opDone (.host tag) b o = { p with notices := p.notices.made (.opDone tag b o) } :=
  p.notify_eq_made _

theorem opDone_eq (p : Part) (r : EraseRequester) (b : Block) (o : OpOutcome) :
    ∃ box, p.opDone r b o = { p with notices := box } := by
  cases r with
  | host tag => exact ⟨_, p.opDone_host tag b o⟩
  | journal c => exact ⟨_, rfl⟩

theorem tellHost_eq (p : Part) (r : Option EraseRequester) (b : Block) (o : OpOutcome) :
    ∃ box, p.tellHost r b o = { p with notices := box } := by
  cases r with
  | some r => exact p.opDone_eq r b o
  | none => exact ⟨_, rfl⟩

/-! ### The supply and protection checks (R40, R41) -/

theorem sampled_steady {p : Part} (coming : p.supply.coming = []) : p.sampled = p := by
  simp [sampled, Supply.next, coming]

theorem supplyOk_of_high {p : Part} (level : 2850 ≤ p.supply.vstMv) : p.supplyOk = true := by
  simp [supplyOk, supplyPasses, level]

theorem supplyOk_of_low {p : Part} (level : p.supply.vstMv < 2650) : p.supplyOk = false := by
  have notHigh : ¬ 2850 ≤ p.supply.vstMv := by omega
  simp [supplyOk, supplyPasses, level, notHigh]

/-! ### What the arbiter takes when the array is free (R36) -/

theorem arbiterTake_program {p : Part} {req : ProgramReq} {rest : List ProgramReq} (array : p.ctl.array = none)
    (erase : p.ctl.erase = none) (programs : p.ctl.programs = req :: rest) :
    p.arbiterTake = some (({ p with ctl := { p.ctl with programs := rest } }).takeProgram req) := by
  simp [arbiterTake, array, erase, programs]

theorem arbiterTake_read {p : Part} {req : ReadReq} (array : p.ctl.array = none) (erase : p.ctl.erase = none)
    (programs : p.ctl.programs = []) (readSlot : p.ctl.readSlot = some req) :
    p.arbiterTake = some (({ p with ctl := { p.ctl with readSlot := none } }).takeRead req) := by
  simp [arbiterTake, array, erase, programs, readSlot]

theorem arbiterTake_resumption {p : Part} {r : SuspendedErase} (array : p.ctl.array = none) (erase : p.ctl.erase = none)
    (programs : p.ctl.programs = []) (readSlot : p.ctl.readSlot = none) (fault : p.ctl.faults.supply = false)
    (suspended : p.ctl.suspended = some r) : p.arbiterTake = some (p.takeResumption r) := by
  simp [arbiterTake, array, erase, programs, readSlot, fault, suspended]

theorem arbiterTake_erase {p : Part} {x : EraseEntry} {rest : List EraseEntry} (array : p.ctl.array = none)
    (erase : p.ctl.erase = none) (programs : p.ctl.programs = []) (readSlot : p.ctl.readSlot = none)
    (fault : p.ctl.faults.supply = false) (suspended : p.ctl.suspended = none) (queue : p.ctl.eraseQueue = x :: rest) :
    p.arbiterTake = some (p.takeErase x) := by
  simp [arbiterTake, array, erase, programs, readSlot, fault, suspended, queue]

theorem takeProgram_begins {p : Part} {req : ProgramReq} (fault : p.ctl.faults.supply = false)
    (coming : p.supply.coming = []) (level : 2850 ≤ p.supply.vstMv) (free : p.protectionOk req.op.block = true) :
    p.takeProgram req = (p.begin (.program req), []) := by
  simp [takeProgram, fault, sampled_steady coming, supplyOk_of_high level, free]

/-- The one program in the list, the supply good, begins (R36, R40). -/
theorem arbiterTake_onlyProgram {p : Part} {req : ProgramReq} (array : p.ctl.array = none) (erase : p.ctl.erase = none)
    (programs : p.ctl.programs = [req]) (fault : p.ctl.faults.supply = false) (coming : p.supply.coming = [])
    (level : 2850 ≤ p.supply.vstMv) (free : p.protectionOk req.op.block = true) :
    p.arbiterTake = some ({ p with ctl := { p.ctl with programs := [], array := some (.program req) } }, []) := by
  let q : Part := { p with ctl := { p.ctl with programs := [] } }
  rw [arbiterTake_program array erase programs]
  exact congrArg some (takeProgram_begins (p := q) fault coming level free)

theorem takeResumption_runs {p : Part} (r : SuspendedErase) (coming : p.supply.coming = [])
    (level : 2850 ≤ p.supply.vstMv) : p.takeResumption r = (p.runErase r.block r.pulses r.remaining, []) := by
  simp [takeResumption, sampled_steady coming, supplyOk_of_high level]

theorem takeErase_begins {p : Part} {x : EraseEntry} (coming : p.supply.coming = []) (level : 2850 ≤ p.supply.vstMv)
    (free : p.lockOf x.block = .unlocked) : p.takeErase x = (p.runErase x.block 0 25000, []) := by
  simp [takeErase, sampled_steady coming, supplyOk_of_high level, protectionOk, free, Config.pulseMicros]

theorem takeErase_locked {p : Part} {x : EraseEntry} (coming : p.supply.coming = []) (level : 2850 ≤ p.supply.vstMv)
    (locked : p.lockOf x.block ≠ .unlocked) : p.takeErase x = (p.refuseErase x, [.retryDue]) := by
  simp [takeErase, sampled_steady coming, supplyOk_of_high level, protectionOk, locked]

/-- A resumption or an erase refused for SUPPLY (R40). -/
theorem takeResumption_low {p : Part} (r : SuspendedErase) (coming : p.supply.coming = [])
    (level : p.supply.vstMv < 2650) :
    p.takeResumption r = (p.supplyFails .erase (some r.block), [.eraseSupply]) := by
  simp [takeResumption, sampled_steady coming, supplyOk_of_low level]

theorem takeErase_low {p : Part} (x : EraseEntry) (coming : p.supply.coming = []) (level : p.supply.vstMv < 2650) :
    p.takeErase x = (p.supplyFails .erase (some x.block), [.eraseSupply]) := by
  simp [takeErase, sampled_steady coming, supplyOk_of_low level]

/-! ### The units at rest -/

theorem JournalsQuiet.of_eq {p q : Part} (h : p.JournalsQuiet) (queue : q.queue = p.queue)
    (backlog : q.je.backlog = p.je.backlog) (outstanding : q.je.outstanding = p.je.outstanding)
    (due : ∀ c, (q.journal c).due = (p.journal c).due) : q.JournalsQuiet where
  entries := queue ▸ h.entries
  backlog := backlog.trans h.backlog
  outstanding := outstanding.trans h.outstanding
  due c := due c ▸ h.due c

theorem StoreQuiet.of_eq {p q : Part} (h : p.StoreQuiet) (array : q.ctl.array = p.ctl.array)
    (erase : q.ctl.erase = p.ctl.erase) (suspended : q.ctl.suspended = p.ctl.suspended)
    (programs : q.ctl.programs = p.ctl.programs) (readSlot : q.ctl.readSlot = p.ctl.readSlot)
    (eraseQueue : q.ctl.eraseQueue = p.ctl.eraseQueue) : q.StoreQuiet where
  array := array.trans h.array
  erase := erase.trans h.erase
  suspended := suspended.trans h.suspended
  programs := programs.trans h.programs
  readSlot := readSlot.trans h.readSlot
  eraseQueue := eraseQueue.trans h.eraseQueue

/-- Where the arbiter takes nothing, the reactions to an end in the array begin with its report. -/
theorem settleAfter_idle {p : Part} (idle : p.arbiterTake = none) (report : Option Report) :
    p.settleAfter report = p.settle report.toList := by
  simp [settleAfter, p.arbitrate_idle idle]

theorem settleAfter_quiet {p : Part} (quiet : p.JournalsQuiet) (rest : p.StoreQuiet) : p.settleAfter none = p := by
  rw [settleAfter_idle (p.arbiterTake_quiet rest)]
  exact p.settle_quiet quiet rest

/-- A retire mark that joined the backlog of an engine at rest begins at once, the supply good and its block unlocked
(R18, R60). -/
theorem settle_runsRetireMark {p q : Part} {b : Block} (quiet : p.JournalsQuiet) (queue : q.queue = p.queue)
    (je : q.je = { p.je with backlog := p.je.backlog ++ [.retireMark b] }) (rest : q.StoreQuiet) (supplied : q.Supplied)
    (free : q.lockOf b = .unlocked) : q.settle [] = q.runsHeader (.retireMark b) := by
  have due : ∀ c, (q.journal c).due.any = false := by
    intro c
    rw [journal, je]
    exact quiet.due c
  refine q.settle_runsHeader _ (queue ▸ quiet.entries) ?_ ?_ (fun c => q.joinClose_noDue c (due c)) rest supplied ?_
  · rw [je, quiet.backlog]
    rfl
  · rw [je]
    exact quiet.outstanding
  · exact decide_eq_true free

end Part

end Sys2Proof.Machine
end

/-! ## What resets, programs and reads do to the bytes of the store (R28 to R30, R48) -/

section
namespace Sys2Proof.Machine

@[simp] theorem freeBytes_length (from_ n : Nat) : (freeBytes from_ n).length = n := by
  simp [freeBytes]

namespace Part

/-- Free values drawn over some bytes leave every other byte (R48). -/
theorem read_scramble_outside (p : Part) {a n x : Nat} (outside : x < a ∨ a + n ≤ x) :
    Memory.read (p.scramble a n).store x = Memory.read p.store x :=
  Memory.read_writeBytes_outside p.store a x _ (by simpa using outside)

/-! ### A reset aborts the store work in progress (R48) -/

theorem abortArray_program {p : Part} {req : ProgramReq} {a : Nat} {bytes : List Byte}
    (array : p.ctl.array = some (.program req)) (target : req.op.target = some (a, bytes)) :
    p.abortArray = p.scramble a bytes.length := by
  simp [abortArray, array, abortProgram, target]

theorem abortArray_free {p : Part} (array : p.ctl.array = none) : p.abortArray = p := by
  simp [abortArray, array]

theorem abortErase_begun {p : Part} {b : Block} (begun : p.ctl.begunErase = some b) :
    p.abortErase = p.scramble (lineAddress b 0) 32768 := by
  simp [abortErase, begun, Config.blockBytes]

theorem abortErase_none {p : Part} (begun : p.ctl.begunErase = none) : p.abortErase = p := by
  simp [abortErase, begun]

@[simp] theorem unitArea_scramble (p : Part) (a n : Nat) : (p.scramble a n).unitArea = p.unitArea := rfl

theorem unitArea_resetUnits (p : Part) : p.resetUnits.unitArea = p.abortArray.abortErase.unitArea := rfl

end Part

/-- Settles O6: a reset draws free values over the lines of the program, or over the block of the erase, and over no other
byte. -/
theorem resetAbortsStoreWork : Obligations.ResetAbortsStoreWork := by
  intro p
  refine ⟨fun req a bytes array target noErase => ?_, fun b begun free => ?_⟩
  · have aborted : p.abortArray.abortErase = p.scramble a bytes.length := by
      rw [Part.abortArray_program array target]
      exact Part.abortErase_none noErase
    rw [p.store_resetUnits, p.unitArea_resetUnits, aborted]
    exact ⟨fun x outside => p.read_scramble_outside outside, p.unitArea_scramble _ _⟩
  · rw [p.store_resetUnits, p.unitArea_resetUnits, Part.abortArray_free free, Part.abortErase_begun begun]
    exact ⟨fun x outside => p.read_scramble_outside outside, p.unitArea_scramble _ _⟩

/-! ### What a program of the blocks leaves (R28, R29) -/

namespace Part

/-- Every byte outside a program's target stays, however the program ends. -/
theorem read_writeProgram_outside (p : Part) {a x : Nat} {bytes : List Byte} (failure : Option Nat)
    (outside : x < a ∨ a + bytes.length ≤ x) :
    Memory.read (p.writeProgram a bytes failure).store x = Memory.read p.store x := by
  cases failure with
  | none => exact Memory.read_writeBytes_outside _ _ _ _ outside
  | some line =>
    let q : Part := { p with store := Memory.writeBytes p.store a (bytes.take (line * Config.lineBytes)) }
    calc Memory.read (p.writeProgram a bytes (some line)).store x
      _ = Memory.read q.store x := q.read_scramble_outside (by omega)
      _ = Memory.read p.store x := Memory.read_writeBytes_outside _ _ _ _ (by rw [List.length_take]; omega)

/-- A program that verifies leaves its bytes. -/
theorem read_writeProgram_ok {p : Part} (canonical : p.storeCanonical = true) {a i : Nat} {bytes : List Byte}
    (inside : a + bytes.length ≤ Config.storeBytes) (h : i < bytes.length) :
    Memory.read (p.writeProgram a bytes none).store (a + i) = bytes[i] :=
  Memory.read_writeBytes_inside canonical a i bytes h inside

/-- A program that fails leaves its bytes up to the failing line. -/
theorem read_writeProgram_before {p : Part} (canonical : p.storeCanonical = true) {a i line : Nat} {bytes : List Byte}
    (inside : a + bytes.length ≤ Config.storeBytes) (h : i < bytes.length) (before : i < line * 32) :
    Memory.read (p.writeProgram a bytes (some line)).store (a + i) = bytes[i] := by
  let done := line * Config.lineBytes
  let q : Part := { p with store := Memory.writeBytes p.store a (bytes.take done) }
  have early : i < done := before
  have taken : (bytes.take done).length = min done bytes.length := List.length_take
  calc Memory.read (p.writeProgram a bytes (some line)).store (a + i)
    _ = Memory.read q.store (a + i) := q.read_scramble_outside (.inl (by omega))
    _ = (bytes.take done)[i] := Memory.read_writeBytes_inside canonical a i _ (by omega) (by omega)
    _ = bytes[i] := List.getElem_take

theorem programLeaves_blocks (p : Part) {op : ProgramOp} {a : Nat} {bytes : List Byte}
    (target : op.target = some (a, bytes)) (failure : Option Nat) :
    p.programLeaves op failure = p.writeProgram a bytes failure := by
  simp [programLeaves, target]

/-- A program of the blocks writes the store and draws free values alone. -/
theorem writeProgram_eq (p : Part) (a : Nat) (bytes : List Byte) (failure : Option Nat) :
    ∃ store freeIdx, p.writeProgram a bytes failure = { p with store, freeIdx } := by
  cases failure with
  | none => exact ⟨_, _, rfl⟩
  | some line => exact ⟨_, _, rfl⟩

end Part

/-- PROGRAM_COMPLETE while a program is in the array (R28, R36). -/
theorem exec_programComplete {s : State} {req : ProgramReq} (reported : ProgramEnd)
    (array : s.part.ctl.array = some (.program req)) :
    exec (.programComplete reported) s = .next (s.withPart
      ((s.part.programEnds req.op (programFailure s.part.store req.op reported)).settleAfter
        (some (.program req (endOutcome (programFailure s.part.store req.op reported)))))) := by
  simp only [exec, execProgramComplete, array]

/-- Settles O49: what follows the end of the program keeps the store, so that what the program itself left is read back. -/
theorem programWritesItsBytes : Obligations.ProgramWritesItsBytes := by
  intro s req a bytes reported array target
  refine ⟨_, exec_programComplete reported array, rfl, ?_⟩
  generalize programFailure s.part.store req.op reported = failure
  have leaves : Kept (s.part.writeProgram a bytes failure)
      ((s.part.programEnds req.op failure).settleAfter (some (.program req (endOutcome failure)))) := by
    rw [← s.part.programLeaves_blocks target failure]
    exact (Kept.programEnds s.part req.op failure).trans (Kept.settleAfter _ _)
  obtain ⟨store, freeIdx, written⟩ := s.part.writeProgram_eq a bytes failure
  have inside : a + bytes.length ≤ Config.storeBytes := req.op.target_inStore a bytes target
  rw [leaves.store_eq, leaves.settings_eq, leaves.slots_eq, leaves.unitArea_eq]
  refine ⟨fun x outside => s.part.read_writeProgram_outside failure outside, fun canonical => ⟨?_, ?_⟩, ?_⟩
  · rintro rfl i h
    exact Part.read_writeProgram_ok canonical inside h
  · rintro line rfl i h before
    exact Part.read_writeProgram_before canonical inside h before
  · rw [written]
    exact ⟨rfl, rfl, rfl⟩

/-! ### The end of a unit program (R49, R51, R52) -/

/-- The request that waits for a unit program is answered once the program is reported OK (R51, R52, R187). -/
theorem Part.settleAfter_unitAnswered {p : Part} {tag kind : Byte} (op : ProgramOp)
    (serving : p.ctrl.serving = some (.unitProgram tag kind)) :
    (p.settleAfter (some (.program { source := .requestServer, op } .ok))).ctrl.reply
      = some { tag, kind, status := .ok, contents := [] } := by
  have waits : p.arbitrate.1.ctrl.serving = some (.unitProgram tag kind) := by rw [p.arbitrate_ctrl.1, serving]
  let q : Part := { p.arbitrate.1 with ctrl := { p.arbitrate.1.ctrl with serving := none } }
  have told : p.arbitrate.1.told (.program { source := .requestServer, op } .ok)
      = (q.placeReply tag kind .ok [], []) := by
    simp [Part.told, Part.handle, Part.unitOutcome, waits, q]
  rw [p.settleAfter_told _ _ told, (Kept.settle _ _).reply_eq rfl]
  rfl

theorem Part.writeUnit_word (p : Part) (w : Fin 12) (v : BitVec 32) :
    (p.writeUnit (.unitWord w v) false).unitArea.words[w] = some v := by
  unfold writeUnit
  exact Vector.getElem_set_self w.isLt

/-- After a unit word program the image shows the word that the area holds (R49). -/
theorem Part.readBackUnit_word (p : Part) (w : Fin 12) (v : BitVec 32) :
    (p.readBackUnit (.unitWord w v)).image.area.words[w] = p.unitArea.words[w] := by
  unfold readBackUnit
  exact Vector.getElem_set_self w.isLt

/-- PROGRAM_COMPLETE, OK, of a unit program of the Request Server (R49, R51, R52). -/
theorem exec_unitProgramComplete {s : State} {op : ProgramOp} (unit : op.target = none)
    (array : s.part.ctl.array = some (.program { source := .requestServer, op })) :
    exec (.programComplete .ok) s = .next (s.withPart
      ((((s.part.writeUnit op false).readBackUnit op).freeArray).settleAfter
        (some (.program { source := .requestServer, op } .ok)))) := by
  have verified : programFailure s.part.store op .ok = none := by
    cases op with
    | unitWord | unitLock => rfl
    | _ => cases unit
  rw [exec_programComplete .ok array]
  simp [verified, endOutcome, Part.programEnds, Part.programLeaves, unit]

/-- Settles O50: the program leaves the word or the lock in the area and, read back, in the image; the reactions keep both, and
the request that waits is told. -/
theorem unitProgramAnswered : Obligations.UnitProgramAnswered := by
  intro s tag kind serving
  refine ⟨fun w v array => ⟨_, exec_unitProgramComplete rfl array, rfl, ?_⟩,
    fun array => ⟨_, exec_unitProgramComplete rfl array, rfl, ?_⟩⟩
  · have kept := Kept.settleAfter ((s.part.writeUnit (.unitWord w v) false).readBackUnit (.unitWord w v)).freeArray
      (some (.program { source := .requestServer, op := .unitWord w v } .ok))
    rw [kept.store_eq, kept.unitArea_eq, kept.image_eq]
    exact ⟨rfl, rfl, (Part.readBackUnit_word _ w v).trans (Part.writeUnit_word _ w v),
      Part.settleAfter_unitAnswered _ serving⟩
  · have kept := Kept.settleAfter ((s.part.writeUnit .unitLock false).readBackUnit .unitLock).freeArray
      (some (.program { source := .requestServer, op := .unitLock } .ok))
    rw [kept.store_eq, kept.unitArea_eq, kept.image_eq]
    exact ⟨rfl, rfl, rfl, Part.settleAfter_unitAnswered _ serving⟩

/-! ### The end of a read (R30, R175, R176) -/

/-- READ_COMPLETE while a read is in the array (R30, R36). -/
theorem exec_readComplete {s : State} {req : ReadReq} (array : s.part.ctl.array = some (.read req)) :
    exec .readComplete s = .next (s.withPart (s.part.freeArray.settleAfter
      (some (.read req (some (readLines s.part.store req.block req.line req.count)))))) := by
  simp only [exec, execReadComplete, array]

/-- The header line of a one-line record, sound and the one sought, that fills the last place of its gathering (R175). -/
theorem Part.gatherJudge_last (p : Part) {g : Gather} {header : List Byte} (sound : g.sound header = true)
    (sought : g.expected = g.sought) (last : g.max = g.records.length + 1) (oneLine : headerLines header = 1)
    (room : g.lines + 1 ≤ 33) :
    p.gatherJudge g header = p.gatherReply g .ok
      (readoutHead g.channel (g.records.length + 1) .max (g.start + (g.records.length + 1)) none
        ++ (g.records ++ [deliveredRecord header []]).flatten) := by
  have fits : ¬ 33 < g.lines + 1 := by omega
  simp [gatherJudge, sound, sought, oneLine, fits, gatherAdd, gatherNext, last, gatherEnds, Gather.following, gatherReply]

/-- The Request Server, waiting for a header line, is told it once the read has ended. -/
theorem Part.settleAfter_gatherHeader {p : Part} {req : ReadReq} {g : Gather} (header : List Byte)
    (source : req.source = .requestServer) (serving : p.ctrl.serving = some (.gathering g)) (stage : g.stage = .header) :
    p.settleAfter (some (.read req (some header))) = (p.arbitrate.1.gatherJudge g header).settle p.arbitrate.2 := by
  have waits : p.arbitrate.1.ctrl.serving = some (.gathering g) := by rw [p.arbitrate_ctrl.1, serving]
  refine p.settleAfter_told _ _ ?_
  simp [Part.told, Part.handle, source, Part.gatherRead, waits, stage]

/-- Settles O51: what follows a read keeps the store, and the reply that ends the gathering is formed from the lines read. -/
theorem readReturnsLines : Obligations.ReadReturnsLines := by
  intro s req array
  refine ⟨⟨_, exec_readComplete array, rfl, ?_⟩, ?_⟩
  · have kept := (Kept.freeArray s.part).trans (Kept.settleAfter s.part.freeArray
      (some (.read req (some (readLines s.part.store req.block req.line req.count)))))
    exact ⟨kept.store_eq, kept.unitArea_eq, kept.settings_eq, kept.slots_eq⟩
  · intro g source serving stage sought last header contents sound oneLine room
    refine ⟨_, exec_readComplete array, ?_⟩
    have told := Part.settleAfter_gatherHeader (p := s.part.freeArray) header source serving stage
    rw [Part.gatherJudge_last _ sound sought last oneLine room] at told
    show (s.part.freeArray.settleAfter (some (.read req (some header)))).ctrl.serving = none
      ∧ (s.part.freeArray.settleAfter (some (.read req (some header)))).ctrl.reply = _
    rw [told]
    exact (Kept.settle _ _).serving rfl

end Sys2Proof.Machine
end

/-! ## The requests to the Store Controller (R43, R46, R50 to R52) -/

section
namespace Sys2Proof.Machine

/-! ### UNIT_READ, UNIT_WRITE and UNIT_LOCK (R50 to R52) -/

/-- The contents of a UNIT_READ reply, from the bytes of each word (R50). -/
theorem UnitArea.bytes_of_words (u : UnitArea) {bytesOf : Option (BitVec 32) → List Byte}
    (same : ∀ word, wordBytes word = bytesOf word) :
    u.bytes = u.identity.toList ++ u.words.toList.flatMap bytesOf ++ leBytes 2 u.writtenSet ++ [flagByte u.locked] := by
  rw [← funext same, UnitArea.bytes]

/-- Settles O20: the contents of the reply, word for word; a blank word reads 0xFF in each byte. -/
theorem unitAreaRead : Obligations.UnitAreaRead := by
  intro s tag p ready req
  have contents := p.image.area.bytes_of_words (bytesOf := fun
      | some v => leBytes 4 v.toNat
      | none => List.replicate 4 0xFF#8) (fun
      | some _ => rfl
      | none => rfl)
  exact (serve_work req _ rfl ready rfl).trans
    (congrArg (fun bytes => Host.Outcome.next (s.withPart (p.placeReply tag 0x07#8 .ok bytes))) contents)

namespace Part

/-- A unit program presented to a part at rest, the supply good, begins at once (R36, R51, R52). -/
theorem presentUnit_begins {p : Part} (tag kind : Byte) {op : ProgramOp} (unit : op.block = none)
    (fault : p.ctl.faults.supply = false) (quiet : p.JournalsQuiet) (rest : p.StoreQuiet) (coming : p.supply.coming = [])
    (level : 2850 ≤ p.supply.vstMv) :
    p.presentUnit tag kind op = { p with
      ctrl := { p.ctrl with serving := some (.unitProgram tag kind) }
      ctl := { p.ctl with array := some (.program { source := .requestServer, op }) } } := by
  let req : ProgramReq := { source := .requestServer, op }
  let q : Part := { p with ctrl := { p.ctrl with serving := some (.unitProgram tag kind) } }
  have joined : q.joinPrograms req = { q with ctl := { q.ctl with programs := [req] } } := by
    simp [joinPrograms, Controller.requestSuspension, q, rest.programs, rest.erase]
  have taken : (q.joinPrograms req).arbiterTake
      = some ({ q with ctl := { q.ctl with programs := [], array := some (.program req) } }, []) := by
    rw [joined]
    exact arbiterTake_onlyProgram rest.array rest.erase rfl fault coming level (by rw [unit]; rfl)
  have waits : (q.joinPrograms req).JournalsQuiet := quiet.of_eq rfl rfl rfl (fun _ => rfl)
  refine (settle_of _ _ waits (arbitrate_once _ _ taken (arbiterTake_busy _ _ rfl))).trans ?_
  rw [← rest.programs]

theorem unitWrite_badValue {p : Part} {tag : Byte} {body : List Byte} (outside : ¬ byteAt body 0 < 12) :
    p.unitWrite tag body = p.placeReply tag 0x08#8 .badValue [] := by
  simp [unitWrite, outside]

/-- UNIT_WRITE of a word of the unit area (R51). -/
theorem unitWrite_word (p : Part) (tag x : Byte) (value : BitVec 32) (w : Fin 12) (names : w.val = x.toNat) :
    p.unitWrite tag (x :: leBytes 4 value.toNat) =
      if p.image.area.locked then p.placeReply tag 0x08#8 .locked []
      else if p.image.area.words[w].isSome then p.placeReply tag 0x08#8 .already []
      else if p.ctl.faults.supply then p.placeReply tag 0x08#8 .state []
      else p.presentUnit tag 0x08#8 (.unitWord w value) := by
  obtain ⟨w, inside⟩ := w
  obtain rfl : w = x.toNat := names
  have word : byteAt (x :: leBytes 4 value.toNat) 0 = x.toNat := rfl
  have field : fieldAt (x :: leBytes 4 value.toNat) 1 4 = value.toNat := by
    simpa using fieldAt_append [x] [] 4 value.toNat value.isLt
  unfold unitWrite
  simp only [word, field, inside, dif_pos, BitVec.ofNat_toNat, BitVec.setWidth_eq]
  rfl

end Part

/-- Settles O21: the refusals by the first condition that holds, and the program presented to a part at rest. -/
theorem unitProgramsRequested : Obligations.UnitProgramsRequested := by
  refine ⟨fun s tag x value p ready req => ?_, fun s tag p ready req => ?_⟩
  · have run : exec (.unitWrite tag (x :: leBytes 4 value.toNat)) s
        = .next (s.withPart (p.unitWrite tag (x :: leBytes 4 value.toNat))) := serve_work req _ rfl ready rfl
    dsimp only
    rw [run]
    refine ⟨fun outside => ?_, fun w names => ?_⟩
    · rw [Part.unitWrite_badValue (body := x :: leBytes 4 value.toNat) (Nat.not_lt.mpr outside)]
    rw [p.unitWrite_word tag x value w names]
    refine ⟨fun locked => ?_, fun free written => ?_, fun free blank fault => ?_,
      fun free blank good quiet rest coming level => ?_⟩
    · simp [locked]
    · simp only [free, written, Bool.false_eq_true, if_false, if_true]
    · simp [free, blank, fault]
    · have begins := Part.presentUnit_begins tag 0x08#8 (op := .unitWord w value) rfl good quiet rest coming level
      simp [free, blank, good, begins]
  · have run : exec (.unitLock tag []) s = .next (s.withPart (p.unitLock tag)) := serve_work req _ rfl ready rfl
    dsimp only
    rw [run, Part.unitLock]
    refine ⟨fun locked => ?_, fun free fault => ?_, fun free good quiet rest coming level => ?_⟩
    · simp [locked]
    · simp [free, fault]
    · have begins := Part.presentUnit_begins tag 0x09#8 (op := .unitLock) rfl good quiet rest coming level
      simp [free, good, begins]

/-! ### ERASE_BLOCK (R46, R47) -/

theorem blockAt_eq {body : List Byte} {i : Nat} {b : Block} (names : b.val = byteAt body i) : blockAt body i = some b := by
  simp [blockAt, ← names]

/-- ERASE_BLOCK that passes the checks of R186 (R46). -/
theorem exec_eraseBlock {s : State} {tag x : Byte} {p : Part} (ready : s.part.device = .ready)
    (req : Requested s 0x06#8 tag [x] p) :
    exec (.eraseBlock tag [x]) s = .next (s.withPart (p.eraseBlock tag [x])) :=
  serve_work req _ rfl ready rfl

namespace Part

theorem eraseBlock_outside (p : Part) (tag : Byte) {x : Byte} (outside : 127 < x.toNat) :
    p.eraseBlock tag [x] = p.placeReply tag 0x06#8 .badValue [] := by
  have noBlock : ¬ byteAt [x] 0 < 128 := Nat.not_lt.mpr outside
  simp [eraseBlock, blockAt, noBlock]

theorem eraseBlock_inside (p : Part) (tag : Byte) {x : Byte} {b : Block} (names : b.val = x.toNat) :
    p.eraseBlock tag [x] = p.eraseBlockAt tag b := by
  have named : blockAt [x] 0 = some b := blockAt_eq names
  simp [eraseBlock, named]

end Part

/-- Settles O18: the first of the four conditions that holds gives the reply. -/
theorem eraseBlockRefused : Obligations.EraseBlockRefused := by
  intro s tag x p ready req
  dsimp only
  rw [exec_eraseBlock ready req]
  refine ⟨fun outside => ?_, fun b names => ?_⟩
  · rw [p.eraseBlock_outside tag outside]
  rw [p.eraseBlock_inside tag names]
  refine ⟨fun notClosed notTorn => ?_, fun erasable => ?_⟩
  · simp [Part.eraseBlockAt, notClosed, notTorn]
  have passes : ¬((p.entry b).state ≠ .closed ∧ (p.entry b).state ≠ .torn) := fun neither =>
    erasable.elim neither.1 neither.2
  refine ⟨fun held => ?_, fun unheld locked => ?_⟩
  · simp only [Part.eraseBlockAt, passes, held, if_false, if_true]
  · simp [Part.eraseBlockAt, passes, unheld, locked]

namespace Part

/-- ERASE_BLOCK on a worn CLOSED block that may be erased: the block is retired (R18, R46, R47). -/
theorem eraseBlockAt_worn {p : Part} {b : Block} (tag : Byte) (unheld : (p.entry b).holdCount = 0)
    (free : p.lockOf b = .unlocked) (closed : (p.entry b).state = .closed) (worn : (p.entry b).worn = true) :
    p.eraseBlockAt tag b
      = (((p.retire b .worn).placeReply tag 0x06#8 .accepted []).notify (.opDone tag b .retired)).settle [] := by
  simp [eraseBlockAt, unheld, free, closed, worn, opDone]

/-- ERASE_BLOCK on another block that may be erased: the block is enqueued (R11, R46). -/
theorem eraseBlockAt_enqueues {p : Part} {b : Block} (tag : Byte) (unheld : (p.entry b).holdCount = 0)
    (free : p.lockOf b = .unlocked)
    (sound : ((p.entry b).state = .closed ∧ (p.entry b).worn = false) ∨ (p.entry b).state = .torn) :
    p.eraseBlockAt tag b = ((p.enqueueErase b (.host tag)).placeReply tag 0x06#8 .accepted []).settle [] := by
  obtain ⟨closed, good⟩ | torn := sound
  · simp [eraseBlockAt, unheld, free, closed, good]
  · simp [eraseBlockAt, unheld, free, torn]

/-- What ERASE_BLOCK leaves of a worn block, the notice box with room for both notices: one record update (R18, R47). -/
theorem retiredByHost_eq {p : Part} (tag : Byte) (b : Block) (mask : p.notices.mask = 0x01FC#16)
    (room : p.notices.queue.length ≤ 14) :
    ((p.retire b .worn).placeReply tag 0x06#8 .accepted []).notify (.opDone tag b .retired)
      = { p.updEntry b (DirEntry.emptied .retired) with
          je := { p.je with backlog := p.je.backlog ++ [.retireMark b] }
          ctrl := { p.ctrl with reply := some { tag, kind := 0x06#8, status := .accepted, contents := [] } }
          notices := { p.notices with
            queue := p.notices.queue ++ [.blockRetired b .worn, .opDone tag b .retired] } } := by
  have first : p.notices.made (.blockRetired b .worn)
      = { p.notices with queue := p.notices.queue ++ [.blockRetired b .worn] } :=
    NoticeBox.made_resetMask mask (by simp [Notice.code]) (by omega)
  have second : NoticeBox.made { p.notices with queue := p.notices.queue ++ [.blockRetired b .worn] }
        (.opDone tag b .retired)
      = { p.notices with queue := p.notices.queue ++ [.blockRetired b .worn, .opDone tag b .retired] } := by
    rw [NoticeBox.made_opDone tag b .retired (by
      simp only [List.length_append, List.length_singleton]
      omega)]
    simp
  rw [retire_eq_made, first, notify_eq_made, ← second]
  rfl

/-- The erase of a block just enqueued at a part at rest, the supply good, begins at once (R36, R44). -/
theorem settle_beginsErase {p : Part} {b : Block} {requester : EraseRequester} (quiet : p.JournalsQuiet)
    (array : p.ctl.array = none) (erase : p.ctl.erase = none) (suspended : p.ctl.suspended = none)
    (programs : p.ctl.programs = []) (readSlot : p.ctl.readSlot = none)
    (eraseQueue : p.ctl.eraseQueue = [{ block := b, requester }]) (fault : p.ctl.faults.supply = false)
    (coming : p.supply.coming = []) (level : 2850 ≤ p.supply.vstMv) (free : p.lockOf b = .unlocked) :
    p.settle [] = p.runErase b 0 25000 := by
  have taken : p.arbiterTake = some (p.runErase b 0 25000, []) := by
    rw [arbiterTake_erase array erase programs readSlot fault suspended eraseQueue]
    exact congrArg some (takeErase_begins coming level free)
  exact p.settle_of _ quiet (arbitrate_once _ _ taken (arbiterTake_erasing _ _ rfl))

end Part

/-- Settles O19: a worn block is out of use from its retirement on, another from its enqueueing on; with the units at rest the
retire mark or the erase is what the reactions begin. -/
theorem eraseBlockAccepted : Obligations.EraseBlockAccepted := by
  intro s tag x p b ready req names unheld free
  dsimp only
  rw [exec_eraseBlock ready req, p.eraseBlock_inside tag names]
  have isReady : p.device = .ready := (requested_device req).trans ready
  have unserved : p.ctrl.serving = none := (requested_free req).1
  refine ⟨fun closed worn => ?_, fun sound => ?_⟩
  · rw [Part.eraseBlockAt_worn tag unheld free closed worn]
    refine ⟨⟨_, ⟨rfl, rfl, Kept.settle _ _⟩, ?_, ?_⟩, fun quiet rest supplied mask room => ⟨_, rfl, rfl, ?_⟩⟩
    · refine ((Kept.settle _ _).reply_eq ?_).trans ?_
      all_goals rw [Part.notify_eq_made, Part.retire_eq_made]
      · exact unserved
      · rfl
    · have out : (p.retire b .worn).OutOfUse b .retiredUnlocked := .ofRetire isReady free .worn
      have replied : ((p.retire b .worn).placeReply tag 0x06#8 .accepted []).OutOfUse b .retiredUnlocked :=
        out.dir rfl rfl rfl rfl
      exact ((replied.notify (.opDone tag b .retired)).settle [] (by simp)).held.1
    · rw [Part.retiredByHost_eq tag b mask room]
      have entry : ∀ b', (p.updEntry b (DirEntry.emptied .retired)).entry b'
          = if b = b' then DirEntry.emptied .retired (p.entry b) else p.entry b' := fun b' => p.entry_updEntry b b' _
      rw [Part.settle_runsRetireMark (b := b) quiet]
      · refine ⟨rfl, (entry b).trans (if_pos rfl), ?_, rfl, rfl, rest.eraseQueue, fun b' other => ?_⟩
        · exact congrArg (· ++ [ProgramOp.retireMark b]) quiet.backlog
        · exact (entry b').trans (if_neg (Ne.symm other))
      · rfl
      · rfl
      · exact rest.of_eq rfl rfl rfl rfl rfl rfl
      · exact ⟨supplied.fault, supplied.hold, supplied.coming, supplied.level⟩
      · exact (p.lockOf_emptied b .retired).trans free
  · rw [Part.eraseBlockAt_enqueues tag unheld free sound]
    have out : (p.enqueueErase b (.host tag)).OutOfUse b (.erasing (.host tag)) := .ofEnqueue isReady free _
    have replied : ((p.enqueueErase b (.host tag)).placeReply tag 0x06#8 .accepted []).OutOfUse b (.erasing (.host tag)) :=
      out.dir rfl rfl rfl rfl
    refine ⟨⟨_, ⟨rfl, rfl, Kept.settle _ _⟩, (Kept.settle _ _).reply_eq unserved, ?_⟩,
      fun quiet rest fault coming level => ⟨_, rfl, ?_⟩⟩
    · obtain ⟨erasing, -, queued⟩ := (replied.settle [] (by simp)).held
      exact ⟨erasing, queued⟩
    · have queue : p.ctl.eraseQueue ++ [{ block := b, requester := .host tag }]
          = [{ block := b, requester := .host tag }] := by rw [rest.eraseQueue]; rfl
      have waits : ((p.enqueueErase b (.host tag)).placeReply tag 0x06#8 .accepted []).JournalsQuiet :=
        quiet.of_eq rfl rfl rfl (fun _ => rfl)
      rw [Part.settle_beginsErase waits rest.array rest.erase rest.suspended rest.programs rest.readSlot queue fault coming
        level replied.held.2.1]
      exact ⟨replied.held.1, queue, rfl, rfl⟩

end Sys2Proof.Machine
end

/-! ## CLEAR_FAULTS and the retry of a journal STALLED with STORE_FAULT (R43, R53, R75, R82) -/

section
namespace Sys2Proof.Machine

namespace Part

/-! ### One journal's retry -/

theorem updJournal_same (p : Part) (c : Channel) (f : Journal → Journal) (h : f (p.journal c) = p.journal c) :
    p.updJournal c f = p := by
  unfold journal at h
  unfold updJournal
  rw [h]
  simp

theorem updJournal_updJournal (p : Part) (c : Channel) (f g : Journal → Journal) :
    (p.updJournal c f).updJournal c g = p.updJournal c (fun j => g (f j)) := by
  simp [updJournal]

/-- A journal that resumes: the journal as `f` makes it, the wait queue, and the RESUMED notice (R57). -/
def resumed (p : Part) (c : Channel) (f : Journal → Journal) (state : JournalState) (wait : List Channel) : Part :=
  { p.updJournal c f with
    je := { (p.updJournal c f).je with wait }
    notices := p.notices.made (.resumed c state) }

theorem journal_resumed (p : Part) (c c' : Channel) (f : Journal → Journal) (state : JournalState) (wait : List Channel) :
    (p.resumed c f state wait).journal c' = if c = c' then f (p.journal c) else p.journal c' :=
  p.journal_updJournal c c' f

theorem leaveWait_resumed (p : Part) (c : Channel) (f g : Journal → Journal) (state : JournalState) :
    ((p.updJournal c f).leaveWait c).resumed c g state ((p.updJournal c f).leaveWait c).je.wait
      = p.resumed c (fun j => g (f j)) state (p.je.wait.filter (fun x => decide (x ≠ c))) := by
  rw [resumed, resumed, ← p.updJournal_updJournal c f g]
  rfl

/-- The notices of a journal that resumes, the mask as a reset leaves it and the queue with room (R190). -/
theorem notices_resumed {p : Part} (c : Channel) (f : Journal → Journal) (state : JournalState) (wait : List Channel)
    (mask : p.notices.mask = 0x01FC#16) (room : p.notices.queue.length < 16) :
    (p.resumed c f state wait).notices.queue = p.notices.queue ++ [.resumed c state] := by
  rw [resumed, NoticeBox.made_resetMask mask (by simp [Notice.code]) room]

/-- A retry writes the reclaim block alone before it looks at the state (R53). -/
theorem seeReclaim_eq (p : Part) (c : Channel) :
    ∃ reclaim, p.seeReclaim c = p.updJournal c (fun j => { j with reclaim }) := by
  unfold seeReclaim
  split
  · exact ⟨(p.journal c).reclaim, (p.updJournal_same c _ rfl).symm⟩
  · exact ⟨none, rfl⟩

theorem seeReclaim_erasing {p : Part} {c : Channel} {b : Block} (reclaim : (p.journal c).reclaim = some b)
    (erasing : (p.entry b).state = .erasing) : p.seeReclaim c = p := by
  simp [seeReclaim, reclaimErasing, reclaim, erasing]

theorem seeReclaim_gone {p : Part} {c : Channel}
    (gone : ∀ b, (p.journal c).reclaim = some b → (p.entry b).state ≠ .erasing) :
    p.seeReclaim c = p.updJournal c (fun j => { j with reclaim := none }) := by
  have notErasing : p.reclaimErasing c = false := by
    unfold reclaimErasing
    split
    · exact decide_eq_false (gone _ ‹_›)
    · rfl
  simp [seeReclaim, notErasing, dropReclaim]

/-- A journal that leaves STALLED makes a RESUMED notice (R57). -/
theorem unstall_stalled {p : Part} {c : Channel} {cause : StallCause} (stalled : (p.journal c).state = .stalled cause)
    (state : JournalState) : p.unstall c state = p.resumed c (fun j => { j with state }) state p.je.wait := by
  simp only [unstall, stalled, JournalState.isStalled, JournalState.cause, Option.isSome_some, if_true]
  rw [notify_eq_made]
  rfl

/-- The retry of a journal STALLED with STORE_FAULT that holds an open block (R82). -/
theorem retryOne_opened {p : Part} {c : Channel} {b : Block} (stalled : (p.journal c).state = .stalled .storeFault)
    (opened : (p.journal c).openBlock = some b) :
    ∃ reclaim, p.retryOne c = p.resumed c (fun j => { j with reclaim, state := .writing }) .writing
      (p.je.wait.filter (fun x => decide (x ≠ c))) := by
  obtain ⟨reclaim, seen⟩ := p.seeReclaim_eq c
  let q : Part := (p.updJournal c (fun j => { j with reclaim })).leaveWait c
  have resumes : (p.updJournal c (fun j => { j with reclaim })).retrySeen c = q.unstall c .writing := by
    simp [retrySeen, stalled, opened, q]
  have stalled' : (q.journal c).state = .stalled .storeFault := by
    have journal := p.journal_updJournal c c (fun j => { j with reclaim })
    rw [if_pos rfl] at journal
    exact (congrArg Journal.state journal).trans stalled
  refine ⟨reclaim, ?_⟩
  rw [retryOne, seen, resumes, unstall_stalled stalled']
  exact p.leaveWait_resumed c _ _ .writing

/-- The retry of a journal STALLED with STORE_FAULT whose reclaim block is still ERASING (R82). -/
theorem retryOne_reclaiming {p : Part} {c : Channel} {b : Block} (stalled : (p.journal c).state = .stalled .storeFault)
    (unopened : (p.journal c).openBlock = none) (reclaim : (p.journal c).reclaim = some b)
    (erasing : (p.entry b).state = .erasing) :
    p.retryOne c = p.resumed c (fun j => { j with state := .waiting }) .waiting p.je.wait := by
  have waits : p.retrySeen c = p.unstall c .waiting := by simp [retrySeen, stalled, unopened, reclaim]
  rw [retryOne, seeReclaim_erasing reclaim erasing, waits, unstall_stalled stalled]

/-- The retry of a journal STALLED with STORE_FAULT that holds no block and waits for none (R82). -/
theorem retryOne_allocates {p : Part} {c : Channel} (stalled : (p.journal c).state = .stalled .storeFault)
    (unopened : (p.journal c).openBlock = none)
    (gone : ∀ b, (p.journal c).reclaim = some b → (p.entry b).state ≠ .erasing) :
    p.retryOne c = (p.updJournal c (fun j => { j with reclaim := none })).allocate c := by
  rw [retryOne, seeReclaim_gone gone]
  simp [retrySeen, stalled, unopened]

theorem retryPass_one {p : Part} {c : Channel} (hold : p.je.hold = false) (wait : p.je.wait = [c]) :
    p.retryPass = p.retryOne c := by
  simp [retryPass, retryTurns, retryTurn, hold, wait]

/-! ### CLEAR_FAULTS -/

/-- The part as the retry pass of CLEAR_FAULTS finds it: the set and the supply hold clear, the reply placed (R43). -/
def faultsCleared (p : Part) (tag : Byte) : Part :=
  { p.updFaults (fun _ => .clear) with
    je := { p.je with hold := false }
    ctrl := { p.ctrl with
      reply := some { tag, kind := 0x05#8, status := .ok, contents := [p.ctl.faults.byte] } } }

end Part

theorem requested_store {s : State} {kind tag : Byte} {body : List Byte} {p : Part} (h : Requested s kind tag body p) :
    p.store = s.part.store := by
  obtain ⟨_, rfl⟩ := requested_part h
  rfl

/-- CLEAR_FAULTS that passes the checks of R186 (R43). -/
theorem exec_clearFaults {s : State} {tag : Byte} {p : Part} (ready : s.part.device = .ready)
    (req : Requested s 0x05#8 tag [] p) :
    exec (.clearFaults tag []) s = .next (s.withPart ((p.faultsCleared tag).retryPass.settleAfter none)) :=
  serve_work req _ rfl ready rfl

/-- The retry that follows CLEAR_FAULTS with the units at rest, one journal with an open block STALLED with STORE_FAULT (R82). -/
theorem Part.faultsCleared_resumes {p : Part} {c : Channel} {b : Block} (tag : Byte) (quiet : p.JournalsQuiet)
    (rest : p.StoreQuiet) (alone : p.je.wait = [c]) (stalled : (p.journal c).state = .stalled .storeFault)
    (opened : (p.journal c).openBlock = some b) :
    ∃ reclaim, (p.faultsCleared tag).retryPass.settleAfter none
      = (p.faultsCleared tag).resumed c (fun j => { j with reclaim, state := .writing }) .writing [] := by
  obtain ⟨reclaim, retried⟩ := retryOne_opened (p := p.faultsCleared tag) stalled opened
  have nobody : (p.faultsCleared tag).je.wait.filter (fun x => decide (x ≠ c)) = [] := by
    simp [faultsCleared, alone]
  refine ⟨reclaim, ?_⟩
  rw [retryPass_one (p := p.faultsCleared tag) rfl alone, retried, nobody]
  refine settleAfter_quiet (quiet.of_eq rfl rfl rfl (fun c' => ?_)) (rest.of_eq rfl rfl rfl rfl rfl rfl)
  rw [journal_resumed]
  split
  · subst_vars
    rfl
  · rfl

/-- Settles O17: the retry pass and the reactions keep the reply; with no journal waiting they do nothing, and with one STALLED
with STORE_FAULT they are that journal's retry. -/
theorem faultsCleared : Obligations.FaultsCleared := by
  intro s tag p ready req
  dsimp only
  rw [exec_clearFaults ready req]
  refine ⟨⟨_, rfl, rfl, ?_⟩, fun quiet rest nobody => ?_,
    fun c b quiet rest alone stalled opened mask room => ⟨_, rfl, ?_⟩,
    fun c stalled => ⟨fun b opened => ?_, fun b unopened reclaim erasing => ?_, fun unopened gone =>
      Part.retryOne_allocates stalled unopened gone⟩⟩
  · have kept : Kept (p.faultsCleared tag) ((p.faultsCleared tag).retryPass.settleAfter none) :=
      (Kept.retryPass _).trans (Kept.settleAfter _ none)
    have same := requested_store req
    exact ⟨kept.reply_eq (requested_free req).1, kept.store_eq.trans same⟩
  · have quiet' : (p.faultsCleared tag).JournalsQuiet := quiet.of_eq rfl rfl rfl (fun _ => rfl)
    have rest' : (p.faultsCleared tag).StoreQuiet := rest.of_eq rfl rfl rfl rfl rfl rfl
    rw [Part.retryPass_quiet (p.faultsCleared tag) nobody, Part.settleAfter_quiet quiet' rest']
    rfl
  · obtain ⟨reclaim, resumes⟩ := Part.faultsCleared_resumes tag quiet rest alone stalled opened
    rw [resumes]
    have journal := (p.faultsCleared tag).journal_resumed c c (fun j => { j with reclaim, state := .writing }) .writing []
    rw [if_pos rfl] at journal
    exact ⟨congrArg Journal.state journal, (congrArg Journal.openBlock journal).trans opened, rfl, rfl,
      Part.notices_resumed c _ _ _ mask room⟩
  · obtain ⟨reclaim, retried⟩ := Part.retryOne_opened stalled opened
    rw [retried, Part.journal_resumed, if_pos rfl]
    exact ⟨rfl, opened, rfl, Part.notices_resumed c _ _ _⟩
  · rw [Part.retryOne_reclaiming stalled unopened reclaim erasing, Part.journal_resumed, if_pos rfl]
    exact ⟨rfl, reclaim, rfl, Part.notices_resumed c _ _ _⟩

end Sys2Proof.Machine
end

/-! ## Erases: how a pulse ends, the slice timer, suspension, and what the arbiter takes (R31, R36 to R41, R44, R45) -/

section
namespace Sys2Proof.Machine

/-! ### The end of an erase (R12, R14, R45) -/

/-- The controller once the erase of a block is over and its entry has left the queue (R37, R45). -/
def Controller.eraseEnded (ctl : Controller) (b : Block) : Controller :=
  { ctl with
    erase := none
    slice := .stopped
    eraseQueue := ctl.eraseQueue.filter (fun x => decide (x.block ≠ b)) }

theorem Controller.eraseEnded_leaves (ctl : Controller) (b : Block) : ∀ y ∈ (ctl.eraseEnded b).eraseQueue, y.block ≠ b :=
  fun _ member => of_decide_eq_true (List.mem_filter.mp member).2

theorem Controller.eraseEnded_only {ctl : Controller} {b : Block} {requester : EraseRequester}
    (queue : ctl.eraseQueue = [{ block := b, requester }]) : (ctl.eraseEnded b).eraseQueue = [] := by
  simp [eraseEnded, queue]

namespace Part

/-- The part once the erase of a block has ended OK, with this notice box (R12, R31, R45). -/
def eraseSucceeded (p : Part) (b : Block) (box : NoticeBox) : Part :=
  { p.updEntry b (DirEntry.emptied .blank) with
    store := Memory.eraseRange p.store (lineAddress b 0) Config.blockBytes
    ctl := p.ctl.eraseEnded b
    freeList := p.freeList ++ [b]
    notices := box }

theorem eraseOk_eq (p : Part) (b : Block) : ∃ box, p.eraseOk b = p.eraseSucceeded b box := by
  unfold eraseOk
  dsimp only
  obtain ⟨box, told⟩ := tellHost_eq _ (p.eraseRequester b) b .ok
  exact ⟨box, told⟩

/-- The part once the erase of a block has ended ERASE_FAIL, with this store, free value counter and notice box (R14, R42,
R45). -/
def eraseFailed (p : Part) (b : Block) (store : List Host.Cell) (freeIdx : Nat) (box : NoticeBox) : Part :=
  { p.updEntry b (DirEntry.emptied .retired) with
    store
    freeIdx
    ctl := { p.ctl.eraseEnded b with faults := { p.ctl.faults with eraseFail := true } }
    je := { p.je with backlog := p.je.backlog ++ [.retireMark b] }
    notices := box }

theorem scramble_eq (p : Part) (a n : Nat) : ∃ store freeIdx, p.scramble a n = { p with store, freeIdx } := ⟨_, _, rfl⟩

/-- The two notices of a failed erase, and what its requester is told (R14, R42, R45). -/
theorem eraseFails_told (p : Part) (b : Block) :
    ∃ store freeIdx, p.eraseFails b = (p.eraseFailed b store freeIdx
      ((p.notices.made (.storeFault .eraseFail .erase (some b))).made (.blockRetired b .eraseFail))).tellHost
        (p.eraseRequester b) b .eraseFail := by
  obtain ⟨store, freeIdx, scrambled⟩ := p.scramble_eq (lineAddress b 0) Config.blockBytes
  refine ⟨store, freeIdx, ?_⟩
  unfold eraseFails
  dsimp only
  rw [scrambled, notify_eq_made, retire_eq_made]
  rfl

theorem eraseFails_eq (p : Part) (b : Block) :
    ∃ store freeIdx box, p.eraseFails b = p.eraseFailed b store freeIdx box := by
  obtain ⟨store, freeIdx, ended⟩ := p.eraseFails_told b
  obtain ⟨box, told⟩ := tellHost_eq _ (p.eraseRequester b) b .eraseFail
  exact ⟨store, freeIdx, box, ended.trans told⟩

/-- A failed erase that a host asked for, the notice box with room for all three notices (R42, R45, R190). -/
theorem eraseFails_host {p : Part} {b : Block} {tag : Byte} (requester : p.eraseRequester b = some (.host tag))
    (mask : p.notices.mask = 0x01FC#16) (room : p.notices.queue.length ≤ 13) :
    ∃ store freeIdx, p.eraseFails b = p.eraseFailed b store freeIdx { p.notices with queue := p.notices.queue
      ++ [.storeFault .eraseFail .erase (some b), .blockRetired b .eraseFail, .opDone tag b .eraseFail] } := by
  let fault : Notice := .storeFault .eraseFail .erase (some b)
  let retired : Notice := .blockRetired b .eraseFail
  have first : p.notices.made fault = { p.notices with queue := p.notices.queue ++ [fault] } :=
    NoticeBox.made_resetMask mask (by simp [Notice.code, fault]) (by omega)
  have second : NoticeBox.made { p.notices with queue := p.notices.queue ++ [fault] } retired
      = { p.notices with queue := p.notices.queue ++ [fault] ++ [retired] } :=
    NoticeBox.made_resetMask mask (by simp [Notice.code, retired]) (by
      simp only [List.length_append, List.length_singleton]
      omega)
  have third : NoticeBox.made { p.notices with queue := p.notices.queue ++ [fault] ++ [retired] }
        (.opDone tag b .eraseFail)
      = { p.notices with queue := p.notices.queue ++ [fault, retired, .opDone tag b .eraseFail] } := by
    rw [NoticeBox.made_opDone tag b .eraseFail (by
      simp only [List.length_append, List.length_singleton]
      omega)]
    simp
  obtain ⟨store, freeIdx, ended⟩ := p.eraseFails_told b
  rw [first, second, requester] at ended
  refine ⟨store, freeIdx, ?_⟩
  rw [ended, ← third]
  exact opDone_host _ tag b .eraseFail

/-- A block whose erase has failed is out of use (R14). -/
theorem OutOfUse.ofEraseFails {p : Part} (b : Block) (ready : p.device = .ready) : (p.eraseFails b).OutOfUse b .retired := by
  obtain ⟨store, freeIdx, box, ended⟩ := p.eraseFails_eq b
  rw [ended]
  exact ⟨ready, congrArg DirEntry.state (p.entry_updEntry_self b (DirEntry.emptied .retired)), p.ctl.eraseEnded_leaves b⟩

/-- With no journal waiting, the array free and nothing waiting for it, the end of an erase leaves the reactions to the Journal
Engine (R36, R76). -/
theorem settleAfter_nobodyWaits {p : Part} (nobody : p.je.wait = []) (rest : p.StoreQuiet) :
    p.settleAfter (some .retryDue) = p.settle [] := by
  rw [settleAfter_idle (p.arbiterTake_quiet rest)]
  exact p.settle_retryDue [] nobody

/-- A failed erase is followed by its block's retire mark, where the units are at rest, the supply is good and the block is
unlocked (R14, R60). -/
theorem settle_eraseFailed {p : Part} {b : Block} {requester : EraseRequester} (store : List Host.Cell) (freeIdx : Nat)
    (box : NoticeBox) (quiet : p.JournalsQuiet) (nobody : p.je.wait = []) (array : p.ctl.array = none)
    (suspended : p.ctl.suspended = none) (programs : p.ctl.programs = []) (readSlot : p.ctl.readSlot = none)
    (queue : p.ctl.eraseQueue = [{ block := b, requester }]) (supplied : p.Supplied) (free : p.lockOf b = .unlocked) :
    (p.eraseFailed b store freeIdx box).settleAfter (some .retryDue)
      = (p.eraseFailed b store freeIdx box).runsHeader (.retireMark b) := by
  have rest : (p.eraseFailed b store freeIdx box).StoreQuiet :=
    ⟨array, rfl, suspended, programs, readSlot, Controller.eraseEnded_only queue⟩
  rw [settleAfter_nobodyWaits (p := p.eraseFailed b store freeIdx box) nobody rest]
  exact settle_runsRetireMark quiet rfl rfl rest
    ⟨supplied.fault, supplied.hold, supplied.coming, supplied.level⟩ ((p.lockOf_emptied b .retired).trans free)

/-- Nothing follows an erase that ends OK, where the units are at rest (R12, R36). -/
theorem settle_eraseSucceeded {p : Part} {b : Block} {requester : EraseRequester} (box : NoticeBox)
    (quiet : p.JournalsQuiet) (nobody : p.je.wait = []) (array : p.ctl.array = none) (suspended : p.ctl.suspended = none)
    (programs : p.ctl.programs = []) (readSlot : p.ctl.readSlot = none)
    (queue : p.ctl.eraseQueue = [{ block := b, requester }]) :
    (p.eraseSucceeded b box).settleAfter (some .retryDue) = p.eraseSucceeded b box := by
  have rest : (p.eraseSucceeded b box).StoreQuiet :=
    ⟨array, rfl, suspended, programs, readSlot, Controller.eraseEnded_only queue⟩
  have quiet' : (p.eraseSucceeded b box).JournalsQuiet := quiet.of_eq rfl rfl rfl (fun _ => rfl)
  exact (settleAfter_nobodyWaits (p := p.eraseSucceeded b box) nobody rest).trans (settle_quiet _ quiet' rest)

/-! ### The end of a pulse (R31) -/

theorem pulseEnds_verified (p : Part) (e : RunningErase) :
    p.pulseEnds e true = (p.eraseOk e.block).settleAfter (some .retryDue) := rfl

theorem pulseEnds_next {p : Part} {e : RunningErase} (more : e.pulses + 1 < 16) :
    p.pulseEnds e false = { p with
      ctl := { p.ctl with erase := some { e with pulses := e.pulses + 1, remaining := 25000 } } } := by
  have notLast : ¬ Config.erasePulses ≤ e.pulses + 1 := Nat.not_le.mpr more
  simp [pulseEnds, notLast, Config.pulseMicros]

theorem pulseEnds_fails {p : Part} {e : RunningErase} (last : 16 ≤ e.pulses + 1) :
    p.pulseEnds e false = (p.eraseFails e.block).settleAfter (some .retryDue) := by
  have atLast : Config.erasePulses ≤ e.pulses + 1 := last
  simp [pulseEnds, atLast]

end Part

theorem exec_erasePulseEnd {s : State} {e : RunningErase} (verified : Bool) (erase : s.part.ctl.erase = some e) :
    exec (.erasePulseEnd verified) s = .next (s.withPart (s.part.pulseEnds e verified)) := by
  simp only [exec, execErasePulseEnd, erase]

/-- Settles O52: what follows the end of an erase keeps the store and the settings, a block whose erase has failed stays out of
use, and with the units at rest nothing follows an erase that ends OK, and the retire mark one that fails. -/
theorem erasePulseEnded : Obligations.ErasePulseEnded := by
  intro s e erase
  dsimp only
  rw [exec_erasePulseEnd true erase, exec_erasePulseEnd false erase]
  refine ⟨⟨_, rfl, rfl, ?_⟩, fun more => by rw [Part.pulseEnds_next more], fun last => ⟨_, rfl, rfl, ?_⟩⟩
  · have kept := (Kept.eraseOk s.part e.block).trans (Kept.settleAfter (s.part.eraseOk e.block) (some .retryDue))
    rw [Part.pulseEnds_verified]
    refine ⟨kept.settings_eq, fun x => ?_, ?_⟩
    · rw [kept.store_eq]
      exact Memory.read_eraseRange s.part.store (lineAddress e.block 0) Config.blockBytes x
    · rintro r ⟨quiet, nobody, array, suspended, programs, readSlot, queue⟩
      obtain ⟨box, ended⟩ := s.part.eraseOk_eq e.block
      have entry := fun b' => s.part.entry_updEntry e.block b' (DirEntry.emptied .blank)
      rw [ended, Part.settle_eraseSucceeded box quiet nobody array suspended programs readSlot queue]
      exact ⟨(entry e.block).trans (if_pos rfl), fun b' other => (entry b').trans (if_neg (Ne.symm other)), rfl,
        Controller.eraseEnded_only queue, rfl, rfl, rfl⟩
  · have kept := Kept.settleAfter (s.part.eraseFails e.block) (some .retryDue)
    rw [Part.pulseEnds_fails last]
    refine ⟨fun x outside => ?_, ?_, fun ready => ?_,
      fun tag ⟨quiet, nobody, array, suspended, programs, readSlot, queue⟩ supplied free mask room => ?_⟩
    · rw [kept.store_eq, (Kept.eraseFails s.part e.block).store_eq]
      exact s.part.read_scramble_outside outside
    · obtain ⟨store, freeIdx, box, ended⟩ := s.part.eraseFails_eq e.block
      exact kept.faults.eraseFail (by rw [ended]; rfl)
    · have out : (s.part.eraseFails e.block).OutOfUse e.block .retired := .ofEraseFails e.block ready
      exact (out.settleAfter (some .retryDue) (by simp [Report.noEnd])).held
    · have requester : s.part.eraseRequester e.block = some (.host tag) := by simp [Part.eraseRequester, queue]
      obtain ⟨store, freeIdx, ended⟩ := Part.eraseFails_host requester mask room
      have entry := fun b' => s.part.entry_updEntry e.block b' (DirEntry.emptied .retired)
      rw [ended, Part.settle_eraseFailed store freeIdx _ quiet nobody array suspended programs readSlot queue supplied free]
      exact ⟨(entry e.block).trans (if_pos rfl), fun b' other => (entry b').trans (if_neg (Ne.symm other)),
        Controller.eraseEnded_only queue, rfl, rfl, congrArg (· ++ [ProgramOp.retireMark e.block]) quiet.backlog, rfl, rfl⟩

/-! ### The slice timer and suspension (R37, R38) -/

/-- ERASE_SLICE_TIMER_EXPIRY while an erase runs in its slice (R37). -/
theorem exec_eraseSliceTimerExpiry {s : State} {e : RunningErase} (erase : s.part.ctl.erase = some e)
    (below : s.part.ctl.slice = .below) :
    exec .eraseSliceTimerExpiry s = .next (s.withPart { s.part with
      ctl := ({ s.part.ctl with slice := .reached }).requestSuspension }) := by
  simp [exec, execEraseSliceTimerExpiry, erase, below]

/-- At the end of a slice suspension is requested where work waits (R37). -/
theorem Controller.requestSuspension_reached {ctl : Controller} {e : RunningErase} (erase : ctl.erase = some e) :
    ({ ctl with slice := .reached }).requestSuspension
      = { ctl with slice := .reached, erase := some { e with suspending := e.suspending || ctl.workWaiting } } := by
  have waits : ∀ running, Controller.workWaiting { ctl with slice := .reached, erase := running } = ctl.workWaiting :=
    fun _ => rfl
  cases work : ctl.workWaiting with
  | true => simp [requestSuspension, erase, waits, work]
  | false => simp [requestSuspension, erase, waits, work]

/-- SUSPENSION_TAKES_EFFECT in time (R38). -/
theorem exec_suspensionTakesEffect {s : State} {e : RunningErase} {ran : Nat} (erase : s.part.ctl.erase = some e)
    (suspending : e.suspending = true) (inTime : ran ≤ e.remaining) :
    exec (.suspensionTakesEffect ran) s = .next (s.withPart ((s.part.suspend e ran).settleAfter none)) := by
  simp [exec, execSuspensionTakesEffect, erase, suspending, inTime]

namespace Part

/-- The read that waits alone for a free array begins, and with the Journal Engine at rest nothing follows (R30, R36). -/
theorem settleAfter_takesRead {p : Part} {r : ReadReq} (quiet : p.JournalsQuiet) (array : p.ctl.array = none)
    (erase : p.ctl.erase = none) (programs : p.ctl.programs = []) (readSlot : p.ctl.readSlot = some r)
    (standing : (p.entry r.block).state ≠ .erasing) :
    p.settleAfter none = { p with ctl := { p.ctl with readSlot := none, array := some (.read r) } } := by
  let q : Part := { p with ctl := { p.ctl with readSlot := none } }
  have begins : q.takeRead r = (q.begin (.read r), []) := if_neg standing
  have taken : p.arbiterTake = some (q.begin (.read r), []) := by
    rw [arbiterTake_read array erase programs readSlot]
    exact congrArg some begins
  have busy : (q.begin (.read r)).arbiterTake = none := arbiterTake_busy _ _ rfl
  have waits : (q.begin (.read r)).JournalsQuiet := quiet.of_eq rfl rfl rfl (fun _ => rfl)
  rw [settleAfter, arbitrate_once _ _ taken busy]
  exact settle_of _ _ waits (arbitrate_idle _ busy)

/-! ### A resumption or an erase refused (R13, R40, R41, R44) -/

/-- A supply check that fails with SUPPLY clear (R40). -/
theorem supplyFails_clear {p : Part} (op : StoreOp) (block : Option Block) (fault : p.ctl.faults.supply = false) :
    p.supplyFails op block = { p with
      ctl := { p.ctl with faults := { p.ctl.faults with supply := true } }
      notices := p.notices.made (.storeFault .supply op block) } := by
  simp only [supplyFails, fault, Bool.false_eq_true, if_false]
  rw [notify_eq_made]
  rfl

/-- The part once the erase of an entry has been refused for LOCKED, with this notice box (R13, R41, R44). -/
def eraseRefused (p : Part) (x : EraseEntry) (box : NoticeBox) : Part :=
  { p.updEntry x.block DirEntry.returned with
    ctl := { p.ctl with
      faults := { p.ctl.faults with lockedHit := true }
      eraseQueue := p.ctl.eraseQueue.filter (fun y => decide (y.block ≠ x.block)) }
    notices := box }

theorem refuseErase_host {p : Part} {x : EraseEntry} {tag : Byte} (requester : x.requester = .host tag) :
    p.refuseErase x = p.eraseRefused x (p.notices.made (.opDone tag x.block .locked)) := by
  rw [refuseErase, requester, opDone_host]
  rfl

theorem refuseErase_journal {p : Part} {x : EraseEntry} {c : Channel} (requester : x.requester = .journal c) :
    p.refuseErase x = p.eraseRefused x p.notices := by
  rw [refuseErase, requester]
  rfl

theorem refuseErase_eq (p : Part) (x : EraseEntry) : ∃ box, p.refuseErase x = p.eraseRefused x box := by
  cases requester : x.requester with
  | host tag => exact ⟨_, refuseErase_host requester⟩
  | journal c => exact ⟨_, refuseErase_journal requester⟩

theorem entry_eraseRefused (p : Part) (x : EraseEntry) (box : NoticeBox) (b : Block) :
    (p.eraseRefused x box).entry b = if x.block = b then (p.entry x.block).returned else p.entry b :=
  p.entry_updEntry x.block b DirEntry.returned

end Part

theorem DirEntry.returned_eq {e : DirEntry} {prior : PriorState} (left : e.prior = some prior) :
    e.returned = { e with state := prior.state, prior := none } := by
  simp [returned, left]

/-- Settles O53: the slice timer and the suspension as the controller takes them; and of the arbiter's two choices, a resumption
or an erase, what each begin check answers. -/
theorem sliceTimerAndSuspension : Obligations.SliceTimerAndSuspension := by
  refine ⟨fun s e erase below => ?_, fun s e r ran erase suspending inTime quiet array programs readSlot standing => ?_,
    fun p array erase programs readSlot fault coming => ?_⟩
  · rw [exec_eraseSliceTimerExpiry erase below, Controller.requestSuspension_reached erase]
    rfl
  · have quiet' : (s.part.suspend e ran).JournalsQuiet := quiet.of_eq rfl rfl rfl (fun _ => rfl)
    rw [exec_suspensionTakesEffect erase suspending inTime,
      Part.settleAfter_takesRead quiet' array rfl programs readSlot standing]
    rfl
  intro runs refusedSupply
  have low : ∀ b, p.arbiterTake = some (p.supplyFails .erase (some b), [.eraseSupply]) → refusedSupply b := by
    intro b taken
    rw [Part.supplyFails_clear .erase (some b) fault] at taken
    refine ⟨_, taken, rfl, rfl, rfl, fun mask room => ?_⟩
    rw [NoticeBox.made_resetMask mask (by simp [Notice.code]) room]
  refine ⟨fun r suspended => ⟨fun level => ?_, fun level => low r.block ?_⟩,
    fun x rest suspended queue => ⟨fun level => low x.block ?_, fun level free => ?_, fun level locked => ?_⟩⟩
  · rw [Part.arbiterTake_resumption array erase programs readSlot fault suspended]
    exact congrArg some (Part.takeResumption_runs r coming level)
  · rw [Part.arbiterTake_resumption array erase programs readSlot fault suspended]
    exact congrArg some (Part.takeResumption_low r coming level)
  · rw [Part.arbiterTake_erase array erase programs readSlot fault suspended queue]
    exact congrArg some (Part.takeErase_low x coming level)
  · rw [Part.arbiterTake_erase array erase programs readSlot fault suspended queue]
    exact congrArg some (Part.takeErase_begins coming level free)
  · rw [Part.arbiterTake_erase array erase programs readSlot fault suspended queue,
      Part.takeErase_locked coming level locked]
    have told : ∀ tag, x.requester = .host tag → p.notices.queue.length < 16 →
        (p.refuseErase x).notices.queue = p.notices.queue ++ [.opDone tag x.block .locked] := by
      intro tag requester room
      rw [Part.refuseErase_host requester]
      exact congrArg NoticeBox.queue (NoticeBox.made_opDone tag x.block .locked room)
    have untold : ∀ c, x.requester = .journal c → (p.refuseErase x).notices = p.notices := by
      intro c requester
      rw [Part.refuseErase_journal requester]
      rfl
    obtain ⟨box, refused⟩ := p.refuseErase_eq x
    rw [refused] at told untold ⊢
    refine ⟨_, rfl, rfl, fun prior left => ?_, fun b other => ?_, rfl, rfl, told, untold⟩
    · rw [Part.entry_eraseRefused, if_pos rfl, DirEntry.returned_eq left]
      cases prior <;> rfl
    · rw [Part.entry_eraseRefused, if_neg (Ne.symm other)]

end Sys2Proof.Machine
end

/-! ## What a journal's own steps write, and what the Event Unit writes (R53 to R57, R68, R75, R108 to R113) -/

section
namespace Sys2Proof.Machine

namespace Part

/-! ### Entries, journals and channels read from the register that holds them -/

theorem entry_of_dir {p q : Part} (same : q.dir = p.dir) (b : Block) : q.entry b = p.entry b := by
  simp [entry, same]

theorem journal_of_journals {p q : Part} (same : q.je.journals = p.je.journals) (c : Channel) :
    q.journal c = p.journal c := by
  simp [journal, same]

theorem chan_of_chans {p q : Part} (same : q.chans = p.chans) (c : Channel) : q.chan c = p.chan c := by
  simp [chan, same]

/-! ### A journal's own steps -/

/-- A journal moves: the journal as `f` makes it, the wait queue, the backlog and the notices. -/
def moved (p : Part) (c : Channel) (f : Journal → Journal) (wait : List Channel) (backlog : List ProgramOp)
    (notices : NoticeBox) : Part :=
  { p.updJournal c f with
    je := { (p.updJournal c f).je with wait, backlog }
    notices }

theorem journal_moved (p : Part) (c c' : Channel) (f : Journal → Journal) (wait : List Channel) (backlog : List ProgramOp)
    (notices : NoticeBox) :
    (p.moved c f wait backlog notices).journal c' = if c = c' then f (p.journal c) else p.journal c' :=
  p.journal_updJournal c c' f

theorem moved_id (p : Part) (c : Channel) : p.moved c id p.je.wait p.je.backlog p.notices = p := by
  rw [moved, p.updJournal_same c id rfl]

theorem updJournal_moved (p : Part) (c : Channel) (f g : Journal → Journal) (wait : List Channel)
    (backlog : List ProgramOp) (notices : NoticeBox) :
    (p.moved c f wait backlog notices).updJournal c g = p.moved c (fun j => g (f j)) wait backlog notices := by
  rw [moved, moved, ← p.updJournal_updJournal c f g]
  rfl

/-- The wait queue once a channel has joined it (R75). -/
def waitWith (p : Part) (c : Channel) : List Channel := if p.je.wait.contains c then p.je.wait else p.je.wait ++ [c]

theorem mem_waitWith (p : Part) (c : Channel) : c ∈ p.waitWith c := by
  unfold waitWith
  split
  · exact List.contains_iff_mem.mp ‹_›
  · exact List.mem_append_right _ List.mem_cons_self

theorem subset_waitWith (p : Part) (c : Channel) : p.je.wait ⊆ p.waitWith c := by
  unfold waitWith
  split
  · exact List.Subset.refl _
  · exact List.subset_append_left _ _

theorem joinWait_eq (p : Part) (c : Channel) : p.joinWait c = { p with je := { p.je with wait := p.waitWith c } } := by
  unfold joinWait waitWith
  split <;> rfl

/-- A journal that is not STALLED with this cause yet becomes so, joins the wait queue and makes a notice (R57, R75). -/
theorem stall_eq {p : Part} {c : Channel} {cause : StallCause} (other : (p.journal c).state ≠ .stalled cause) :
    p.stall c cause = p.moved c (fun j => { j with state := .stalled cause }) (p.waitWith c) p.je.backlog
      (p.notices.made (.stalled c cause)) := by
  rw [stall, if_neg other, notify_eq_made, joinWait_eq]
  rfl

theorem stall_again {p : Part} {c : Channel} {cause : StallCause} (already : (p.journal c).state = .stalled cause) :
    p.stall c cause = p :=
  if_pos already

theorem stall_moved (p : Part) (c : Channel) (cause : StallCause) :
    ∃ f wait notices, p.stall c cause = p.moved c f wait p.je.backlog notices := by
  by_cases already : (p.journal c).state = .stalled cause
  · exact ⟨id, _, _, (stall_again already).trans (p.moved_id c).symm⟩
  · exact ⟨_, _, _, stall_eq already⟩

theorem state_stall (p : Part) (c : Channel) (cause : StallCause) :
    ((p.stall c cause).journal c).state = .stalled cause := by
  by_cases already : (p.journal c).state = .stalled cause
  · rw [stall_again already, already]
  · rw [stall_eq already, journal_moved, if_pos rfl]

/-- A journal takes a state other than STALLED (R57). -/
theorem unstall_eq (p : Part) (c : Channel) (state : JournalState) :
    ∃ notices, p.unstall c state = { p.updJournal c (fun j => { j with state }) with notices } := by
  unfold unstall
  dsimp only
  split
  · exact ⟨_, notify_eq_made _ _⟩
  · exact ⟨_, rfl⟩

theorem unstall_moved (p : Part) (c : Channel) (f : Journal → Journal) (wait : List Channel) (backlog : List ProgramOp)
    (notices : NoticeBox) (state : JournalState) :
    ∃ notices', (p.moved c f wait backlog notices).unstall c state
      = p.moved c (fun j => { f j with state }) wait backlog notices' := by
  obtain ⟨notices', eq⟩ := (p.moved c f wait backlog notices).unstall_eq c state
  refine ⟨notices', ?_⟩
  rw [eq, updJournal_moved]
  rfl

/-- A close joins the backlog, or not yet (R68). -/
theorem addDue_moved (p : Part) (c : Channel) (f : CloseDue → CloseDue) :
    ∃ backlog, p.addDue c f = p.moved c (fun j => { j with due := f j.due }) p.je.wait backlog p.notices := by
  unfold addDue joinClose
  split
  · exact ⟨p.je.backlog, rfl⟩
  · split
    · exact ⟨_, rfl⟩
    · exact ⟨p.je.backlog, rfl⟩

/-- A channel that stops moves its own journal, whose next record number stays (R70). -/
theorem journalStop_moved (p : Part) (c : Channel) (close : Bool) :
    ∃ f wait backlog notices, p.journalStop c close = p.moved c f wait backlog notices
      ∧ ∀ j, (f j).nextRec = j.nextRec := by
  have closes : ∃ f backlog, (if close && (p.journal c).openBlock.isSome then p.addDue c (fun d => { d with stop := true })
      else p) = p.moved c f p.je.wait backlog p.notices ∧ ∀ j, (f j).nextRec = j.nextRec := by
    split
    · obtain ⟨backlog, eq⟩ := p.addDue_moved c (fun d => { d with stop := true })
      exact ⟨_, backlog, eq, fun _ => rfl⟩
    · exact ⟨id, p.je.backlog, (p.moved_id c).symm, fun _ => rfl⟩
  obtain ⟨f, backlog, closed, same⟩ := closes
  unfold journalStop
  rw [closed]
  simp only [dropReclaim, updJournal_moved]
  split
  · obtain ⟨notices, eq⟩ := p.unstall_moved c (fun j => { f j with reclaim := none })
      (p.je.wait.filter (fun x => decide (x ≠ c))) backlog p.notices .noBlock
    exact ⟨_, _, _, _, eq, same⟩
  · exact ⟨_, _, _, _, rfl, same⟩

/-! ### The Event Unit -/

end Part

/-- What the Event Unit writes in a step that no request makes: its table, notices, and of the directory the hold counts
(R108 to R114). -/
structure EventSide (p q : Part) : Prop where
  outside : ∃ dir events notices, q = { p with dir, events, notices }
  entry : ∀ b, ∃ holdCount, q.entry b = { p.entry b with holdCount }

namespace EventSide

theorem trans {p q r : Part} (h : EventSide p q) (h' : EventSide q r) : EventSide p r where
  outside := by
    obtain ⟨_, _, _, rfl⟩ := h.outside
    obtain ⟨_, _, _, rfl⟩ := h'.outside
    exact ⟨_, _, _, rfl⟩
  entry b := by
    obtain ⟨_, first⟩ := h.entry b
    obtain ⟨_, second⟩ := h'.entry b
    exact ⟨_, second.trans (by rw [first])⟩

theorem told (p : Part) (events : EventUnit) (notices : NoticeBox) : EventSide p { p with events, notices } :=
  ⟨⟨_, _, _, rfl⟩, fun _ => ⟨_, rfl⟩⟩

theorem refl (p : Part) : EventSide p p := told p p.events p.notices

theorem notify (p : Part) (n : Notice) : EventSide p (p.notify n) := by
  rw [p.notify_eq_made]
  exact told p p.events _

theorem holdBlock (p : Part) (b : Block) : EventSide p (p.holdBlock b) where
  outside := ⟨_, _, _, rfl⟩
  entry b' := by
    rw [Part.holdBlock, Part.entry_updEntry]
    split
    · subst b'
      exact ⟨_, rfl⟩
    · exact ⟨_, rfl⟩

theorem holdBlocks (blocks : List Block) (p : Part) : EventSide p (blocks.foldl Part.holdBlock p) := by
  induction blocks generalizing p with
  | nil => exact refl p
  | cons b blocks ih => exact (holdBlock p b).trans (ih _)

theorem notifyIfComplete (p : Part) (e : Event) : EventSide p (p.notifyIfComplete e) := by
  unfold Part.notifyIfComplete
  split
  · exact notify p _
  · exact refl p

theorem takeTrigger (p : Part) (c : Channel) (cause : EventCause) : EventSide p (p.takeTrigger c cause).1 := by
  unfold Part.takeTrigger
  split
  · exact ((told p _ p.notices).trans (notify _ _)).trans (notifyIfComplete _ _)
  · split
    · exact refl p
    · exact (((holdBlocks _ p).trans (told _ _ _)).trans (notify _ _)).trans (notifyIfComplete _ _)

theorem countCommit (p : Part) (c : Channel) : EventSide p (p.countCommit c) := by
  unfold Part.countCommit
  split
  · exact refl p
  · exact (told p _ p.notices).trans (notifyIfComplete _ _)

theorem eventCommit (p : Part) (c : Channel) (record : Nat) (content : Content) :
    EventSide p (p.eventCommit c record content) := by
  unfold Part.eventCommit
  split
  · split
    · rename_i code _
      have trigger := takeTrigger p c (.marker code)
      split
      · rename_i taken
        rw [taken] at trigger
        exact trigger.trans (notify _ _)
      · rename_i taken
        rw [taken] at trigger
        exact trigger
    · exact countCommit p c
  · exact countCommit p c

theorem eventOpen (p : Part) (c : Channel) (b : Block) : EventSide p (p.eventOpen c b) := by
  unfold Part.eventOpen
  split
  · exact refl p
  · split
    · exact (told p _ p.notices).trans (notify _ _)
    · exact (told p _ p.notices).trans (holdBlock _ b)

end EventSide

namespace Part

theorem events_notify (p : Part) (n : Notice) : (p.notify n).events = p.events := by
  rw [notify_eq_made]

theorem events_notifyIfComplete (p : Part) (e : Event) : (p.notifyIfComplete e).events = p.events := by
  unfold notifyIfComplete
  split
  · exact p.events_notify _
  · rfl

/-- A block opened for a channel with no COLLECTING event (R113). -/
theorem eventOpen_none {p : Part} {c : Channel} (b : Block) (none : p.events.collecting c = none) :
    p.eventOpen c b = p := by
  simp [eventOpen, none]

/-- A block opened for a channel whose COLLECTING event holds fewer than 32 blocks (R113). -/
theorem eventOpen_joins {p : Part} {c : Channel} {e : Event} (b : Block) (collecting : p.events.collecting c = some e)
    (room : e.held.length < 32) :
    p.eventOpen c b = ({ p with events := p.events.replace { e with held := e.held ++ [b] } } : Part).holdBlock b := by
  have notFull : ¬ Config.heldBlocks ≤ e.held.length := Nat.not_le.mpr room
  simp [eventOpen, collecting, notFull]

/-- A block opened for a channel whose COLLECTING event holds 32 blocks (R113, R114). -/
theorem eventOpen_short {p : Part} {c : Channel} {e : Event} (b : Block) (collecting : p.events.collecting c = some e)
    (full : 32 ≤ e.held.length) :
    ∃ notices, p.eventOpen c b
      = { p with events := p.events.replace { e with short := true, state := .complete }, notices } := by
  have isFull : Config.heldBlocks ≤ e.held.length := full
  simp only [eventOpen, collecting, isFull, if_true]
  exact ⟨_, notify_eq_made _ _⟩

/-- A record that is no marker trigger, the channel without a COLLECTING event (R112). -/
theorem countCommit_none {p : Part} {c : Channel} (none : p.events.collecting c = none) : p.countCommit c = p := by
  simp [countCommit, none]

/-- A record that is no marker trigger counts against the channel's COLLECTING event (R112, R114). -/
theorem events_countCommit {p : Part} {c : Channel} {e : Event} (collecting : p.events.collecting c = some e) :
    (p.countCommit c).events = p.events.replace { e with
      remaining := e.remaining - 1, state := if e.remaining - 1 = 0 then .complete else e.state } := by
  rw [countCommit, collecting]
  exact events_notifyIfComplete _ _

/-- A record that is no marker trigger (R104, R112). -/
theorem eventCommit_plain {p : Part} {c : Channel} {content : Content} (record : Nat)
    (plain : ∀ code, content = .mark code → (p.setting c).triggerCode ≠ some code) :
    p.eventCommit c record content = p.countCommit c := by
  cases content with
  | mark code => simp [eventCommit, plain code rfl]
  | frame | abort => rfl

end Part

end Sys2Proof.Machine
end

/-! ## A journal that allocates (R8, R11, R15, R18, R58, R71 to R74, R79 to R81, R113) -/

section
namespace Sys2Proof.Machine

/-! ### The blocks an allocation chooses (R15, R72, R73) -/

theorem lowestSeq_mem {seq : Block → Nat} {l : List Block} {b : Block} (h : lowestSeq seq l = some b) : b ∈ l := by
  induction l generalizing b with
  | nil => cases h
  | cons a l ih =>
    unfold lowestSeq at h
    split at h
    · cases h
      exact List.mem_cons_self
    · split at h
      · cases h
        exact List.mem_cons_of_mem a (ih ‹_›)
      · cases h
        exact List.mem_cons_self

theorem lowestSeq_none {seq : Block → Nat} {l : List Block} (h : lowestSeq seq l = none) : l = [] := by
  cases l with
  | nil => rfl
  | cons a l =>
    unfold lowestSeq at h
    repeat' split at h
    all_goals cases h

theorem lowestSeq_le {seq : Block → Nat} {l : List Block} {b : Block} (h : lowestSeq seq l = some b) :
    ∀ b' ∈ l, seq b ≤ seq b' := by
  induction l generalizing b with
  | nil => cases h
  | cons a l ih =>
    intro b' mem
    unfold lowestSeq at h
    split at h
    · cases h
      rename_i nothing
      rw [lowestSeq_none nothing, List.mem_singleton] at mem
      exact (congrArg seq mem).ge
    · rename_i x lowest
      have below := ih lowest
      split at h
      · cases h
        obtain rfl | later := List.mem_cons.mp mem
        · omega
        · exact below b' later
      · cases h
        obtain rfl | later := List.mem_cons.mp mem
        · exact Nat.le_refl _
        · have := below b' later
          omega

namespace Part

theorem unlockedForWork_iff (p : Part) (b : Block) :
    p.unlockedForWork b = true ↔ p.lockOf b = .unlocked ∧ (p.entry b).downFlag = false := by
  simp [unlockedForWork]

theorem reclaimable_iff (p : Part) (c : Channel) (b : Block) :
    p.reclaimable c b = true ↔ (p.entry b).state = .closed ∧ (p.entry b).channel = some c ∧ (p.entry b).holdCount = 0
      ∧ p.lockOf b = .unlocked ∧ (p.entry b).downFlag = false ∧ (p.active.eval b).cls = .ring
      ∧ (p.active.eval b).set.getLsbD c.val = true := by
  simp [reclaimable, unlockedForWork_iff, MapValue.reclaimable, inSet, mapOf, and_assoc]

theorem freeChoice_spec {p : Part} {c : Channel} {b : Block} (choice : p.freeChoice c = some b) :
    b ∈ p.freeList ∧ (p.entry b).state = .blank ∧ p.lockOf b = .unlocked ∧ (p.entry b).downFlag = false
      ∧ (p.active.eval b).cls ≠ .parked ∧ (p.active.eval b).set.getLsbD c.val = true := by
  have suits := List.find?_some choice
  simp only [eligible, MapValue.writable, inSet, mapOf, Bool.and_eq_true, decide_eq_true_eq, unlockedForWork_iff,
    bne_iff_ne] at suits
  obtain ⟨blank, ⟨unlocked, up⟩, notParked, inSet⟩ := suits
  exact ⟨List.mem_of_find?_eq_some choice, blank, unlocked, up, notParked, inSet⟩

theorem tornChoice_torn {p : Part} {c : Channel} {b : Block} (choice : p.tornChoice c = some b) :
    (p.entry b).state = .torn := by
  have suits := List.find?_some choice
  simp only [Bool.and_eq_true, decide_eq_true_eq] at suits
  exact suits.1.1

theorem reclaimChoice_reclaimable {p : Part} {c : Channel} {b : Block} (choice : p.reclaimChoice c = some b) :
    p.reclaimable c b = true :=
  (List.mem_filter.mp (lowestSeq_mem choice)).2

theorem reclaimChoice_lowest {p : Part} {c : Channel} {b b' : Block} (choice : p.reclaimChoice c = some b)
    (may : p.reclaimable c b' = true) : (p.entry b).seq.getD 0 ≤ (p.entry b').seq.getD 0 :=
  lowestSeq_le choice b' (List.mem_filter.mpr ⟨List.mem_finRange b', may⟩)

/-! ### The steps of an allocation (R71 to R74) -/

theorem allocate_spent {p : Part} {c : Channel} (spent : 4294967295 ≤ p.je.nextSeq) :
    p.allocate c = p.stall c .numbers :=
  if_pos spent

theorem allocate_held {p : Part} {c : Channel} (numbers : p.je.nextSeq < 4294967295) (hold : p.je.hold = true) :
    p.allocate c = p.stall c .storeFault := by
  have notSpent : ¬ Config.maxSeq ≤ p.je.nextSeq := Nat.not_le.mpr numbers
  simp [allocate, notSpent, hold]

theorem allocate_chooses {p : Part} {c : Channel} (numbers : p.je.nextSeq < 4294967295) (hold : p.je.hold = false) :
    p.allocate c = p.freeOr c (p.tornOrReclaim c) := by
  have notSpent : ¬ Config.maxSeq ≤ p.je.nextSeq := Nat.not_le.mpr numbers
  simp [allocate, notSpent, hold]

theorem freeOr_opens {p : Part} {c : Channel} {b : Block} (otherwise : Part) (free : p.freeChoice c = some b) :
    p.freeOr c otherwise = p.openFor c b := by
  simp [freeOr, free]

theorem freeOr_none {p : Part} {c : Channel} (otherwise : Part) (free : p.freeChoice c = none) :
    p.freeOr c otherwise = otherwise := by
  simp [freeOr, free]

theorem tornOrReclaim_torn {p : Part} {c : Channel} {b : Block} (torn : p.tornChoice c = some b) :
    p.tornOrReclaim c = p.waitOn c b := by
  simp [tornOrReclaim, torn]

theorem tornOrReclaim_none {p : Part} {c : Channel} (torn : p.tornChoice c = none) :
    p.tornOrReclaim c = reclaimStep 129 p c := by
  simp [tornOrReclaim, torn]

theorem reclaimStep_none {p : Part} {c : Channel} (tries : Nat) (choice : p.reclaimChoice c = none) :
    reclaimStep tries p c = p.stall c .noSpace := by
  cases tries <;> simp [reclaimStep, choice]

theorem reclaimStep_waits {p : Part} {c : Channel} {b : Block} (tries : Nat) (choice : p.reclaimChoice c = some b)
    (sound : (p.entry b).worn = false) : reclaimStep (tries + 1) p c = p.waitOn c b := by
  simp [reclaimStep, choice, sound]

theorem reclaimStep_retires {p : Part} {c : Channel} {b : Block} (tries : Nat) (choice : p.reclaimChoice c = some b)
    (worn : (p.entry b).worn = true) : reclaimStep (tries + 1) p c = reclaimStep tries (p.retire b .worn) c := by
  simp [reclaimStep, choice, worn]

end Part

/-! ### A journal opens a block (R8, R71, R113) -/

/-- The entry of a block opened for a channel under this sequence (R8). -/
def DirEntry.openedFor (c : Channel) (seq : Nat) (e : DirEntry) : DirEntry :=
  { e with state := .opened, channel := some c, seq := some seq, fill := 0, first := none, last := none
           worn := false, pending := .clear }

namespace Part

/-- The part once a block is taken from the free list, before the Event Unit is told (R8, R71). -/
def blockTaken (p : Part) (c : Channel) (b : Block) : Part :=
  { p.updEntry b (DirEntry.openedFor c p.je.nextSeq) with
    freeList := p.freeList.filter (fun x => decide (x ≠ b))
    je := { p.je with
      nextSeq := p.je.nextSeq + 1
      backlog := p.je.backlog ++ [ProgramOp.headerOpen b c p.je.nextSeq (p.journal c).nextRec] } }

theorem entry_blockTaken (p : Part) (c : Channel) (b : Block) :
    (p.blockTaken c b).entry b = (p.entry b).openedFor c p.je.nextSeq :=
  p.entry_updEntry_self b _

/-- A journal that opens a block: the block is taken, the Event Unit is told, and the journal is WRITING (R71). -/
theorem openFor_eq (p : Part) (c : Channel) (b : Block) :
    let told := (p.blockTaken c b).eventOpen c b
    ∃ notices, p.openFor c b = told.moved c
      (fun j => { j with openBlock := some b, reclaim := none, due := .none, state := .writing })
      (told.je.wait.filter (fun x => decide (x ≠ c))) told.je.backlog notices :=
  unstall_moved _ c _ _ _ _ _

/-- The entry of the block a journal opens (R8). -/
theorem entry_openFor (p : Part) (c : Channel) (b : Block) :
    let e := (p.openFor c b).entry b
    e.state = .opened ∧ e.channel = some c ∧ e.seq = some p.je.nextSeq ∧ e.fill = 0 ∧ e.first = none ∧ e.last = none := by
  obtain ⟨notices, opens⟩ := p.openFor_eq c b
  obtain ⟨holdCount, told⟩ := (EventSide.eventOpen (p.blockTaken c b) c b).entry b
  have entry : (p.openFor c b).entry b = { (p.entry b).openedFor c p.je.nextSeq with holdCount } := by
    rw [← entry_blockTaken, ← told, opens]
    exact entry_of_dir rfl b
  rw [entry]
  exact ⟨rfl, rfl, rfl, rfl, rfl, rfl⟩

/-- The Journal Engine and the free list once a journal has opened a block (R8, R71). -/
theorem je_openFor (p : Part) (c : Channel) (b : Block) :
    b ∉ (p.openFor c b).freeList ∧ (p.openFor c b).je.nextSeq = p.je.nextSeq + 1
      ∧ (p.openFor c b).je.backlog
        = p.je.backlog ++ [ProgramOp.headerOpen b c p.je.nextSeq (p.journal c).nextRec]
      ∧ ((p.openFor c b).journal c).state = .writing ∧ ((p.openFor c b).journal c).openBlock = some b
      ∧ c ∉ (p.openFor c b).je.wait := by
  obtain ⟨notices, opens⟩ := p.openFor_eq c b
  obtain ⟨dir, events, notices', told⟩ := (EventSide.eventOpen (p.blockTaken c b) c b).outside
  rw [opens, told, journal_moved, if_pos rfl]
  exact ⟨by simp [moved, updJournal, blockTaken], rfl, rfl, rfl, rfl, by simp [moved]⟩

/-- The channel's COLLECTING event as a block is opened: it holds the block, or completes short (R113). -/
theorem events_openFor (p : Part) (c : Channel) (b : Block) :
    (p.openFor c b).events = ((p.blockTaken c b).eventOpen c b).events
      ∧ (p.openFor c b).entry b = ((p.blockTaken c b).eventOpen c b).entry b := by
  obtain ⟨notices, opens⟩ := p.openFor_eq c b
  rw [opens]
  exact ⟨rfl, entry_of_dir rfl b⟩

theorem openFor_unwatched {p : Part} {c : Channel} (b : Block) (none : p.events.collecting c = none) :
    (p.openFor c b).events = p.events ∧ ((p.openFor c b).entry b).holdCount = (p.entry b).holdCount := by
  obtain ⟨events, entry⟩ := p.events_openFor c b
  rw [events, entry, eventOpen_none (p := p.blockTaken c b) b none, entry_blockTaken]
  exact ⟨rfl, rfl⟩

theorem openFor_watched {p : Part} {c : Channel} {e : Event} (b : Block) (collecting : p.events.collecting c = some e) :
    (p.openFor c b).events.table = p.events.table.map (fun y => if y.id = e.id then
        (if decide (e.held.length < 32) then { e with held := e.held ++ [b] }
          else { e with short := true, state := .complete }) else y)
      ∧ ((p.openFor c b).entry b).holdCount
        = (p.entry b).holdCount + (if decide (e.held.length < 32) then 1 else 0) := by
  obtain ⟨events, entry⟩ := p.events_openFor c b
  have held : ((p.blockTaken c b).entry b).holdCount = (p.entry b).holdCount := by
    rw [entry_blockTaken, DirEntry.openedFor]
  rw [events, entry]
  by_cases room : e.held.length < 32
  · rw [eventOpen_joins (p := p.blockTaken c b) b collecting room]
    simp only [room, decide_true, if_true]
    refine ⟨rfl, ?_⟩
    rw [holdBlock, entry_updEntry_self]
    exact congrArg (· + 1) held
  · obtain ⟨notices, short⟩ := eventOpen_short (p := p.blockTaken c b) b collecting (Nat.not_lt.mp room)
    rw [short]
    simp only [room, decide_false]
    exact ⟨rfl, held⟩

/-! ### A journal waits for a block of its own (R11, R72, R73) -/

/-- A journal that waits for a block it has enqueued for erase. -/
theorem waitOn_eq (p : Part) (c : Channel) (b : Block) :
    ∃ notices, p.waitOn c b = (p.enqueueErase b (.journal c)).moved c
      (fun j => { j with reclaim := some b, state := .waiting }) ((p.enqueueErase b (.journal c)).waitWith c)
      p.je.backlog notices := by
  unfold waitOn
  dsimp only
  rw [joinWait_eq]
  exact unstall_moved _ c (fun j => { j with reclaim := some b }) _ _ _ _

theorem entry_waitOn (p : Part) (c : Channel) (b b' : Block) :
    (p.waitOn c b).entry b' = if b = b' then
        { p.entry b with state := .erasing, prior := some (if (p.entry b).state = .torn then .torn else .closed) }
      else p.entry b' := by
  obtain ⟨notices, waits⟩ := p.waitOn_eq c b
  rw [waits]
  exact p.entry_updEntry b b' (fun e =>
    { e with state := .erasing, prior := some (if e.state = .torn then .torn else .closed) })

theorem je_waitOn (p : Part) (c : Channel) (b : Block) :
    (p.waitOn c b).ctl.eraseQueue = p.ctl.eraseQueue ++ [{ block := b, requester := .journal c }]
      ∧ ((p.waitOn c b).journal c).state = .waiting ∧ ((p.waitOn c b).journal c).reclaim = some b
      ∧ c ∈ (p.waitOn c b).je.wait ∧ (p.waitOn c b).je.backlog = p.je.backlog := by
  obtain ⟨notices, waits⟩ := p.waitOn_eq c b
  rw [waits, journal_moved, if_pos rfl]
  exact ⟨rfl, rfl, rfl, mem_waitWith _ c, rfl⟩

/-! ### Reclaim leaves a retired block alone (R18, R74) -/

/-- The block is RETIRED and its retire mark is in the backlog. -/
def Retiring (p : Part) (b : Block) : Prop := (p.entry b).state = .retired ∧ ProgramOp.retireMark b ∈ p.je.backlog

theorem retiring_retire (p : Part) (b : Block) (cause : RetireCause) : (p.retire b cause).Retiring b := by
  rw [retire_eq_made]
  exact ⟨congrArg DirEntry.state (p.entry_updEntry_self b (DirEntry.emptied .retired)),
    List.mem_append_right _ List.mem_cons_self⟩

theorem Retiring.retire {p : Part} {b b' : Block} (h : p.Retiring b) (other : b' ≠ b) (cause : RetireCause) :
    (p.retire b' cause).Retiring b := by
  have entry : (p.updEntry b' (DirEntry.emptied .retired)).entry b = p.entry b := by simp [other]
  rw [retire_eq_made]
  exact ⟨(congrArg DirEntry.state entry).trans h.1, List.mem_append_left _ h.2⟩

theorem Retiring.waitOn {p : Part} {b b' : Block} (h : p.Retiring b) (other : b' ≠ b) (c : Channel) :
    (p.waitOn c b').Retiring b := by
  obtain ⟨-, -, -, -, backlog⟩ := p.je_waitOn c b'
  rw [Retiring, entry_waitOn, if_neg other, backlog]
  exact h

theorem Retiring.stall {p : Part} {b : Block} (h : p.Retiring b) (c : Channel) (cause : StallCause) :
    (p.stall c cause).Retiring b := by
  obtain ⟨f, wait, notices, stalls⟩ := p.stall_moved c cause
  rw [stalls]
  exact h

theorem Retiring.reclaimStep (tries : Nat) {p : Part} {b : Block} (h : p.Retiring b) (c : Channel) :
    (reclaimStep tries p c).Retiring b := by
  induction tries generalizing p with
  | zero => exact h.stall c _
  | succ tries ih =>
    cases choice : p.reclaimChoice c with
    | none =>
      rw [reclaimStep_none _ choice]
      exact h.stall c _
    | some b' =>
      have closed := ((p.reclaimable_iff c b').mp (reclaimChoice_reclaimable choice)).1
      have other : b' ≠ b := by
        rintro rfl
        rw [h.1] at closed
        cases closed
      cases worn : (p.entry b').worn with
      | true =>
        rw [reclaimStep_retires tries choice worn]
        exact ih (h.retire other _)
      | false =>
        rw [reclaimStep_waits tries choice worn]
        exact h.waitOn other c

/-! ### The subject leaves the queue (R127, R131, R145) -/

/-- What the drain of a channel leaves alone, besides the queue: of the channel its counters, of its journal the next record
number, and every other journal. -/
structure Drained (p q : Part) (c : Channel) : Prop where
  dir : q.dir = p.dir
  events : q.events = p.events
  store : q.store = p.store
  outstanding : q.je.outstanding = p.je.outstanding
  counters : ∀ c', (q.chan c').counters = (p.chan c').counters
  nextRec : (q.journal c).nextRec = (p.journal c).nextRec
  others : ∀ c', c' ≠ c → q.journal c' = p.journal c'

namespace Drained

theorem trans {p q r : Part} {c : Channel} (h : Drained p q c) (h' : Drained q r c) : Drained p r c where
  dir := h'.dir.trans h.dir
  events := h'.events.trans h.events
  store := h'.store.trans h.store
  outstanding := h'.outstanding.trans h.outstanding
  counters c' := (h'.counters c').trans (h.counters c')
  nextRec := h'.nextRec.trans h.nextRec
  others c' other := (h'.others c' other).trans (h.others c' other)

/-- A change of the channel's status, the counters apart. -/
theorem updChan (p : Part) (c : Channel) (f : ChannelStatus → ChannelStatus)
    (same : (f (p.chan c)).counters = (p.chan c).counters) : Drained p (p.updChan c f) c where
  dir := rfl
  events := rfl
  store := rfl
  outstanding := rfl
  counters c' := by
    rw [chan_updChan]
    split
    · subst c'
      exact same
    · rfl
  nextRec := rfl
  others _ _ := rfl

theorem journalStop (p : Part) (c : Channel) (close : Bool) : Drained p (p.journalStop c close) c := by
  obtain ⟨f, wait, backlog, notices, stops, same⟩ := p.journalStop_moved c close
  rw [stops]
  refine ⟨rfl, rfl, rfl, rfl, fun c' => congrArg ChannelStatus.counters (chan_of_chans rfl c'), ?_, fun c' other => ?_⟩
  · rw [journal_moved, if_pos rfl, same]
  · rw [journal_moved, if_neg (Ne.symm other)]

theorem refl (p : Part) (c : Channel) : Drained p p c :=
  ⟨rfl, rfl, rfl, rfl, fun _ => rfl, rfl, fun _ _ => rfl⟩

theorem drain (p : Part) (c : Channel) : Drained p (p.drain c) c := by
  unfold Part.drain
  split
  · exact (updChan p c (fun s => { s with state := .stopped, closePending := false }) rfl).trans
      (journalStop _ c _)
  · exact refl p c

end Drained

theorem queue_drain (p : Part) (c : Channel) : (p.drain c).queue = p.queue := by
  unfold drain
  split
  · obtain ⟨f, wait, backlog, notices, stops, -⟩ := (p.updChan c (fun s =>
      { s with state := .stopped, closePending := false })).journalStop_moved c (p.chan c).closePending
    rw [becomeStopped, stops]
    rfl
  · rfl

/-- What the head's leaving changes: the list loses it, and its channel drains. -/
structure HeadLeft (p q : Part) (c : Channel) (rest : List Entry) : Prop extends Drained p q c where
  entries : q.queue.entries = rest
  running : (p.chan c).state ≠ .stopping → q.je = p.je ∧ q.notices = p.notices

theorem dropHead_left {p : Part} {e : Entry} {rest : List Entry} (entries : p.queue.entries = e :: rest) :
    p.HeadLeft p.dropHead e.channel rest := by
  let q : Part := ({ p with queue := { p.queue with entries := rest } } : Part).evalHold
  have drains : p.dropHead = q.drain e.channel := by simp [dropHead, entries, setEntries, q]
  have same : Drained p q e.channel := ⟨rfl, rfl, rfl, rfl, fun _ => rfl, rfl, fun _ _ => rfl⟩
  rw [drains]
  refine ⟨same.trans (Drained.drain q e.channel), by rw [queue_drain]; rfl, fun running => ?_⟩
  have stays : q.drain e.channel = q := if_neg fun drained => running drained.1
  rw [stays]
  exact ⟨rfl, rfl⟩

/-! ### The subject of a journal that cannot write (R63, R79, R80) -/

theorem subject_of {p : Part} {e : Entry} {rest : List Entry} (entries : p.queue.entries = e :: rest) :
    p.subject = some e := by
  simp [subject, entries]

/-- The subject of a WAITING journal waits. -/
theorem subjectAct_waiting {p : Part} {e : Entry} (subject : p.subject = some e)
    (waiting : (p.journal e.channel).state = .waiting) : p.subjectAct = none := by
  simp [subjectAct, subject, waiting]

/-- The subject of a STALLED journal waits under BLOCK (R79). -/
theorem subjectAct_blocked {p : Part} {e : Entry} {cause : StallCause} (subject : p.subject = some e)
    (stalled : (p.journal e.channel).state = .stalled cause) (block : (p.setting e.channel).policy = .block) :
    p.subjectAct = none := by
  simp [subjectAct, subject, stalled, block]

/-- The subject of a STALLED journal is shed under SHED, unless its own record program is in flight (R80). -/
theorem subjectAct_shed {p : Part} {e : Entry} {cause : StallCause} (subject : p.subject = some e)
    (stalled : (p.journal e.channel).state = .stalled cause) (shed : (p.setting e.channel).policy = .shed)
    (idle : p.je.outstanding ≠ some .record) : p.subjectAct = some (p.shedHead e.channel) := by
  simp [subjectAct, subject, stalled, shed, inFlight, idle]

/-- A subject that is shed leaves the queue, counted, without a record number and without the Event Unit (R80, R127). -/
theorem shedHead_left {p : Part} {e : Entry} {rest : List Entry} (entries : p.queue.entries = e :: rest) :
    let t := p.shedHead e.channel
    t.queue.entries = rest ∧ t.dir = p.dir ∧ t.events = p.events ∧ t.store = p.store
      ∧ (t.chan e.channel).counters.shed = min ((p.chan e.channel).counters.shed + 1) 4294967295
      ∧ (t.chan e.channel).counters.committed = (p.chan e.channel).counters.committed
      ∧ (t.journal e.channel).nextRec = (p.journal e.channel).nextRec
      ∧ ((p.chan e.channel).state ≠ .stopping → t.journal e.channel = p.journal e.channel ∧ t.notices = p.notices) := by
  intro t
  let counted := p.updCounters e.channel (fun k => { k with shed := satAdd k.shed 1 })
  have chan : counted.chan e.channel = _ := (p.chan_updCounters e.channel e.channel _).trans (if_pos rfl)
  have left : counted.HeadLeft t e.channel rest := dropHead_left entries
  refine ⟨left.entries, left.dir, left.events, left.store, ?_, ?_, left.nextRec, fun running => ?_⟩
  · rw [left.counters, chan]
    rfl
  · rw [left.counters, chan]
  · have state : (counted.chan e.channel).state = (p.chan e.channel).state := by rw [chan]
    obtain ⟨sameJe, sameNotices⟩ := left.running (state ▸ running)
    exact ⟨journal_of_je (p := counted) sameJe e.channel, sameNotices⟩

/-! ### A journal that finds no block (R73, R75) -/

/-- A journal that stalls with NO_SPACE takes nothing. -/
theorem stall_noSpace (p : Part) (c : Channel) :
    let q := p.stall c .noSpace
    (q.journal c).state = .stalled .noSpace ∧ q.dir = p.dir ∧ q.freeList = p.freeList ∧ q.ctl = p.ctl
      ∧ q.je.backlog = p.je.backlog
      ∧ ((p.journal c).state = .stalled .noSpace → q = p)
      ∧ ((p.journal c).state ≠ .stalled .noSpace → c ∈ q.je.wait
        ∧ (p.notices.mask.getLsbD 2 = true → p.notices.queue.length < 16 →
          q.notices.queue = p.notices.queue ++ [.stalled c .noSpace])) := by
  intro q
  obtain ⟨f, wait, notices, moves⟩ := p.stall_moved c .noSpace
  have kept : q.dir = p.dir ∧ q.freeList = p.freeList ∧ q.ctl = p.ctl ∧ q.je.backlog = p.je.backlog := by
    rw [show q = _ from moves]
    exact ⟨rfl, rfl, rfl, rfl⟩
  obtain ⟨dir, freeList, ctl, backlog⟩ := kept
  refine ⟨p.state_stall c _, dir, freeList, ctl, backlog, stall_again, fun other => ?_⟩
  rw [show q = _ from stall_eq other]
  refine ⟨p.mem_waitWith c, fun mask room => ?_⟩
  have admitted : p.notices.admits (.stalled c .noSpace) = true := by simp [NoticeBox.admits, Notice.code, mask]
  exact congrArg NoticeBox.queue (NoticeBox.made_queued admitted room)

end Part

/-- Settles O54: an allocation is one of five steps, by the first of R71 to R74 that applies, and each step's effects are its
own lemma; a reclaim that goes on past a worn block leaves that block RETIRED. -/
theorem blockAllocated : Obligations.BlockAllocated := by
  intro p c q
  refine ⟨fun spent => ?_, fun numbers hold => ?_, fun numbers hold => ⟨fun b free => ?_, fun b free torn => ?_,
    fun b free torn choice => ?_, fun free torn choice => ?_⟩, fun e rest entries channel => ?_⟩
  · rw [show q = _ from Part.allocate_spent spent]
    exact p.state_stall c _
  · rw [show q = _ from Part.allocate_held numbers hold]
    exact p.state_stall c _
  · have opens : q = p.openFor c b := (Part.allocate_chooses numbers hold).trans (Part.freeOr_opens _ free)
    obtain ⟨inList, blank, unlocked, up, notParked, inSet⟩ := Part.freeChoice_spec free
    obtain ⟨opened, channel, seq, fill, first, last⟩ := p.entry_openFor c b
    obtain ⟨taken, nextSeq, backlog, writing, openBlock, left⟩ := p.je_openFor c b
    rw [opens]
    exact ⟨inList, blank, unlocked, up, notParked, inSet, opened, channel, seq, fill, first, last, taken, nextSeq, backlog,
      writing, openBlock, left, Part.openFor_unwatched b, fun e => Part.openFor_watched b⟩
  · have waits : q = p.waitOn c b := (Part.allocate_chooses numbers hold).trans
      ((Part.freeOr_none _ free).trans (Part.tornOrReclaim_torn torn))
    have isTorn := Part.tornChoice_torn torn
    obtain ⟨eraseQueue, waiting, reclaim, inWait, -⟩ := p.je_waitOn c b
    rw [waits, Part.entry_waitOn, if_pos rfl]
    exact ⟨isTorn, rfl, by rw [isTorn]; rfl, eraseQueue, waiting, reclaim, inWait⟩
  · have reclaims : q = Part.reclaimStep 129 p c := (Part.allocate_chooses numbers hold).trans
      ((Part.freeOr_none _ free).trans (Part.tornOrReclaim_none torn))
    have may := (p.reclaimable_iff c b).mp (Part.reclaimChoice_reclaimable choice)
    refine ⟨may, fun b' also => Part.reclaimChoice_lowest choice ((p.reclaimable_iff c b').mpr also), fun sound => ?_,
      fun worn => ?_⟩
    · obtain ⟨eraseQueue, waiting, reclaim, inWait, -⟩ := p.je_waitOn c b
      rw [reclaims, Part.reclaimStep_waits 128 choice sound, Part.entry_waitOn, if_pos rfl]
      exact ⟨rfl, by rw [may.1]; rfl, eraseQueue, waiting, reclaim, inWait⟩
    · rw [reclaims, Part.reclaimStep_retires 128 choice worn]
      exact (p.retiring_retire b .worn).reclaimStep 128 c
  · have stalls : q = p.stall c .noSpace := (Part.allocate_chooses numbers hold).trans
      ((Part.freeOr_none _ free).trans ((Part.tornOrReclaim_none torn).trans (Part.reclaimStep_none 129 choice)))
    exact stalls ▸ p.stall_noSpace c
  · subst channel
    have subject := Part.subject_of entries
    exact ⟨Part.subjectAct_waiting subject, fun cause => Part.subjectAct_blocked subject, fun cause stalled shed idle =>
      ⟨_, Part.subjectAct_shed subject stalled shed idle, Part.shedHead_left entries⟩⟩

end Sys2Proof.Machine
end

/-! ## The outcomes of the Journal Engine's programs (R9, R10, R20, R61, R62, R65, R67, R68, R81, R112) -/

section
namespace Sys2Proof.Machine

theorem JournalEngine.hasHeader_iff (je : JournalEngine) (b : Block) :
    je.hasHeader b = true ↔ ∃ op ∈ je.backlog, op.block = some b := by
  simp [JournalEngine.hasHeader]

namespace Part

/-! ### A record program that ended OK (R9, R65, R112) -/

theorem errorFrame_eq (p : Part) (c : Channel) (content : Content) (disposition : Disposition) (record : Option Nat) :
    ∃ notices, p.errorFrame c content disposition record = { p with notices } := by
  unfold errorFrame
  split
  · exact ⟨_, notify_eq_made _ _⟩
  · exact ⟨p.notices, rfl⟩

/-- The part once a record's block, number and counter have moved, before the Event Unit is told (R65, steps 1 to 3). -/
def recorded (p : Part) (e : Entry) (b : Block) : Part :=
  ((p.updEntry b (DirEntry.takeRecord e.lines (p.journal e.channel).nextRec)).updJournal e.channel
    (fun j => { j with nextRec := j.nextRec + 1 })).updCounters e.channel
    (fun k => { k with committed := satAdd k.committed 1 })

theorem entry_recorded (p : Part) (e : Entry) (b b' : Block) :
    (p.recorded e b).entry b'
      = if b = b' then (p.entry b).takeRecord e.lines (p.journal e.channel).nextRec else p.entry b' :=
  p.entry_updEntry b b' _

theorem journal_recorded (p : Part) (e : Entry) (b : Block) (c : Channel) :
    (p.recorded e b).journal c
      = if e.channel = c then { p.journal e.channel with nextRec := (p.journal e.channel).nextRec + 1 } else p.journal c :=
  p.journal_updJournal e.channel c (fun j => { j with nextRec := j.nextRec + 1 })

theorem committed_recorded (p : Part) (e : Entry) (b : Block) :
    ((p.recorded e b).chan e.channel).counters.committed
      = min ((p.chan e.channel).counters.committed + 1) 4294967295 := by
  have chan := (p.chan_updCounters e.channel e.channel (fun k => { k with committed := satAdd k.committed 1 })).trans
    (if_pos rfl)
  exact congrArg (fun s : ChannelStatus => s.counters.committed) chan

/-- A record that is no marker trigger counts against the channel's COLLECTING event, where it has one (R104, R112). -/
theorem events_recorded {p : Part} {e : Entry} (b : Block)
    (plain : ∀ code, e.content = .mark code → (p.setting e.channel).triggerCode ≠ some code) :
    let events := ((p.recorded e b).eventCommit e.channel (p.journal e.channel).nextRec e.content).events
    (p.events.collecting e.channel = none → events = p.events)
      ∧ (∀ x, p.events.collecting e.channel = some x → events = p.events.replace { x with
        remaining := x.remaining - 1, state := if x.remaining - 1 = 0 then .complete else x.state }) := by
  rw [eventCommit_plain (p := p.recorded e b) _ plain]
  refine ⟨fun none => ?_, fun x collecting => events_countCommit (p := p.recorded e b) collecting⟩
  rw [countCommit_none (p := p.recorded e b) none]
  rfl

/-- The Event Unit is told of the record once it has its number, and then the subject leaves (R65, steps 4 to 6). -/
theorem commit_eq (p : Part) (e : Entry) (b : Block) :
    ∃ notices, p.commit e b = { ((p.recorded e b).eventCommit e.channel (p.journal e.channel).nextRec e.content).dropHead
      with notices } := by
  unfold commit
  dsimp only
  split
  · exact errorFrame_eq _ _ _ _ _
  · exact ⟨_, rfl⟩

/-- What a commit moves, and what it leaves. -/
theorem commit_moves {p : Part} {e : Entry} {rest : List Entry} (b : Block) (entries : p.queue.entries = e :: rest) :
    let q := p.commit e b
    let record := (p.journal e.channel).nextRec
    q.queue.entries = rest ∧ q.je.outstanding = p.je.outstanding
      ∧ (q.entry b).fill = (p.entry b).fill + e.lines ∧ (q.entry b).last = some record
      ∧ (q.entry b).first = some ((p.entry b).first.getD record)
      ∧ (∀ b', b' ≠ b → (q.entry b').fill = (p.entry b').fill ∧ (q.entry b').last = (p.entry b').last)
      ∧ (q.journal e.channel).nextRec = record + 1
      ∧ (∀ c, c ≠ e.channel → q.journal c = p.journal c)
      ∧ (q.chan e.channel).counters.committed = min ((p.chan e.channel).counters.committed + 1) 4294967295
      ∧ q.store = p.store
      ∧ q.events = ((p.recorded e b).eventCommit e.channel record e.content).events := by
  let told := (p.recorded e b).eventCommit e.channel (p.journal e.channel).nextRec e.content
  have side : EventSide (p.recorded e b) told := EventSide.eventCommit _ _ _ _
  obtain ⟨dir, events, box, toldEq⟩ := side.outside
  have left : told.HeadLeft told.dropHead e.channel rest := dropHead_left (by rw [toldEq]; exact entries)
  have entry : ∀ b', ∃ holdCount, told.dropHead.entry b' = { (p.recorded e b).entry b' with holdCount } := by
    intro b'
    obtain ⟨holdCount, same⟩ := side.entry b'
    exact ⟨holdCount, (entry_of_dir left.dir b').trans same⟩
  have others : ∀ b', b' ≠ b →
      (told.dropHead.entry b').fill = (p.entry b').fill ∧ (told.dropHead.entry b').last = (p.entry b').last := by
    intro b' other
    obtain ⟨holdCount, same⟩ := entry b'
    rw [same, entry_recorded, if_neg (Ne.symm other)]
    exact ⟨rfl, rfl⟩
  have journal : ∀ c, told.journal c = (p.recorded e b).journal c := fun c => by rw [toldEq]; rfl
  have counters : told.chan e.channel = (p.recorded e b).chan e.channel := by rw [toldEq]; rfl
  have outstanding : told.je.outstanding = p.je.outstanding := by rw [toldEq]; rfl
  have store : told.dropHead.store = p.store := left.store.trans (by rw [toldEq]; rfl)
  obtain ⟨notices, commits⟩ := p.commit_eq e b
  intro q record
  rw [show q = _ from commits]
  obtain ⟨holdCount, own⟩ := entry b
  rw [entry_recorded, if_pos rfl] at own
  refine ⟨left.entries, left.outstanding.trans outstanding, congrArg DirEntry.fill own, congrArg DirEntry.last own,
    congrArg DirEntry.first own, others, left.nextRec.trans ?_, fun c other => (left.others c other).trans ?_,
    (congrArg Counters.committed (left.counters e.channel)).trans ?_, store, left.events⟩
  · rw [journal, journal_recorded, if_pos rfl]
  · rw [journal, journal_recorded, if_neg (Ne.symm other)]
  · rw [counters]
    exact p.committed_recorded e b

/-! ### The close of an open block (R68) -/

/-- A close that is due joins the backlog where the block has no program of its own (R68). -/
theorem joinClose_joins {p : Part} {c : Channel} {b : Block} (openBlock : (p.journal c).openBlock = some b)
    (due : (p.journal c).due.any = true) (free : ∀ op ∈ p.je.backlog, op.block ≠ some b)
    (idle : p.je.outstanding ≠ some .record) :
    p.joinClose c = { p with je := { p.je with
      backlog := p.je.backlog ++ [.closeMark b (p.entry b).fill (p.entry b).last (p.journal c).due.fail] } } := by
  have noHeader : p.je.hasHeader b = false := by
    rw [Bool.eq_false_iff, Ne, JournalEngine.hasHeader_iff]
    rintro ⟨op, mem, own⟩
    exact free op mem own
  have noRecord : p.recordOutstanding c = false := by simp [recordOutstanding, inFlight, idle]
  simp [joinClose, openBlock, due, noHeader, noRecord]

/-- No close joins the backlog before one is due, or while the block has a header program (R68). -/
theorem joinClose_waits {p : Part} {c : Channel} {b : Block} (openBlock : (p.journal c).openBlock = some b)
    (waits : (p.journal c).due.any = false ∨ ∃ op ∈ p.je.backlog, op.block = some b) : p.joinClose c = p := by
  obtain notDue | own := waits
  · exact p.joinClose_noDue c notDue
  · simp [joinClose, openBlock, (p.je.hasHeader_iff b).mpr own]

/-- A record program that failed makes the block's close due, worn (R67, R68). -/
theorem addDue_fails {p : Part} {c : Channel} {b : Block} (openBlock : (p.journal c).openBlock = some b)
    (free : ∀ op ∈ p.je.backlog, op.block ≠ some b) (idle : p.je.outstanding = none) :
    let q := p.addDue c (fun d => { d with fail := true })
    q.queue = p.queue ∧ q.dir = p.dir ∧ q.je.outstanding = none ∧ (q.journal c).due.fail = true
      ∧ (q.journal c).nextRec = (p.journal c).nextRec
      ∧ q.je.backlog = p.je.backlog ++ [.closeMark b (p.entry b).fill (p.entry b).last true] := by
  intro q
  let r := p.updJournal c (fun j => { j with due := { j.due with fail := true } })
  have journal : r.journal c = { p.journal c with due := { (p.journal c).due with fail := true } } :=
    (p.journal_updJournal c c _).trans (if_pos rfl)
  have joins : q = _ := joinClose_joins (p := r) (c := c) (b := b) (by rw [journal]; exact openBlock)
    (by rw [journal]; simp [CloseDue.any]) free (by rw [show r.je.outstanding = none from idle]; decide)
  rw [journal] at joins
  have own : q.journal c = r.journal c := by rw [joins]; rfl
  rw [own, journal, joins]
  exact ⟨rfl, rfl, idle, rfl, rfl, rfl⟩

end Part

/-! ### A pending lock takes effect (R10, R20) -/

theorem DirEntry.applyPending_eq (e : DirEntry) : e.applyPending = { e with
    lockBit := e.lockBit || decide (e.pending ≠ .clear), downFlag := e.downFlag || decide (e.pending = .down)
    pending := .clear } := by
  unfold applyPending
  cases e.pending <;> rfl

namespace Part

/-! ### A close mark that has ended (R10, R62) -/

/-- A close mark that ends OK or fails closes its block, worn as the mark says or for the failure (R62). -/
theorem journalOutcome_closeMark {p : Part} {b : Block} {c : Channel} (fill : Nat) (last : Option Nat)
    (worn failed : Bool) (owner : (p.entry b).channel = some c) :
    p.journalOutcome (.closeMark b fill last worn) (if failed then .programFail else .ok)
      = p.reported.popBacklog.closeEnded b c (worn || failed) := by
  cases failed <;> simp [journalOutcome, headerOutcome, ownerOf, owner]

/-- What the end of a close mark writes: the block's entry and the journal (R10, R62). -/
theorem closeEnded_moves (p : Part) (b : Block) (c : Channel) (worn : Bool) :
    let q := p.closeEnded b c worn
    let e := p.entry b
    q.entry b = { e with
        state := .closed, worn, pending := .clear
        lockBit := e.lockBit || decide (e.pending ≠ .clear), downFlag := e.downFlag || decide (e.pending = .down) }
      ∧ (∀ b', b' ≠ b → q.entry b' = p.entry b')
      ∧ q.journal c = { p.journal c with
        openBlock := none, due := .none
        state := if (p.journal c).state = .writing then .noBlock else (p.journal c).state }
      ∧ (∀ c', c' ≠ c → q.journal c' = p.journal c') := by
  intro q e
  let r := p.updEntry b (fun e => { e.applyPending with state := .closed, worn })
  have entry : ∀ b', q.entry b' = r.entry b' := fun _ => rfl
  have journal : ∀ c', q.journal c' = _ := fun c' => r.journal_updJournal c c' _
  refine ⟨?_, fun b' other => ?_, (journal c).trans (if_pos rfl), fun c' other => (journal c').trans (if_neg other.symm)⟩
  · rw [entry, entry_updEntry_self, DirEntry.applyPending_eq]
  · rw [entry, entry_updEntry, if_neg other.symm]

/-- A program of the blocks that ends frees the array, and writes the store, the faults and the notices (R28, R42). -/
theorem programEnds_eq (p : Part) {op : ProgramOp} {a : Nat} {bytes : List Byte} (target : op.target = some (a, bytes))
    (failure : Option Nat) :
    ∃ store freeIdx faults notices, p.programEnds op failure
      = { p with store, freeIdx, ctl := { p.ctl with array := none, faults }, notices } := by
  obtain ⟨store, freeIdx, writes⟩ := p.writeProgram_eq a bytes failure
  rw [programEnds, programLeaves_blocks p target, writes]
  dsimp only
  split
  · exact ⟨_, _, _, _, notify_eq_made _ _⟩
  · exact ⟨_, _, _, _, rfl⟩

/-- The end of the Journal Engine's program in the array, where nothing is left to do once its outcome is acted on (R36). -/
theorem settleAfter_journal {p : Part} {op : ProgramOp} {outcome : ProgramOutcome} (rest : p.StoreQuiet)
    (quiet : (p.journalOutcome op outcome).JournalsQuiet) (stays : (p.journalOutcome op outcome).StoreQuiet) :
    p.settleAfter (some (.program { source := .journalEngine, op } outcome)) = p.journalOutcome op outcome := by
  rw [settleAfter_idle (p.arbiterTake_quiet rest)]
  exact (p.settle_told _ _ [] rfl).trans (settle_quiet _ quiet stays)

end Part

/-- How the array's report on a header program ends it. -/
theorem programFailure_closeMark (store : List Host.Cell) (b : Block) (fill : Nat) (last : Option Nat)
    (worn failed : Bool) :
    endOutcome (programFailure store (.closeMark b fill last worn) (if failed then .fail 0 else .ok))
      = if failed then .programFail else .ok := by
  cases failed <;> rfl

/-- PROGRAM_COMPLETE of a close mark, with nothing else to do: the step is what the mark's end does (R62). -/
theorem exec_closeMarkComplete {s : State} {b : Block} {c : Channel} {fill : Nat} {last : Option Nat} {worn : Bool}
    (failed : Bool) (owner : (s.part.entry b).channel = some c)
    (array : s.part.ctl.array = some (.program { source := .journalEngine, op := .closeMark b fill last worn }))
    (entries : s.part.queue.entries = []) (backlog : s.part.je.backlog = [.closeMark b fill last worn])
    (due : ∀ c', c' ≠ c → (s.part.journal c').due.any = false) (erase : s.part.ctl.erase = none)
    (suspended : s.part.ctl.suspended = none) (programs : s.part.ctl.programs = [])
    (readSlot : s.part.ctl.readSlot = none) (eraseQueue : s.part.ctl.eraseQueue = []) :
    let q := s.part.journalOutcome (.closeMark b fill last worn) (if failed then .programFail else .ok)
    ∃ t, exec (.programComplete (if failed then .fail 0 else .ok)) s = .next t ∧ t.pending = s.pending
      ∧ t.part.dir = q.dir ∧ t.part.je = q.je := by
  intro q
  refine ⟨_, exec_programComplete _ array, rfl, ?_⟩
  rw [programFailure_closeMark]
  generalize programFailure _ _ _ = failure
  obtain ⟨store, freeIdx, faults, notices, ends⟩ := s.part.programEnds_eq (op := .closeMark b fill last worn) rfl failure
  rw [ends]
  let r : Part := { s.part with store, freeIdx, ctl := { s.part.ctl with array := none, faults }, notices }
  have rest : r.StoreQuiet := ⟨rfl, erase, suspended, programs, readSlot, eraseQueue⟩
  have closes := Part.journalOutcome_closeMark (p := r) fill last worn failed owner
  obtain ⟨-, -, own, others⟩ := r.reported.popBacklog.closeEnded_moves b c (worn || failed)
  have quiet : (r.reported.popBacklog.closeEnded b c (worn || failed)).JournalsQuiet := by
    refine ⟨entries, congrArg List.tail backlog, rfl, fun c' => ?_⟩
    by_cases same : c' = c
    · rw [same, own]
      rfl
    · rw [others c' same]
      exact due c' same
  have settled := Part.settleAfter_journal rest (closes ▸ quiet) (closes ▸ rest.of_eq rfl rfl rfl rfl rfl rfl)
  rw [show q = _ from Part.journalOutcome_closeMark fill last worn failed owner]
  dsimp only
  rw [show Part.settleAfter _ _ = _ from settled.trans closes]
  exact ⟨rfl, rfl⟩

namespace Part

/-! ### A header-open that has ended (R20, R61) -/

/-- The part once a header-open has failed, before its journal allocates again (R20, R61). -/
def openRetired (p : Part) (b : Block) (c : Channel) : Part :=
  (((p.reported.popBacklog).updEntry b DirEntry.applyPending).retire b .openFail).updJournal c
    (fun j => { j with openBlock := none, due := .none })

theorem openRetired_moves (p : Part) (b : Block) (c : Channel) :
    let r := p.openRetired b c
    r.entry b = { p.entry b with
        state := .retired, prior := none, channel := none, seq := none, fill := 0, first := none, last := none
        worn := false, pending := .clear
        lockBit := (p.entry b).lockBit || decide ((p.entry b).pending ≠ .clear)
        downFlag := (p.entry b).downFlag || decide ((p.entry b).pending = .down) }
      ∧ (∀ b', b' ≠ b → r.entry b' = p.entry b')
      ∧ r.je.backlog = p.je.backlog.tail ++ [.retireMark b] ∧ r.je.outstanding = none ∧ r.je.wait = p.je.wait
      ∧ r.journal c = { p.journal c with openBlock := none, due := .none }
      ∧ (∀ c', c' ≠ c → r.journal c' = p.journal c')
      ∧ (p.notices.mask = 0x01FC#16 → p.notices.queue.length < 16 →
        r.notices.queue = p.notices.queue ++ [.blockRetired b .openFail]) := by
  let retired := (p.updEntry b DirEntry.applyPending).updEntry b (DirEntry.emptied .retired)
  let moved := p.updJournal c (fun j => { j with openBlock := none, due := .none })
  have writes : (p.openRetired b c).dir = retired.dir ∧ (p.openRetired b c).je.journals = moved.je.journals
      ∧ (p.openRetired b c).je.backlog = p.je.backlog.tail ++ [.retireMark b]
      ∧ (p.openRetired b c).je.outstanding = none ∧ (p.openRetired b c).je.wait = p.je.wait
      ∧ (p.openRetired b c).notices = p.notices.made (.blockRetired b .openFail) := by
    rw [openRetired, retire_eq_made]
    exact ⟨rfl, rfl, rfl, rfl, rfl, rfl⟩
  obtain ⟨dir, journals, backlog, outstanding, wait, notices⟩ := writes
  have entry : ∀ b', (p.openRetired b c).entry b' = retired.entry b' := entry_of_dir dir
  have journal : ∀ c', (p.openRetired b c).journal c' = _ := fun c' =>
    (journal_of_journals journals c').trans (p.journal_updJournal c c' _)
  dsimp only
  refine ⟨?_, fun b' other => ?_, backlog, outstanding, wait, (journal c).trans (if_pos rfl),
    fun c' other => (journal c').trans (if_neg other.symm), fun mask room => ?_⟩
  · rw [entry, entry_updEntry_self, entry_updEntry_self, DirEntry.applyPending_eq]
    rfl
  · rw [entry, entry_updEntry, if_neg other.symm, entry_updEntry, if_neg other.symm]
  · rw [notices, NoticeBox.made_resetMask mask (by simp [Notice.code]) room]

/-! ### The supply hold (R81) -/

theorem isStalled_iff (state : JournalState) : state.isStalled = true ↔ ∃ cause, state = .stalled cause := by
  cases state <;> simp [JournalState.isStalled, JournalState.cause]

theorem ownsHeader_iff (p : Part) (c : Channel) :
    p.ownsHeader c = true ↔ ∃ b, (p.journal c).openBlock = some b ∧ ∃ op ∈ p.je.backlog, op.block = some b := by
  unfold ownsHeader
  split
  · rename_i b opened
    simp [opened, JournalEngine.hasHeader_iff]
  · rename_i unopened
    simp [unopened]

/-- A journal that is STALLED keeps its cause under the hold. -/
theorem stallForSupply_stalled {p : Part} {c : Channel} {cause : StallCause}
    (stalled : (p.journal c).state = .stalled cause) : p.stallForSupply c = p :=
  if_pos ((isStalled_iff _).mpr ⟨cause, stalled⟩)

theorem stallForSupply_stalls {p : Part} {c : Channel} (notStalled : ∀ cause, (p.journal c).state ≠ .stalled cause) :
    (p.stallForSupply c).journal c = { p.journal c with state := .stalled .storeFault }
      ∧ c ∈ (p.stallForSupply c).je.wait := by
  have free : ¬ (p.journal c).state.isStalled = true := fun stalled => by
    obtain ⟨cause, already⟩ := (isStalled_iff _).mp stalled
    exact notStalled cause already
  rw [stallForSupply, if_neg free, stall_eq (notStalled _), journal_moved, if_pos rfl]
  exact ⟨rfl, p.mem_waitWith c⟩

theorem stallForSupply_moved (p : Part) (c : Channel) :
    ∃ f wait notices, p.stallForSupply c = p.moved c f wait p.je.backlog notices ∧ p.je.wait ⊆ wait := by
  unfold stallForSupply
  split
  · exact ⟨id, _, _, (p.moved_id c).symm, List.Subset.refl _⟩
  · by_cases already : (p.journal c).state = .stalled .storeFault
    · exact ⟨id, _, _, (stall_again already).trans (p.moved_id c).symm, List.Subset.refl _⟩
    · exact ⟨_, _, _, stall_eq already, p.subset_waitWith c⟩

/-- A channel's turn as the supply hold is set: it stalls where it waits or owns a header program (R81). -/
def holdTurn (p : Part) (c : Channel) : Part :=
  if (p.journal c).state = .waiting || p.ownsHeader c then p.stallForSupply c else p

/-- The part with the supply hold set, no journal stalled yet. -/
def supplyHeld (p : Part) : Part := { p with je := { p.je with hold := true } }

/-- The supply hold set, and the refused journal stalled (R81). -/
def holdBegun (p : Part) (refused : Option Channel) : Part := refused.elim p.supplyHeld p.supplyHeld.stallForSupply

theorem setHold_eq (p : Part) (refused : Option Channel) :
    p.setHold refused = allChannels.foldl holdTurn (p.holdBegun refused) := by
  cases refused <;> rfl

theorem holdTurn_moved (p : Part) (c : Channel) :
    ∃ f wait notices, p.holdTurn c = p.moved c f wait p.je.backlog notices ∧ p.je.wait ⊆ wait := by
  unfold holdTurn
  split
  · exact p.stallForSupply_moved c
  · exact ⟨id, _, _, (p.moved_id c).symm, List.Subset.refl _⟩

end Part

/-- What the setting of the supply hold can write: journals, the wait queue and notices (R81). -/
def HoldSide (p q : Part) : Prop :=
  ∃ journals wait notices, q = { p with je := { p.je with journals, wait }, notices }

theorem HoldSide.foldl {turn : Part → Channel → Part} (one : ∀ p c, HoldSide p (turn p c)) (l : List Channel) (p : Part) :
    HoldSide p (l.foldl turn p) := by
  induction l generalizing p with
  | nil => exact ⟨_, _, _, rfl⟩
  | cons c l ih =>
    obtain ⟨_, _, _, first⟩ := one p c
    obtain ⟨_, _, _, rest⟩ := ih (turn p c)
    exact ⟨_, _, _, rest.trans (by rw [first])⟩

/-- What a channel keeps through the turns of the others: its journal, its place in the wait queue, and the backlog. -/
structure SameFor (c : Channel) (p q : Part) : Prop where
  journal : q.journal c = p.journal c
  backlog : q.je.backlog = p.je.backlog
  wait : c ∈ p.je.wait → c ∈ q.je.wait

namespace SameFor

variable {c : Channel}

theorem refl (p : Part) : SameFor c p p := ⟨rfl, rfl, id⟩

theorem trans {p q r : Part} (h : SameFor c p q) (h' : SameFor c q r) : SameFor c p r :=
  ⟨h'.journal.trans h.journal, h'.backlog.trans h.backlog, h'.wait ∘ h.wait⟩

theorem moved {p q : Part} {a : Channel} (other : a ≠ c)
    (moves : ∃ f wait notices, q = p.moved a f wait p.je.backlog notices ∧ p.je.wait ⊆ wait) : SameFor c p q := by
  obtain ⟨f, wait, notices, rfl, joined⟩ := moves
  exact ⟨(p.journal_moved a c f wait _ notices).trans (if_neg other), rfl, fun mem => joined mem⟩

/-- The turns of other channels. -/
theorem turns {l : List Channel} (others : c ∉ l) (p : Part) : SameFor c p (l.foldl Part.holdTurn p) := by
  induction l generalizing p with
  | nil => exact refl p
  | cons a l ih =>
    obtain ⟨other, others⟩ := List.ne_and_not_mem_of_not_mem_cons others
    exact (moved (Ne.symm other) (p.holdTurn_moved a)).trans (ih others _)

/-- The turns of all channels: the channel's own turn stands between those of others. -/
theorem around {l : List Channel} (once : l.Nodup) (mem : c ∈ l) (p : Part) :
    ∃ q, SameFor c p q ∧ SameFor c (q.holdTurn c) (l.foldl Part.holdTurn p) := by
  induction l generalizing p with
  | nil => cases mem
  | cons a l ih =>
    obtain ⟨out, once⟩ := List.nodup_cons.mp once
    by_cases own : a = c
    · subst own
      exact ⟨p, refl p, turns out _⟩
    · obtain ⟨q, before, after⟩ := ih once (List.mem_of_ne_of_mem (Ne.symm own) mem) (p.holdTurn a)
      exact ⟨q, (moved own (p.holdTurn_moved a)).trans before, after⟩

end SameFor

namespace Part

theorem setHold_side (p : Part) (refused : Option Channel) :
    HoldSide p.supplyHeld (p.setHold refused) := by
  have begun : HoldSide p.supplyHeld (p.holdBegun refused) := by
    cases refused with
    | none => exact ⟨_, _, _, rfl⟩
    | some c =>
      obtain ⟨f, wait, notices, moves, -⟩ := p.supplyHeld.stallForSupply_moved c
      exact ⟨_, _, _, moves⟩
  have turns : HoldSide (p.holdBegun refused) (p.setHold refused) := by
    rw [setHold_eq]
    refine HoldSide.foldl (fun q c => ?_) _ _
    obtain ⟨f, wait, notices, moves, -⟩ := q.holdTurn_moved c
    exact ⟨_, _, _, moves⟩
  obtain ⟨_, _, _, first⟩ := begun
  obtain ⟨_, _, _, rest⟩ := turns
  exact ⟨_, _, _, rest.trans (by rw [first])⟩

theorem setHold_keeps (p : Part) (refused : Option Channel) :
    let q := p.setHold refused
    q.je.hold = true ∧ q.je.backlog = p.je.backlog ∧ q.dir = p.dir ∧ q.ctl = p.ctl ∧ q.queue = p.queue := by
  obtain ⟨journals, wait, notices, side⟩ := p.setHold_side refused
  rw [side]
  exact ⟨rfl, rfl, rfl, rfl, rfl⟩

/-- A journal that the hold does not stall as the refused one comes to its turn as it was. -/
theorem holdBegun_same {p : Part} {c : Channel} {refused : Option Channel}
    (spared : refused = some c → ∃ cause, (p.journal c).state = .stalled cause) : SameFor c p (p.holdBegun refused) := by
  have held : SameFor c p p.supplyHeld := ⟨rfl, rfl, id⟩
  cases refused with
  | none => exact held
  | some a =>
    by_cases own : a = c
    · obtain ⟨cause, stalled⟩ := spared (congrArg some own)
      subst own
      have stays : p.holdBegun (some a) = p.supplyHeld := stallForSupply_stalled (p := p.supplyHeld) stalled
      exact stays ▸ held
    · exact held.trans (SameFor.moved own (p.supplyHeld.stallForSupply_moved a))

/-- What the supply hold makes of each journal (R81): one STALLED already keeps its cause, the refused one, a WAITING one and
the owner of a header program stall with STORE_FAULT, and every other one stays. -/
theorem setHold_journal (p : Part) (refused : Option Channel) (c : Channel) :
    let q := p.setHold refused
    let stalls := refused = some c ∨ (p.journal c).state = .waiting
      ∨ ∃ b, (p.journal c).openBlock = some b ∧ ∃ op ∈ p.je.backlog, op.block = some b
    (∀ cause, (p.journal c).state = .stalled cause → q.journal c = p.journal c)
      ∧ ((∀ cause, (p.journal c).state ≠ .stalled cause) → stalls →
        q.journal c = { p.journal c with state := .stalled .storeFault } ∧ c ∈ q.je.wait)
      ∧ (¬stalls → q.journal c = p.journal c) := by
  intro q stalls
  obtain ⟨r, before, after⟩ := SameFor.around (List.nodup_finRange 4) (List.mem_finRange c) (p.holdBegun refused)
  rw [show List.foldl holdTurn _ (List.finRange 4) = q from (p.setHold_eq refused).symm] at after
  have keeps : ∀ cause, (r.journal c).state = .stalled cause → r.holdTurn c = r := by
    intro cause stalled
    unfold holdTurn
    split
    · exact stallForSupply_stalled stalled
    · rfl
  have owns : SameFor c p r → (r.ownsHeader c = true ↔ ∃ b, (p.journal c).openBlock = some b
      ∧ ∃ op ∈ p.je.backlog, op.block = some b) := fun same => by rw [ownsHeader_iff, same.journal, same.backlog]
  refine ⟨fun cause stalled => ?_, fun notStalled stalling => ?_, fun free => ?_⟩
  · have same : SameFor c p r := (holdBegun_same fun _ => ⟨cause, stalled⟩).trans before
    rw [keeps cause (same.journal ▸ stalled)] at after
    exact (same.trans after).journal
  · by_cases own : refused = some c
    · have begun := stallForSupply_stalls (p := p.supplyHeld) notStalled
      rw [show p.supplyHeld.stallForSupply c = p.holdBegun refused by rw [own]; rfl] at begun
      rw [keeps .storeFault (by rw [before.journal, begun.1])] at after
      exact ⟨(before.trans after).journal.trans begun.1, (before.trans after).wait begun.2⟩
    · have same : SameFor c p r := (holdBegun_same fun refused => absurd refused own).trans before
      have turn : r.holdTurn c = r.stallForSupply c := if_pos (by
        rw [Bool.or_eq_true, decide_eq_true_eq, owns same, same.journal]
        exact stalling.resolve_left own)
      have stalled := stallForSupply_stalls (same.journal.symm ▸ notStalled)
      rw [← turn] at stalled
      exact ⟨after.journal.trans (stalled.1.trans (by rw [same.journal])), after.wait stalled.2⟩
  · have same : SameFor c p r := (holdBegun_same fun refused => absurd (.inl refused) free).trans before
    have rests : r.holdTurn c = r := if_neg (by
      rw [Bool.or_eq_true, decide_eq_true_eq, owns same, same.journal]
      exact fun stalling => free (.inr stalling))
    rw [rests] at after
    exact (same.trans after).journal

end Part

/-- Settles O55: each outcome by the lemma on what it moves. The Event Unit is told of a record by the part `recorded` makes;
a failed header-open leaves the part `openRetired` makes, whose journal allocates; the supply hold is its own lemma. -/
theorem recordCommitted : Obligations.RecordCommitted := by
  refine ⟨fun p e rest b line bytes h entries => ⟨?_, ?_⟩,
    fun p c b openBlock => ⟨Part.joinClose_joins openBlock, Part.joinClose_waits openBlock⟩,
    fun p b c fill last worn failed owner => ?_, fun p b c seq first => ⟨rfl, ?_⟩, fun p refused => ?_⟩
  · have commits : p.journalOutcome (.record b line bytes h) .ok = p.reported.commit e b := by
      simp [Part.journalOutcome, Part.recordOutcome, Part.subject_of entries]
    rw [commits]
    obtain ⟨entries, outstanding, fill, last, first, others, nextRec, journals, committed, store, events⟩ :=
      Part.commit_moves (p := p.reported) b entries
    refine ⟨entries, outstanding, fill, last, first, others, nextRec, journals, committed, store, fun plain => ?_,
      fun code mark => ⟨p.reported.recorded e b, rfl, rfl, ?_, ?_, mark ▸ events⟩⟩
    · obtain ⟨unwatched, watched⟩ := Part.events_recorded (p := p.reported) b plain
      exact ⟨fun none => events.trans (unwatched none),
        fun x collecting => congrArg EventUnit.table (events.trans (watched x collecting))⟩
    · rw [Part.entry_recorded, if_pos rfl]
      rfl
    · rw [Part.journal_recorded, if_pos rfl]
      rfl
  · intro q openBlock free
    have fails : q = p.reported.addDue e.channel (fun d => { d with fail := true }) := by
      simp [q, Part.journalOutcome, Part.recordOutcome, Part.subject_of entries]
    rw [fails]
    exact Part.addDue_fails (p := p.reported) openBlock free rfl
  · intro op q e
    have closes : q = p.reported.popBacklog.closeEnded b c (worn || failed) :=
      Part.journalOutcome_closeMark fill last worn failed owner
    obtain ⟨entry, others, journal, -⟩ := p.reported.popBacklog.closeEnded_moves b c (worn || failed)
    rw [← closes] at entry others journal
    refine ⟨entry, others, by rw [journal], by rw [journal]; rfl, by rw [journal]; rfl, by rw [closes]; rfl,
      by rw [closes]; rfl, fun s part array queued backlog due erase suspended programs readSlot eraseQueue => ?_⟩
    subst part
    exact exec_closeMarkComplete failed owner array queued backlog due erase suspended programs readSlot eraseQueue
  · exact ⟨p.openRetired b c, rfl, p.openRetired_moves b c⟩
  · intro q stalls
    obtain ⟨hold, backlog, dir, ctl, queue⟩ := p.setHold_keeps refused
    refine ⟨hold, backlog, dir, ctl, queue, p.setHold_journal refused, fun op e head => ?_⟩
    intro told
    refine ⟨?_, ?_, ?_, ?_⟩
    · rintro b line bytes h rfl
      have subject : p.subject = some e := head
      simp [told, Part.journalOutcome, Part.recordOutcome, subject, Part.reported]
    all_goals
      intros
      subst op
      rfl

end Sys2Proof.Machine
end

/-! ## The Retention Map's copies: aligned descriptors, and what MAP_WRITE_VARIABLE's checks leave of them (R83, R92) -/

section
namespace Sys2Proof.Machine

/-- A variable descriptor has a span of R83 and a base that is a multiple of it, inside the store (R92). -/
def VariableDescriptor.aligned (d : VariableDescriptor) : Bool :=
  isSpan d.span && decide (d.base % d.span = 0) && decide (d.base + d.span ≤ 128)

/-- The variable descriptor that the body of a MAP_WRITE_VARIABLE codes (R92, R206). -/
def variableAt (body : List Byte) : VariableDescriptor :=
  { valid := decide (byteAt body 1 = 1), base := byteAt body 2, span := byteAt body 3, cls := (descriptorAt body 4).cls
    set := (descriptorAt body 4).set }

/-- The checks of R92 that are answered BAD_VALUE, the index apart, all pass. -/
def variableSound (body : List Byte) : Prop :=
  byteAt body 1 ≤ 1 ∧ byteAt body 4 ≤ 2 ∧ byteAt body 5 ≤ 15 ∧ isSpan (byteAt body 3) = true

theorem VariableDescriptor.aligned_iff (d : VariableDescriptor) :
    d.aligned = true ↔ isSpan d.span = true ∧ d.base % d.span = 0 ∧ d.base + d.span ≤ 128 := by
  simp [VariableDescriptor.aligned, and_assoc]

theorem aligned_variableAt {body : List Byte} (span : isSpan (byteAt body 3) = true) :
    (variableAt body).aligned = true
      ↔ byteAt body 2 % byteAt body 3 = 0 ∧ byteAt body 2 + byteAt body 3 ≤ 128 :=
  ((variableAt body).aligned_iff).trans (and_iff_right span)

namespace RetentionMap

theorem aligned_iff (m : RetentionMap) : m.aligned = true ↔ ∀ d ∈ m.vars.toList, d.aligned = true :=
  List.all_eq_true

theorem aligned_set {m : RetentionMap} {d : VariableDescriptor} {i : Nat} (inside : i < 8) (whole : m.aligned = true)
    (one : d.aligned = true) : ({ m with vars := m.vars.set i d inside }).aligned = true := by
  rw [aligned_iff] at whole ⊢
  intro x member
  rw [Vector.toList_set] at member
  obtain old | rfl := List.mem_or_eq_of_mem_set member
  · exact whole x old
  · exact one

variable {m : RetentionMap} {body : List Byte}

theorem writeVariable_badValue (refused : ¬(byteAt body 0 < 8 ∧ variableSound body)) :
    m.writeVariable body = .error .badValue := by
  by_cases index : byteAt body 0 < 8
  · simp only [writeVariable, index, dite_true]
    split
    · rfl
    · split
      · rfl
      · split
        · rfl
        · rename_i valid cls set
          have noSpan : isSpan (byteAt body 3) = false := by
            rw [Bool.eq_false_iff]
            exact fun span => refused ⟨index, not_not.mp valid, not_not.mp cls, not_not.mp set, span⟩
          simp [noSpan]
  · simp [writeVariable, index]

theorem writeVariable_sound (index : byteAt body 0 < 8) (sound : variableSound body) :
    m.writeVariable body = if (variableAt body).aligned then .ok { m with vars := m.vars.set _ (variableAt body) index }
      else .error .align := by
  obtain ⟨valid, cls, set, span⟩ := sound
  by_cases base : byteAt body 2 % byteAt body 3 = 0
  · by_cases inside : byteAt body 2 + byteAt body 3 ≤ 128
    · simp [writeVariable, VariableDescriptor.aligned, variableAt, index, valid, cls, set, span, base, inside,
        Nat.not_lt.mpr inside]
    · simp [writeVariable, VariableDescriptor.aligned, variableAt, index, valid, cls, set, span, base, inside,
        Nat.not_le.mp inside]
  · simp [writeVariable, VariableDescriptor.aligned, variableAt, index, valid, cls, set, span, base]

/-- A descriptor that MAP_WRITE_VARIABLE writes is aligned (R92). -/
theorem aligned_writeVariable {m' : RetentionMap} (whole : m.aligned = true) (written : m.writeVariable body = .ok m') :
    m'.aligned = true := by
  by_cases passes : byteAt body 0 < 8 ∧ variableSound body
  · rw [writeVariable_sound passes.1 passes.2] at written
    split at written <;> cases written
    exact aligned_set passes.1 whole ‹_›
  · cases (writeVariable_badValue passes).symm.trans written

end RetentionMap

end Sys2Proof.Machine
end

/-! ## Every step keeps the map descriptors aligned, the queue's marks in range and the request buffer bounded (R83, R92,
R121, R135, R185) -/

section
namespace Sys2Proof.Machine

/-- The registers that the three invariants look at. -/
structure Bounds where
  staged : RetentionMap
  active : RetentionMap
  high : Nat
  low : Nat
  buffer : List Request

/-- Those registers of a part. -/
def Part.bounds (p : Part) : Bounds :=
  { staged := p.staged, active := p.active, high := p.queue.high, low := p.queue.low, buffer := p.ctrl.buffer }

/-- What every command keeps, each of the three on its own: the copies of the map aligned, the marks in range, the request
buffer bounded. -/
structure BoundsKept (p q : Part) : Prop where
  maps : p.mapsAligned = true → q.mapsAligned = true
  marks : p.marksInRange = true → q.marksInRange = true
  buffer : p.bufferBounded = true → q.bufferBounded = true

namespace BoundsKept

theorem of_bounds {p q : Part} (same : q.bounds = p.bounds) : BoundsKept p q := by
  have staged : q.staged = p.staged := congrArg Bounds.staged same
  have active : q.active = p.active := congrArg Bounds.active same
  have high : q.queue.high = p.queue.high := congrArg Bounds.high same
  have low : q.queue.low = p.queue.low := congrArg Bounds.low same
  have buffer : q.ctrl.buffer = p.ctrl.buffer := congrArg Bounds.buffer same
  refine ⟨fun h => ?_, fun h => ?_, fun h => ?_⟩
  · rwa [Part.mapsAligned, staged, active]
  · rwa [Part.marksInRange, high, low]
  · rwa [Part.bufferBounded, buffer]

theorem refl (p : Part) : BoundsKept p p := of_bounds rfl

theorem trans {p q r : Part} (h : BoundsKept p q) (h' : BoundsKept q r) : BoundsKept p r :=
  ⟨h'.maps ∘ h.maps, h'.marks ∘ h.marks, h'.buffer ∘ h.buffer⟩

end BoundsKept

namespace Part

/-! ### Operations that leave these registers alone -/

theorem bounds_of_frozen {p q : Part} (same : q.frozen = p.frozen) : q.bounds = p.bounds := by
  have bounds := congrArg (fun f : Frozen => Bounds.mk f.staged f.active f.high f.low f.buffer) same
  exact bounds

theorem bounds_of_kept {p q : Part} (h : Kept p q) : q.bounds = p.bounds := bounds_of_frozen h.frozen

@[simp] theorem bounds_updChan (p : Part) (c : Channel) (f : ChannelStatus → ChannelStatus) :
    (p.updChan c f).bounds = p.bounds := rfl

@[simp] theorem bounds_updCounters (p : Part) (c : Channel) (f : Counters → Counters) :
    (p.updCounters c f).bounds = p.bounds := rfl

@[simp] theorem bounds_setSlot (p : Part) (c : Channel) (slot : Slot) : (p.setSlot c slot).bounds = p.bounds := rfl

@[simp] theorem bounds_placeReply (p : Part) (tag kind : Byte) (status : Status) (contents : List Byte) :
    (p.placeReply tag kind status contents).bounds = p.bounds := rfl

@[simp] theorem bounds_orphan (p : Part) : p.orphan.bounds = p.bounds := rfl

@[simp] theorem bounds_malformed (p : Part) : p.malformed.bounds = p.bounds := rfl

@[simp] theorem bounds_refused (p : Part) : p.refused.bounds = p.bounds := rfl

@[simp] theorem bounds_notify (p : Part) (n : Notice) : (p.notify n).bounds = p.bounds := bounds_of_kept (.notify p n)

@[simp] theorem bounds_settle (p : Part) (reports : List Report) : (p.settle reports).bounds = p.bounds :=
  bounds_of_kept (.settle p reports)

@[simp] theorem bounds_settleAfter (p : Part) (report : Option Report) : (p.settleAfter report).bounds = p.bounds :=
  bounds_of_kept (.settleAfter p report)

@[simp] theorem bounds_retire (p : Part) (b : Block) (cause : RetireCause) : (p.retire b cause).bounds = p.bounds :=
  bounds_of_kept (.retire p b cause)

@[simp] theorem bounds_enqueueErase (p : Part) (b : Block) (r : EraseRequester) :
    (p.enqueueErase b r).bounds = p.bounds := bounds_of_kept (.enqueueErase p b r)

@[simp] theorem bounds_opDone (p : Part) (r : EraseRequester) (b : Block) (o : OpOutcome) :
    (p.opDone r b o).bounds = p.bounds := bounds_of_kept (.opDone p r b o)

@[simp] theorem bounds_dropEvent (p : Part) (e : Event) : (p.dropEvent e).bounds = p.bounds :=
  bounds_of_kept (p.dropEvent_kept e)

@[simp] theorem bounds_setEntries (p : Part) (entries : List Entry) (c : Channel) :
    (p.setEntries entries c).bounds = p.bounds := bounds_of_kept (.setEntries p entries c)

@[simp] theorem bounds_drain (p : Part) (c : Channel) : (p.drain c).bounds = p.bounds := bounds_of_kept (.drain p c)

@[simp] theorem bounds_errorFrame (p : Part) (c : Channel) (x : Content) (d : Disposition) (r : Option Nat) :
    (p.errorFrame c x d r).bounds = p.bounds := bounds_of_kept (.errorFrame p c x d r)

@[simp] theorem bounds_gatherHeader (p : Part) (g : Gather) : (p.gatherHeader g).bounds = p.bounds :=
  bounds_of_frozen (Kept.gather_present p _ _ _).1

@[simp] theorem bounds_scanHeader (p : Part) : p.scanHeader.bounds = p.bounds :=
  bounds_of_frozen (Kept.scan_header p).1

/-! ### Requests that leave them alone -/

theorem bounds_clearFaults (p : Part) (tag : Byte) : (p.clearFaults tag).bounds = p.bounds := by
  have passed := bounds_of_kept (Kept.retryPass (p.faultsCleared tag))
  exact (bounds_settleAfter _ none).trans passed

theorem bounds_eraseBlock (p : Part) (tag : Byte) (body : List Byte) : (p.eraseBlock tag body).bounds = p.bounds := by
  unfold eraseBlock eraseBlockAt
  dsimp only
  repeat' split
  all_goals simp

theorem bounds_presentUnit (p : Part) (tag kind : Byte) (op : ProgramOp) :
    (p.presentUnit tag kind op).bounds = p.bounds := by
  let q : Part := { p with ctrl := { p.ctrl with serving := some (.unitProgram tag kind) } }
  have joined := bounds_of_kept (Kept.joinPrograms q { source := .requestServer, op })
  exact (bounds_settle _ []).trans joined

theorem bounds_unitWrite (p : Part) (tag : Byte) (body : List Byte) : (p.unitWrite tag body).bounds = p.bounds := by
  unfold unitWrite
  repeat' split
  all_goals simp [bounds_presentUnit]

theorem bounds_unitLock (p : Part) (tag : Byte) : (p.unitLock tag).bounds = p.bounds := by
  unfold unitLock
  repeat' split
  all_goals simp [bounds_presentUnit]

theorem bounds_lockRange {one : Part → Block → LockEffect × Part} {effect : Bool → DirEntry → LockEffect}
    {entry : Bool → DirEntry → DirEntry} (h : LockLocal one effect entry) (p : Part) (first last : Nat) :
    (p.lockRange one first last).part.bounds = p.bounds := by
  obtain ⟨⟨dir, je, part⟩, -⟩ := h.range p first last
  rw [part]
  rfl

theorem bounds_lockBlocks (p : Part) (tag : Byte) (body : List Byte) : (p.lockBlocks tag body).bounds = p.bounds := by
  unfold lockBlocks
  split <;> simp [bounds_lockRange lockOne_local]

theorem bounds_unlockBlocks (p : Part) (tag : Byte) (body : List Byte) :
    (p.unlockBlocks tag body).bounds = p.bounds := by
  unfold unlockBlocks
  split <;> simp [bounds_lockRange unlockOne_local]

theorem bounds_downBlocks (p : Part) (tag : Byte) (body : List Byte) : (p.downBlocks tag body).bounds = p.bounds := by
  unfold downBlocks
  split <;> simp [bounds_lockRange downOne_local]

theorem bounds_trigger (p : Part) (tag : Byte) (body : List Byte) : (p.trigger tag body).bounds = p.bounds := by
  unfold trigger
  split
  · rfl
  · rename_i c _
    have triggered := bounds_of_kept (Kept.takeTrigger p c .host)
    split <;> rename_i taken <;> rw [taken] at triggered <;> exact triggered

theorem bounds_releaseEvent (p : Part) (tag : Byte) (body : List Byte) :
    (p.releaseEvent tag body).bounds = p.bounds := by
  unfold releaseEvent
  split <;> simp

theorem bounds_flushChannel (p : Part) (tag : Byte) (body : List Byte) :
    (p.flushChannel tag body).bounds = p.bounds := by
  unfold flushChannel
  split <;> simp [flush]

theorem bounds_stopChannel (p : Part) (tag : Byte) (body : List Byte) : (p.stopChannel tag body).bounds = p.bounds := by
  unfold stopChannel stopChannelAt
  repeat' split
  all_goals simp [replyStop, beginStop]

theorem bounds_readRecords (p : Part) (tag : Byte) (body : List Byte) : (p.readRecords tag body).bounds = p.bounds := by
  unfold readRecords readRecordsAt
  repeat' split
  all_goals simp

/-! ### Packets leave them alone -/

@[simp] theorem bounds_arrivalNotice (p : Part) (e : Entry) (d : Disposition) :
    (p.arrivalNotice e d).bounds = p.bounds := by
  unfold arrivalNotice
  split <;> simp

@[simp] theorem bounds_push (p : Part) (e : Entry) : (p.push e).bounds = p.bounds := by
  unfold push
  split
  · exact bounds_arrivalNotice _ _ _
  · simp [overrun]

@[simp] theorem bounds_completeFrame (p : Part) (c : Channel) (f : Frame) (tags : TagSet) :
    (p.completeFrame c f tags).bounds = p.bounds := by
  unfold completeFrame
  dsimp only
  repeat' split
  all_goals simp

@[simp] theorem bounds_truncate (p : Part) (c : Channel) : (p.truncate c).bounds = p.bounds := by
  unfold truncate
  split <;> simp

theorem bounds_takeFs (p : Part) (c : Channel) (number : Word16) : (p.takeFs c number).bounds = p.bounds := by
  unfold takeFs openFrame
  dsimp only
  split <;> simp

theorem bounds_takeData (p : Part) (c : Channel) (words : Option (List Word16)) :
    (p.takeData c words).bounds = p.bounds := by
  unfold takeData
  split <;> simp [append]

theorem bounds_takeFe (p : Part) (c : Channel) (number : Word16) : (p.takeFe c number).bounds = p.bounds := by
  unfold takeFe
  split <;> simp

theorem bounds_takeAbort (p : Part) (c : Channel) : (p.takeAbort c).bounds = p.bounds := by
  unfold takeAbort offerAbort
  repeat' split
  all_goals simp

/-- The end of a selection leaves them to what takes the packet (R154). -/
theorem bounds_selectionEnds (p : Part) (take : Part → Part) (keeps : ∀ q, (take q).bounds = q.bounds) :
    (p.selectionEnds take).bounds = p.bounds := by
  unfold selectionEnds
  split
  · rfl
  · exact keeps p

/-- The judging of a packet leaves them to what the slot does with it (R156). -/
theorem bounds_receive (p : Part) (c : Channel) (act : Part → Part) (keeps : ∀ q, (act q).bounds = q.bounds) :
    (p.receive c act).bounds = p.bounds := by
  refine p.bounds_selectionEnds _ (fun q => ?_)
  unfold judge
  repeat' split
  all_goals simp [keeps]

/-! ### The Transmit Arbiter, the image load, programs and erases leave them alone -/

theorem bounds_beginMessage (p : Part) : p.beginMessage.bounds = p.bounds := by
  unfold beginMessage
  repeat' split
  all_goals rfl

theorem bounds_answerHeldIdentify (p : Part) : p.answerHeldIdentify.bounds = p.bounds := by
  unfold answerHeldIdentify
  split <;> rfl

theorem bounds_scramble (p : Part) (a n : Nat) : (p.scramble a n).bounds = p.bounds := rfl

theorem bounds_programLeaves (p : Part) (op : ProgramOp) (failure : Option Nat) :
    (p.programLeaves op failure).bounds = p.bounds := by
  unfold programLeaves
  split
  · cases failure <;> rfl
  · cases op <;> cases failure <;> rfl

theorem bounds_pulseEnds (p : Part) (e : RunningErase) (verified : Bool) :
    (p.pulseEnds e verified).bounds = p.bounds := by
  have erased : (p.eraseOk e.block).bounds = p.bounds := (bounds_of_kept (Kept.eraseOk p e.block)).trans rfl
  have failed : (p.eraseFails e.block).bounds = p.bounds :=
    (bounds_of_kept (Kept.eraseFails p e.block)).trans (p.bounds_scramble _ _)
  unfold pulseEnds
  split
  · exact (bounds_settleAfter _ _).trans erased
  · split
    · exact (bounds_settleAfter _ _).trans failed
    · rfl

end Part

/-! ### What writes them keeps the three invariants -/

/-- A request joins the buffer only where there is room (R185). -/
theorem ControlLink.character_bounded {k : ControlLink} (x : RxChar) (bounded : k.buffer.length ≤ 2) :
    (k.character x).buffer.length ≤ 2 := by
  unfold ControlLink.character
  split
  · split <;> exact bounded
  · split
    · unfold ControlLink.takeByte
      repeat' split
      · exact bounded
      · unfold ControlLink.frameEnds
        dsimp only
        repeat' split
        · rename_i room
          rw [List.length_append]
          exact room
        · exact bounded
        · exact bounded
      · exact bounded
    · exact bounded

namespace BoundsKept

/-- A reset gives the registers their reset values (R89, R122, R185). -/
theorem resetUnits (p : Part) : BoundsKept p p.resetUnits := ⟨fun _ => rfl, fun _ => rfl, fun _ => rfl⟩

theorem startUp (p : Part) (cause : ResetCause) : BoundsKept p (p.startUp cause) :=
  (resetUnits p).trans (of_bounds rfl)

/-- A request that leaves the buffer leaves room in it (R186). -/
theorem takeFromBuffer {p q : Part} {r : Request} (taken : p.takeFromBuffer r = some q) : BoundsKept p q := by
  unfold Part.takeFromBuffer at taken
  split at taken
  · cases taken
    exact refl p
  · rename_i head rest held
    split at taken <;> cases taken
    refine ⟨id, id, fun bounded => ?_⟩
    rw [Part.bufferBounded, held, decide_eq_true_eq] at bounded
    exact decide_eq_true ((Nat.le_succ _).trans bounded)

/-- The cases of R186 write nothing but the reply, short of the owner's work. -/
theorem answer (p : Part) (kind tag : Byte) (body : List Byte) {work : Part → Part}
    (keeps : ∀ q, BoundsKept q (work q)) : BoundsKept p (p.answer kind tag body work) := by
  unfold Part.answer
  split
  · exact of_bounds rfl
  · split
    · exact of_bounds rfl
    · split
      · exact of_bounds rfl
      · split
        · exact keeps p
        · exact of_bounds rfl

/-- R90: the flags are no part of a descriptor. -/
theorem mapWriteControl (p : Part) (tag : Byte) (body : List Byte) : BoundsKept p (p.mapWriteControl tag body) :=
  ⟨id, id, id⟩

/-- R91: the variable descriptors stay. -/
theorem mapWriteFixed (p : Part) (tag : Byte) (body : List Byte) : BoundsKept p (p.mapWriteFixed tag body) := by
  unfold Part.mapWriteFixed
  split
  · rename_i staged written
    unfold RetentionMap.writeFixed at written
    repeat' split at written
    all_goals cases written
    exact ⟨id, id, id⟩
  · exact of_bounds rfl

/-- R92: the descriptor written is aligned. -/
theorem mapWriteVariable (p : Part) (tag : Byte) (body : List Byte) : BoundsKept p (p.mapWriteVariable tag body) := by
  unfold Part.mapWriteVariable
  split
  · rename_i staged written
    refine ⟨fun aligned => ?_, id, id⟩
    rw [Part.mapsAligned, Bool.and_eq_true] at aligned ⊢
    exact ⟨RetentionMap.aligned_writeVariable aligned.1 written, aligned.2⟩
  · exact of_bounds rfl

/-- R93: the variable descriptors stay. -/
theorem mapWriteDefault (p : Part) (tag : Byte) (body : List Byte) : BoundsKept p (p.mapWriteDefault tag body) := by
  unfold Part.mapWriteDefault
  split
  · rename_i staged written
    unfold RetentionMap.writeDefault at written
    split at written <;> cases written
    exact ⟨id, id, id⟩
  · exact of_bounds rfl

/-- R96: the active copy becomes the staged one. -/
theorem mapApply (p : Part) (tag : Byte) : BoundsKept p (p.mapApply tag) := by
  have copied : BoundsKept p { p with active := p.staged } := by
    refine ⟨fun aligned => ?_, id, id⟩
    rw [Part.mapsAligned, Bool.and_eq_true] at aligned ⊢
    exact ⟨aligned.1, aligned.1⟩
  have examined := Part.bounds_of_kept (Kept.foldl Part.examine Part.examine_kept allChannels { p with active := p.staged })
  refine copied.trans (of_bounds ?_)
  unfold Part.mapApply
  simpa using examined

/-- R135: the marks are replaced where they are in their ranges. -/
theorem setQueue (p : Part) (tag : Byte) (body : List Byte) : BoundsKept p (p.setQueue tag body) := by
  unfold Part.setQueue
  dsimp only
  split
  · rename_i inRange
    obtain ⟨least, most, apart⟩ := inRange
    refine ⟨id, fun _ => ?_, id⟩
    simp only [Part.marksInRange, Bool.and_eq_true, decide_eq_true_eq]
    exact ⟨⟨least, most⟩, apart⟩
  · exact of_bounds rfl

theorem characters (chars : List RxChar) (p : Part) :
    BoundsKept p { p with ctrl := chars.foldl ControlLink.character p.ctrl } := by
  refine ⟨id, id, fun bounded => decide_eq_true ?_⟩
  have fold : ∀ (chars : List RxChar) (k : ControlLink), k.buffer.length ≤ 2 →
      (chars.foldl ControlLink.character k).buffer.length ≤ 2 := by
    intro chars
    induction chars with
    | nil => exact fun _ room => room
    | cons x chars ih => exact fun k room => ih _ (k.character_bounded x room)
  exact fold chars p.ctrl (of_decide_eq_true bounded)

end BoundsKept

/-! ### Every command -/

/-- A request command keeps the invariants where its owner's work does. -/
theorem serve_boundsKept {kind tag : Byte} {body : List Byte} {work : Part → Part} {s t : State}
    (h : serve kind tag body work s = .next t) (keeps : ∀ q, BoundsKept q (work q)) : BoundsKept s.part t.part := by
  obtain idle | ⟨p, taken, answered⟩ := serve_cases kind tag body work s
  · cases idle.symm.trans h
    exact .refl _
  · cases answered.symm.trans h
    exact (BoundsKept.takeFromBuffer taken).trans (.answer p kind tag body keeps)

/-- A command that acts under a guard, and otherwise has no effect. -/
theorem guarded_boundsKept {guard : Prop} [Decidable guard] {s t : State} {q : Part}
    (h : (if guard then Host.Outcome.next (s.withPart q) else .next s : Host.Outcome State Fault Refusal) = .next t)
    (keeps : BoundsKept s.part q) : BoundsKept s.part t.part := by
  split at h <;> cases h
  · exact keeps
  · exact .refl _

/-- Every command keeps the three invariants: most leave the registers alone; a reset, a request's leaving or joining of the
buffer, a write or an apply of the map and SET_QUEUE write them in range. -/
theorem exec_boundsKept {c : Instr} {s t : State} (h : exec c s = .next t) : BoundsKept s.part t.part := by
  cases c
  case powerOnReset rate1 rate0 =>
    cases h
    have risen : BoundsKept s.part { s.part with power := s.part.power.risen rate1 rate0 } := .of_bounds rfl
    dsimp only
    split
    · exact risen.trans (.resetUnits _)
    · exact risen.trans (.startUp _ _)
  case powerFall =>
    cases h
    have fallen : BoundsKept s.part { s.part with power := { s.part.power with powered := false } } := .of_bounds rfl
    exact fallen.trans (.resetUnits _)
  case resetNAssert low =>
    have low : BoundsKept s.part { s.part with power := { s.part.power with resetNLow := true } } := .of_bounds rfl
    exact guarded_boundsKept h (low.trans (.resetUnits _))
  case resetNRelease rate1 rate0 =>
    let w := { s.part.power with resetNLow := false }
    have released : BoundsKept s.part { s.part with power := w.risen rate1 rate0 } := .of_bounds rfl
    simp only [exec, execResetNRelease] at h
    repeat' split at h
    all_goals cases h
    · exact released.trans (.startUp _ _)
    · exact .of_bounds rfl
    · exact .refl _
  case protNChange asserted =>
    simp only [exec, execProtNChange] at h
    split at h <;> cases h
    · exact .refl _
    · refine .of_bounds ?_
      dsimp only
      split
      · exact Part.bounds_settle _ _
      · rfl
  case cpermNChange => cases h; exact .of_bounds rfl
  case controlFrameReceive chars => exact guarded_boundsKept h (.characters chars s.part)
  case interByteGapExpiry =>
    simp only [exec, execInterByteGapExpiry] at h
    split at h <;> cases h <;> exact .of_bounds rfl
  case messageBegin => exact guarded_boundsKept h (.of_bounds (Part.bounds_beginMessage _))
  case messageEnd =>
    have sent : BoundsKept s.part { s.part with ctrl := { s.part.ctrl with sending := none } } := .of_bounds rfl
    simp only [exec, execMessageEnd] at h
    split at h <;> cases h
    · dsimp only
      split
      · exact sent.trans (.startUp _ _)
      · exact sent
    · exact .refl _
  case unknownKind kind tag body =>
    simp only [exec, execUnknownKind] at h
    split at h
    · exact serve_boundsKept h .refl
    · cases h; exact .refl _
  case getStatus | restart | setNotices | unitRead | mapRead | listEvents =>
    exact serve_boundsKept h (fun _ => .of_bounds rfl)
  case identify | mapQuery | getEvent | setChannel | getChannel | startChannel | listJournal | getBlock =>
    refine serve_boundsKept h (fun q => .of_bounds ?_)
    simp only [Part.identify, Part.mapQuery, Part.getEvent, Part.setChannel, Part.getChannel, Part.startChannel,
      Part.listJournal, Part.getBlock]
    repeat' split
    all_goals rfl
  case clearFaults => exact serve_boundsKept h (fun q => .of_bounds (q.bounds_clearFaults _))
  case eraseBlock => exact serve_boundsKept h (fun q => .of_bounds (q.bounds_eraseBlock _ _))
  case unitWrite => exact serve_boundsKept h (fun q => .of_bounds (q.bounds_unitWrite _ _))
  case unitLock => exact serve_boundsKept h (fun q => .of_bounds (q.bounds_unitLock _))
  case lockBlocks => exact serve_boundsKept h (fun q => .of_bounds (q.bounds_lockBlocks _ _))
  case unlockBlocks => exact serve_boundsKept h (fun q => .of_bounds (q.bounds_unlockBlocks _ _))
  case downBlocks => exact serve_boundsKept h (fun q => .of_bounds (q.bounds_downBlocks _ _))
  case mapWriteControl => exact serve_boundsKept h (fun q => .mapWriteControl q _ _)
  case mapWriteFixed => exact serve_boundsKept h (fun q => .mapWriteFixed q _ _)
  case mapWriteVariable => exact serve_boundsKept h (fun q => .mapWriteVariable q _ _)
  case mapWriteDefault => exact serve_boundsKept h (fun q => .mapWriteDefault q _ _)
  case mapApply => exact serve_boundsKept h (fun q => .mapApply q _)
  case trigger => exact serve_boundsKept h (fun q => .of_bounds (q.bounds_trigger _ _))
  case releaseEvent => exact serve_boundsKept h (fun q => .of_bounds (q.bounds_releaseEvent _ _))
  case setQueue => exact serve_boundsKept h (fun q => .setQueue q _ _)
  case flushChannel => exact serve_boundsKept h (fun q => .of_bounds (q.bounds_flushChannel _ _))
  case stopChannel => exact serve_boundsKept h (fun q => .of_bounds (q.bounds_stopChannel _ _))
  case readRecords => exact serve_boundsKept h (fun q => .of_bounds (q.bounds_readRecords _ _))
  case fsPacket c number =>
    exact guarded_boundsKept h (.of_bounds (Part.bounds_receive _ c _ (fun q => by simp [Part.bounds_takeFs])))
  case dataPacket c count tail =>
    exact guarded_boundsKept h (.of_bounds (Part.bounds_receive _ c _ (fun q => q.bounds_takeData c _)))
  case fePacket c number =>
    exact guarded_boundsKept h (.of_bounds (Part.bounds_receive _ c _ (fun q => by simp [Part.bounds_takeFe])))
  case abortPacket c value =>
    exact guarded_boundsKept h (.of_bounds (Part.bounds_receive _ c _ (fun q => by simp [Part.bounds_takeAbort])))
  case markPacket c code =>
    exact guarded_boundsKept h (.of_bounds (Part.bounds_receive _ c _ (fun q => by simp [Part.takeMark])))
  case malformedPacket nibbles =>
    refine guarded_boundsKept h (.of_bounds (Part.bounds_selectionEnds _ _ (fun q => ?_)))
    split <;> rfl
  case frameTimeoutExpiry => exact guarded_boundsKept h (.of_bounds (by simp))
  case programComplete outcome =>
    simp only [exec, execProgramComplete] at h
    split at h <;> cases h
    · refine .of_bounds ((Part.bounds_settleAfter _ _).trans ?_)
      exact (Part.bounds_of_kept (Kept.programEnds s.part _ _)).trans (Part.bounds_programLeaves _ _ _)
    · exact .refl _
  case readComplete =>
    simp only [exec, execReadComplete] at h
    split at h <;> cases h
    · exact .of_bounds ((Part.bounds_settleAfter _ _).trans (Part.bounds_of_kept (.freeArray s.part)))
    · exact .refl _
  case erasePulseEnd verified =>
    simp only [exec, execErasePulseEnd] at h
    split at h <;> cases h
    · exact .of_bounds (Part.bounds_pulseEnds _ _ _)
    · exact .refl _
  case eraseSliceTimerExpiry => exact guarded_boundsKept h (.of_bounds rfl)
  case suspensionTakesEffect ran =>
    simp only [exec, execSuspensionTakesEffect] at h
    split at h
    · exact guarded_boundsKept h (.of_bounds (Part.bounds_settleAfter _ _))
    · cases h; exact .refl _
  case unitAreaImageLoadEnd =>
    refine guarded_boundsKept h (.of_bounds ?_)
    rw [Part.bounds_settle, Part.bounds_scanHeader, Part.bounds_answerHeldIdentify]
    rfl

/-- Settles O59: the idle step changes nothing, and every command keeps each of the three. -/
theorem stepKeepsMapsAndBounds : Obligations.StepKeepsMapsAndBounds := by
  have kept : ∀ s t : State, step s = .next t → BoundsKept s.part t.part := by
    rintro ⟨part, pending⟩ t h
    cases pending with
    | nil =>
      cases h
      exact .refl part
    | cons c rest => exact exec_boundsKept (s := { part, pending := rest }) h
  exact ⟨fun s t aligned h => (kept s t h).maps aligned,
    fun s t inRange bounded h => ⟨(kept s t h).marks inRange, (kept s t h).buffer bounded⟩⟩

end Sys2Proof.Machine
end

/-! ## The writes of the staged copy, MAP_READ and MAP_QUERY (R86, R90 to R95) -/

section
namespace Sys2Proof.Machine

/-- A value that the owner's rule answers BAD_VALUE is answered so whichever of R186 and that rule finds it. -/
theorem serve_refused {s : State} {kind tag : Byte} {body : List Byte} {p : Part} (req : Requested s kind tag body p)
    {work : Part → Part} (length : bodyLength kind = some body.length) (ready : s.part.device = .ready)
    (refuses : work p = p.placeReply tag kind .badValue []) :
    serve kind tag body work s = .next (s.withPart (p.placeReply tag kind .badValue [])) := by
  cases allowed : encodingAllowed kind body with
  | true => rw [serve_work req work length ready allowed, refuses]
  | false => exact serve_badValue req work length ready allowed

theorem byte_toNat_eq_one (x : Byte) : x.toNat = 1 ↔ x = 1#8 := BitVec.toNat_inj (y := 1#8)

/-! ### MAP_WRITE_CONTROL (R90) -/

theorem encodingAllowed_control (enable fixedEnable : Byte) :
    encodingAllowed 0x10#8 [enable, fixedEnable] = true ↔ enable.toNat ≤ 1 ∧ fixedEnable.toNat ≤ 1 := by
  simp [encodingAllowed, isFlag, byteAt]

/-- Settles O26: R186 judges both flags, and the owner's rule has no check of its own. -/
theorem mapControlWritten : Obligations.MapControlWritten := by
  intro s tag enable fixedEnable p ready req
  refine ⟨fun first second => ?_, fun outside => ?_⟩
  · refine (serve_work req _ rfl ready ((encodingAllowed_control enable fixedEnable).mpr ⟨first, second⟩)).trans ?_
    simp [Part.mapWriteControl, RetentionMap.writeControl, byteAt, byte_toNat_eq_one]
  · refine serve_badValue req _ rfl ready ?_
    rw [Bool.eq_false_iff, Ne, encodingAllowed_control]
    omega

/-! ### MAP_WRITE_FIXED (R91), and what fixed-enable decides (R86) -/

namespace RetentionMap

variable (m : RetentionMap)

theorem writeFixed_refused {index cls set : Byte} (refused : 15 < index.toNat ∨ 2 < cls.toNat ∨ 15 < set.toNat) :
    m.writeFixed [index, cls, set] = none := by
  rcases refused with outside | outside | outside
  · simp [writeFixed, byteAt, Nat.not_lt.mpr outside]
  · simp [writeFixed, byteAt, Nat.not_le.mpr outside]
  · simp [writeFixed, byteAt, Nat.not_le.mpr outside]

theorem writeFixed_written {index cls set : Byte} {i : Fin 16} (names : i.val = index.toNat) (class2 : cls.toNat ≤ 2)
    (set15 : set.toNat ≤ 15) :
    m.writeFixed [index, cls, set]
      = some { m with fixed := m.fixed.set i.val { cls := classOf cls.toNat, set := set.setWidth 4 } i.isLt } := by
  simp [writeFixed, descriptorAt, byteAt, ← names, class2, set15]

/-- With fixed-enable clear no fixed descriptor is looked at (R86). -/
theorem eval_fixed_disabled (fixed : Vector Descriptor 16) (b : Block) (off : m.fixedEnable = false) :
    ({ m with fixed }).eval b = m.eval b := by
  simp [eval, covering, off]

/-- With both flags set a fixed descriptor decides its block (R86). -/
theorem eval_fixed {i : Fin 16} {b : Block} (enable : m.enable = true) (fixedEnable : m.fixedEnable = true)
    (names : b.val = i.val) : m.eval b = { cls := m.fixed[i].cls, set := m.fixed[i].set, source := .fixed i.val } := by
  simp [eval, enable, fixedEnable, names]

end RetentionMap

/-- Settles O27: the first check that fails answers BAD_VALUE; and the evaluation of a block by fixed-enable. -/
theorem mapFixedWritten : Obligations.MapFixedWritten := by
  refine ⟨fun s tag index cls set p ready req => ⟨fun refused => ?_, fun i names class2 set15 => ?_⟩,
    fun m fixed b off => m.eval_fixed_disabled fixed b off,
    fun m i b enable fixedEnable names => m.eval_fixed enable fixedEnable names⟩
  · refine serve_refused req rfl ready ?_
    rw [Part.mapWriteFixed, p.staged.writeFixed_refused refused]
  · have allowed : encodingAllowed 0x11#8 [index, cls, set] = true := by
      simp [encodingAllowed, isClass, isChannelSet, byteAt, class2, set15]
    refine (serve_work req _ rfl ready allowed).trans ?_
    rw [Part.mapWriteFixed, p.staged.writeFixed_written names class2 set15]

/-! ### MAP_WRITE_VARIABLE (R92) -/

theorem isSpan_iff (n : Nat) : isSpan n = true ↔ n ∈ [1, 2, 4, 8, 16, 32, 64, 128] := List.contains_iff_mem

/-- Settles O28: the checks that are answered BAD_VALUE come before the two answered ALIGN, and with all passed the descriptor
is written. -/
theorem mapVariableWritten : Obligations.MapVariableWritten := by
  intro s tag index valid base span cls set p ready req
  let body := [index, valid, base, span, cls, set]
  have sound_iff : variableSound body ↔ valid.toNat ≤ 1 ∧ cls.toNat ≤ 2 ∧ set.toNat ≤ 15
      ∧ span.toNat ∈ [1, 2, 4, 8, 16, 32, 64, 128] := by
    rw [← isSpan_iff]
    rfl
  refine ⟨fun refused => serve_refused req rfl ready ?_, fun i names sound => ?_⟩
  · rw [Part.mapWriteVariable, RetentionMap.writeVariable_badValue]
    rintro ⟨inside, sound⟩
    exact refused.elim (Nat.not_lt.mpr (Nat.le_of_lt_succ inside)) (fun unsound => unsound (sound_iff.mp sound))
  · have inside : byteAt body 0 < 8 := lt_of_eq_of_lt names.symm i.isLt
    have written := p.staged.writeVariable_sound inside (sound_iff.mpr sound)
    obtain ⟨flag, class2, set15, spanned⟩ := sound_iff.mpr sound
    have allowed : encodingAllowed 0x12#8 body = true := by
      simp [encodingAllowed, isFlag, isClass, isChannelSet, flag, class2, set15]
    have aligned_iff : (variableAt body).aligned = true
        ↔ base.toNat % span.toNat = 0 ∧ base.toNat + span.toNat ≤ 128 := aligned_variableAt spanned
    refine ⟨fun unaligned => ?_, fun multiple ends => ?_⟩
    · refine (serve_work req _ rfl ready allowed).trans ?_
      rw [Part.mapWriteVariable, written, if_neg]
      rw [aligned_iff]
      omega
    · refine (serve_work req _ rfl ready allowed).trans ?_
      rw [Part.mapWriteVariable, written, if_pos (aligned_iff.mpr ⟨multiple, ends⟩)]
      simp [variableAt, descriptorAt, byteAt, body, byte_toNat_eq_one, ← names]

/-! ### MAP_WRITE_DEFAULT (R93) -/

namespace RetentionMap

variable (m : RetentionMap)

theorem writeDefault_refused {cls set : Byte} (refused : 2 < cls.toNat ∨ 15 < set.toNat) :
    m.writeDefault [cls, set] = none := by
  rcases refused with outside | outside
  · simp [writeDefault, byteAt, Nat.not_le.mpr outside]
  · simp [writeDefault, byteAt, Nat.not_le.mpr outside]

theorem writeDefault_written {cls set : Byte} (class2 : cls.toNat ≤ 2) (set15 : set.toNat ≤ 15) :
    m.writeDefault [cls, set] = some { m with dflt := { cls := classOf cls.toNat, set := set.setWidth 4 } } := by
  simp [writeDefault, descriptorAt, byteAt, class2, set15]

end RetentionMap

/-- Settles O29: R186 and the owner's rule refuse the same values. -/
theorem mapDefaultWritten : Obligations.MapDefaultWritten := by
  intro s tag cls set p ready req
  refine ⟨fun refused => serve_refused req rfl ready ?_, fun class2 set15 => ?_⟩
  · rw [Part.mapWriteDefault, p.staged.writeDefault_refused refused]
  · have allowed : encodingAllowed 0x13#8 [cls, set] = true := by
      simp [encodingAllowed, isClass, isChannelSet, byteAt, class2, set15]
    refine (serve_work req _ rfl ready allowed).trans ?_
    rw [Part.mapWriteDefault, p.staged.writeDefault_written class2 set15]

/-! ### MAP_READ and MAP_QUERY (R94, R95) -/

theorem Part.mapQuery_outside (p : Part) (tag : Byte) {x : Byte} (outside : 127 < x.toNat) :
    p.mapQuery tag [x] = p.placeReply tag 0x15#8 .badValue [] := by
  have noBlock : ¬ byteAt [x] 0 < 128 := Nat.not_lt.mpr outside
  simp [Part.mapQuery, blockAt, noBlock]

theorem Part.mapQuery_inside (p : Part) (tag : Byte) {x : Byte} {b : Block} (names : b.val = x.toNat) :
    p.mapQuery tag [x] = p.placeReply tag 0x15#8 .ok (x :: (p.active.eval b).bytes) := by
  have named : blockAt [x] 0 = some b := blockAt_eq names
  simp [Part.mapQuery, named, blockByte, names, Part.mapOf]

/-- Settles O30: the copy that the selector names is read; and the active copy's value of a block that exists. -/
theorem mapReadAndQueried : Obligations.MapReadAndQueried := by
  refine ⟨fun s tag p ready => ⟨fun req => serve_work req _ rfl ready rfl, fun req => serve_work req _ rfl ready rfl⟩,
    fun s tag x p ready req => ⟨fun outside => serve_refused req rfl ready (p.mapQuery_outside tag outside),
      fun b names => ?_⟩⟩
  refine (serve_work req _ rfl ready rfl).trans ?_
  rw [p.mapQuery_inside tag names]
  rfl

end Sys2Proof.Machine
end

/-! ## MAP_APPLY: the examination of the open blocks, and the close marks it makes (R69, R96) -/

section
namespace Sys2Proof.Machine

/-! ### Which open block an apply makes ineligible (R84, R69) -/

/-- A class and set allow no writing of the channel where the class is PARKED or the set leaves the channel out (R84). -/
theorem MapValue.writable_eq_false (v : MapValue) (c : Channel) :
    v.writable c = false ↔ v.cls = .parked ∨ v.set.getLsbD c.val = false := by
  simp only [writable, inSet, Bool.and_eq_false_iff, bne_eq_false_iff_eq]

/-- MAP joins the close due set of a journal (R69). -/
def CloseDue.withMap (d : CloseDue) : CloseDue := { d with map := true }

namespace Part

/-- The channel has an open block that the active copy does not let it write (R69). -/
def losesBlock (p : Part) (c : Channel) : Bool :=
  match (p.journal c).openBlock with
  | some b => !(p.mapOf b).writable c
  | none => false

theorem losesBlock_iff (p : Part) (c : Channel) :
    p.losesBlock c = true ↔ ∃ b, (p.journal c).openBlock = some b
      ∧ ((p.active.eval b).cls = .parked ∨ (p.active.eval b).set.getLsbD c.val = false) := by
  cases opened : (p.journal c).openBlock with
  | none => simp [losesBlock, opened]
  | some b =>
    rw [losesBlock, opened, Bool.not_eq_true', MapValue.writable_eq_false]
    exact ⟨fun lost => ⟨b, rfl, lost⟩, fun ⟨_, same, lost⟩ => by cases same; exact lost⟩

theorem losesBlock_none {p : Part} {c : Channel} (unopened : (p.journal c).openBlock = none) :
    p.losesBlock c = false := by
  simp [losesBlock, unopened]

theorem examine_eq (p : Part) (c : Channel) :
    p.examine c = if p.losesBlock c then p.addDue c CloseDue.withMap else p := by
  cases opened : (p.journal c).openBlock with
  | none => simp [examine, losesBlock, opened]
  | some b =>
    cases writes : (p.mapOf b).writable c with
    | true => simp [examine, losesBlock, opened, writes]
    | false =>
      simp only [examine, losesBlock, opened, writes]
      rfl

/-! ### The examination of all journals -/

theorem journal_examine (p : Part) (a c : Channel) :
    (p.examine a).journal c = if a = c ∧ p.losesBlock c = true
      then { p.journal c with due := (p.journal c).due.withMap } else p.journal c := by
  rw [examine_eq]
  by_cases same : a = c
  · subst same
    cases p.losesBlock a <;> simp
  · cases p.losesBlock a <;> simp [same]

theorem losesBlock_examine (p : Part) (a c : Channel) : (p.examine a).losesBlock c = p.losesBlock c := by
  have openBlock : ((p.examine a).journal c).openBlock = (p.journal c).openBlock := by
    rw [journal_examine]
    split <;> rfl
  simp only [losesBlock, mapOf, openBlock, (p.examine_kept a).active_eq]

/-- The examination gives each journal its own turn alone. -/
theorem journal_foldl_examine (l : List Channel) (p : Part) (c : Channel) :
    (l.foldl examine p).journal c = if c ∈ l ∧ p.losesBlock c = true
      then { p.journal c with due := (p.journal c).due.withMap } else p.journal c := by
  induction l generalizing p with
  | nil => simp
  | cons a l ih =>
    rw [List.foldl_cons, ih, losesBlock_examine, journal_examine]
    by_cases same : a = c
    · subst same
      cases p.losesBlock a <;> simp [CloseDue.withMap]
    · simp [same, Ne.symm same]

/-- Where only one journal has an open block to lose, the examination is that journal's turn. -/
theorem foldl_examine_alone {c : Channel} {l : List Channel} (once : l.Nodup) (p : Part)
    (alone : ∀ c', c' ≠ c → p.losesBlock c' = false) :
    l.foldl examine p = if c ∈ l then p.examine c else p := by
  induction l generalizing p with
  | nil => rfl
  | cons a l ih =>
    obtain ⟨out, once⟩ := List.nodup_cons.mp once
    rw [List.foldl_cons, ih once _ (fun c' other => (p.losesBlock_examine a c').trans (alone c' other))]
    by_cases same : a = c
    · subst same
      simp [out]
    · have idle : p.examine a = p := by simp [examine_eq, alone a same]
      simp [idle, Ne.symm same]

/-- The part as MAP_APPLY's copy leaves it (R96 step 1). -/
def copied (p : Part) : Part := { p with active := p.staged }

/-- The part as its examination leaves it: every journal examined under the new active copy (R96 step 1). -/
def examined (p : Part) : Part := allChannels.foldl examine p.copied

theorem examined_kept (p : Part) : Kept p.copied p.examined := .foldl examine examine_kept allChannels _

theorem journal_examined (p : Part) (c : Channel) :
    p.examined.journal c = if p.copied.losesBlock c
      then { p.journal c with due := (p.journal c).due.withMap } else p.journal c := by
  have turns := journal_foldl_examine allChannels p.copied c
  simp only [allChannels, List.mem_finRange, true_and] at turns
  exact turns

theorem examined_alone {p : Part} {c : Channel} (lost : p.copied.losesBlock c = true)
    (alone : ∀ c', c' ≠ c → (p.journal c').openBlock = none) :
    p.examined = p.copied.addDue c CloseDue.withMap := by
  have turn := foldl_examine_alone (List.nodup_finRange 4) p.copied
    (fun c' other => losesBlock_none (alone c' other))
  rw [if_pos (List.mem_finRange c), examine_eq, if_pos lost] at turn
  exact turn

theorem examined_none {p : Part} (unopened : ∀ c, (p.journal c).openBlock = none) : p.examined = p.copied := by
  refine foldl_fixed examine p.copied (fun c => ?_) allChannels
  rw [examine_eq, losesBlock_none (p := p.copied) (unopened c)]
  rfl

/-! ### The channels that the reply names (R96) -/

/-- A channel's bit in a set of channels built up in ascending order. -/
theorem getLsbD_channelSet (f : Channel → Bool) (c : Channel) :
    (BitVec.ofNat 8 (allChannels.foldl (fun n c => n + setBit (f c) c.val) 0)).getLsbD c.val = f c := by
  revert f c
  decide

theorem getLsbD_mapDueSet (p : Part) (c : Channel) :
    p.mapDueSet.getLsbD c.val = ((p.journal c).openBlock.isSome && (p.journal c).due.map) :=
  getLsbD_channelSet (fun c => (p.journal c).openBlock.isSome && (p.journal c).due.map) c

/-- The reply names a channel where its open block has, or now takes, MAP in its close due set. -/
theorem getLsbD_examined (p : Part) (c : Channel) :
    p.examined.mapDueSet.getLsbD c.val = true ↔ ∃ b, (p.journal c).openBlock = some b
      ∧ ((p.journal c).due.map = true
        ∨ (p.staged.eval b).cls = .parked ∨ (p.staged.eval b).set.getLsbD c.val = false) := by
  have lost_iff : p.copied.losesBlock c = true ↔ ∃ b, (p.journal c).openBlock = some b
      ∧ ((p.staged.eval b).cls = .parked ∨ (p.staged.eval b).set.getLsbD c.val = false) := p.copied.losesBlock_iff c
  rw [getLsbD_mapDueSet, journal_examined]
  cases opened : (p.journal c).openBlock with
  | none => split <;> simp [opened]
  | some b =>
    simp only [opened, Option.some.injEq, exists_eq_left'] at lost_iff ⊢
    rw [← lost_iff]
    cases p.copied.losesBlock c <;> simp [opened, CloseDue.withMap]

/-- With no open block the reply names no channel. -/
theorem mapDueSet_none {p : Part} (unopened : ∀ c, (p.journal c).openBlock = none) : p.mapDueSet = 0#8 := by
  simp [mapDueSet, unopened, setBit, allChannels]

/-! ### The close mark of the one block that an apply closes (R60, R68) -/

/-- A close that falls due alone, the units at rest and the supply good, at the end of a request that has a retry pass with
nobody waiting: the close mark joins the backlog, is presented and begins. -/
theorem settle_addDue {p : Part} {b : Block} {c : Channel} (f : CloseDue → CloseDue) (tag kind : Byte) (status : Status)
    (contents : List Byte) (opened : (p.journal c).openBlock = some b) (due : (f (p.journal c).due).any = true)
    (free : p.lockOf b = .unlocked) (quiet : p.JournalsQuiet) (rest : p.StoreQuiet) (supplied : p.Supplied)
    (nobody : p.je.wait = []) :
    let t := ((p.addDue c f).placeReply tag kind status contents).settle [.retryDue]
    t.dir = p.dir ∧ (t.journal c).due = f (p.journal c).due
      ∧ t.ctl.array = some (.program
          { source := .journalEngine, op := .closeMark b (p.entry b).fill (p.entry b).last (f (p.journal c).due).fail }) := by
  let q := (p.addDue c f).placeReply tag kind status contents
  let op : ProgramOp := .closeMark b (p.entry b).fill (p.entry b).last (f (p.journal c).due).fail
  have joined : q = { p with
      je := { (p.updJournal c (fun j => { j with due := f j.due })).je with backlog := [op] }
      ctrl := { p.ctrl with reply := some { tag, kind, status, contents } } } := by
    simp only [q, p.addDue_joins c b f opened due quiet.backlog quiet.outstanding]
    rfl
  have journals : ∀ c', q.journal c' = if c = c' then { p.journal c with due := f (p.journal c).due } else p.journal c' :=
    fun c' => p.journal_addDue c c' f
  have closes := q.joinClose_served c b (by rw [journals, if_pos rfl]; exact opened)
    (by simp [JournalEngine.hasHeader, joined, op, ProgramOp.block])
    (fun c' other => by rw [journals, if_neg (Ne.symm other)]; exact quiet.due c')
  have fields : q.dir = p.dir ∧ q.pins = p.pins ∧ q.queue = p.queue ∧ q.ctl = p.ctl ∧ q.supply = p.supply
      ∧ q.je.backlog = [op] ∧ q.je.outstanding = p.je.outstanding ∧ q.je.hold = p.je.hold ∧ q.je.wait = p.je.wait := by
    rw [joined]
    exact ⟨rfl, rfl, rfl, rfl, rfl, rfl, rfl, rfl, rfl⟩
  obtain ⟨dir, pins, queue, ctl, supply, backlog, outstanding, hold, wait⟩ := fields
  have unlocked : q.lockOf b = .unlocked := by rwa [lockOf, pins, entry, dir]
  have runs : q.settle [.retryDue] = q.runsHeader op := by
    rw [q.settle_retryDue [] (wait.trans nobody)]
    exact q.settle_runsHeader op (queue ▸ quiet.entries) backlog (outstanding.trans quiet.outstanding) closes
      (rest.of_eq (ctl ▸ rfl) (ctl ▸ rfl) (ctl ▸ rfl) (ctl ▸ rfl) (ctl ▸ rfl) (ctl ▸ rfl))
      ⟨ctl ▸ supplied.fault, hold ▸ supplied.hold, supply ▸ supplied.coming, supply ▸ supplied.level⟩
      (decide_eq_true unlocked)
  show (q.settle [.retryDue]).dir = _ ∧ ((q.settle [.retryDue]).journal c).due = _ ∧ (q.settle [.retryDue]).ctl.array = _
  rw [runs]
  refine ⟨dir, ?_, rfl⟩
  show (q.journal c).due = _
  rw [journals, if_pos rfl]

/-! ### The units at rest stay so through the copy -/

theorem JournalsQuiet.copied {p : Part} (h : p.JournalsQuiet) : p.copied.JournalsQuiet := h.of_eq rfl rfl rfl (fun _ => rfl)

theorem StoreQuiet.copied {p : Part} (h : p.StoreQuiet) : p.copied.StoreQuiet := h.of_eq rfl rfl rfl rfl rfl rfl

theorem Supplied.copied {p : Part} (h : p.Supplied) : p.copied.Supplied := ⟨h.fault, h.hold, h.coming, h.level⟩

end Part

/-- MAP_APPLY that passes the checks of R186: the copy, the examination, the reply, the retry pass (R96). -/
theorem exec_mapApply {s : State} {tag : Byte} {p : Part} (ready : s.part.device = .ready)
    (req : Requested s 0x16#8 tag [] p) :
    exec (.mapApply tag []) s = .next (s.withPart
      ((p.examined.placeReply tag 0x16#8 .ok [p.examined.mapDueSet]).settle [.retryDue])) :=
  serve_work req _ rfl ready rfl

/-- Settles O31: the reactions keep the copies, the reply and what is not the Journal Engine's; the one block that the
examination closes has its close mark run; and with no open block the reactions do nothing. -/
theorem mapApplied : Obligations.MapApplied := by
  intro s tag p ready req lost
  rw [exec_mapApply ready req]
  refine ⟨?_, fun c b opened ineligible alone free quiet rest supplied nobody => ?_, fun unopened quiet rest nobody => ?_⟩
  · have named := p.getLsbD_examined
    have examines := p.examined_kept
    generalize p.examined = q at named examines
    have reacts := Kept.settle (q.placeReply tag 0x16#8 .ok [q.mapDueSet]) [.retryDue]
    obtain ⟨unserved, -⟩ := examines.serving (requested_free req).1
    exact ⟨_, _, q.mapDueSet, rfl, rfl, reacts.active_eq.trans examines.active_eq,
      reacts.staged_eq.trans examines.staged_eq, reacts.store_eq.trans examines.store_eq,
      reacts.settings_eq.trans examines.settings_eq, reacts.reply_eq unserved, rfl, rfl, rfl, rfl, named⟩
  · have lost : p.copied.losesBlock c = true := (p.copied.losesBlock_iff c).mpr ⟨b, opened, ineligible⟩
    refine ⟨_, rfl, ?_⟩
    rw [Part.examined_alone lost alone]
    exact Part.settle_addDue CloseDue.withMap tag 0x16#8 .ok _ (p := p.copied) opened
      (by simp [CloseDue.any, CloseDue.withMap]) free quiet.copied rest.copied supplied.copied nobody
  · rw [Part.examined_none unopened, Part.mapDueSet_none (p := p.copied) unopened,
      Part.settle_retryDue (p.copied.placeReply tag 0x16#8 .ok [0#8]) _ nobody, Part.settle_quiet]
    · rfl
    · exact quiet.of_eq rfl rfl rfl (fun _ => rfl)
    · exact rest.of_eq rfl rfl rfl rfl rfl rfl

end Sys2Proof.Machine
end

/-! ## Events: the blocks held and released once each, and RELEASE_EVENT (R108, R117) -/

section
namespace Sys2Proof.Machine

/-! ### Every block of a list changed once -/

namespace Part

/-- Changes of directory entries leave all but the directory. -/
theorem foldl_updEntry_eq (f : DirEntry → DirEntry) (blocks : List Block) (p : Part) :
    ∃ dir, blocks.foldl (fun q b => q.updEntry b f) p = { p with dir } := by
  induction blocks generalizing p with
  | nil => exact ⟨p.dir, rfl⟩
  | cons a blocks ih => exact ih (p.updEntry a f)

/-- Over a list without repeats, each of its blocks has its hold count changed once. -/
theorem holdCount_foldl_updEntry (f : Nat → Nat) {blocks : List Block} (once : blocks.Nodup) (p : Part) (b : Block) :
    ((blocks.foldl (fun q b => q.updEntry b (fun e => { e with holdCount := f e.holdCount })) p).entry b).holdCount
      = if b ∈ blocks then f (p.entry b).holdCount else (p.entry b).holdCount := by
  induction blocks generalizing p with
  | nil => rfl
  | cons a blocks ih =>
    obtain ⟨out, once⟩ := List.nodup_cons.mp once
    rw [List.foldl_cons, ih once, entry_updEntry]
    by_cases same : a = b
    · subst same
      simp [out]
    · simp [same, Ne.symm same]

/-- Each block of a list without repeats is held once (R108). -/
theorem holdCount_holdBlocks {blocks : List Block} (once : blocks.Nodup) (p : Part) (b : Block) :
    ((blocks.foldl holdBlock p).entry b).holdCount
      = if b ∈ blocks then (p.entry b).holdCount + 1 else (p.entry b).holdCount :=
  holdCount_foldl_updEntry (· + 1) once p b

/-- An entry leaves the table, and of the rest only the directory is written (R117). -/
theorem dropEvent_eq (p : Part) (e : Event) :
    ∃ dir, p.dropEvent e = { p with
      dir, events := { p.events with table := p.events.table.filter (fun y => decide (y.id ≠ e.id)) } } := by
  obtain ⟨dir, released⟩ : ∃ dir, e.held.foldl releaseBlock p = { p with dir } := p.foldl_updEntry_eq _ e.held
  exact ⟨dir, by rw [dropEvent, released]⟩

/-- Each block of the entry's list is released once (R117). -/
theorem holdCount_dropEvent {e : Event} (once : e.held.Nodup) (p : Part) (b : Block) :
    ((p.dropEvent e).entry b).holdCount
      = if b ∈ e.held then (p.entry b).holdCount - 1 else (p.entry b).holdCount :=
  holdCount_foldl_updEntry (· - 1) once p b

end Part

/-! ### The entry that carries an id -/

namespace EventUnit

theorem carrying_none {u : EventUnit} {id : Nat} (absent : ∀ e ∈ u.table, e.id ≠ id) : u.carrying id = none :=
  List.find?_eq_none.mpr (fun e mem => by simp [absent e mem])

theorem id_of_carrying {u : EventUnit} {id : Nat} {e : Event} (carried : u.carrying id = some e) : e.id = id := by
  unfold carrying at carried
  have carries := List.find?_some carried
  exact of_decide_eq_true carries

end EventUnit

/-! ### RELEASE_EVENT (R117) -/

namespace Part

theorem releaseEvent_absent {p : Part} {x : Byte} (tag : Byte) (absent : p.events.carrying x.toNat = none) :
    p.releaseEvent tag [x] = p.placeReply tag 0x19#8 .notFound [] := by
  have nothing : p.events.carrying (byteAt [x] 0) = none := absent
  simp [releaseEvent, nothing]

/-- RELEASE_EVENT of an entry, the units at rest and nobody in the wait queue: the retry pass has no turn. -/
theorem releaseEvent_quiet {p : Part} {x : Byte} {e : Event} (tag : Byte) (carried : p.events.carrying x.toNat = some e)
    (quiet : p.JournalsQuiet) (rest : p.StoreQuiet) (nobody : p.je.wait = []) :
    p.releaseEvent tag [x]
      = (p.dropEvent e).placeReply tag 0x19#8 .ok [x, e.state.code, BitVec.ofNat 8 e.held.length] := by
  have found : p.events.carrying (byteAt [x] 0) = some e := carried
  have sameId : BitVec.ofNat 8 e.id = x := by
    rw [EventUnit.id_of_carrying carried, BitVec.ofNat_toNat, BitVec.setWidth_eq]
  obtain ⟨dir, dropped⟩ := p.dropEvent_eq e
  simp only [releaseEvent, found, sameId, dropped]
  refine (settle_retryDue _ [] ?_).trans (settle_quiet _ ?_ ?_)
  · exact nobody
  · exact quiet.of_eq rfl rfl rfl (fun _ => rfl)
  · exact rest.of_eq rfl rfl rfl rfl rfl rfl

end Part

/-- Settles O33: whether an entry carries the id; and an entry's blocks released one after another. -/
theorem eventReleased : Obligations.EventReleased := by
  intro s tag x p ready req
  have run : exec (.releaseEvent tag [x]) s = .next (s.withPart (p.releaseEvent tag [x])) := serve_work req _ rfl ready rfl
  rw [run]
  refine ⟨fun absent => ?_, fun e carried quiet rest nobody => ⟨?_, ?_, fun once => p.holdCount_dropEvent once⟩⟩
  · rw [Part.releaseEvent_absent tag (EventUnit.carrying_none absent)]
  · rw [Part.releaseEvent_quiet tag carried quiet rest nobody]
  · obtain ⟨dir, dropped⟩ := p.dropEvent_eq e
    rw [dropped]

end Sys2Proof.Machine
end

/-! ## LIST_EVENTS, GET_EVENT, LIST_JOURNAL and GET_BLOCK (R119, R180, R181) -/

section
namespace Sys2Proof.Machine

/-! ### The channel that a request names -/

theorem channelAt_eq {x : Byte} {c : Channel} (names : c.val = x.toNat) (body : List Byte) :
    channelAt (x :: body) 0 = some c := by
  have inside : x.toNat < 4 := names ▸ c.isLt
  simp [channelAt, channelOf, inside, Fin.ext_iff, names]

theorem channelAt_outside {x : Byte} (outside : 3 < x.toNat) (body : List Byte) : channelAt (x :: body) 0 = none := by
  have noChannel : ¬ x.toNat < 4 := Nat.not_lt.mpr outside
  simp [channelAt, channelOf, noChannel]

namespace Part

/-! ### GET_EVENT (R119) -/

theorem getEvent_absent {p : Part} {x : Byte} (tag : Byte) (absent : p.events.carrying x.toNat = none) :
    p.getEvent tag [x] = p.placeReply tag 0x1B#8 .notFound [] := by
  have nothing : p.events.carrying (byteAt [x] 0) = none := absent
  simp [getEvent, nothing]

theorem getEvent_carried {p : Part} {x : Byte} {e : Event} (tag : Byte) (carried : p.events.carrying x.toNat = some e) :
    p.getEvent tag [x] = p.placeReply tag 0x1B#8 .ok e.bytes := by
  have found : p.events.carrying (byteAt [x] 0) = some e := carried
  simp [getEvent, found]

/-! ### LIST_JOURNAL (R180) -/

theorem listJournal_refused (p : Part) (tag : Byte) {x start : Byte} (refused : 3 < x.toNat ∨ 127 < start.toNat) :
    p.listJournal tag [x, start] = p.placeReply tag 0x29#8 .badValue [] := by
  unfold listJournal
  split
  · rfl
  · rename_i named
    obtain outside | outside := refused
    · cases (channelAt_outside outside [start]).symm.trans named
    · exact if_pos outside

theorem listJournal_listed (p : Part) (tag : Byte) {x start : Byte} {c : Channel} (names : c.val = x.toNat)
    (inside : start.toNat ≤ 127) :
    p.listJournal tag [x, start] = p.placeReply tag 0x29#8 .ok (p.journalListing c start.toNat) := by
  rw [listJournal, channelAt_eq names]
  exact if_neg (Nat.not_lt.mpr inside)

/-! ### GET_BLOCK (R181) -/

theorem getBlock_outside (p : Part) (tag : Byte) {x : Byte} (outside : 127 < x.toNat) :
    p.getBlock tag [x] = p.placeReply tag 0x2A#8 .badValue [] := by
  have noBlock : ¬ byteAt [x] 0 < 128 := Nat.not_lt.mpr outside
  simp [getBlock, blockAt, noBlock]

theorem getBlock_inside (p : Part) (tag : Byte) {x : Byte} {b : Block} (names : b.val = x.toNat) :
    p.getBlock tag [x] = p.placeReply tag 0x2A#8 .ok (p.blockListing b) := by
  have named : blockAt [x] 0 = some b := blockAt_eq names
  simp [getBlock, named]

end Part

/-- Settles O34: each of the four is one placing of a reply, whose contents turn on what the body names. -/
theorem eventsAndBlocksListed : Obligations.EventsAndBlocksListed := by
  refine ⟨⟨fun s tag p ready req => serve_work req _ rfl ready rfl,
      fun s tag x p ready req => ⟨fun absent => ?_, fun e carried => ?_⟩⟩,
    fun s tag x start p ready req => ⟨fun refused => ?_, fun c names inside => ?_⟩,
    fun s tag x p ready req => ⟨fun outside => ?_, fun b names => ?_⟩⟩
  · refine (serve_work req _ rfl ready rfl).trans ?_
    rw [Part.getEvent_absent tag (EventUnit.carrying_none absent)]
  · refine (serve_work req _ rfl ready rfl).trans ?_
    rw [Part.getEvent_carried tag carried]
  · exact serve_refused req rfl ready (p.listJournal_refused tag refused)
  · refine (serve_work req _ rfl ready rfl).trans ?_
    rw [p.listJournal_listed tag names inside]
  · exact serve_refused req rfl ready (p.getBlock_outside tag outside)
  · refine (serve_work req _ rfl ready rfl).trans ?_
    rw [p.getBlock_inside tag names]
    rfl

end Sys2Proof.Machine
end

/-! ## The new event of a trigger: its anchor block, its pre-window and its open block (R107, R108) -/

section
namespace Sys2Proof.Machine

/-! ### Blocks in descending sequence -/

/-- Insertion by descending sequence is the library's ordered insertion. -/
theorem insertDescending_eq (seq : Block → Nat) (b : Block) (l : List Block) :
    insertDescending seq b l = l.orderedInsert (fun x y => seq y ≤ seq x) b := by
  induction l with
  | nil => rfl
  | cons x l ih => rw [insertDescending, List.orderedInsert_cons, ih]

theorem sortDescending_eq (seq : Block → Nat) (l : List Block) :
    sortDescending seq l = l.insertionSort (fun x y => seq y ≤ seq x) := by
  have insert : insertDescending seq = List.orderedInsert (fun x y => seq y ≤ seq x) :=
    funext fun b => funext fun l => insertDescending_eq seq b l
  rw [sortDescending, insert, List.insertionSort]

theorem mem_sortDescending {seq : Block → Nat} {l : List Block} {b : Block} : b ∈ sortDescending seq l ↔ b ∈ l := by
  rw [sortDescending_eq, List.mem_insertionSort]

theorem pairwise_sortDescending (seq : Block → Nat) (l : List Block) :
    (sortDescending seq l).Pairwise (fun x y => seq y ≤ seq x) := by
  have : Std.Total (fun x y : Block => seq y ≤ seq x) := ⟨fun x y => Nat.le_total (seq y) (seq x)⟩
  have : IsTrans Block (fun x y => seq y ≤ seq x) := ⟨fun _ _ _ first second => Nat.le_trans second first⟩
  rw [sortDescending_eq]
  exact List.pairwise_insertionSort _ l

/-! ### The pre-window walk (R108) -/

/-- The walk takes the head of the list, none of it ERASING, and ends with its room, the list, or an ERASING block. -/
theorem walkBlocks_spec (erasing : Block → Bool) (room : Nat) (l : List Block) :
    ∃ rest, l = walkBlocks erasing room l ++ rest ∧ (walkBlocks erasing room l).length ≤ room
      ∧ (∀ b ∈ walkBlocks erasing room l, erasing b = false)
      ∧ ((walkBlocks erasing room l).length = room ∨ rest = [] ∨ ∃ x tail, rest = x :: tail ∧ erasing x = true) := by
  induction room generalizing l with
  | zero => exact ⟨l, rfl, Nat.le_refl 0, nofun, .inl rfl⟩
  | succ room ih =>
    cases l with
    | nil => exact ⟨[], rfl, Nat.zero_le _, nofun, .inr (.inl rfl)⟩
    | cons b l =>
      cases ends : erasing b with
      | true => exact ⟨b :: l, by simp [walkBlocks, ends], by simp [walkBlocks, ends], by simp [walkBlocks, ends],
          .inr (.inr ⟨b, l, rfl, ends⟩)⟩
      | false =>
        obtain ⟨rest, split, length, sound, stops⟩ := ih l
        have walked : walkBlocks erasing (room + 1) (b :: l) = b :: walkBlocks erasing room l := by
          simp [walkBlocks, ends]
        rw [walked]
        refine ⟨rest, congrArg (b :: ·) split, Nat.succ_le_succ length, ?_, stops.imp_left (congrArg (· + 1))⟩
        exact List.forall_mem_cons.mpr ⟨ends, sound⟩

/-! ### The block that holds a record (R107, R171) -/

theorem DirEntry.holds_iff (e : DirEntry) (c : Channel) (n : Nat) :
    e.holds c n = true ↔ (e.state = .opened ∨ e.state = .closed) ∧ e.channel = some c ∧ 0 < e.fill
      ∧ ∃ f l, e.first = some f ∧ e.last = some l ∧ f ≤ n ∧ n ≤ l := by
  cases first : e.first <;> cases last : e.last <;> simp [holds, first, last, and_assoc]

namespace Part

theorem blockHolding_some {p : Part} {c : Channel} {n : Nat} {b : Block} (found : p.blockHolding c n = some b) :
    (p.entry b).holds c n = true := by
  unfold blockHolding at found
  have holds := List.find?_some found
  exact holds

theorem blockHolding_none {p : Part} {c : Channel} {n : Nat} (missing : p.blockHolding c n = none) (b : Block) :
    (p.entry b).holds c n ≠ true :=
  List.find?_eq_none.mp missing b (List.mem_finRange b)

/-! ### The three parts of the list (R108) -/

/-- An older CLOSED or ERASING block of the channel, below the anchor block where that is present (R108). -/
def Older (p : Part) (c : Channel) (anchorBlock : Option Block) (b : Block) : Prop :=
  (p.entry b).channel = some c ∧ ((p.entry b).state = .closed ∨ (p.entry b).state = .erasing)
    ∧ ∀ a, anchorBlock = some a → (p.entry b).seq.getD 0 < (p.entry a).seq.getD 0

theorem mem_olderBlocks {p : Part} {c : Channel} {anchorBlock : Option Block} {b : Block} :
    b ∈ p.olderBlocks c anchorBlock ↔ p.Older c anchorBlock b := by
  rw [olderBlocks, mem_sortDescending, List.mem_filter, Older]
  cases anchorBlock <;> simp [allBlocks, and_assoc]

theorem pairwise_olderBlocks (p : Part) (c : Channel) (anchorBlock : Option Block) :
    (p.olderBlocks c anchorBlock).Pairwise (fun x y => (p.entry y).seq.getD 0 ≤ (p.entry x).seq.getD 0) :=
  pairwise_sortDescending _ _

/-- The CLOSED blocks of the pre-window walk (R108). -/
def preBlocks (p : Part) (c : Channel) (anchor : Option Nat) (anchorBlock : Option Block) : List Block :=
  if anchor.isSome then
    walkBlocks (fun b => decide ((p.entry b).state = .erasing)) (p.setting c).preWindow (p.olderBlocks c anchorBlock)
  else []

/-- The channel's open block, where the event collects and its anchor block is another (R108). -/
def postBlocks (p : Part) (c : Channel) (anchorBlock : Option Block) : List Block :=
  if 0 < (p.setting c).postWindow then
    match (p.journal c).openBlock with
    | some b => if anchorBlock = some b then [] else [b]
    | none => []
  else []

theorem windowBlocks_eq (p : Part) (c : Channel) (anchor : Option Nat) (anchorBlock : Option Block) :
    p.windowBlocks c anchor anchorBlock
      = anchorBlock.toList ++ p.preBlocks c anchor anchorBlock ++ p.postBlocks c anchorBlock := rfl

/-- With an anchor the walk takes the older blocks from the highest sequence down, CLOSED ones alone, within the pre-window; an
older block that it leaves lies below all it took, and the pre-window was full or an ERASING block at or above it ended the
walk. -/
theorem preBlocks_spec (p : Part) (c : Channel) (anchor : Option Nat) (anchorBlock : Option Block) :
    let seq := fun b => (p.entry b).seq.getD 0
    let pre := p.preBlocks c anchor anchorBlock
    pre.length ≤ (p.setting c).preWindow ∧ (anchor = none → pre = [])
      ∧ (∀ b ∈ pre, (p.entry b).state = .closed ∧ p.Older c anchorBlock b)
      ∧ pre.Pairwise (fun b b' => seq b' ≤ seq b)
      ∧ (anchor ≠ none → ∀ b, p.Older c anchorBlock b → b ∉ pre → (∀ b' ∈ pre, seq b ≤ seq b')
        ∧ (pre.length = (p.setting c).preWindow
          ∨ ∃ x, p.Older c anchorBlock x ∧ (p.entry x).state = .erasing ∧ seq b ≤ seq x)) := by
  intro seq pre
  cases anchor with
  | none => exact ⟨Nat.zero_le _, fun _ => rfl, List.forall_mem_nil _, .nil, fun anchored => absurd rfl anchored⟩
  | some n =>
    obtain ⟨rest, split, length, sound, stops⟩ := walkBlocks_spec (fun b => decide ((p.entry b).state = .erasing))
      (p.setting c).preWindow (p.olderBlocks c anchorBlock)
    change p.olderBlocks c anchorBlock = pre ++ rest at split
    have sorted : (pre ++ rest).Pairwise (fun b b' => seq b' ≤ seq b) := split ▸ p.pairwise_olderBlocks c anchorBlock
    have older : ∀ b, p.Older c anchorBlock b ↔ b ∈ pre ∨ b ∈ rest := fun b => by
      rw [← mem_olderBlocks, split, List.mem_append]
    obtain ⟨sortedPre, sortedRest, above⟩ := List.pairwise_append.mp sorted
    refine ⟨length, nofun, fun b mem => ?_, sortedPre, fun _ b isOlder out => ?_⟩
    · have isOlder := (older b).mpr (.inl mem)
      have notErasing := of_decide_eq_false (sound b mem)
      exact ⟨isOlder.2.1.resolve_right notErasing, isOlder⟩
    · have left := ((older b).mp isOlder).resolve_left out
      refine ⟨fun b' mem => above b' mem b left, stops.imp_right fun ended => ?_⟩
      obtain rfl | ⟨x, tail, rfl, erasing⟩ := ended
      · cases left
      refine ⟨x, (older x).mpr (.inr List.mem_cons_self), of_decide_eq_true erasing, ?_⟩
      obtain rfl | later := List.mem_cons.mp left
      · exact Nat.le_refl _
      · exact (List.pairwise_cons.mp sortedRest).1 b later

theorem length_postBlocks_le (p : Part) (c : Channel) (anchorBlock : Option Block) :
    (p.postBlocks c anchorBlock).length ≤ 1 := by
  unfold postBlocks
  repeat' split
  all_goals simp

theorem mem_postBlocks {p : Part} {c : Channel} {anchorBlock : Option Block} {b : Block} :
    b ∈ p.postBlocks c anchorBlock
      ↔ 0 < (p.setting c).postWindow ∧ (p.journal c).openBlock = some b ∧ anchorBlock ≠ some b := by
  by_cases collects : 0 < (p.setting c).postWindow
  · cases opened : (p.journal c).openBlock with
    | none => simp [postBlocks, opened]
    | some a =>
      by_cases anchored : anchorBlock = some a
      · simp only [postBlocks, collects, opened, anchored, if_true]
        simp
      · simp only [postBlocks, collects, opened, anchored, if_true, if_false, List.mem_singleton, Option.some.injEq,
          true_and]
        exact ⟨by rintro rfl; exact ⟨rfl, anchored⟩, fun ⟨same, _⟩ => same.symm⟩
  · simp [postBlocks, collects]

/-! ### The anchor block (R107) -/

theorem newEvent_anchorBlock (p : Part) (c : Channel) (cause : EventCause) :
    (p.newEvent c cause).anchorBlock = (p.anchorOf c).bind (p.blockHolding c) := rfl

/-- The anchor block holds the anchor. -/
theorem newEvent_anchored {p : Part} {c : Channel} {cause : EventCause} {b : Block}
    (anchored : (p.newEvent c cause).anchorBlock = some b) :
    ∃ n, p.anchorOf c = some n ∧ (p.entry b).holds c n = true := by
  obtain ⟨n, anchor, found⟩ := Option.bind_eq_some_iff.mp anchored
  exact ⟨n, anchor, blockHolding_some found⟩

/-- With an anchor and no anchor block, no block holds the anchor. -/
theorem newEvent_unretained {p : Part} {c : Channel} {cause : EventCause} {n : Nat} (anchor : p.anchorOf c = some n)
    (missing : (p.newEvent c cause).anchorBlock = none) (b : Block) : (p.entry b).holds c n ≠ true := by
  rw [newEvent_anchorBlock, anchor, Option.bind_some] at missing
  exact blockHolding_none missing b

end Part

end Sys2Proof.Machine
end

/-! ## Triggers: TRIGGER, marker triggers, and what a trigger answers (R104 to R111) -/

section
namespace Sys2Proof.Machine

/-! ### The notices of a trigger (R109, R110, R114) -/

/-- The notice box once a trigger's TRIGGERED is made, and EVENT_DONE behind it for an entry that is COMPLETE. -/
def NoticeBox.announced (box : NoticeBox) (e : Event) (retrigger : Bool) : NoticeBox :=
  if e.state = .complete then (box.made (e.triggeredNotice retrigger)).made e.doneNotice
  else box.made (e.triggeredNotice retrigger)

theorem Part.announced_eq (p : Part) (e : Event) (retrigger : Bool) :
    (p.notify (e.triggeredNotice retrigger)).notifyIfComplete e
      = { p with notices := p.notices.announced e retrigger } := by
  unfold Part.notifyIfComplete NoticeBox.announced
  split <;> simp only [Part.notify_eq_made]

/-- Under the reset mask, with room for two, the notices of a trigger are queued. -/
theorem NoticeBox.queue_announced {box : NoticeBox} (e : Event) (retrigger : Bool) (mask : box.mask = 0x01FC#16)
    (room : box.queue.length ≤ 14) :
    (box.announced e retrigger).queue
      = box.queue ++ [e.triggeredNotice retrigger] ++ (if e.state = .complete then [e.doneNotice] else []) := by
  have triggered : box.made (e.triggeredNotice retrigger)
      = { box with queue := box.queue ++ [e.triggeredNotice retrigger] } :=
    made_resetMask mask (show 6 ≤ 8 by decide) (by omega)
  have roomBehind : (box.queue ++ [e.triggeredNotice retrigger]).length < 16 := by
    rw [List.length_append, List.length_singleton]
    omega
  unfold announced
  rw [triggered]
  split
  · exact congrArg NoticeBox.queue (made_resetMask (n := e.doneNotice)
      (box := { box with queue := box.queue ++ [e.triggeredNotice retrigger] }) mask (show 7 ≤ 8 by decide) roomBehind)
  · exact (List.append_nil _).symm

/-! ### What a trigger does to the Event Unit (R106 to R110) -/

theorem EventUnit.collecting_state {u : EventUnit} {c : Channel} {e : Event} (collecting : u.collecting c = some e) :
    e.state = .collecting := by
  unfold EventUnit.collecting at collecting
  have found := List.find?_some collecting
  exact of_decide_eq_true (Bool.and_eq_true_iff.mp found).2

/-- A retrigger completes a COLLECTING event where there is no post-window (R110). -/
theorem Event.retrigger_complete_iff {e : Event} (collecting : e.state = .collecting) (postWindow : Nat) :
    (e.retrigger postWindow).state = .complete ↔ postWindow = 0 := by
  simp [Event.retrigger, collecting]

namespace Part

/-- A new event is COMPLETE where there is no post-window (R109). -/
theorem newEvent_complete_iff (p : Part) (c : Channel) (cause : EventCause) :
    (p.newEvent c cause).state = .complete ↔ (p.setting c).postWindow = 0 := by
  simp [newEvent]

/-- The part once the channel's COLLECTING event is retriggered (R110). -/
def retriggered (p : Part) (c : Channel) (e : Event) : Part :=
  { p with
    events := p.events.replace (e.retrigger (p.setting c).postWindow)
    notices := p.notices.announced (e.retrigger (p.setting c).postWindow) true }

/-- The part once a new event stands in the table: its blocks held, its notices made (R107 to R109). -/
def withEvent (p : Part) (e : Event) : Part :=
  { e.held.foldl holdBlock p with events := p.events.add e, notices := p.notices.announced e false }

theorem takeTrigger_retriggers {p : Part} {c : Channel} {e : Event} (cause : EventCause)
    (collecting : p.events.collecting c = some e) :
    p.takeTrigger c cause = (p.retriggered c e, .retriggered (e.retrigger (p.setting c).postWindow)) := by
  simp only [takeTrigger, collecting, announced_eq, retriggered]

theorem takeTrigger_full {p : Part} {c : Channel} (cause : EventCause) (none : p.events.collecting c = none)
    (full : 16 ≤ p.events.table.length) : p.takeTrigger c cause = (p, .lost) := by
  have isFull : Config.eventEntries ≤ p.events.table.length := full
  simp [takeTrigger, none, isFull]

/-- Holding blocks writes the directory alone. -/
theorem holdBlocks_eq (blocks : List Block) (p : Part) : ∃ dir, blocks.foldl holdBlock p = { p with dir } :=
  p.foldl_updEntry_eq _ blocks

theorem withEvent_eq (p : Part) (e : Event) : ∃ dir, p.withEvent e
    = { p with dir, events := p.events.add e, notices := p.notices.announced e false } := by
  obtain ⟨dir, held⟩ := holdBlocks_eq e.held p
  exact ⟨dir, by rw [withEvent, held]⟩

theorem holdCount_withEvent {e : Event} (once : e.held.Nodup) (p : Part) (b : Block) :
    ((p.withEvent e).entry b).holdCount
      = if b ∈ e.held then (p.entry b).holdCount + 1 else (p.entry b).holdCount :=
  holdCount_holdBlocks once p b

theorem takeTrigger_makes {p : Part} {c : Channel} (cause : EventCause) (none : p.events.collecting c = none)
    (room : p.events.table.length < 16) :
    p.takeTrigger c cause = (p.withEvent (p.newEvent c cause), .made (p.newEvent c cause)) := by
  have notFull : ¬ Config.eventEntries ≤ p.events.table.length := Nat.not_le.mpr room
  obtain ⟨dir, held⟩ := holdBlocks_eq (p.newEvent c cause).held p
  simp only [takeTrigger, none, notFull, if_false, announced_eq, withEvent, held]

theorem queue_retriggered {p : Part} {c : Channel} {e : Event} (collecting : p.events.collecting c = some e)
    (mask : p.notices.mask = 0x01FC#16) (room : p.notices.queue.length ≤ 14) :
    (p.retriggered c e).notices.queue = p.notices.queue
      ++ [.triggered e.id e.channel e.cause e.anchor (min (e.triggerCount + 1) 255) e.held.length true]
      ++ (if (p.setting c).postWindow = 0 then [.eventDone e.id e.channel e.short e.held.length] else []) := by
  have completes := Event.retrigger_complete_iff (EventUnit.collecting_state collecting) (p.setting c).postWindow
  refine (NoticeBox.queue_announced _ true mask room).trans ?_
  simp only [completes]
  rfl

theorem queue_withEvent {p : Part} {c : Channel} {cause : EventCause} (mask : p.notices.mask = 0x01FC#16)
    (room : p.notices.queue.length ≤ 14) :
    let e := p.newEvent c cause
    (p.withEvent e).notices.queue = p.notices.queue
      ++ [.triggered p.events.nextId c cause (p.anchorOf c) 1 e.held.length false]
      ++ (if (p.setting c).postWindow = 0 then [.eventDone p.events.nextId c false e.held.length] else []) := by
  refine (NoticeBox.queue_announced _ false mask room).trans ?_
  simp only [newEvent_complete_iff]
  rfl

/-! ### TRIGGER and marker triggers (R104 to R106, R111) -/

theorem trigger_outside (p : Part) (tag : Byte) {x : Byte} (outside : 3 < x.toNat) :
    p.trigger tag [x] = p.placeReply tag 0x18#8 .badValue [] := by
  simp only [trigger, channelAt_outside outside]

section
variable {p : Part} {c : Channel}

theorem trigger_retriggers {e : Event} (tag : Byte) {x : Byte} (names : c.val = x.toNat)
    (collecting : p.events.collecting c = some e) :
    p.trigger tag [x] = (p.retriggered c e).placeReply tag 0x18#8 .ok
      ([BitVec.ofNat 8 e.id] ++ recordField e.anchor ++ [1#8]) := by
  simp only [trigger, channelAt_eq names, takeTrigger_retriggers .host collecting]
  rfl

theorem trigger_full (tag : Byte) {x : Byte} (names : c.val = x.toNat) (none : p.events.collecting c = none)
    (full : 16 ≤ p.events.table.length) : p.trigger tag [x] = p.placeReply tag 0x18#8 .tableFull [] := by
  simp only [trigger, channelAt_eq names, takeTrigger_full .host none full]

theorem trigger_makes (tag : Byte) {x : Byte} (names : c.val = x.toNat) (none : p.events.collecting c = none)
    (room : p.events.table.length < 16) :
    p.trigger tag [x] = (p.withEvent (p.newEvent c .host)).placeReply tag 0x18#8 .ok
      ([BitVec.ofNat 8 p.events.nextId] ++ recordField (p.anchorOf c) ++ [0#8]) := by
  simp only [trigger, channelAt_eq names, takeTrigger_makes .host none room]
  rfl

variable {code : Byte} (record : Nat) (triggers : (p.setting c).triggerCode = some code)
include triggers

/-- A marker with the channel's trigger code retriggers the channel's COLLECTING event (R104, R110). -/
theorem eventCommit_retriggers {e : Event} (collecting : p.events.collecting c = some e) :
    p.eventCommit c record (.mark code) = p.retriggered c e := by
  simp only [eventCommit, triggers, if_true, takeTrigger_retriggers _ collecting]

theorem eventCommit_lost (none : p.events.collecting c = none) (full : 16 ≤ p.events.table.length) :
    p.eventCommit c record (.mark code) = p.notify (.triggerLost c code record) := by
  simp only [eventCommit, triggers, if_true, takeTrigger_full _ none full]

theorem eventCommit_makes (none : p.events.collecting c = none) (room : p.events.table.length < 16) :
    p.eventCommit c record (.mark code) = p.withEvent (p.newEvent c (.marker code)) := by
  simp only [eventCommit, triggers, if_true, takeTrigger_makes _ none room]

end

end Part

/-- Settles O32: TRIGGER and a marker trigger by what became of the trigger, and the new event by the parts of its list. -/
theorem triggerAnswered : Obligations.TriggerAnswered := by
  refine ⟨fun s tag x p ready req => ?_, fun p c record code triggers => ⟨fun e collecting => ?_,
    fun none full => Part.eventCommit_lost record triggers none full, fun none room => ?_⟩, fun p c cause => ?_⟩
  · have run : exec (.trigger tag [x]) s = .next (s.withPart (p.trigger tag [x])) := serve_work req _ rfl ready rfl
    rw [run]
    refine ⟨fun outside => by rw [p.trigger_outside tag outside], fun c names => ⟨fun e collecting => ?_,
      fun none full => by rw [Part.trigger_full tag names none full], fun none room => ?_⟩⟩
    · rw [Part.trigger_retriggers tag names collecting]
      exact ⟨p.retriggered c e, rfl, rfl, rfl, rfl, fun noted => Part.queue_retriggered collecting noted.1 noted.2⟩
    · rw [Part.trigger_makes tag names none room]
      obtain ⟨dir, made⟩ := p.withEvent_eq (p.newEvent c .host)
      refine ⟨p.withEvent (p.newEvent c .host), rfl, rfl, ?_, ?_, fun once => Part.holdCount_withEvent once p,
        fun noted => Part.queue_withEvent noted.1 noted.2⟩
      · rw [made]
      · rw [made]
  · rw [Part.eventCommit_retriggers record triggers collecting]
    exact ⟨rfl, rfl, rfl⟩
  · rw [Part.eventCommit_makes record triggers none room]
    exact ⟨rfl, fun once => Part.holdCount_withEvent once p⟩
  · refine ⟨rfl, rfl, rfl, rfl, rfl, rfl, rfl, rfl, fun b anchored => ?_, fun n anchor missing b holds => ?_,
      p.preBlocks c (p.anchorOf c) (p.newEvent c cause).anchorBlock, p.postBlocks c (p.newEvent c cause).anchorBlock,
      rfl, ?_⟩
    · obtain ⟨n, anchor, holds⟩ := Part.newEvent_anchored anchored
      exact ⟨n, anchor, ((p.entry b).holds_iff c n).mp holds⟩
    · exact Part.newEvent_unretained anchor missing b (((p.entry b).holds_iff c n).mpr holds)
    · obtain ⟨length, unanchored, closed, sorted, left⟩ :=
        p.preBlocks_spec c (p.anchorOf c) (p.newEvent c cause).anchorBlock
      exact ⟨length, unanchored, closed, sorted, left, p.length_postBlocks_le c _, fun b => Part.mem_postBlocks⟩

end Sys2Proof.Machine
end

/-! ## SET_QUEUE, pushes and FLUSH_CHANNEL (R123 to R125, R129, R134, R135) -/

section
namespace Sys2Proof.Machine

/-! ### SET_QUEUE (R135) -/

/-- The two marks of a SET_QUEUE body read back. -/
theorem fieldAt_marks (high low : BitVec 16) :
    fieldAt (leBytes 2 high.toNat ++ leBytes 2 low.toNat) 0 2 = high.toNat
      ∧ fieldAt (leBytes 2 high.toNat ++ leBytes 2 low.toNat) 2 2 = low.toNat := by
  have front := fieldAt_append [] (leBytes 2 low.toNat) 2 high.toNat high.isLt
  have back := fieldAt_append (leBytes 2 high.toNat) [] 2 low.toNat low.isLt
  rw [List.append_nil, leBytes_length] at back
  exact ⟨front, back⟩

namespace Part

/-- SET_QUEUE by its checks of the two marks that the body carries. -/
theorem setQueue_eq (p : Part) (tag : Byte) (high low : BitVec 16) :
    p.setQueue tag (leBytes 2 high.toNat ++ leBytes 2 low.toNat)
      = if 33 ≤ high.toNat ∧ high.toNat ≤ 2048 ∧ low.toNat + 33 ≤ high.toNat then
          let q : Part := { p with queue := { p.queue with high := high.toNat, low := low.toNat } }
          q.evalHold.placeReply tag 0x20#8 .ok
            (leBytes 2 high.toNat ++ leBytes 2 low.toNat ++ [flagByte q.evalHold.queue.hold])
        else p.placeReply tag 0x20#8 .badValue [] := by
  obtain ⟨front, back⟩ := fieldAt_marks high low
  unfold setQueue
  rw [front, back]
  rfl

end Part

/-- Settles O35: the three checks of the marks, all of which pass or one of which fails. -/
theorem queueMarksReplaced : Obligations.QueueMarksReplaced := by
  intro s tag high low p ready req
  have run : exec (.setQueue tag (leBytes 2 high.toNat ++ leBytes 2 low.toNat)) s
      = .next (s.withPart (p.setQueue tag (leBytes 2 high.toNat ++ leBytes 2 low.toNat))) :=
    serve_work req _ rfl ready rfl
  have checked := p.setQueue_eq tag high low
  refine ⟨fun refused => ?_, fun least most apart => ?_⟩
  · rw [run, checked.trans (if_neg (by omega))]
  · rw [run, checked.trans (if_pos ⟨least, most, apart⟩)]
    rfl

/-! ### A push (R123, R124) -/

namespace Part

theorem fits_iff (p : Part) (e : Entry) :
    p.fits e = true ↔ p.queue.entries.length < 64 ∧ p.linesHeld + e.lines ≤ 2048 := by
  rw [fits, Bool.and_eq_true, decide_eq_true_eq, decide_eq_true_eq]
  rfl

theorem arrivalNotice_eq (p : Part) (e : Entry) (disposition : Disposition) :
    ∃ notices, p.arrivalNotice e disposition = { p with notices } := by
  unfold arrivalNotice
  split
  · exact p.errorFrame_eq _ _ _ _
  · exact ⟨p.notices, rfl⟩

theorem linesHeld_append (p : Part) (e : Entry) : totalLines (p.queue.entries ++ [e]) = p.linesHeld + e.lines := by
  simp [linesHeld, totalLines]

/-- The queue with an entry accepted at its tail (R123). -/
def queueWith (p : Part) (e : Entry) : CaptureQueue :=
  { p.queue with
    entries := p.queue.entries ++ [e]
    lastKind := p.queue.lastKind.set e.channel.val (some e.content.kind) e.channel.isLt
    hold := holdLevel (p.linesHeld + e.lines) p.queue.high p.queue.low p.queue.hold }

/-- A push that fits changes the queue, and the notices of R133 (R123). -/
theorem push_fits {p : Part} {e : Entry} (fits : p.fits e = true) :
    ∃ notices, p.push e = { p with queue := p.queueWith e, notices } := by
  rw [push, if_pos fits, accept, queueWith, ← p.linesHeld_append e]
  exact arrivalNotice_eq _ e .queued

/-- A lost push changes the overrun counter of its channel, and the notices (R124). -/
theorem push_lost {p : Part} {e : Entry} (lost : p.fits e = false) :
    ∃ notices, p.push e
      = { p.updCounters e.channel (fun k => { k with overruns := satAdd k.overruns 1 }) with notices } := by
  obtain ⟨arrival, made⟩ := (p.updCounters e.channel
    (fun k => { k with overruns := satAdd k.overruns 1 })).arrivalNotice_eq e .overrun
  rw [push, if_neg (Bool.eq_false_iff.mp lost), overrun, made, notify_eq_made]
  exact ⟨_, rfl⟩

end Part

/-- Settles O36: what a push that fits writes, and what a push that is lost writes. -/
theorem pushFitsOrOverruns : Obligations.PushFitsOrOverruns := by
  intro p e
  refine ⟨fun places lines => ?_, fun full => ?_⟩
  · obtain ⟨notices, pushed⟩ := Part.push_fits ((p.fits_iff e).mpr ⟨places, lines⟩)
    rw [pushed]
    refine ⟨rfl, ?_, rfl, fun _ => rfl⟩
    exact Vector.getElem_set_self e.channel.isLt
  · have lost : p.fits e = false :=
      Bool.eq_false_iff.mpr fun fits => by have := (p.fits_iff e).mp fits; omega
    obtain ⟨notices, pushed⟩ := Part.push_lost lost
    have chans := p.chan_updCounters e.channel (f := fun k => { k with overruns := satAdd k.overruns 1 })
    rw [pushed]
    refine ⟨rfl, ?_, fun c other => (chans c).trans (if_neg (Ne.symm other))⟩
    exact congrArg (fun k : ChannelStatus => k.counters.overruns) ((chans e.channel).trans (if_pos rfl))

/-! ### FLUSH_CHANNEL (R129) -/

namespace Part

/-- With no record program in flight no entry of the channel stays. -/
theorem keptByFlush_landed {p : Part} (c : Channel) (landed : p.je.outstanding ≠ some .record) :
    p.keptByFlush c = p.queue.entries.filter (fun e => decide (e.channel ≠ c)) := by
  have unflown : p.inFlight = false := decide_eq_false landed
  unfold keptByFlush
  cases p.queue.entries with
  | nil => rfl
  | cons head rest => simp only [unflown, Bool.false_eq_true, if_false]

/-- A head whose record program is in flight stays. -/
theorem keptByFlush_inFlight {p : Part} {e : Entry} {rest : List Entry} (c : Channel)
    (entries : p.queue.entries = e :: rest) (flown : p.je.outstanding = some .record) :
    p.keptByFlush c = e :: rest.filter (fun e => decide (e.channel ≠ c)) := by
  have flying : p.inFlight = true := decide_eq_true flown
  unfold keptByFlush
  simp only [entries, flying, if_true]

/-- The part once the counter and the queue have taken the removals, before the drain is looked at (R129). -/
def flushed (p : Part) (c : Channel) : Part :=
  { p.updCounters c (fun k => { k with flushed := satAdd k.flushed (p.flushCount c) }) with
    queue := { p.queue with
      entries := p.keptByFlush c
      hold := holdLevel (totalLines (p.keptByFlush c)) p.queue.high p.queue.low p.queue.hold } }

theorem flush_eq (p : Part) (c : Channel) : p.flush c = (p.flushed c).drain c := rfl

theorem queue_flush (p : Part) (c : Channel) : (p.flush c).queue = (p.flushed c).queue := queue_drain _ c

theorem chan_flushed (p : Part) (c c' : Channel) :
    (p.flushed c).chan c' = if c = c' then
      { p.chan c with counters := { (p.chan c).counters with
        flushed := satAdd (p.chan c).counters.flushed (p.flushCount c) } } else p.chan c' :=
  p.chan_updCounters c c' (fun k => { k with flushed := satAdd k.flushed (p.flushCount c) })

theorem counters_flush (p : Part) (c : Channel) :
    ((p.flush c).chan c).counters.flushed = min ((p.chan c).counters.flushed + p.flushCount c) 4294967295 := by
  rw [flush_eq, (Drained.drain _ c).counters, chan_flushed, if_pos rfl]
  rfl

/-- Only a STOPPING channel has a drain to end. -/
theorem flush_undrained {p : Part} {c : Channel} (running : (p.chan c).state ≠ .stopping) : p.flush c = p.flushed c := by
  have same : ((p.flushed c).chan c).state = (p.chan c).state := by rw [chan_flushed, if_pos rfl]
  exact if_neg fun drained => running (same.symm.trans drained.1)

/-- A commit in flight stays so: its subject is the head that the flush keeps. -/
theorem CommitInFlight.flushed {p : Part} (h : p.CommitInFlight) (c : Channel) : (p.flushed c).CommitInFlight where
  outstanding := h.outstanding
  backlog := h.backlog
  due := h.due
  array := h.array
  subject := by
    obtain ⟨e, subject, writing⟩ := h.subject
    obtain ⟨rest, entries⟩ := List.head?_eq_some_iff.mp subject
    exact ⟨e, congrArg List.head? (keptByFlush_inFlight c entries h.outstanding), writing⟩

/-- A reply is nothing to the Journal Engine. -/
theorem CommitInFlight.placeReply {p : Part} (h : p.CommitInFlight) (tag kind : Byte) (status : Status)
    (contents : List Byte) : (p.placeReply tag kind status contents).CommitInFlight :=
  ⟨h.outstanding, h.backlog, h.due, h.subject, h.array⟩

/-- FLUSH_CHANNEL of a channel the part has. -/
theorem flushChannel_eq (p : Part) (tag : Byte) {x : Byte} {c : Channel} (names : c.val = x.toNat) :
    p.flushChannel tag [x] = ((p.flush c).placeReply tag 0x21#8 .ok [BitVec.ofNat 8 (p.flushCount c)]).settle [] := by
  rw [flushChannel, channelAt_eq names]

theorem flushChannel_outside (p : Part) (tag : Byte) {x : Byte} (outside : 3 < x.toNat) :
    p.flushChannel tag [x] = p.placeReply tag 0x21#8 .badValue [] := by
  rw [flushChannel, channelAt_outside outside]

theorem serving_flush (p : Part) (c : Channel) (free : p.ctrl.serving = none) : (p.flush c).ctrl.serving = none :=
  ((Kept.drain (p.flushed c) c).serving free).1

end Part

/-- Settles O37: which entries the flush keeps, what its counter and HOLD_N become, and that the reactions keep the reply
and the counter, and do nothing with a commit in flight or with nothing left and the units at rest. -/
theorem channelFlushed : Obligations.ChannelFlushed := by
  intro s tag x p ready req
  refine ⟨fun outside => serve_refused req rfl ready (p.flushChannel_outside tag outside), fun c names => ?_⟩
  have run : exec (.flushChannel tag [x]) s = .next (s.withPart (p.flushChannel tag [x])) := serve_work req _ rfl ready rfl
  have entries : (p.flush c).queue.entries = p.keptByFlush c := congrArg CaptureQueue.entries (p.queue_flush c)
  have removed : p.queue.entries.length - (p.flush c).queue.entries.length = p.flushCount c := by rw [entries]; rfl
  dsimp only
  rw [removed, run, p.flushChannel_eq tag names]
  refine ⟨fun landed => entries.trans (p.keptByFlush_landed c landed),
    fun e rest held flown => entries.trans (Part.keptByFlush_inFlight c held flown), ?_, ?_, fun running => ⟨?_, ?_⟩⟩
  · rw [Part.linesHeld, p.queue_flush]
    rfl
  · have reacts := Kept.settle ((p.flush c).placeReply tag 0x21#8 .ok [BitVec.ofNat 8 (p.flushCount c)]) []
    exact ⟨_, ⟨rfl, rfl, reacts⟩, reacts.reply_eq (p.serving_flush c (requested_free req).1),
      (reacts.chans c).flushed.trans (p.counters_flush c)⟩
  · intro flying
    rw [Part.flush_undrained running, Part.settle_commitInFlight]
    exact (flying.flushed c).placeReply tag 0x21#8 .ok _
  · intro alone backlog outstanding due rest
    have left : p.keptByFlush c = [] := by
      rw [p.keptByFlush_landed c (by rw [outstanding]; decide), List.filter_eq_nil_iff]
      intro e held
      simp [alone e held]
    refine ⟨entries.trans left, ?_⟩
    rw [Part.flush_undrained running, Part.settle_quiet]
    · exact ⟨left, backlog, outstanding, due⟩
    · exact rest.of_eq rfl rfl rfl rfl rfl rfl

end Sys2Proof.Machine
end

/-! ## SET_CHANNEL, GET_CHANNEL, START_CHANNEL and STOP_CHANNEL (R139, R140, R143 to R145) -/

section
namespace Sys2Proof.Machine

/-! ### What a reaction can make of a channel's state (R145) -/

/-- No reaction starts a channel: one that is not RUNNING stays so. -/
theorem ChanKept.notRunning {k k' : ChannelStatus} (h : ChanKept k k') (still : k.state ≠ .running) :
    k'.state ≠ .running := by
  obtain same | ⟨-, stopped⟩ := h.state
  · rwa [same]
  · rw [stopped]
    decide

/-- A STOPPED channel stays STOPPED under the reactions. -/
theorem ChanKept.stopped {k k' : ChannelStatus} (h : ChanKept k k') (stopped : k.state = .stopped) :
    k'.state = .stopped := by
  obtain same | ⟨-, stops⟩ := h.state
  · rw [same, stopped]
  · exact stops

namespace Part

/-! ### SET_CHANNEL (R139) -/

theorem setChannel_outside (p : Part) (tag : Byte) {x : Byte} (record : List Byte) (outside : 3 < x.toNat) :
    p.setChannel tag (x :: record) = p.placeReply tag 0x24#8 .badValue [] := by
  rw [setChannel, channelAt_outside outside]

theorem setChannel_busy {p : Part} {x : Byte} {c : Channel} (tag : Byte) (record : List Byte) (names : c.val = x.toNat)
    (busy : (p.chan c).state ≠ .stopped) : p.setChannel tag (x :: record) = p.placeReply tag 0x24#8 .state [] := by
  rw [setChannel, channelAt_eq names]
  exact if_pos busy

theorem setChannel_refused {p : Part} {x : Byte} {c : Channel} {record : List Byte} (tag : Byte) (names : c.val = x.toNat)
    (stopped : (p.chan c).state = .stopped) (refused : settingsOf record = none) :
    p.setChannel tag (x :: record) = p.placeReply tag 0x24#8 .badValue [] := by
  have judged : settingsOf ((x :: record).drop 1) = none := refused
  simp only [setChannel, channelAt_eq names, stopped, ne_eq, not_true_eq_false, if_false, judged]

theorem setChannel_replaced {p : Part} {x : Byte} {c : Channel} {record : List Byte} {r : Settings} (tag : Byte)
    (names : c.val = x.toNat) (stopped : (p.chan c).state = .stopped) (sound : settingsOf record = some r) :
    p.setChannel tag (x :: record)
      = ({ p with settings := p.settings.set c.val r c.isLt }).placeReply tag 0x24#8 .ok [] := by
  have judged : settingsOf ((x :: record).drop 1) = some r := sound
  simp only [setChannel, channelAt_eq names, stopped, ne_eq, not_true_eq_false, if_false, judged]

/-! ### GET_CHANNEL (R140) -/

theorem getChannel_outside (p : Part) (tag : Byte) {x : Byte} (clear : Byte) (outside : 3 < x.toNat) :
    p.getChannel tag [x, clear] = p.placeReply tag 0x25#8 .badValue [] := by
  rw [getChannel, channelAt_outside outside]

/-- GET_CHANNEL of a channel the part has. -/
theorem getChannel_eq (p : Part) (tag : Byte) {x : Byte} (clear : Byte) {c : Channel} (names : c.val = x.toNat) :
    p.getChannel tag [x, clear]
      = (if clear.toNat = 1 then p.updCounters c (fun _ => .zero) else p).placeReply tag 0x25#8 .ok
          (p.channelBytes c) := by
  rw [getChannel, channelAt_eq names]
  rfl

/-! ### START_CHANNEL (R143) -/

theorem startChannel_outside (p : Part) (tag : Byte) {x : Byte} (outside : 3 < x.toNat) :
    p.startChannel tag [x] = p.placeReply tag 0x26#8 .badValue [] := by
  rw [startChannel, channelAt_outside outside]

/-- START_CHANNEL of a channel the part has. -/
theorem startChannel_eq (p : Part) (tag : Byte) {x : Byte} {c : Channel} (names : c.val = x.toNat) :
    p.startChannel tag [x]
      = if (p.chan c).state = .stopped then
          (p.updChan c (fun k => { k with state := .running, cadence := 0, expected := none })).placeReply tag 0x26#8
            .ok []
        else p.placeReply tag 0x26#8 .state [] := by
  rw [startChannel, channelAt_eq names]

/-! ### STOP_CHANNEL (R144) -/

theorem stopChannel_outside (p : Part) (tag : Byte) {x : Byte} (close : Byte) (outside : 3 < x.toNat) :
    p.stopChannel tag [x, close] = p.placeReply tag 0x27#8 .badValue [] := by
  rw [stopChannel, channelAt_outside outside]

/-- STOP_CHANNEL of a channel the part has. -/
theorem stopChannel_eq (p : Part) (tag : Byte) {x : Byte} (close : Byte) {c : Channel} (names : c.val = x.toNat) :
    p.stopChannel tag [x, close] = p.stopChannelAt tag c (decide (close = 1#8)) := by
  rw [stopChannel, channelAt_eq names]
  exact congrArg (p.stopChannelAt tag c) (decide_eq_decide.mpr (byte_toNat_eq_one close))

theorem stopChannelAt_stopped {p : Part} {c : Channel} (tag : Byte) (close : Bool) (stopped : (p.chan c).state = .stopped) :
    p.stopChannelAt tag c close = p.placeReply tag 0x27#8 .state [] := by
  rw [stopChannelAt, stopped]

theorem stopChannelAt_stopping {p : Part} {c : Channel} (tag : Byte) (close : Bool)
    (stopping : (p.chan c).state = .stopping) :
    p.stopChannelAt tag c close
      = (p.updChan c (fun k => { k with closePending := k.closePending || close })).placeReply tag 0x27#8 .ok [2#8] := by
  have still : ((p.updChan c (fun k => { k with closePending := k.closePending || close })).chan c).state = .stopping := by
    rw [chan_updChan, if_pos rfl]
    exact stopping
  rw [stopChannelAt, stopping]
  exact congrArg (fun state => placeReply _ tag 0x27#8 .ok [ChannelState.code state]) still

theorem stopChannelAt_running {p : Part} {c : Channel} (tag : Byte) (close : Bool) (running : (p.chan c).state = .running) :
    p.stopChannelAt tag c close = ((p.beginStop c close).replyStop tag c).settle [] := by
  rw [stopChannelAt, running]

/-! ### The drain that a stop begins (R145) -/

theorem chan_journalStop (p : Part) (c c' : Channel) (close : Bool) : (p.journalStop c close).chan c' = p.chan c' := by
  obtain ⟨f, wait, backlog, notices, stops, -⟩ := p.journalStop_moved c close
  rw [stops]
  exact chan_of_chans rfl c'

/-- A drain with no entry of the channel left ends at once (R145). -/
theorem chan_drain_empty {p : Part} {c : Channel} (stopping : (p.chan c).state = .stopping)
    (empty : p.channelEntries c = 0) :
    (p.drain c).chan c = { p.chan c with state := .stopped, closePending := false } := by
  rw [drain, if_pos ⟨stopping, empty⟩, becomeStopped, chan_journalStop, chan_updChan, if_pos rfl]

/-- The part as the stop of a channel meets the drain: its slot cleared, the channel STOPPING (R144). -/
def stopBegun (p : Part) (c : Channel) (close : Bool) : Part :=
  (p.setSlot c .idle).updChan c (fun k => { k with state := .stopping, closePending := close })

theorem beginStop_eq (p : Part) (c : Channel) (close : Bool) : p.beginStop c close = (p.stopBegun c close).drain c := rfl

theorem chan_stopBegun (p : Part) (c : Channel) (close : Bool) :
    (p.stopBegun c close).chan c = { p.chan c with state := .stopping, closePending := close } := by
  rw [stopBegun, chan_updChan, if_pos rfl, chan_setSlot]

theorem state_stopBegun (p : Part) (c : Channel) (close : Bool) : ((p.stopBegun c close).chan c).state = .stopping := by
  rw [chan_stopBegun]

theorem slot_beginStop (p : Part) (c : Channel) (close : Bool) : (p.beginStop c close).slot c = .idle := by
  rw [beginStop_eq, (Kept.drain _ c).slot_eq, stopBegun, slot_updChan, slot_setSlot, if_pos rfl]

/-- The stop leaves the channel STOPPING or STOPPED. -/
theorem state_beginStop (p : Part) (c : Channel) (close : Bool) : ((p.beginStop c close).chan c).state ≠ .running := by
  have drained : ChanKept ((p.stopBegun c close).chan c) ((p.beginStop c close).chan c) := (Kept.drain _ c).chans c
  refine drained.notRunning ?_
  rw [state_stopBegun]
  decide

theorem state_beginStop_empty {p : Part} {c : Channel} (close : Bool) (empty : p.channelEntries c = 0) :
    ((p.beginStop c close).chan c).state = .stopped := by
  rw [beginStop_eq, chan_drain_empty (p.state_stopBegun c close) empty]

end Part

/-- A body whose second byte is a flag passes order 4 of R186 for GET_CHANNEL and STOP_CHANNEL (R207). -/
theorem encodingAllowed_channelFlag {kind : Byte} (x flag : Byte) (kinds : kind = 0x25#8 ∨ kind = 0x27#8)
    (isFlag : flag.toNat ≤ 1) : encodingAllowed kind [x, flag] = true := by
  obtain rfl | rfl := kinds
  · exact decide_eq_true isFlag
  · exact decide_eq_true isFlag

/-- Settles O38: the three checks in their order, and the record that passes them all. -/
theorem channelSettingsReplaced : Obligations.ChannelSettingsReplaced := by
  intro s tag x record p ready full req
  have length : bodyLength 0x24#8 = some (x :: record).length := by rw [List.length_cons, full]; rfl
  have run : exec (.setChannel tag (x :: record)) s = .next (s.withPart (p.setChannel tag (x :: record))) :=
    serve_work req _ length ready rfl
  dsimp only
  rw [run]
  refine ⟨fun outside => by rw [p.setChannel_outside tag record outside], fun c names => ?_⟩
  refine ⟨fun busy => ?_, fun stopped refused => ?_, fun r stopped sound => ?_⟩
  · rw [Part.setChannel_busy tag record names busy]
  · rw [Part.setChannel_refused tag names stopped refused]
  · rw [Part.setChannel_replaced tag names stopped sound]

/-- Settles O39: GET_CHANNEL by its clear flag, START_CHANNEL by the channel's state. -/
theorem channelReportedAndStarted : Obligations.ChannelReportedAndStarted := by
  refine ⟨fun s tag x clear p ready req => ?_, fun s tag x p ready req => ?_⟩
  · have run (flag : clear.toNat ≤ 1) :
        exec (.getChannel tag [x, clear]) s = .next (s.withPart (p.getChannel tag [x, clear])) :=
      serve_work req _ rfl ready (encodingAllowed_channelFlag x clear (.inl rfl) flag)
    refine ⟨fun outside flag => by rw [run flag, p.getChannel_outside tag clear outside], fun c names => ?_⟩
    rw [p.getChannel_eq tag clear names] at run
    refine ⟨fun kept => ?_, fun cleared => ?_⟩
    · subst kept
      exact run (by decide)
    · subst cleared
      exact run (by decide)
  · have run : exec (.startChannel tag [x]) s = .next (s.withPart (p.startChannel tag [x])) :=
      serve_work req _ rfl ready rfl
    rw [run]
    refine ⟨fun outside => by rw [p.startChannel_outside tag outside], fun c names => ?_⟩
    rw [p.startChannel_eq tag names]
    exact ⟨fun busy => by rw [if_neg busy], fun stopped => by rw [if_pos stopped]⟩

/-- Settles O40: the three states of the channel. The reactions that follow the stop of a RUNNING channel leave its slot
cleared and can only end its drain. -/
theorem channelStopped : Obligations.ChannelStopped := by
  intro s tag x close p ready flag req
  have run : exec (.stopChannel tag [x, close]) s = .next (s.withPart (p.stopChannel tag [x, close])) :=
    serve_work req _ rfl ready (encodingAllowed_channelFlag x close (.inr rfl) flag)
  dsimp only
  rw [run]
  refine ⟨fun outside => by rw [p.stopChannel_outside tag close outside], fun c names => ?_⟩
  rw [p.stopChannel_eq tag close names]
  refine ⟨fun stopped => ?_, fun stopping => ?_, fun running => ?_⟩
  · rw [Part.stopChannelAt_stopped tag _ stopped]
  · rw [Part.stopChannelAt_stopping tag _ stopping]
  · rw [Part.stopChannelAt_running tag _ running]
    let q : Part := (p.beginStop c (decide (close = 1#8))).replyStop tag c
    have reacts : Kept q (q.settle []) := Kept.settle q []
    have begun : q.chan c = (p.beginStop c (decide (close = 1#8))).chan c := rfl
    refine ⟨s.withPart (q.settle []), ⟨rfl, rfl, reacts⟩, ?_, ?_, fun empty => ?_⟩
    · exact (reacts.slot_eq c).trans (p.slot_beginStop c _)
    · exact (reacts.chans c).notRunning (begun ▸ p.state_beginStop c _)
    · exact (reacts.chans c).stopped (begun ▸ Part.state_beginStop_empty _ empty)

end Sys2Proof.Machine
end

/-! ## Cadence, continuity, clipping, and the sample words of a sound packet (R147 to R149, R157) -/

section
namespace Sys2Proof

/-! ### Sample words as they are sent (R205, section 12.4) -/

/-- Bytes sent as nibbles and joined again (R154). -/
theorem bytesOfNibbles_nibblesOfBytes (bytes : List Byte) : bytesOfNibbles (nibblesOfBytes bytes) = bytes := by
  have joined := bytesOfNibbles_append bytes []
  simpa only [List.append_nil, bytesOfNibbles] using joined

/-- A word's two bytes, high before low, are the word. -/
theorem word_of_leBytes (w : Word16) : BitVec.ofNat 8 (w.toNat / 256) ++ BitVec.ofNat 8 w.toNat = w := by
  apply BitVec.eq_of_toNat_eq
  have := w.isLt
  rw [BitVec.toNat_append, ← Nat.shiftLeft_add_eq_or_of_lt (BitVec.isLt _), Nat.shiftLeft_eq, BitVec.toNat_ofNat,
    BitVec.toNat_ofNat]
  omega

theorem wordsOfBytes_sampleBytes (words : List Word16) : wordsOfBytes (sampleBytes words) = words := by
  induction words with
  | nil => rfl
  | cons w ws ih =>
    have laidOut : sampleBytes (w :: ws)
        = BitVec.ofNat 8 w.toNat :: BitVec.ofNat 8 (w.toNat / 256) :: sampleBytes ws := rfl
    rw [laidOut, wordsOfBytes, ih, word_of_leBytes]

/-- A packet built from words is sound, and carries them (R157). -/
theorem soundSamples_soundTail {count : Word16} {words : List Word16} (length : words.length = count.toNat) :
    soundSamples count (soundTail words) = some words := by
  have bytes : bytesOfNibbles (soundTail words) = sampleBytes words ++ checkBytes (sampleBytes words) :=
    bytesOfNibbles_nibblesOfBytes _
  have sampleEnd : (sampleBytes words).length = 2 * count.toNat := by rw [sampleBytes_length, length]
  have nibbles : (soundTail words).length = 4 * count.toNat + 4 := by
    rw [soundTail, nibblesOfBytes_length, List.length_append, sampleEnd, checkBytes_length]
    omega
  unfold soundSamples
  dsimp only
  rw [bytes, List.take_left' sampleEnd, List.drop_left' sampleEnd, if_pos ⟨nibbles, rfl⟩, wordsOfBytes_sampleBytes]

namespace Machine

/-! ### The cadence decision (R147) -/

namespace Settings

theorem cadence_unmasked {s : Settings} (position : Nat) (unmasked : s.mask = 0) :
    s.cadence position = (true, 0) :=
  if_pos unmasked

/-- With frames to mask, the position decides and moves on through the pattern. -/
theorem cadence_masking {s : Settings} (position : Nat) (masking : 0 < s.mask) :
    s.cadence position = (decide (position < s.pass), (position + 1) % (s.pass + s.mask)) :=
  if_neg masking.ne'

end Settings

/-! ### The continuity check (R149) -/

theorem continuity_outside {wrap r : Nat} (e : Option Nat) (outside : wrap ≤ r) :
    continuity wrap e r = ({ TagSet.none with number := true }, 0) :=
  if_pos outside

theorem continuity_first {wrap r : Nat} (inside : r < wrap) : continuity wrap none r = (.none, 0) :=
  if_neg (Nat.not_le.mpr inside)

theorem continuity_expected {wrap r : Nat} (inside : r < wrap) : continuity wrap (some r) r = (.none, 0) := by
  rw [continuity, if_neg (Nat.not_le.mpr inside)]
  exact if_pos rfl

theorem continuity_gap {wrap r e : Nat} (inside : r < wrap) (apart : r ≠ e) :
    continuity wrap (some e) r = ({ TagSet.none with gap := true }, (r + wrap - e) % wrap) := by
  rw [continuity, if_neg (Nat.not_le.mpr inside)]
  exact if_neg apart

/-- How far a number runs ahead of the expected one, counted round the wrap. -/
theorem ahead_round_wrap {wrap r e : Nat} (inside : r < wrap) (expected : e < wrap) (apart : r ≠ e) :
    (r + wrap - e) % wrap = if e < r then r - e else r + wrap - e := by
  split
  · next ahead =>
    have shifted : r + wrap - e = r - e + wrap := by omega
    rw [shifted, Nat.add_mod_right, Nat.mod_eq_of_lt (by omega)]
  · exact Nat.mod_eq_of_lt (by omega)

/-! ### Clipping (R148) -/

namespace Settings

theorem clip_within {s : Settings} {w : Word16} (twelve : s.clipUpper ≤ 4095) (least : s.clipLower ≤ w.toNat)
    (most : w.toNat ≤ s.clipUpper) : s.clip w = w := by
  rw [clip, if_neg (by omega), if_neg (by omega), if_neg (by omega)]

/-- A word above the upper bound becomes it, whether or not one of its top four bits is set. -/
theorem clip_above {s : Settings} {w : Word16} (above : s.clipUpper < w.toNat) :
    s.clip w = BitVec.ofNat 16 s.clipUpper := by
  rw [clip, if_pos above, ite_self]

theorem clip_below {s : Settings} {w : Word16} (ordered : s.clipLower ≤ s.clipUpper) (twelve : s.clipUpper ≤ 4095)
    (below : w.toNat < s.clipLower) : s.clip w = BitVec.ofNat 16 s.clipLower := by
  rw [clip, if_neg (by omega), if_neg (by omega), if_pos below]

end Settings

/-- A bound of 12 bits is the value of its word. -/
theorem toNat_bound {n : Nat} (twelve : n ≤ 4095) : (BitVec.ofNat 16 n).toNat = n := by
  rw [BitVec.toNat_ofNat]
  exact Nat.mod_eq_of_lt (by omega)

/-- Settles O42: each table by its rows, and the round trip of a sound packet. -/
theorem cadenceContinuityClipping : Obligations.CadenceContinuityClipping := by
  refine ⟨fun s position => ⟨?_, ?_, ?_⟩, fun wrap r => ⟨?_, ?_, ?_, ?_⟩,
    fun st w ordered twelve => ⟨?_, ?_, ?_⟩, fun count words => soundSamples_soundTail⟩
  · exact Settings.cadence_unmasked position
  · intro masking passed
    rw [Settings.cadence_masking position masking, decide_eq_true passed]
  · intro masking masked
    rw [Settings.cadence_masking position masking, decide_eq_false (Nat.not_lt.mpr masked)]
  · exact continuity_first
  · exact continuity_expected
  · intro e inside expected apart
    rw [continuity_gap inside apart]
    exact ⟨rfl, ahead_round_wrap inside expected apart⟩
  · exact fun e => continuity_outside e
  · exact Settings.clip_within twelve
  · intro above
    rw [Settings.clip_above above, toNat_bound twelve]
  · intro below
    rw [Settings.clip_below ordered twelve below, toNat_bound (ordered.trans twelve)]

end Machine

end Sys2Proof
end

/-! ## Packet commands and their nibbles (R154 to R156, section 12.4) -/

section
namespace Sys2Proof

/-- The channel byte of a header names its channel. -/
theorem channelOf_number (c : Channel) : channelOf (BitVec.ofNat 8 c.val) = some c := by
  have number : c.val = (BitVec.ofNat 8 c.val).toNat := by
    have := c.isLt
    rw [BitVec.toNat_ofNat]
    omega
  exact Machine.channelAt_eq number []

/-- The two value bytes of a header, high before low, are the value. -/
theorem value_of_headerBytes (v : Word16) : v.extractLsb' 8 8 ++ v.setWidth 8 = v := by
  apply BitVec.eq_of_toNat_eq
  have := v.isLt
  rw [BitVec.toNat_append, ← Nat.shiftLeft_add_eq_or_of_lt (BitVec.isLt _), Nat.shiftLeft_eq, BitVec.extractLsb'_toNat,
    BitVec.toNat_setWidth, Nat.shiftRight_eq_div_pow]
  omega

/-- A packet that opens with a header of section 12.4 passes the header check, and is judged by the header's fields. -/
theorem decodePacket_header (kind : Byte) (c : Channel) (v : Word16) (tail : List Nibble) :
    decodePacket (nibblesOfBytes (packetHeader kind c v) ++ tail)
      = judgePacket kind c v tail (nibblesOfBytes (packetHeader kind c v) ++ tail) := by
  have header : (nibblesOfBytes (packetHeader kind c v)).length = 10 := nibblesOfBytes_length _
  have bytes : bytesOfNibbles (nibblesOfBytes (packetHeader kind c v) ++ tail)
      = packetHeader kind c v ++ bytesOfNibbles tail := bytesOfNibbles_append _ _
  unfold decodePacket
  rw [bytes, List.drop_left' header]
  simp only [packetHeader, List.cons_append, List.nil_append, if_true, channelOf_number, value_of_headerBytes]

/-- A packet that is its header alone. -/
theorem decodePacket_header_alone (kind : Byte) (c : Channel) (v : Word16) :
    decodePacket (nibblesOfBytes (packetHeader kind c v))
      = judgePacket kind c v [] (nibblesOfBytes (packetHeader kind c v)) := by
  simpa only [List.append_nil] using decodePacket_header kind c v []

/-- Settles O57: the header reads back, and R156 judges its kind and value as the command they were written for. -/
theorem packetsDecodeAsEncoded : Obligations.PacketsDecodeAsEncoded := by
  rintro i sound (⟨c, n, rfl | rfl | rfl⟩ | ⟨c, code, rfl⟩ | ⟨c, n, tail, rfl⟩ | ⟨nibbles, rfl⟩)
  case inl.inl | inl.inr.inl | inl.inr.inr =>
    rw [encodePacket, decodePacket_header_alone]
    rfl
  case inr.inl =>
    have inByte : (code.setWidth 16 : Word16).toNat ≤ 255 := by
      have := code.isLt
      rw [BitVec.toNat_setWidth]
      omega
    have readBack : (code.setWidth 16 : Word16).setWidth 8 = code := by bv_omega
    rw [encodePacket, decodePacket_header_alone]
    exact (if_pos inByte).trans (congrArg (Instr.markPacket c) readBack)
  case inr.inr.inl =>
    rw [encodePacket, decodePacket_header]
    exact (if_pos rfl).trans (if_pos (of_decide_eq_true sound))
  case inr.inr.inr => exact of_decide_eq_true sound

end Sys2Proof
end

/-! ## How the receiver judges a packet: lost, discarded, refused, malformed, or handed to its slot (R154, R156, R160) -/

section
namespace Sys2Proof.Machine

namespace Part

theorem receive_scanning {p : Part} {c : Channel} (act : Part → Part) (taken : p.awaitsSelection = false)
    (scanning : p.device = .scanning) : p.receive c act = p := by
  rw [p.receive_taken c act taken, judge, scanning]

theorem receive_refused {p : Part} {c : Channel} (act : Part → Part) (taken : p.awaitsSelection = false)
    (ready : p.device = .ready) (still : (p.chan c).state ≠ .running) : p.receive c act = p.refused := by
  rw [p.receive_taken c act taken, judge, ready]
  exact if_neg still

theorem receive_running {p : Part} {c : Channel} (act : Part → Part) (taken : p.awaitsSelection = false)
    (ready : p.device = .ready) (running : (p.chan c).state = .running) : p.receive c act = act p := by
  rw [p.receive_taken c act taken, judge, ready]
  exact if_pos running

end Part

/-- The packet commands that name a channel, DATA within the sample counts that the receiver hands on (R155, R156). -/
def PacketFor (c : Channel) (i : Instr) : Prop :=
  (∃ n, i = .fsPacket c n ∨ i = .fePacket c n ∨ i = .abortPacket c n) ∨ (∃ code, i = .markPacket c code)
    ∨ (∃ count tail, 1 ≤ count.toNat ∧ count.toNat ≤ 256 ∧ i = .dataPacket c count tail)

/-- Every packet for a channel is received at the end of its selection, whatever its kind makes of the slot. -/
theorem PacketFor.received {c : Channel} {i : Instr} (packet : PacketFor c i) {s : State} (live : s.part.live = true) :
    ∃ act, exec i s = .next (s.withPart (s.part.receive c act)) := by
  obtain ⟨n, rfl | rfl | rfl⟩ | ⟨code, rfl⟩ | ⟨count, tail, least, most, rfl⟩ := packet
  case inr.inr => exact ⟨_, if_pos ⟨live, least, most⟩⟩
  all_goals exact ⟨_, if_pos live⟩

/-- Settles O48: a packet for a channel by the receiver's judgement of it, a malformed one by the device state alone. -/
theorem packetsRefusedOrDiscarded : Obligations.PacketsRefusedOrDiscarded := by
  intro s live waits lost
  refine ⟨fun c i packet => ?_, fun nibbles malformed => ?_⟩
  · obtain ⟨act, run⟩ := PacketFor.received packet live
    rw [run]
    refine ⟨fun waiting => ?_, fun taken scanning => ?_, fun taken ready still => ?_⟩
    · rw [s.part.receive_lost c act waiting]
    · rw [Part.receive_scanning act taken scanning]
    · rw [Part.receive_refused act taken ready still]
      rfl
  · have run : exec (.malformedPacket nibbles) s = .next (s.withPart
        (s.part.selectionEnds (fun p => if p.device = .ready then p.malformed else p))) := if_pos ⟨live, malformed⟩
    rw [run]
    refine ⟨fun waiting => ?_, fun taken scanning => ?_, fun taken ready => ?_⟩
    · rw [s.part.selectionEnds_lost _ waiting]
    · rw [s.part.selectionEnds_taken _ taken, scanning]
      rfl
    · rw [s.part.selectionEnds_taken _ taken, if_pos ready]
      rfl

/-! ### DATA_PACKET at its slot (R162, R163, R169) -/

namespace TakesPacket

variable {s : State} {c : Channel}

/-- A packet that the slot takes does there what its kind does. -/
theorem receive (taken : TakesPacket s c) (act : Part → Part) : s.part.receive c act = act s.part :=
  have ⟨_, ready, selected, running⟩ := taken
  Part.receive_running act selected ready running

theorem exec_fsPacket (taken : TakesPacket s c) (n : Word16) :
    exec (.fsPacket c n) s = .next (s.withPart ((s.part.takeFs c n).settle [])) :=
  (if_pos taken.1).trans (by rw [taken.receive])

theorem exec_fePacket (taken : TakesPacket s c) (n : Word16) :
    exec (.fePacket c n) s = .next (s.withPart ((s.part.takeFe c n).settle [])) :=
  (if_pos taken.1).trans (by rw [taken.receive])

theorem exec_dataPacket (taken : TakesPacket s c) {count : Word16} (tail : List Nibble) (least : 1 ≤ count.toNat)
    (most : count.toNat ≤ 256) :
    exec (.dataPacket c count tail) s = .next (s.withPart (s.part.takeData c (soundSamples count tail))) :=
  (if_pos ⟨taken.1, least, most⟩).trans (by rw [taken.receive])

end TakesPacket

namespace Part

variable {p : Part} {c : Channel}

theorem takeData_idle (words : Option (List Word16)) (idle : p.slot c = .idle) : p.takeData c words = p.orphan := by
  simp only [takeData, idle]

theorem takeData_masked_sound {n : Word16} {old : Option Nat} (words : List Word16) (masked : p.slot c = .masked n old) :
    p.takeData c (some words) = p.setSlot c (.masked n (p.setting c).timer) := by
  simp only [takeData, masked]

theorem takeData_masked_damaged {n : Word16} {old : Option Nat} (masked : p.slot c = .masked n old) :
    p.takeData c none = p.malformed.setSlot c (.masked n (p.setting c).timer) := by
  simp only [takeData, masked]

theorem takeData_assembling_sound {f : Frame} (words : List Word16) (assembling : p.slot c = .assembling f) :
    p.takeData c (some words) = p.append c f words := by
  simp only [takeData, assembling]

theorem takeData_assembling_damaged {f : Frame} (assembling : p.slot c = .assembling f) :
    p.takeData c none = p.malformed.setSlot c
      (.assembling { f with tags := { f.tags with check := true }, timer := (p.setting c).timer }) := by
  simp only [takeData, assembling]

end Part

/-- Settles O44: the five rows of the slot's state against the packet's soundness. -/
theorem samplesTaken : Obligations.SamplesTaken := by
  intro s c count tail taken least most
  dsimp only
  rw [taken.exec_dataPacket tail least most]
  refine ⟨fun idle => ?_, fun n old masked => ⟨fun words sound => ?_, fun damaged => ?_⟩,
    fun f assembling => ⟨fun words sound => ?_, fun damaged => ?_⟩⟩
  · rw [Part.takeData_idle _ idle]
    rfl
  · rw [sound, Part.takeData_masked_sound words masked]
    rfl
  · rw [damaged, Part.takeData_masked_damaged masked]
    rfl
  · rw [sound, Part.takeData_assembling_sound words assembling]
    rfl
  · rw [damaged, Part.takeData_assembling_damaged assembling]
    rfl

end Sys2Proof.Machine
end

/-! ## Frames: how one opens and ends, and what its completion leaves in the queue (R123, R151, R152, R161, R164, R167) -/

section
namespace Sys2Proof.Machine

/-- The entry that a passed frame of a channel becomes, completed with a tag set (R120, R149). -/
def Frame.entry (f : Frame) (c : Channel) (tags : TagSet) : Entry :=
  { channel := c, content := .frame f.number f.samples tags f.clipped (if tags.gap then f.gap else 0) }

/-- A channel's status with the three counters that a completion moves at these values (R124, R151, R152). -/
def ChannelStatus.completes (k : ChannelStatus) (tagged dropped overruns : Nat) : ChannelStatus :=
  { k with counters := { k.counters with tagged, dropped, overruns } }

namespace Part

/-- While a commit is in flight, entries that join the queue's tail leave it in flight. -/
theorem CommitInFlight.joined {p q : Part} (h : p.CommitInFlight) (je : q.je = p.je) (array : q.ctl.array = p.ctl.array)
    (entries : p.queue.entries <+: q.queue.entries) : q.CommitInFlight where
  outstanding := je ▸ h.outstanding
  backlog := je ▸ h.backlog
  due c := journal_of_je je c ▸ h.due c
  subject := by
    obtain ⟨e, head, writing⟩ := h.subject
    obtain ⟨joining, tail⟩ := entries
    refine ⟨e, ?_, journal_of_je je e.channel ▸ writing⟩
    rw [Part.subject, ← tail, List.head?_append, ← Part.subject, head, Option.some_or]
  array := array ▸ h.array

/-! ### The queue's part in a completion (R123, R124) -/

/-- After a push the list has the entry at its tail, where it fits. -/
theorem entries_push (p : Part) (e : Entry) :
    (p.push e).queue.entries = if p.queue.entries.length < 64 ∧ p.linesHeld + e.lines ≤ 2048 then p.queue.entries ++ [e]
      else p.queue.entries := by
  obtain fits | lost := (p.fits e).eq_false_or_eq_true
  · obtain ⟨notices, pushed⟩ := push_fits fits
    rw [pushed, if_pos ((p.fits_iff e).mp fits)]
    rfl
  · obtain ⟨notices, pushed⟩ := push_lost lost
    rw [pushed, if_neg fun room => Bool.eq_false_iff.mp lost ((p.fits_iff e).mpr room)]
    rfl

/-- Of a part's units a push writes the queue, the channel counters and the notices. -/
theorem push_eq (p : Part) (e : Entry) : ∃ queue chans notices, p.push e = { p with queue, chans, notices } := by
  obtain fits | lost := (p.fits e).eq_false_or_eq_true
  · obtain ⟨notices, pushed⟩ := push_fits fits
    exact ⟨_, p.chans, notices, pushed⟩
  · obtain ⟨notices, pushed⟩ := push_lost lost
    exact ⟨p.queue, _, notices, pushed⟩

theorem chan_push (p : Part) (e : Entry) :
    ∃ overruns, (p.push e).chan e.channel
      = (p.chan e.channel).completes (p.chan e.channel).counters.tagged (p.chan e.channel).counters.dropped overruns := by
  obtain fits | lost := (p.fits e).eq_false_or_eq_true
  · obtain ⟨notices, pushed⟩ := push_fits fits
    rw [pushed]
    exact ⟨(p.chan e.channel).counters.overruns, rfl⟩
  · obtain ⟨notices, pushed⟩ := push_lost lost
    rw [pushed]
    have chans := p.chan_updCounters e.channel e.channel (fun k => { k with overruns := satAdd k.overruns 1 })
    exact ⟨_, chans.trans (if_pos rfl)⟩

/-! ### A completion (R151, R152) -/

theorem updCounters_id (p : Part) (c : Channel) : p.updCounters c id = p :=
  congrArg (fun chans => { p with chans }) (Vector.set_getElem_self c.isLt)

theorem updCounters_updCounters (p : Part) (c : Channel) (f g : Counters → Counters) :
    (p.updCounters c f).updCounters c g = p.updCounters c (g ∘ f) := by
  simp [updCounters, updChan]

/-- A frame completed with these tags is dropped: it is tagged, and its channel drops tagged frames (R152). -/
def drops (p : Part) (c : Channel) (tags : TagSet) : Bool := tags.tagged && (p.setting c).dropTagged

/-- The part once a completion with these tags is counted (R151, R152). -/
def completionCounted (p : Part) (c : Channel) (tags : TagSet) : Part :=
  p.updCounters c (fun k => { k with
    tagged := if tags.tagged then satAdd k.tagged 1 else k.tagged
    dropped := if p.drops c tags then satAdd k.dropped 1 else k.dropped })

theorem chan_completionCounted (p : Part) (c : Channel) (tags : TagSet) :
    (p.completionCounted c tags).chan c = (p.chan c).completes
      (if tags.tagged then satAdd (p.chan c).counters.tagged 1 else (p.chan c).counters.tagged)
      (if p.drops c tags then satAdd (p.chan c).counters.dropped 1 else (p.chan c).counters.dropped)
      (p.chan c).counters.overruns :=
  (p.chan_updCounters c c _).trans (if_pos rfl)

theorem completeFrame_dropped {p : Part} {c : Channel} {tags : TagSet} (f : Frame) (dropped : p.drops c tags = true) :
    ∃ notices, p.completeFrame c f tags = { p.completionCounted c tags with notices } := by
  have ⟨tagged, drop⟩ : tags.tagged = true ∧ (p.setting c).dropTagged = true := by simpa [drops] using dropped
  simp only [completeFrame, completionCounted, tagged, drop, dropped, if_true, updCounters_updCounters]
  exact errorFrame_eq _ _ _ _ _

theorem completeFrame_offered {p : Part} {c : Channel} {tags : TagSet} (f : Frame) (kept : p.drops c tags = false) :
    p.completeFrame c f tags = (p.completionCounted c tags).push (f.entry c tags) := by
  unfold completeFrame completionCounted
  dsimp only
  split
  · next tagged =>
    have keep : (p.setting c).dropTagged = false := by simpa [drops, tagged] using kept
    simp [keep, kept, Frame.entry]
  · simp only [kept, Bool.false_eq_true, if_false]
    exact congrArg (fun q : Part => q.push (f.entry c tags)) (p.updCounters_id c).symm

end Part

/-- What the completion of a passed frame makes of a part whose slot is already free (R151, R152). -/
structure FrameCompletes (p q : Part) (c : Channel) (f : Frame) (tags : TagSet) : Prop where
  outside : ∃ queue chans notices, q = { p with queue, chans, notices }
  entries : q.queue.entries = if p.drops c tags = false ∧ p.queue.entries.length < 64
      ∧ p.linesHeld + (f.entry c tags).lines ≤ 2048 then p.queue.entries ++ [f.entry c tags] else p.queue.entries
  chan : ∃ overruns, q.chan c = (p.chan c).completes
    (if tags.tagged then satAdd (p.chan c).counters.tagged 1 else (p.chan c).counters.tagged)
    (if p.drops c tags then satAdd (p.chan c).counters.dropped 1 else (p.chan c).counters.dropped) overruns

theorem Part.completeFrame_completes (p : Part) (c : Channel) (f : Frame) (tags : TagSet) :
    FrameCompletes p (p.completeFrame c f tags) c f tags := by
  have counted := p.chan_completionCounted c tags
  obtain dropped | kept := (p.drops c tags).eq_false_or_eq_true
  · obtain ⟨notices, ends⟩ := completeFrame_dropped f dropped
    rw [ends]
    exact ⟨⟨_, _, _, rfl⟩, (if_neg (by simp [dropped])).symm, _, counted⟩
  · obtain ⟨overruns, pushed⟩ := (p.completionCounted c tags).chan_push (f.entry c tags)
    obtain ⟨queue, chans, notices, outside⟩ := (p.completionCounted c tags).push_eq (f.entry c tags)
    have entries := (p.completionCounted c tags).entries_push (f.entry c tags)
    rw [completeFrame_offered f kept]
    refine ⟨⟨queue, chans, notices, outside⟩, ?_, overruns, pushed.trans ?_⟩
    · simp only [kept, true_and]
      exact entries
    · simp only [Frame.entry, counted]
      rfl

/-- What the end of a channel's frame makes of a part: beside the slots, only the queue, the channels and the notices
change; the list grows at its tail, if at all; and of its channel's status the three counters of a completion move. -/
structure FrameEnds (p q : Part) (c : Channel) : Prop where
  outside : ∃ queue chans slots notices, q = { p with queue, chans, slots, notices }
  tail : p.queue.entries <+: q.queue.entries
  slots : ∀ c', c' ≠ c → q.slot c' = p.slot c'
  chan : ∃ tagged dropped overruns, q.chan c = (p.chan c).completes tagged dropped overruns

namespace FrameEnds

variable {p q : Part} {c : Channel}

theorem je_eq (h : FrameEnds p q c) : q.je = p.je := by
  obtain ⟨queue, chans, slots, notices, rfl⟩ := h.outside
  rfl

theorem ctl_eq (h : FrameEnds p q c) : q.ctl = p.ctl := by
  obtain ⟨queue, chans, slots, notices, rfl⟩ := h.outside
  rfl

theorem setting_eq (h : FrameEnds p q c) : q.setting c = p.setting c := by
  obtain ⟨queue, chans, slots, notices, rfl⟩ := h.outside
  rfl

end FrameEnds

namespace FrameCompletes

variable {p q : Part} {c : Channel} {f : Frame} {tags : TagSet}

theorem slot_eq (h : FrameCompletes p q c f tags) (c' : Channel) : q.slot c' = p.slot c' := by
  obtain ⟨queue, chans, notices, rfl⟩ := h.outside
  rfl

theorem link_eq (h : FrameCompletes p q c f tags) : q.link = p.link := by
  obtain ⟨queue, chans, notices, rfl⟩ := h.outside
  rfl

theorem tail (h : FrameCompletes p q c f tags) : p.queue.entries <+: q.queue.entries := by
  rw [h.entries]
  split
  · exact List.prefix_append _ _
  · exact List.prefix_rfl

/-- A completion ends the frame of a slot that was set IDLE before it. -/
theorem ends (h : FrameCompletes (p.setSlot c .idle) q c f tags) : FrameEnds p q c where
  outside := by
    obtain ⟨queue, chans, notices, same⟩ := h.outside
    exact ⟨queue, chans, _, notices, same⟩
  tail := h.tail
  slots c' other := (h.slot_eq c').trans ((p.slot_setSlot c c' .idle).trans (if_neg (Ne.symm other)))
  chan := by
    obtain ⟨overruns, same⟩ := h.chan
    exact ⟨_, _, overruns, same⟩

end FrameCompletes

/-- The slot set IDLE with no entry ends the frame: so a masked one closes. -/
theorem FrameEnds.of_idle (p : Part) (c : Channel) : FrameEnds p (p.setSlot c .idle) c where
  outside := ⟨p.queue, p.chans, _, p.notices, rfl⟩
  tail := List.prefix_rfl
  slots c' other := (p.slot_setSlot c c' .idle).trans (if_neg (Ne.symm other))
  chan := ⟨_, _, _, rfl⟩

/-- With no frame open none has to end. -/
theorem FrameEnds.refl (p : Part) (c : Channel) : FrameEnds p p c where
  outside := ⟨p.queue, p.chans, p.slots, p.notices, rfl⟩
  tail := List.prefix_rfl
  slots _ _ := rfl
  chan := ⟨_, _, _, rfl⟩

/-- A frame that is cut off by an FS or its timer ends (R161, R167). -/
theorem Part.truncate_ends (p : Part) (c : Channel) : FrameEnds p (p.truncate c) c := by
  unfold truncate
  split
  · exact .refl p c
  · exact .of_idle p c
  · exact ((p.setSlot c .idle).completeFrame_completes c _ _).ends

theorem Part.truncate_masked {p : Part} {c : Channel} {n : Word16} {timer : Option Nat}
    (masked : p.slot c = .masked n timer) : p.truncate c = p.setSlot c .idle := by
  simp only [truncate, masked]

theorem Part.truncate_assembling {p : Part} {c : Channel} {f : Frame} (assembling : p.slot c = .assembling f) :
    p.truncate c = (p.setSlot c .idle).completeFrame c f { f.tags with truncated := true } := by
  simp only [truncate, assembling]

/-- A frame that is cut off is tagged. -/
theorem TagSet.tagged_truncated (tags : TagSet) : { tags with truncated := true : TagSet }.tagged = true := by
  simp [TagSet.tagged]

theorem Part.drops_truncated (p : Part) (c : Channel) (tags : TagSet) :
    p.drops c { tags with truncated := true } = (p.setting c).dropTagged := by
  rw [drops, tags.tagged_truncated, Bool.true_and]

/-! ### The reactions that follow a completion -/

/-- A completion in a step, with the reactions after it: the slot stays IDLE and the counters as the completion left them;
while a commit is in flight the units only wait. -/
theorem FrameCompletes.reacts {s : State} {q : Part} {c : Channel} {f : Frame} {tags : TagSet}
    {o : Host.Outcome State Fault Refusal} (completes : FrameCompletes (s.part.setSlot c .idle) q c f tags)
    (run : o = .next (s.withPart (q.settle []))) :
    ∃ t, ReactsFrom o s q t ∧ t.part.slot c = .idle ∧ t.part.link = s.part.link
      ∧ (t.part.chan c).counters.tagged = (if tags.tagged then satAdd (s.part.chan c).counters.tagged 1
        else (s.part.chan c).counters.tagged)
      ∧ (t.part.chan c).counters.dropped = (if s.part.drops c tags then satAdd (s.part.chan c).counters.dropped 1
        else (s.part.chan c).counters.dropped)
      ∧ (s.part.CommitInFlight → t.part = q) := by
  have reacts := Kept.settle q []
  obtain ⟨overruns, chan⟩ := completes.chan
  refine ⟨s.withPart (q.settle []), ⟨run, rfl, reacts⟩, ?_, reacts.link_eq.trans completes.link_eq, ?_, ?_,
    fun flying => ?_⟩
  · rw [reacts.slot_eq, completes.slot_eq, Part.slot_setSlot, if_pos rfl]
  · rw [(reacts.chans c).tagged, chan]
    rfl
  · rw [(reacts.chans c).dropped, chan]
    rfl
  · have ends := completes.ends
    exact q.settle_commitInFlight (flying.joined ends.je_eq (congrArg _ ends.ctl_eq) ends.tail)

namespace Part

/-! ### FE_PACKET (R164, R169) -/

variable {p : Part} {c : Channel}

theorem takeFe_idle (n : Word16) (idle : p.slot c = .idle) : p.takeFe c n = p.orphan := by
  simp only [takeFe, idle]

theorem takeFe_masked {m : Word16} {old : Option Nat} (n : Word16) (masked : p.slot c = .masked m old) :
    p.takeFe c n = p.setSlot c .idle := by
  simp only [takeFe, masked]

theorem takeFe_assembling {f : Frame} (n : Word16) (assembling : p.slot c = .assembling f) :
    p.takeFe c n
      = (p.setSlot c .idle).completeFrame c f { f.tags with number := f.tags.number || decide (n ≠ f.number) } := by
  simp only [takeFe, assembling]

end Part

/-- Settles O45: the three states of the slot; a completion by what it and the reactions after it leave. -/
theorem frameEnded : Obligations.FrameEnded := by
  intro s c n taken
  have run := taken.exec_fePacket n
  refine ⟨fun idle => ?_, fun m old masked => ?_, fun f assembling => ?_⟩
  · rw [Part.takeFe_idle n idle] at run
    have reacts := Kept.settle s.part.orphan []
    exact ⟨_, ⟨run, rfl, reacts⟩, (reacts.slot_eq c).trans idle, congrArg LinkCounters.orphan reacts.link_eq⟩
  · rw [Part.takeFe_masked n masked] at run
    have reacts := Kept.settle (s.part.setSlot c .idle) []
    exact ⟨_, ⟨run, rfl, reacts⟩, (reacts.slot_eq c).trans (by simp), reacts.link_eq⟩
  · rw [Part.takeFe_assembling n assembling] at run
    have completes := (s.part.setSlot c .idle).completeFrame_completes c f
      { f.tags with number := f.tags.number || decide (n ≠ f.number) }
    exact ⟨completes.reacts run, completes.entries⟩

/-! ### FRAME_TIMEOUT_EXPIRY (R167) -/

theorem exec_frameTimeoutExpiry {s : State} {c : Channel} (live : s.part.live = true)
    (running : (s.part.slot c).timerRuns = true) :
    exec (.frameTimeoutExpiry c) s = .next (s.withPart ((s.part.truncate c).settle [])) :=
  if_pos ⟨live, running⟩

/-- Settles O47: the frame is cut off, and is tagged whatever tags it had. -/
theorem frameTimedOut : Obligations.FrameTimedOut := by
  intro s c live
  refine ⟨fun n ms masked => ?_, fun f ms assembling timer => ?_⟩
  · have run := exec_frameTimeoutExpiry live (by rw [masked]; rfl)
    rw [Part.truncate_masked masked] at run
    have reacts := Kept.settle (s.part.setSlot c .idle) []
    exact ⟨_, ⟨run, rfl, reacts⟩, (reacts.slot_eq c).trans (by simp)⟩
  · have run := exec_frameTimeoutExpiry live (by rw [assembling, Slot.timerRuns, timer]; rfl)
    rw [Part.truncate_assembling assembling] at run
    have completes := (s.part.setSlot c .idle).completeFrame_completes c f { f.tags with truncated := true }
    obtain ⟨t, reacts, idle, -, tagged, dropped, flying⟩ := completes.reacts run
    rw [TagSet.tagged_truncated, if_pos rfl] at tagged
    rw [Part.drops_truncated] at dropped
    have entries := completes.entries
    rw [Part.drops_truncated] at entries
    exact ⟨⟨t, reacts, idle, tagged, dropped, flying⟩, entries⟩

/-! ### FS_PACKET (R147, R149, R161) -/

/-- The slot that an FS of this number opens on a channel (R147, R149, R161). -/
def ChannelStatus.opensSlot (k : ChannelStatus) (st : Settings) (n : Word16) : Slot :=
  if (st.cadence k.cadence).1 then
    .assembling { number := n, samples := [], tags := (continuity st.wrap k.expected n.toNat).1, clipped := 0
                  gap := (continuity st.wrap k.expected n.toNat).2, timer := st.timer }
  else .masked n st.timer

/-- The channel once an FS of this number has opened a frame on it (R147, R149). -/
def ChannelStatus.opens (k : ChannelStatus) (st : Settings) (n : Word16) : ChannelStatus :=
  { k with
    cadence := (st.cadence k.cadence).2
    expected := some ((n.toNat + 1) % st.wrap)
    counters := { k.counters with
      passed := if (st.cadence k.cadence).1 then satAdd k.counters.passed 1 else k.counters.passed
      masked := if (st.cadence k.cadence).1 then k.counters.masked else satAdd k.counters.masked 1 } }

namespace Part

theorem slot_openFrame (p : Part) (c c' : Channel) (n : Word16) :
    (p.openFrame c n).slot c' = if c = c' then (p.chan c).opensSlot (p.setting c) n else p.slot c' := by
  unfold openFrame ChannelStatus.opensSlot
  dsimp only
  split <;> simp

theorem chan_openFrame (p : Part) (c : Channel) (n : Word16) :
    (p.openFrame c n).chan c = (p.chan c).opens (p.setting c) n := by
  unfold openFrame ChannelStatus.opens
  dsimp only
  split <;> simp

theorem openFrame_eq (p : Part) (c : Channel) (n : Word16) :
    ∃ chans slots, p.openFrame c n = { p with chans, slots } := by
  unfold openFrame
  dsimp only
  split <;> exact ⟨_, _, rfl⟩

theorem queue_openFrame (p : Part) (c : Channel) (n : Word16) : (p.openFrame c n).queue = p.queue := by
  obtain ⟨chans, slots, opened⟩ := p.openFrame_eq c n
  rw [opened]

/-- The slot and the channel that a completed frame leaves open the new one as they would have before it. -/
theorem slot_takeFs (p : Part) (c : Channel) (n : Word16) :
    (p.takeFs c n).slot c = (p.chan c).opensSlot (p.setting c) n := by
  have ends := p.truncate_ends c
  obtain ⟨tagged, dropped, overruns, chan⟩ := ends.chan
  rw [takeFs, slot_openFrame, if_pos rfl, chan, ends.setting_eq]
  rfl

theorem slot_takeFs_other (p : Part) {c c' : Channel} (n : Word16) (other : c' ≠ c) :
    (p.takeFs c n).slot c' = p.slot c' := by
  rw [takeFs, slot_openFrame, if_neg (Ne.symm other), (p.truncate_ends c).slots c' other]

theorem chan_takeFs (p : Part) (c : Channel) (n : Word16) :
    (p.takeFs c n).chan c = ((p.truncate c).chan c).opens (p.setting c) n := by
  rw [takeFs, chan_openFrame, (p.truncate_ends c).setting_eq]

/-- An FS leaves a commit in flight, and the units wait. -/
theorem CommitInFlight.takeFs {p : Part} (h : p.CommitInFlight) (c : Channel) (n : Word16) :
    (p.takeFs c n).CommitInFlight := by
  have ends := p.truncate_ends c
  have cut := h.joined ends.je_eq (congrArg _ ends.ctl_eq) ends.tail
  obtain ⟨chans, slots, opened⟩ := (p.truncate c).openFrame_eq c n
  have taken : p.takeFs c n = { p.truncate c with chans, slots } := opened
  rw [taken]
  exact cut.joined rfl rfl List.prefix_rfl

end Part

/-- Settles O43: the open frame is cut off by its slot's state, and the new one opens whatever that left; the reactions
touch neither. -/
theorem frameStarted : Obligations.FrameStarted := by
  intro s c n taken
  have reacts := Kept.settle (s.part.takeFs c n) []
  have status := reacts.chans c
  rw [s.part.chan_takeFs c n] at status
  obtain ⟨tagged, dropped, overruns, cut⟩ := (s.part.truncate_ends c).chan
  refine ⟨_, ⟨taken.exec_fsPacket n, rfl, reacts⟩, (reacts.slot_eq c).trans (s.part.slot_takeFs c n), ?_, ?_, ?_, ?_,
    fun c' other => (reacts.slot_eq c').trans (s.part.slot_takeFs_other n other), fun f assembling => ?_,
    fun flying => Part.settle_commitInFlight _ (flying.takeFs c n)⟩
  · rw [status.cadence, cut]
    rfl
  · exact status.expected
  · rw [status.passed, cut]
    rfl
  · rw [status.masked, cut]
    rfl
  · have completes := (s.part.setSlot c .idle).completeFrame_completes c f { f.tags with truncated := true }
    rw [← Part.truncate_assembling assembling] at completes
    have entries := completes.entries
    obtain ⟨overruns, chan⟩ := completes.chan
    rw [Part.drops_truncated] at entries chan
    rw [TagSet.tagged_truncated, if_pos rfl] at chan
    refine ⟨?_, ?_, ?_⟩
    · rw [Part.takeFs, Part.queue_openFrame]
      exact entries
    · rw [status.tagged, chan]
      rfl
    · rw [status.dropped, chan]
      rfl

end Sys2Proof.Machine
end

/-! ## READ_RECORDS (R172 to R174) -/

section
namespace Sys2Proof.Machine

/-- A block that holds a record stands in no erase (R171). -/
theorem DirEntry.not_erasing_of_holds {e : DirEntry} {c : Channel} {n : Nat} (holds : e.holds c n = true) :
    e.state ≠ .erasing := by
  obtain ⟨kept, _⟩ := (e.holds_iff c n).mp holds
  intro erasing
  simp [erasing] at kept

namespace Part

/-! ### A read presented to a part at rest (R30, R34, R36) -/

/-- The read that waits alone for a free array is the arbiter's one choice. -/
theorem arbitrate_onlyRead {p : Part} {r : ReadReq} (array : p.ctl.array = none) (erase : p.ctl.erase = none)
    (programs : p.ctl.programs = []) (readSlot : p.ctl.readSlot = some r)
    (standing : (p.entry r.block).state ≠ .erasing) :
    p.arbitrate = ({ p with ctl := { p.ctl with readSlot := none, array := some (.read r) } }, []) := by
  have taken := arbiterTake_read array erase programs readSlot
  have begins : ({ p with ctl := { p.ctl with readSlot := none } } : Part).takeRead r
      = ({ p with ctl := { p.ctl with readSlot := none, array := some (.read r) } }, []) := if_neg standing
  exact arbitrate_once _ _ (taken.trans (congrArg some begins)) (arbiterTake_busy _ _ rfl)

/-- With the units at rest a read begins as soon as it is presented. -/
theorem settle_presentRead {p : Part} {r : ReadReq} (quiet : p.JournalsQuiet) (rest : p.StoreQuiet)
    (standing : (p.entry r.block).state ≠ .erasing) :
    (p.presentRead r).settle [] = { p with ctl := { p.ctl with array := some (.read r) } } := by
  have presented : p.presentRead r = { p with ctl := { p.ctl with readSlot := some r } } := by
    simp [presentRead, Controller.requestSuspension, rest.erase]
  have waits : (p.presentRead r).JournalsQuiet := quiet.of_eq rfl rfl rfl (fun _ => rfl)
  rw [presented] at waits ⊢
  refine (settle_of _ _ waits (arbitrate_onlyRead rest.array rest.erase rest.programs rfl standing)).trans ?_
  rw [← rest.readSlot]

/-! ### The gathering begins (R173, R174) -/

/-- The header read of a gathering whose block holds the record sought (R174). -/
theorem gatherHeader_held {p : Part} {g : Gather} (holds : (p.entry g.block).holds g.channel g.sought = true)
    (inBlock : g.line + 1 ≤ Config.linesPerBlock) :
    p.gatherHeader g = ({ p with ctrl := { p.ctrl with
        serving := some (.gathering { g with stage := .header, fill := (p.entry g.block).fill }) } }).presentRead
      { source := .requestServer, block := g.block, line := g.line, count := 1, inBlock } := by
  simp only [gatherHeader, gatherPresent, holds, inBlock, if_true, dif_pos]

/-! ### The cases of R172 -/

theorem readRecords_refused (p : Part) (tag : Byte) {x most : Byte} (start : Nat)
    (refused : 3 < x.toNat ∨ most.toNat < 1 ∨ 32 < most.toNat) :
    p.readRecords tag (x :: leBytes 6 start ++ [most]) = p.placeReply tag 0x28#8 .badValue [] := by
  unfold readRecords
  split
  · rfl
  · rename_i named
    obtain outside | range := refused
    · cases (channelAt_outside outside (leBytes 6 start ++ [most])).symm.trans named
    · exact if_pos range

theorem readRecords_allowed (p : Part) (tag : Byte) {x most : Byte} {c : Channel} {start : Nat}
    (field : start < 256 ^ 6) (names : c.val = x.toNat) (least : 1 ≤ most.toNat) (limit : most.toNat ≤ 32) :
    p.readRecords tag (x :: leBytes 6 start ++ [most]) = p.readRecordsAt tag c start most.toNat := by
  have channel : channelAt (x :: leBytes 6 start ++ [most]) 0 = some c := channelAt_eq names _
  have number : fieldAt (x :: leBytes 6 start ++ [most]) 1 6 = start := fieldAt_append [x] [most] 6 start field
  have max : byteAt (x :: leBytes 6 start ++ [most]) 7 = most.toNat := rfl
  have inRange : ¬ (most.toNat < 1 ∨ 32 < most.toNat) := by omega
  simp only [readRecords, channel, number, max, inRange, if_false]

theorem readRecordsAt_notYet {p : Part} {c : Channel} {start : Nat} (tag : Byte) (max : Nat)
    (notYet : (p.journal c).nextRec ≤ start) :
    p.readRecordsAt tag c start max = p.placeReply tag 0x28#8 .notYet (leBytes 6 (p.journal c).nextRec) := if_pos notYet

theorem readRecordsAt_gone {p : Part} {c : Channel} {start : Nat} (tag : Byte) (max : Nat)
    (numbered : start < (p.journal c).nextRec) (missing : p.blockHolding c start = none) :
    p.readRecordsAt tag c start max = p.placeReply tag 0x28#8 .gone (recordField (p.nextRetained c start)) := by
  rw [readRecordsAt, if_neg (Nat.not_le.mpr numbered), missing]

/-- A retained record, the units at rest: its block stands, so the read of the block's first header begins at once. -/
theorem readRecordsAt_begins {p : Part} {c : Channel} {start : Nat} {b : Block} (tag : Byte) (max : Nat)
    (numbered : start < (p.journal c).nextRec) (found : p.blockHolding c start = some b) (quiet : p.JournalsQuiet)
    (rest : p.StoreQuiet) :
    p.readRecordsAt tag c start max = { p with
      ctrl := { p.ctrl with serving := some (.gathering
        { tag, channel := c, start, max, sought := start, block := b, line := 1
          expected := (p.entry b).first.getD 0, fill := (p.entry b).fill, stage := .header, records := []
          lines := 0 }) }
      ctl := { p.ctl with
        array := some (.read { source := .requestServer, block := b, line := 1, count := 1 }) } } := by
  have holds := blockHolding_some found
  have inBlock : 1 + 1 ≤ Config.linesPerBlock := by decide
  rw [readRecordsAt, if_neg (Nat.not_le.mpr numbered), found]
  dsimp only
  rw [gatherHeader_held holds inBlock]
  exact settle_presentRead (quiet.of_eq rfl rfl rfl (fun _ => rfl)) (rest.of_eq rfl rfl rfl rfl rfl rfl)
    (DirEntry.not_erasing_of_holds holds)

end Part

/-- Settles O41: the cases of R172 in order, the last of them the gathering with its first read in the array. -/
theorem recordsRead : Obligations.RecordsRead := by
  intro s tag x most start p ready field req
  have length : bodyLength 0x28#8 = some (x :: leBytes 6 start ++ [most]).length := by simp [bodyLength]
  refine ⟨fun refused => serve_refused req length ready (p.readRecords_refused tag start refused),
    fun c names least limit => ?_⟩
  have run : exec (.readRecords tag (x :: leBytes 6 start ++ [most])) s
      = .next (s.withPart (p.readRecordsAt tag c start most.toNat)) := by
    rw [← p.readRecords_allowed tag field names least limit]
    exact serve_work req _ length ready rfl
  refine ⟨fun notYet => ?_, fun numbered missing => ?_, fun b numbered found quiet rest => ?_⟩
  · rw [run, Part.readRecordsAt_notYet tag _ notYet]
  · rw [run, Part.readRecordsAt_gone tag _ numbered missing]
  · rw [run, Part.readRecordsAt_begins tag _ numbered found quiet rest]

end Sys2Proof.Machine
end

/-! ## Frames received on the control link (R183 to R185, R205) -/

section
namespace Sys2Proof.Machine

/-- The characters of bytes whose stop bits are all high (R182). -/
def soundChars (bytes : List Byte) : List RxChar := bytes.map (fun b => { byte := b, stopHigh := true })

/-- The length is known once both bytes of its field are taken (R183). -/
theorem frameLength_append {taken : List Byte} (field : 2 ≤ taken.length) (rest : List Byte) :
    frameLength (taken ++ rest) = frameLength taken := by
  rw [frameLength, List.take_append_of_le_length field, frameLength]

/-- What the check of a request's frame is taken over: its length field, kind, tag and body (R205). -/
def checkedPart (kind tag : Byte) (body : List Byte) : List Byte := leBytes 2 (body.length + 2) ++ [kind, tag] ++ body

theorem frameBytes_eq (kind tag : Byte) (body : List Byte) :
    frameBytes kind tag body = 0x9C#8 :: (checkedPart kind tag body ++ checkBytes (checkedPart kind tag body)) := rfl

@[simp] theorem checkedPart_length (kind tag : Byte) (body : List Byte) :
    (checkedPart kind tag body).length = 2 + (body.length + 2) := by
  simp [checkedPart]

/-- The length field of a request's frame counts its kind, tag and body (R205). -/
theorem frameLength_checkedPart (kind tag : Byte) {body : List Byte} (fits : body.length ≤ 1088) (rest : List Byte) :
    frameLength (checkedPart kind tag body ++ rest) = body.length + 2 := by
  rw [frameLength, checkedPart, List.append_assoc, List.append_assoc, List.take_left' (leBytes_length 2 _),
    leValue_leBytes 2 _ (by omega)]

namespace ControlLink

/-! ### One character (R183, R184) -/

theorem discard_eq (k : ControlLink) :
    k.discard = { k with framer := .hunting, discarded := min (k.discarded + 1) 4294967295 } := rfl

theorem character_start {k : ControlLink} (hunting : k.framer = .hunting) :
    k.character { byte := 0x9C#8, stopHigh := true } = { k with framer := .receiving [] } := by
  simp [character, hunting]

theorem character_ignored {k : ControlLink} {x : RxChar} (hunting : k.framer = .hunting) (other : x.byte ≠ 0x9C#8) :
    k.character x = k := by
  simp [character, hunting, other]

theorem character_sound {k : ControlLink} {taken : List Byte} (receiving : k.framer = .receiving taken) (b : Byte) :
    k.character { byte := b, stopHigh := true } = k.takeByte (taken ++ [b]) := by
  simp [character, receiving]

theorem character_lowStop {k : ControlLink} {taken : List Byte} (receiving : k.framer = .receiving taken) (b : Byte) :
    k.character { byte := b, stopHigh := false } = k.discard := by
  simp [character, receiving]

/-! ### A byte taken into the frame (R183, R184) -/

theorem takeByte_badLength (k : ControlLink) {taken : List Byte} (field : taken.length = 2)
    (bad : frameLength taken < 2 ∨ 1090 < frameLength taken) : k.takeByte taken = k.discard :=
  if_pos ⟨field, bad⟩

theorem takeByte_ends (k : ControlLink) {taken : List Byte} (least : 2 ≤ frameLength taken)
    (complete : taken.length = 2 + frameLength taken + 2) : k.takeByte taken = k.frameEnds taken := by
  have behindField : 2 < taken.length := by omega
  rw [takeByte, if_neg (fun judged => absurd judged.1 (by omega)), if_pos ⟨behindField, complete⟩]

/-- A proper beginning of a frame whose length is allowed. -/
theorem takeByte_continues (k : ControlLink) {taken rest : List Byte} (more : rest ≠ [])
    (least : 2 ≤ frameLength (taken ++ rest)) (limit : frameLength (taken ++ rest) ≤ 1090)
    (whole : (taken ++ rest).length = 2 + frameLength (taken ++ rest) + 2) :
    k.takeByte taken = { k with framer := .receiving taken } := by
  have waiting : 0 < rest.length := List.length_pos_iff.mpr more
  rw [List.length_append] at whole
  have allowed : ¬ (taken.length = 2 ∧ (frameLength taken < 2 ∨ Config.maxBody + 2 < frameLength taken)) := by
    rintro ⟨field, bad⟩
    rw [frameLength_append field.ge] at least limit
    simp only [Config.maxBody] at bad
    omega
  have unfinished : ¬ (2 < taken.length ∧ taken.length = 2 + frameLength taken + 2) := by
    rintro ⟨field, complete⟩
    rw [frameLength_append field.le] at whole
    omega
  rw [takeByte, if_neg allowed, if_neg unfinished]

/-! ### A complete frame (R183 to R185) -/

/-- The end of a frame looks at the request buffer, not at the framer, which it leaves HUNTING. -/
theorem frameEnds_framer (k : ControlLink) (framer : Framer) (taken : List Byte) :
    ({ k with framer } : ControlLink).frameEnds taken = k.frameEnds taken := by
  unfold frameEnds
  dsimp only
  repeat' split
  all_goals rfl

theorem frameEnds_badCheck (k : ControlLink) {checked check : List Byte} (least : 2 ≤ frameLength checked)
    (complete : checked.length = 2 + frameLength checked) (bad : check ≠ checkBytes checked) :
    k.frameEnds (checked ++ check) = k.discard := by
  have length : frameLength (checked ++ check) = frameLength checked := frameLength_append (by omega) check
  simp only [frameEnds, length, List.drop_left' complete, List.take_left' complete, bad, if_false]

theorem frameEnds_sound (k : ControlLink) (kind tag : Byte) {body : List Byte} (fits : body.length ≤ 1088) :
    k.frameEnds (checkedPart kind tag body ++ checkBytes (checkedPart kind tag body)) =
      if k.buffer.length < 2 then { k with framer := .hunting, buffer := k.buffer ++ [{ kind, tag, body }] }
      else k.discard := by
  have complete := checkedPart_length kind tag body
  simp only [frameEnds, frameLength_checkedPart kind tag fits, List.drop_left' complete, List.take_left' complete,
    if_true]
  rfl

/-! ### The bytes of one frame, in order -/

/-- The bytes still to come of a frame whose length is allowed carry the framer to the frame's end. -/
theorem foldl_receives (k : ControlLink) {whole taken rest : List Byte} (least : 2 ≤ frameLength whole)
    (limit : frameLength whole ≤ 1090) (complete : whole.length = 2 + frameLength whole + 2)
    (parts : whole = taken ++ rest) (more : rest ≠ []) :
    (soundChars rest).foldl character { k with framer := .receiving taken } = k.frameEnds whole := by
  induction rest generalizing taken with
  | nil => exact absurd rfl more
  | cons b rest ih =>
    have next : ({ k with framer := .receiving taken } : ControlLink).character { byte := b, stopHigh := true }
        = ({ k with framer := .receiving taken } : ControlLink).takeByte (taken ++ [b]) := character_sound rfl b
    have regrouped : whole = (taken ++ [b]) ++ rest := by simp [parts]
    rw [soundChars, List.map_cons, List.foldl_cons, next]
    by_cases last : rest = []
    · subst last
      rw [List.append_nil] at regrouped
      rw [← regrouped, takeByte_ends _ least complete, frameEnds_framer]
      rfl
    · rw [takeByte_continues _ last (regrouped ▸ least) (regrouped ▸ limit) (regrouped ▸ complete)]
      exact ih regrouped last

/-- The bytes of one whole sound frame. -/
theorem foldl_frameBytes {k : ControlLink} (hunting : k.framer = .hunting) (kind tag : Byte) {body : List Byte}
    (fits : body.length ≤ 1088) :
    (soundChars (frameBytes kind tag body)).foldl character k =
      if k.buffer.length < 2 then { k with framer := .hunting, buffer := k.buffer ++ [{ kind, tag, body }] }
      else k.discard := by
  let checked := checkedPart kind tag body
  have length : frameLength (checked ++ checkBytes checked) = body.length + 2 := frameLength_checkedPart kind tag fits _
  have complete : (checked ++ checkBytes checked).length = 2 + frameLength (checked ++ checkBytes checked) + 2 := by
    rw [length, List.length_append, checkBytes_length, checkedPart_length]
  have received := k.foldl_receives (taken := []) (by omega) (by omega) complete rfl (by simp [checked, checkedPart])
  rw [k.frameEnds_sound kind tag fits] at received
  rw [← received, ← character_start hunting, frameBytes_eq]
  rfl

end ControlLink

/-! ### The events of the receiver -/

theorem exec_controlFrameReceive {s : State} (live : s.part.live = true) (chars : List RxChar) :
    exec (.controlFrameReceive chars) s
      = .next (s.withPart { s.part with ctrl := chars.foldl ControlLink.character s.part.ctrl }) :=
  if_pos live

theorem exec_interByteGapExpiry {s : State} {taken : List Byte} (receiving : s.part.ctrl.framer = .receiving taken) :
    exec .interByteGapExpiry s = .next (s.withPart { s.part with ctrl := s.part.ctrl.discard }) := by
  simp only [exec, execInterByteGapExpiry, receiving]

/-- Settles O10: the start byte opens the frame, the bytes behind it complete it, and the room in the buffer decides. -/
theorem soundFrameStoredOrCounted : Obligations.SoundFrameStoredOrCounted := by
  intro s kind tag body live hunting fits
  have run := (exec_controlFrameReceive live (soundChars (frameBytes kind tag body))).trans
    (congrArg (fun ctrl => Host.Outcome.next (s.withPart { s.part with ctrl }))
      (ControlLink.foldl_frameBytes hunting kind tag fits))
  refine ⟨fun room => run.trans ?_, fun full => run.trans ?_⟩
  · simp only [if_pos room, ← hunting]
  · simp only [if_neg (Nat.not_lt.mpr full), ControlLink.discard_eq, ← hunting]

/-- Settles O11: each of the four ends of a broken frame is the framer's one discard. -/
theorem brokenFrameDiscarded : Obligations.BrokenFrameDiscarded := by
  intro s live
  have one : ∀ x k, s.part.ctrl.character x = k →
      exec (.controlFrameReceive [x]) s = .next (s.withPart { s.part with ctrl := k }) := by
    rintro x _ rfl
    exact exec_controlFrameReceive live [x]
  refine ⟨fun taken receiving => ⟨exec_interByteGapExpiry receiving, fun b => ?_⟩, fun low high receiving bad => ?_,
    fun checked low high receiving least complete wrong => ?_, fun x hunting other => ?_⟩
  · exact one _ _ (ControlLink.character_lowStop receiving b)
  · refine one _ _ ((ControlLink.character_sound receiving high).trans (ControlLink.takeByte_badLength _ rfl ?_))
    exact bad
  · have length : frameLength (checked ++ [low, high]) = frameLength checked := frameLength_append (by omega) _
    refine one _ _ ((ControlLink.character_sound receiving high).trans ?_)
    rw [List.append_assoc, List.singleton_append, ControlLink.takeByte_ends _ (by omega) (by simp; omega)]
    exact ControlLink.frameEnds_badCheck _ least complete wrong
  · exact one _ _ (ControlLink.character_ignored hunting other)

end Sys2Proof.Machine
end

/-! ## Notices and the Transmit Arbiter (R189, R190, R192) -/

section
namespace Sys2Proof.Machine

/-- R190, step 1: STARTED and OP_DONE have the codes 0 and 1, and no mask holds them back. -/
theorem NoticeBox.admits_iff (box : NoticeBox) (n : Notice) :
    box.admits n = true ↔ n.code < 2 ∨ box.mask.getLsbD n.code = true := by
  simp [NoticeBox.admits]

/-- Settles O13: the three steps of R190 in order. -/
theorem noticeQueueFollowsR190 : Obligations.NoticeQueueFollowsR190 := by
  intro p n
  refine ⟨fun maskable off => p.notify_masked n ?_, fun passes => ?_⟩
  · have held : ¬ (n.code < 2 ∨ p.notices.mask.getLsbD n.code = true) := by simp [off, Nat.not_lt.mpr maskable]
    rwa [Bool.eq_false_iff, Ne, NoticeBox.admits_iff]
  · have admitted := (p.notices.admits_iff n).mpr passes
    exact ⟨p.notify_queued n admitted, fun full => p.notify_dropped n admitted (Nat.not_lt.mpr full)⟩

namespace Part

/-! ### The message that begins (R192) -/

theorem beginMessage_reply {p : Part} {r : Reply} (reply : p.ctrl.reply = some r) :
    p.beginMessage = { p with ctrl := { p.ctrl with reply := none, sending := some (.reply r) } } := by
  simp only [beginMessage, reply]

theorem beginMessage_notice {p : Part} {n : Notice} {rest : List Notice} (reply : p.ctrl.reply = none)
    (queue : p.notices.queue = n :: rest) :
    p.beginMessage = { p with
      notices := { p.notices with queue := rest }
      ctrl := { p.ctrl with sending := some (.notice n) } } := by
  simp only [beginMessage, reply, queue]

theorem beginMessage_nothing {p : Part} (reply : p.ctrl.reply = none) (queue : p.notices.queue = []) :
    p.beginMessage = p := by
  simp only [beginMessage, reply, queue]

end Part

theorem exec_messageBegin {s : State} (live : s.part.live = true) (idle : s.part.ctrl.sending = none)
    (permitted : s.part.pins.cpermN = true) : exec .messageBegin s = .next (s.withPart s.part.beginMessage) :=
  if_pos ⟨live, idle, permitted⟩

/-- While SENDING, or with CPERM_N deasserted, the arbiter begins nothing. -/
theorem exec_messageBegin_barred {s : State}
    (barred : ¬ (s.part.ctrl.sending = none ∧ s.part.pins.cpermN = true)) : exec .messageBegin s = .next s :=
  if_neg (fun begins => barred begins.2)

/-- Settles O9: the level is followed; the arbiter takes the reply, else the head of the notice queue, else nothing. -/
theorem messageBeginTakesReplyFirst : Obligations.MessageBeginTakesReplyFirst := by
  refine ⟨fun s a => rfl, fun s live => ⟨fun r idle permitted reply => ?_, fun n rest idle permitted reply queue => ?_,
    fun reply queue => ?_, fun sending => ?_, fun denied => ?_⟩⟩
  · rw [exec_messageBegin live idle permitted, Part.beginMessage_reply reply]
  · rw [exec_messageBegin live idle permitted, Part.beginMessage_notice reply queue]
  · by_cases begins : s.part.ctrl.sending = none ∧ s.part.pins.cpermN = true
    · obtain ⟨idle, permitted⟩ := begins
      rw [exec_messageBegin live idle permitted, Part.beginMessage_nothing reply queue]
    · exact exec_messageBegin_barred begins
  · exact exec_messageBegin_barred (fun begins => sending begins.1)
  · exact exec_messageBegin_barred (by simp [denied])

/-! ### The message that ends (R189, R192, R196) -/

/-- A reset with no store work in progress: the store and the unit area pass through (R48, R197). -/
theorem Part.resetUnits_free {p : Part} (array : p.ctl.array = none) (erase : p.ctl.begunErase = none) :
    p.resetUnits = Part.atStartUp p.power p.pins p.supply p.store p.unitArea p.freeIdx := by
  rw [Part.resetUnits, Part.abortArray_free array, Part.abortErase_none erase]

/-- Start-up with no store work in progress; with SLSEL_N low at the reset's end, the receiver waits (R154, R197). -/
theorem Part.startUp_free {p : Part} (cause : ResetCause) (array : p.ctl.array = none)
    (erase : p.ctl.begunErase = none) :
    p.startUp cause = { Part.atStartUp { p.power with cause } p.pins p.supply p.store p.unitArea p.freeIdx with
      awaitsSelection := p.pins.selections.headD false
      pins := { p.pins with selections := p.pins.selections.tail } } := by
  rw [Part.startUp, Part.resetUnits_free array erase]
  rfl

theorem exec_messageEnd_plain {s : State} {m : Message} (sending : s.part.ctrl.sending = some m)
    (other : m.restarts = false) :
    exec .messageEnd s = .next (s.withPart { s.part with ctrl := { s.part.ctrl with sending := none } }) := by
  simp [exec, execMessageEnd, sending, other]

theorem exec_messageEnd_restart {s : State} {m : Message} (sending : s.part.ctrl.sending = some m)
    (restarts : m.restarts = true) :
    exec .messageEnd s
      = .next (s.withPart (Part.startUp { s.part with ctrl := { s.part.ctrl with sending := none } } .restart)) := by
  simp [exec, execMessageEnd, sending, restarts]

/-- Settles O12: the OK reply of a RESTART asks for the reset at its end, and no other message does. -/
theorem messageEndFreesArbiter : Obligations.MessageEndFreesArbiter := by
  intro s m sending
  refine ⟨exec_messageEnd_plain sending, ?_⟩
  rintro tag contents rfl array erase
  let freed : Part := { s.part with ctrl := { s.part.ctrl with sending := none } }
  have started := Part.startUp_free (p := freed) .restart array erase
  exact (exec_messageEnd_restart sending rfl).trans (congrArg (fun p => Host.Outcome.next (s.withPart p)) started)

end Sys2Proof.Machine
end

/-! ## Requests judged before their owner's rule, and the requests of the Control Link Interface (R186 to R195) -/

section
namespace Sys2Proof.Machine

/-! ### The cases of R186 -/

/-- Order 1 of R186: a kind that is no request kind. -/
theorem serve_unknownKind {s : State} {kind tag : Byte} {body : List Byte} {p : Part} (h : Requested s kind tag body p)
    (work : Part → Part) (unknown : bodyLength kind = none) :
    serve kind tag body work s = .next (s.withPart (p.placeReply tag kind .unknownKind [])) := by
  rw [serve_answer h]
  simp [Part.answer, unknown]

/-- Order 2 of R186: a body of the wrong length. -/
theorem serve_badLength {s : State} {kind tag : Byte} {body : List Byte} {p : Part} (h : Requested s kind tag body p)
    (work : Part → Part) {n : Nat} (known : bodyLength kind = some n) (wrong : body.length ≠ n) :
    serve kind tag body work s = .next (s.withPart (p.placeReply tag kind .badLength [])) := by
  rw [serve_answer h]
  simp [Part.answer, known, wrong]

/-- Order 3 of R186: SCANNING, for every request but IDENTIFY and GET_STATUS. -/
theorem serve_scanning {s : State} {kind tag : Byte} {body : List Byte} {p : Part} (h : Requested s kind tag body p)
    (work : Part → Part) (length : bodyLength kind = some body.length) (notIdentify : kind ≠ 0x01#8)
    (notStatus : kind ≠ 0x02#8) (scanning : s.part.device = .scanning) :
    serve kind tag body work s = .next (s.withPart (p.placeReply tag kind .scanning [])) := by
  rw [serve_answer h]
  simp [Part.answer, length, notIdentify, notStatus, requested_device h, scanning]

/-- Order 5 of R186 in every device state: IDENTIFY and GET_STATUS. -/
theorem serve_work_exempt {s : State} {kind tag : Byte} {p : Part} (h : Requested s kind tag [] p) (work : Part → Part)
    (exempt : kind = 0x01#8 ∨ kind = 0x02#8) : serve kind tag [] work s = .next (s.withPart (work p)) := by
  rw [serve_answer h]
  obtain rfl | rfl := exempt <;> simp [Part.answer, bodyLength, encodingAllowed]

/-! ### A stored request is its command (R186, R206) -/

theorem byte_eq_of_toNat {kind : Byte} {n : Nat} (code : kind.toNat = n) : kind = BitVec.ofNat 8 n := by
  rw [← code, BitVec.ofNat_toNat, BitVec.setWidth_eq]

/-- The command of a kind that is no request kind. -/
theorem exec_unknownKind {kind : Byte} (unknown : bodyLength kind = none) (tag : Byte) (body : List Byte) (s : State) :
    exec (.unknownKind kind tag body) s = serve kind tag body (fun p => p) s :=
  if_pos unknown

/-- The command a stored request decodes to serves that request, by the work of its owner. -/
theorem exec_decodeRequest (kind tag : Byte) (body : List Byte) :
    ∃ work, ∀ s, exec (decodeRequest kind tag body) s = serve kind tag body work s := by
  unfold decodeRequest
  split
  case h_33 =>
    refine ⟨_, exec_unknownKind ?_ tag body⟩
    unfold bodyLength
    split
    case h_33 => rfl
    all_goals contradiction
  all_goals
    rename_i code
    cases byte_eq_of_toNat code
    exact ⟨_, fun _ => rfl⟩

theorem canTake_of_busy {p : Part}
    (busy : p.ctrl.serving ≠ none ∨ p.ctrl.reply ≠ none ∨ p.ctrl.restartPlaced = true) : p.canTake = false := by
  rw [Bool.eq_false_iff]
  intro free
  simp only [Part.canTake, Bool.and_eq_true, Option.isNone_iff_eq_none, Bool.not_eq_true'] at free
  obtain ⟨⟨⟨-, serving⟩, reply⟩, restart⟩ := free
  simp [serving, reply, restart] at busy

/-- Settles O14: every stored request is served by one rule, whose refusals of R186 come before the owner's work. -/
theorem requestsJudgedInOrder : Obligations.RequestsJudgedInOrder := by
  refine ⟨fun s kind tag body p unknown req => ?_, fun s kind tag body p n known wrong req => ?_,
    fun s kind tag body p length notIdentify notStatus scanning req => ?_,
    fun s kind tag body p length refused ready req => ?_, fun s kind tag body busy => ?_⟩
  · exact (exec_unknownKind unknown tag body s).trans (serve_unknownKind req _ unknown)
  all_goals
    obtain ⟨work, run⟩ := exec_decodeRequest kind tag body
    rw [run]
  · exact serve_badLength req work known wrong
  · exact serve_scanning req work length notIdentify notStatus scanning
  · exact serve_badValue req work length ready refused
  · exact serve_busy work (canTake_of_busy busy)

/-! ### IDENTIFY, GET_STATUS and RESTART (R189, R194, R195, R198) -/

/-- The capability record, byte for byte (R195, R206). -/
theorem capabilities_eq (identity : List Byte) : capabilities identity
    = [0x42#8, 0x3D#8, 0x40#8, 0x07#8, 1#8, 128#8, 0x00#8, 0x04#8, 32#8, 4#8, 16#8, 8#8, 16#8, 64#8, 0x00#8, 0x08#8]
      ++ identity := rfl

theorem Part.identify_loaded {p : Part} (tag : Byte) (loaded : p.image.loaded = true) :
    p.identify tag = p.placeReply tag 0x01#8 .ok (capabilities p.image.area.identity.toList) :=
  if_pos loaded

theorem Part.identify_held {p : Part} (tag : Byte) (waits : p.image.loaded = false) :
    p.identify tag = { p with ctrl := { p.ctrl with serving := some (.identifyHeld tag) } } := by
  simp [Part.identify, waits]

/-- Settles O15: IDENTIFY and GET_STATUS are worked in every device state, RESTART when READY. -/
theorem linkRequestsAnswered : Obligations.LinkRequestsAnswered := by
  refine ⟨fun s tag p req => ?_, fun s tag p req => serve_work_exempt req _ (.inr rfl),
    fun s tag p ready req => serve_work req _ rfl ready rfl⟩
  have run : exec (.identify tag []) s = .next (s.withPart (p.identify tag)) := serve_work_exempt req _ (.inl rfl)
  rw [run]
  refine ⟨fun loaded => ?_, fun waits => ?_⟩
  · rw [Part.identify_loaded tag loaded, capabilities_eq]
  · rw [Part.identify_held tag waits]

/-! ### SET_NOTICES (R191) -/

/-- The mask field of SET_NOTICES, read back. -/
theorem maskField_eq (mask : BitVec 16) : BitVec.ofNat 16 (fieldAt (leBytes 2 mask.toNat) 0 2) = mask := by
  have field : fieldAt (leBytes 2 mask.toNat) 0 2 = mask.toNat := by
    simpa using fieldAt_append [] [] 2 mask.toNat mask.isLt
  rw [field, BitVec.ofNat_toNat, BitVec.setWidth_eq]

/-- Settles O16: the mask passes order 4 of R186 and is the one the owner's rule writes. -/
theorem noticeMaskReplaced : Obligations.NoticeMaskReplaced := by
  intro s tag mask p ready maskable req
  have length : bodyLength 0x04#8 = some (leBytes 2 mask.toNat).length := by simp [bodyLength]
  have allowed : encodingAllowed 0x04#8 (leBytes 2 mask.toNat) = true := by
    simpa [encodingAllowed, maskField_eq, maskableBits] using maskable
  refine (serve_work req _ length ready allowed).trans ?_
  rw [Part.setNotices, maskField_eq]

end Sys2Proof.Machine
end

/-! ## What a reset leaves, the events that reset, and the end of the image load (R48, R154, R196 to R198) -/

section
namespace Sys2Proof.Machine

/-! ### The values after a reset (R89, R197) -/

/-- After a reset only the default descriptor decides a block: no fixed descriptor is looked at and no variable one is valid
(R86, R89). -/
theorem RetentionMap.eval_reset (b : Block) :
    RetentionMap.reset.eval b = { cls := .ring, set := 0xF#4, source := .default } := by
  have invalid : ∀ i : Fin 8, RetentionMap.reset.vars[i].covers b = false := by
    intro i
    simp [RetentionMap.reset, VariableDescriptor.covers, VariableDescriptor.reset]
  have uncovered : RetentionMap.reset.covering b = [] :=
    List.filter_eq_nil_iff.mpr (fun i _ => ne_true_of_eq_false (invalid i))
  simp only [RetentionMap.eval, uncovered]
  rfl

namespace Part

section
variable (w : Power) (pins : Pins) (supply : Supply) (store : List Host.Cell) (area : UnitArea) (freeIdx : Nat)

@[simp] theorem entry_atStartUp (b : Block) : (atStartUp w pins supply store area freeIdx).entry b = .reset := by
  simp [Part.entry, atStartUp]

@[simp] theorem journal_atStartUp (c : Channel) : (atStartUp w pins supply store area freeIdx).journal c = .reset := by
  simp [Part.journal, atStartUp, JournalEngine.reset]

@[simp] theorem chan_atStartUp (c : Channel) : (atStartUp w pins supply store area freeIdx).chan c = .reset := by
  simp [Part.chan, atStartUp]

@[simp] theorem slot_atStartUp (c : Channel) : (atStartUp w pins supply store area freeIdx).slot c = .idle := by
  simp [Part.slot, atStartUp]

@[simp] theorem setting_atStartUp (c : Channel) : (atStartUp w pins supply store area freeIdx).setting c = .reset := by
  simp [Part.setting, atStartUp]

@[simp] theorem lastKind_atStartUp (c : Channel) : (atStartUp w pins supply store area freeIdx).lastKind c = none := by
  simp [Part.lastKind, atStartUp, CaptureQueue.reset]

/-- The maps, the marks and the buffer are in their bounds whenever start-up begins (R89, R122, R185). -/
theorem bounds_atStartUp : (atStartUp w pins supply store area freeIdx).mapsAligned = true
    ∧ (atStartUp w pins supply store area freeIdx).marksInRange = true
    ∧ (atStartUp w pins supply store area freeIdx).bufferBounded = true := by
  have aligned : RetentionMap.reset.aligned = true := by decide
  exact ⟨by simp [mapsAligned, atStartUp, aligned], rfl, rfl⟩

end

end Part

/-- Settles O4: each volatile register is read from the part as start-up begins, which no part before the reset decides. -/
theorem resetGivesUnitValues : Obligations.ResetGivesUnitValues := by
  intro p
  obtain ⟨w, pins, supply, store, area, freeIdx, started⟩ :
      ∃ w pins supply store area freeIdx, p.resetUnits = Part.atStartUp w pins supply store area freeIdx :=
    ⟨_, _, _, _, _, _, rfl⟩
  have lastKind := Part.lastKind_atStartUp w pins supply store area freeIdx
  have slot := Part.slot_atStartUp w pins supply store area freeIdx
  dsimp only
  rw [started]
  simp only [Part.chan_atStartUp, Part.journal_atStartUp, Part.entry_atStartUp, Part.setting_atStartUp]
  exact ⟨rfl, rfl, rfl, rfl, RetentionMap.eval_reset, rfl, rfl, rfl, rfl, rfl, rfl, lastKind,
    fun _ => ⟨rfl, rfl, rfl, rfl, rfl⟩, slot, rfl, rfl, fun _ => ⟨rfl, rfl, rfl, rfl⟩, rfl, rfl, rfl, rfl, rfl,
    fun _ => ⟨rfl, rfl, rfl, rfl, rfl, rfl⟩, rfl, rfl, rfl, rfl, rfl, rfl, rfl, rfl, rfl, rfl, fun _ => rfl, rfl, rfl⟩

/-- Settles O60: the bounds hold of every start-up; an empty store lists no byte, and no command waits. -/
theorem resetMeetsInvariants : Obligations.ResetMeetsInvariants := by
  obtain ⟨aligned, marks, buffer⟩ := Part.bounds_atStartUp State.reset.part.power State.reset.part.pins
    State.reset.part.supply [] .unwritten 0
  exact ⟨rfl, aligned, marks, buffer, rfl⟩

/-! ### Power and RESET_N (R196) -/

theorem exec_powerOnReset {s : State} (r1 r0 : Bool) (high : s.part.power.resetNLow = false) :
    exec (.powerOnReset r1 r0) s = .next (s.withPart
      (Part.startUp { s.part with power := s.part.power.risen r1 r0 } .powerOn)) := by
  have released : (s.part.power.risen r1 r0).resetNLow = false := high
  simp [exec, execPowerOnReset, released]

theorem exec_resetNAssert_long {s : State} {n : Nat} (long : 10000 ≤ n) (high : s.part.power.resetNLow = false) :
    exec (.resetNAssert n) s = .next (s.withPart
      (Part.resetUnits { s.part with power := { s.part.power with resetNLow := true } })) := if_pos ⟨long, high⟩

theorem exec_resetNAssert_filtered (s : State) {n : Nat} (short : n < 10000) : exec (.resetNAssert n) s = .next s :=
  if_neg (fun asserted => Nat.not_le.mpr short asserted.1)

theorem exec_resetNRelease {s : State} (r1 r0 : Bool) (low : s.part.power.resetNLow = true)
    (powered : s.part.power.powered = true) :
    exec (.resetNRelease r1 r0) s = .next (s.withPart (Part.startUp
      { s.part with power := { s.part.power with resetNLow := false }.risen r1 r0 } .resetPin)) := by
  simp [exec, execResetNRelease, low, powered]

/-- Settles O5: each event is a reset or a start-up of the part with its power changed, and neither finds store work to
abort. -/
theorem resetEventsBeginStartUp : Obligations.ResetEventsBeginStartUp := by
  intro s array erase
  have reset : ∀ w : Power, Part.resetUnits { s.part with power := w }
      = Part.atStartUp w s.part.pins s.part.supply s.part.store s.part.unitArea s.part.freeIdx :=
    fun w => Part.resetUnits_free (p := { s.part with power := w }) array erase
  have start : ∀ (w : Power) (cause : ResetCause), Part.startUp { s.part with power := w } cause
      = { Part.atStartUp { w with cause } s.part.pins s.part.supply s.part.store s.part.unitArea s.part.freeIdx with
          awaitsSelection := s.part.pins.selections.headD false
          pins := { s.part.pins with selections := s.part.pins.selections.tail } } :=
    fun w cause => Part.startUp_free (p := { s.part with power := w }) cause array erase
  refine ⟨fun r1 r0 high => ?_, ?_, fun n long high => ?_, fun n short => exec_resetNAssert_filtered s short,
    fun r1 r0 low powered => ?_⟩
  · rw [exec_powerOnReset r1 r0 high, start]
    rfl
  · exact congrArg (fun p => Host.Outcome.next (s.withPart p)) (reset _)
  · rw [exec_resetNAssert_long long high, reset]
  · rw [exec_resetNRelease r1 r0 low powered, start]
    rfl

/-! ### UNIT_AREA_IMAGE_LOAD_END (R49, R197, R198) -/

theorem exec_unitAreaImageLoadEnd {s : State} (live : s.part.live = true) (phase : s.part.scan.phase = .imageLoad) :
    exec .unitAreaImageLoadEnd s
      = .next (s.withPart (s.part.loadImage.answerHeldIdentify.scanHeader.settle [])) := if_pos ⟨live, phase⟩

namespace Part

theorem answerHeldIdentify_free {p : Part} (free : p.ctrl.serving = none) : p.answerHeldIdentify = p := by
  simp only [answerHeldIdentify, free]

theorem answerHeldIdentify_held {p : Part} {tag : Byte} (held : p.ctrl.serving = some (.identifyHeld tag)) :
    p.answerHeldIdentify = ({ p with ctrl := { p.ctrl with serving := none } } : Part).answerIdentify tag := by
  simp only [answerHeldIdentify, held]

/-- At a part at rest the scanner's read of line 0 of its block begins as it is presented (R36, R198). -/
theorem settle_scanHeader {p : Part} (quiet : p.JournalsQuiet) (rest : p.StoreQuiet)
    (standing : (p.entry p.scanBlock).state ≠ .erasing) :
    p.scanHeader.settle [] = { p with
      scan := { p.scan with phase := .header }
      ctl := { p.ctl with array := some (.read { source := .storeScanner, block := p.scanBlock, line := 0, count := 1 }) } } :=
  settle_presentRead (p := { p with scan := { p.scan with phase := .header } })
    (quiet.of_eq rfl rfl rfl (fun _ => rfl)) (rest.of_eq rfl rfl rfl rfl rfl rfl) standing

end Part

/-- Settles O7: the scanner's read begins at once in units at rest; and whatever the units do, they leave the image and the
reply to the IDENTIFY that waited. -/
theorem imageLoadEndBeginsScan : Obligations.ImageLoadEndBeginsScan := by
  intro s live phase
  rw [exec_unitAreaImageLoadEnd live phase]
  refine ⟨fun free quiet rest standing => ?_, fun tag held => ⟨_, rfl, rfl, ?_⟩⟩
  · rw [Part.answerHeldIdentify_free (p := s.part.loadImage) free]
    exact congrArg (fun p => Host.Outcome.next (s.withPart p)) (Part.settle_scanHeader (p := s.part.loadImage)
      (quiet.of_eq rfl rfl rfl (fun _ => rfl)) (rest.of_eq rfl rfl rfl rfl rfl rfl) standing)
  · rw [Part.answerHeldIdentify_held (p := s.part.loadImage) held]
    have reacts := Kept.settle (Part.answerIdentify
      { s.part.loadImage with ctrl := { s.part.loadImage.ctrl with serving := none } } tag).scanHeader []
    exact ⟨reacts.image_eq, reacts.reply_eq rfl⟩

end Sys2Proof.Machine
end

/-! ## The store scan: headers judged, an open block walked and closed, and the end of the scan (R198 to R204) -/

section
namespace Sys2Proof.Machine

namespace Part

/-! ### The first case of R200 that applies -/

section
variable {p : Part} {h : List Byte}

theorem scanJudge_blank (blank : readsBlank h = true) : p.scanJudge h = p.classifyEmpty .blank := by
  simp [scanJudge, blank]

theorem scanJudge_retired (written : readsBlank h = false) (retired : retirePresent h = true) :
    p.scanJudge h = p.classifyEmpty .retired := by
  simp [scanJudge, written, retired]

theorem scanJudge_torn (written : readsBlank h = false) (unretired : retirePresent h = false)
    (unsound : openValid h = false ∨ p.seqSeen (openSeq h) = true) : p.scanJudge h = p.classifyEmpty .torn := by
  cases valid : openValid h with
  | false => simp [scanJudge, written, unretired, valid]
  | true =>
    have seen : p.seqSeen (openSeq h) = true := unsound.resolve_left (by simp [valid])
    simp [scanJudge, written, unretired, valid, seen]

theorem scanJudge_conflict (written : readsBlank h = false) (unretired : retirePresent h = false)
    (opened : openValid h = true) (unseen : p.seqSeen (openSeq h) = false) (closed : closeValid h = true)
    (conflict : p.numbersConflict (openChannel h) (openSeq h) (openFirst h) (closeFill h) (closeLast h) = true) :
    p.scanJudge h = p.classifyEmpty .torn := by
  simp [scanJudge, written, unretired, opened, unseen, closed, conflict]

theorem scanJudge_closed (written : readsBlank h = false) (unretired : retirePresent h = false)
    (opened : openValid h = true) (unseen : p.seqSeen (openSeq h) = false) (closed : closeValid h = true)
    (apart : p.numbersConflict (openChannel h) (openSeq h) (openFirst h) (closeFill h) (closeLast h) = false) :
    p.scanJudge h = p.classify (DirEntry.closedAs (openChannel h) (openSeq h) (openFirst h) (closeFill h) (closeLast h)
      (decide (byteAt h 22 = 1)) false) := by
  simp [scanJudge, written, unretired, opened, unseen, closed, apart]

theorem scanJudge_opened (written : readsBlank h = false) (unretired : retirePresent h = false)
    (opened : openValid h = true) (unseen : p.seqSeen (openSeq h) = false) (unclosed : closeValid h = false) :
    p.scanJudge h = p.walkOn { channel := openChannel h, seq := openSeq h, first := openFirst h, line := 1
                               expected := openFirst h, fill := 0, last := none, record := none } := by
  simp [scanJudge, written, unretired, opened, unseen, unclosed]

/-- A header that starts no walk classifies its block at once (R200). -/
theorem scanJudge_classifies (p : Part) (h : List Byte)
    (decided : openValid h = true → closeValid h = true ∨ p.seqSeen (openSeq h) = true) :
    ∃ f, p.scanJudge h = p.classify f := by
  cases blank : readsBlank h with
  | true => exact ⟨_, scanJudge_blank blank⟩
  | false =>
    cases retired : retirePresent h with
    | true => exact ⟨_, scanJudge_retired blank retired⟩
    | false =>
      by_cases unsound : openValid h = false ∨ p.seqSeen (openSeq h) = true
      · exact ⟨_, scanJudge_torn blank retired unsound⟩
      · obtain ⟨opened, unseen⟩ := not_or.mp unsound
        have opened : openValid h = true := eq_true_of_ne_false opened
        have closed : closeValid h = true := (decided opened).resolve_right unseen
        have unseen : p.seqSeen (openSeq h) = false := eq_false_of_ne_true unseen
        cases conflict : p.numbersConflict (openChannel h) (openSeq h) (openFirst h) (closeFill h) (closeLast h) with
        | true => exact ⟨_, scanJudge_conflict blank retired opened unseen closed conflict⟩
        | false => exact ⟨_, scanJudge_closed blank retired opened unseen closed conflict⟩

end

/-! ### The classified block, and the next (R198) -/

theorem classify_next {p : Part} (f : DirEntry → DirEntry) (below : p.scan.classified < 127) :
    p.classify f = scanHeader { p.updEntry p.scanBlock f with
      scan := { p.scan with classified := p.scan.classified + 1 } } :=
  if_neg (Nat.not_le.mpr below)

theorem classify_last {p : Part} (f : DirEntry → DirEntry) (last : p.scan.classified = 127) :
    p.classify f = (p.updEntry 127 f).scanEnd := by
  have block : p.scanBlock = 127 := by
    rw [scanBlock, last]
    rfl
  rw [classify, block]
  exact if_pos last.ge

/-- Before block 127 the scan takes the block's entry and comes to the next block; no other entry changes. -/
theorem classify_moves {p : Part} (f : DirEntry → DirEntry) (below : p.scan.classified < 127) :
    (p.classify f).entry p.scanBlock = f (p.entry p.scanBlock)
      ∧ (p.classify f).scan.classified = p.scan.classified + 1
      ∧ ∀ b, b ≠ p.scanBlock → (p.classify f).entry b = p.entry b := by
  rw [classify_next f below]
  refine ⟨p.entry_updEntry_self p.scanBlock f, rfl, fun b other => ?_⟩
  exact (p.entry_updEntry p.scanBlock b f).trans (if_neg (Ne.symm other))

/-- A block that comes out BLANK, RETIRED or TORN has no channel and no sequence (R200). -/
theorem classifyEmpty_moves {p : Part} (state : BlockState) (below : p.scan.classified < 127) :
    let q := p.classifyEmpty state
    (q.entry p.scanBlock).state = state ∧ (q.entry p.scanBlock).channel = none ∧ (q.entry p.scanBlock).seq = none
      ∧ q.scan.classified = p.scan.classified + 1 ∧ ∀ b, b ≠ p.scanBlock → q.entry b = p.entry b := by
  obtain ⟨entry, moved⟩ := classify_moves (p := p) (DirEntry.emptied state) below
  dsimp only
  rw [classifyEmpty, entry]
  exact ⟨rfl, rfl, rfl, moved⟩

end Part

/-! ### The highest number of a list of blocks (R203) -/

/-- The least number above `n` and above this one, where there is one. -/
def raised (n : Nat) : Option Nat → Nat
  | some k => max n (k + 1)
  | none => n

/-- Raised by each block's number in turn, a count ends one above the highest of them. -/
theorem foldl_raised (number : Block → Option Nat) (l : List Block) (n : Nat) :
    let top := l.foldl (fun n b => raised n (number b)) n
    n ≤ top ∧ (∀ b ∈ l, ∀ k, number b = some k → k < top) ∧ (top = n ∨ ∃ b ∈ l, number b = some (top - 1)) := by
  induction l generalizing n with
  | nil => exact ⟨Nat.le_refl n, by simp, .inl rfl⟩
  | cons a l ih =>
    obtain ⟨above, bound, reached⟩ := ih (raised n (number a))
    have grows : n ≤ raised n (number a) := by
      unfold raised
      split <;> omega
    have counted : ∀ k, number a = some k → k < raised n (number a) := by
      intro k named
      rw [named]
      simp only [raised]
      omega
    refine ⟨grows.trans above, List.forall_mem_cons.mpr ⟨fun k named => (counted k named).trans_le above, bound⟩, ?_⟩
    obtain kept | ⟨b, mem, last⟩ := reached
    · rw [List.foldl_cons, kept]
      cases named : number a with
      | none => exact .inl rfl
      | some k =>
        by_cases higher : n ≤ k
        · have top : raised n (some k) = k + 1 := by
            simp only [raised]
            omega
          exact .inr ⟨a, List.mem_cons_self, by rw [top, named, Nat.add_sub_cancel]⟩
        · exact .inl (by simp only [raised]; omega)
    · exact .inr ⟨b, List.mem_cons_of_mem a mem, last⟩

/-- The last record number of a CLOSED block of this channel. -/
def DirEntry.closedLast (c : Channel) (e : DirEntry) : Option Nat :=
  if e.state = .closed ∧ e.channel = some c then e.last else none

/-- The sequence of a CLOSED block. -/
def DirEntry.closedSeq (e : DirEntry) : Option Nat := if e.state = .closed then e.seq else none

namespace Part

theorem scannedNextRec_eq (p : Part) (c : Channel) :
    p.scannedNextRec c = allBlocks.foldl (fun n b => raised n ((p.entry b).closedLast c)) 0 := by
  unfold scannedNextRec DirEntry.closedLast
  congr 1
  funext n b
  split
  · cases (p.entry b).last <;> rfl
  · rfl

theorem scannedNextSeq_eq (p : Part) :
    p.scannedNextSeq = allBlocks.foldl (fun n b => raised n (p.entry b).closedSeq) 0 := by
  unfold scannedNextSeq DirEntry.closedSeq
  congr 1
  funext n b
  split
  · cases (p.entry b).seq <;> rfl
  · rfl

/-- A channel's next record number lies one above the highest of its CLOSED blocks (R203). -/
theorem scannedNextRec_above (p : Part) (c : Channel) :
    (∀ b last, (p.entry b).state = .closed → (p.entry b).channel = some c → (p.entry b).last = some last →
        last < p.scannedNextRec c)
      ∧ (p.scannedNextRec c = 0 ∨ ∃ b, (p.entry b).state = .closed ∧ (p.entry b).channel = some c
        ∧ (p.entry b).last = some (p.scannedNextRec c - 1)) := by
  obtain ⟨-, bound, reached⟩ := foldl_raised (fun b => (p.entry b).closedLast c) allBlocks 0
  rw [scannedNextRec_eq]
  refine ⟨fun b last closed channel number => bound b (List.mem_finRange b) last ?_, reached.imp_right ?_⟩
  · rw [DirEntry.closedLast, if_pos ⟨closed, channel⟩, number]
  · rintro ⟨b, -, number⟩
    obtain ⟨⟨closed, channel⟩, last⟩ := Option.ite_none_right_eq_some.mp number
    exact ⟨b, closed, channel, last⟩

/-- The next block sequence lies one above the highest of the CLOSED blocks (R203). -/
theorem scannedNextSeq_above (p : Part) :
    (∀ b seq, (p.entry b).state = .closed → (p.entry b).seq = some seq → seq < p.scannedNextSeq)
      ∧ (p.scannedNextSeq = 0 ∨ ∃ b, (p.entry b).state = .closed ∧ (p.entry b).seq = some (p.scannedNextSeq - 1)) := by
  obtain ⟨-, bound, reached⟩ := foldl_raised (fun b => (p.entry b).closedSeq) allBlocks 0
  rw [scannedNextSeq_eq]
  refine ⟨fun b seq closed number => bound b (List.mem_finRange b) seq ?_, reached.imp_right ?_⟩
  · rw [DirEntry.closedSeq, if_pos closed, number]
  · rintro ⟨b, -, number⟩
    obtain ⟨closed, seq⟩ := Option.ite_none_right_eq_some.mp number
    exact ⟨b, closed, seq⟩

/-! ### The end of the scan (R203, R204) -/

/-- The end of the scan but for its notice: one record update. -/
def scanned (p : Part) : Part :=
  { p with
    freeList := allBlocks.filter (fun b => decide ((p.entry b).state = BlockState.blank))
    je := { p.je with
      journals := Vector.ofFn (fun c : Fin 4 => ({ p.journal c with nextRec := p.scannedNextRec c } : Journal))
      nextSeq := p.scannedNextSeq }
    dir := p.dir.map (fun e => { e with lockBit := true })
    device := .ready
    scan := { classified := 128, phase := .done }
    queue := { p.queue with hold := holdLevel p.linesHeld p.queue.high p.queue.low p.queue.hold } }

theorem entry_scanned (p : Part) (b : Block) : p.scanned.entry b = { p.entry b with lockBit := true } := by
  simp [scanned, entry]

theorem journal_scanned (p : Part) (c : Channel) :
    p.scanned.journal c = { p.journal c with nextRec := p.scannedNextRec c } := by
  simp [scanned, journal]

theorem countBlocks_eq_tally (p : Part) (f : DirEntry → Bool) : p.countBlocks f = p.tally 0 127 (fun _ e => f e) := by
  have inside : ∀ b : Block, decide (b.val ≤ 127) = true := fun b => decide_eq_true (Nat.le_of_lt_succ b.isLt)
  simp [countBlocks, tally, inside]

theorem scanEnd_eq (p : Part) : p.scanEnd = p.scanned.notify p.scanned.startedNotice := rfl

theorem entry_scanEnd (p : Part) (b : Block) : p.scanEnd.entry b = { p.entry b with lockBit := true } := by
  rw [scanEnd_eq, entry_notify, entry_scanned]

theorem journal_scanEnd (p : Part) (c : Channel) :
    p.scanEnd.journal c = { p.journal c with nextRec := p.scannedNextRec c } := by
  rw [scanEnd_eq, journal_notify, journal_scanned]

/-- The counts of STARTED are those of the directory that the scan leaves (R204). -/
theorem tally_scanEnd (p : Part) (f : DirEntry → Bool) :
    p.scanEnd.tally 0 127 (fun _ e => f e) = p.scanned.countBlocks f := by
  rw [countBlocks_eq_tally, scanEnd_eq]
  simp only [tally, entry_notify]

theorem je_scanEnd (p : Part) : p.scanEnd.je = p.scanned.je := by rw [scanEnd_eq, notify_eq_made]
theorem ctl_scanEnd (p : Part) : p.scanEnd.ctl = p.ctl := by rw [scanEnd_eq, notify_eq_made]; rfl
theorem queue_scanEnd (p : Part) : p.scanEnd.queue = p.scanned.queue := by rw [scanEnd_eq, notify_eq_made]
theorem notices_scanEnd (p : Part) : p.scanEnd.notices = p.notices.made p.scanned.startedNotice := by
  rw [scanEnd_eq, notify_eq_made]
  rfl

end Part

theorem NoticeBox.made_dropped {box : NoticeBox} {n : Notice} (admitted : box.admits n = true)
    (full : 16 ≤ box.queue.length) : box.made n = { box with dropped := true } := by
  simp [NoticeBox.made, admitted, Config.noticePlaces, Nat.not_lt.mpr full]

namespace Part

/-! ### What the end of the scan shows (R203, R204) -/

/-- HOLD_N is released at the end of the scan where no entry came meanwhile (R134, R203). -/
theorem hold_scanEnd {p : Part} (entries : p.queue.entries = []) (high : 0 < p.queue.high) :
    p.scanEnd.queue.hold = false := by
  have lines : p.linesHeld = 0 := by
    rw [linesHeld, entries]
    rfl
  rw [queue_scanEnd]
  simp [scanned, holdLevel, lines, Nat.not_le.mpr high]

theorem freeList_scanEnd (p : Part) :
    p.scanEnd.freeList = allBlocks.filter (fun b => decide ((p.scanEnd.entry b).state = .blank)) := by
  have freed : p.scanEnd.freeList = p.scanned.freeList := by rw [scanEnd_eq, notify_eq_made]
  rw [freed]
  simp only [entry_scanEnd]
  rfl

theorem device_scanEnd (p : Part) : p.scanEnd.device = .ready ∧ p.scanEnd.scan = { classified := 128, phase := .done } := by
  rw [scanEnd_eq, notify_eq_made]
  exact ⟨rfl, rfl⟩

/-- STARTED carries the reset's cause and the counts of the directory that the scan leaves (R204). -/
theorem startedNotice_scanned (p : Part) :
    let count := fun f : DirEntry → Bool => p.scanEnd.tally 0 127 (fun _ e => f e)
    p.scanned.startedNotice = .started p.power.cause (count (fun e => decide (e.state = .blank)))
      (count (fun e => decide (e.state = .closed))) (count (fun e => decide (e.state = .retired)))
      (count (fun e => decide (e.state = .torn))) (count (·.cut)) := by
  simp only [startedNotice, ← tally_scanEnd]
  rfl

/-- STARTED is made whatever the mask, where the queue has room (R190, R204). -/
theorem scanEnd_started {p : Part} (room : p.notices.queue.length < 16) :
    p.scanEnd.notices.queue = p.notices.queue ++ [p.scanned.startedNotice] := by
  rw [notices_scanEnd, NoticeBox.made_queued rfl room]

theorem scanEnd_unannounced {p : Part} (full : 16 ≤ p.notices.queue.length) :
    p.scanEnd.notices.queue = p.notices.queue ∧ p.scanEnd.notices.dropped = true := by
  have admitted : p.notices.admits p.scanned.startedNotice = true := rfl
  rw [notices_scanEnd, NoticeBox.made_dropped admitted full]
  exact ⟨rfl, rfl⟩

/-- Each channel's next record number stands above its CLOSED blocks' (R203). -/
theorem nextRec_scanEnd (p : Part) (c : Channel) :
    (∀ b last, (p.scanEnd.entry b).state = .closed → (p.scanEnd.entry b).channel = some c →
        (p.scanEnd.entry b).last = some last → last < (p.scanEnd.journal c).nextRec)
      ∧ ((p.scanEnd.journal c).nextRec = 0 ∨ ∃ b, (p.scanEnd.entry b).state = .closed
        ∧ (p.scanEnd.entry b).channel = some c ∧ (p.scanEnd.entry b).last = some ((p.scanEnd.journal c).nextRec - 1)) := by
  simp only [entry_scanEnd, journal_scanEnd]
  exact p.scannedNextRec_above c

/-- The next block sequence stands above the CLOSED blocks' (R203). -/
theorem nextSeq_scanEnd (p : Part) :
    (∀ b seq, (p.scanEnd.entry b).state = .closed → (p.scanEnd.entry b).seq = some seq → seq < p.scanEnd.je.nextSeq)
      ∧ (p.scanEnd.je.nextSeq = 0 ∨ ∃ b, (p.scanEnd.entry b).state = .closed
        ∧ (p.scanEnd.entry b).seq = some (p.scanEnd.je.nextSeq - 1)) := by
  simp only [entry_scanEnd, je_scanEnd]
  exact p.scannedNextSeq_above

theorem JournalsQuiet.scanEnd {p : Part} (h : p.JournalsQuiet) : p.scanEnd.JournalsQuiet where
  entries := by rw [queue_scanEnd]; exact h.entries
  backlog := by rw [je_scanEnd]; exact h.backlog
  outstanding := by rw [je_scanEnd]; exact h.outstanding
  due c := by rw [journal_scanEnd]; exact h.due c

theorem StoreQuiet.scanEnd {p : Part} (h : p.StoreQuiet) : p.scanEnd.StoreQuiet := by
  have ctl := p.ctl_scanEnd
  exact ⟨ctl ▸ h.array, ctl ▸ h.erase, ctl ▸ h.suspended, ctl ▸ h.programs, ctl ▸ h.readSlot, ctl ▸ h.eraseQueue⟩

/-- The scanner is told a header line and judges it; what that asks for follows (R198, R200). -/
theorem settleAfter_scanJudge {p : Part} {req : ReadReq} (line : List Byte) (rest : p.StoreQuiet)
    (source : req.source = .storeScanner) (scanning : p.device = .scanning) (phase : p.scan.phase = .header) :
    p.settleAfter (some (.read req (some line))) = (p.scanJudge line).settle [] := by
  have told : p.told (.read req (some line)) = (p.scanJudge line, []) := by
    simp [Part.told, handle, source, scannerTold, scanning, scanLine, phase]
  rw [settleAfter_idle (p.arbiterTake_quiet rest)]
  exact p.settle_told _ _ [] told

/-- In a part at rest the read of the last header ends the scan, and nothing follows (R198, R204). -/
theorem exec_readComplete_lastHeader {s : State} {p : Part} {f : DirEntry → DirEntry}
    (reading : s.part = { p with ctl := { p.ctl with
      array := some (.read { source := .storeScanner, block := 127, line := 0, count := 1 }) } })
    (judged : p.scanJudge (readLines p.store 127 0 1) = (p.updEntry 127 f).scanEnd) (scanning : p.device = .scanning)
    (phase : p.scan.phase = .header) (quiet : p.JournalsQuiet) (rest : p.StoreQuiet) :
    exec .readComplete s = .next (s.withPart (p.scanJudge (readLines p.store 127 0 1))) := by
  let req : ReadReq := { source := .storeScanner, block := 127, line := 0, count := 1 }
  have array : s.part.ctl.array = some (.read req) := by rw [reading]
  have freed : s.part.freeArray = p := by
    rw [reading]
    simp only [freeArray, ← rest.array]
  have store : s.part.store = p.store := by rw [reading]
  have quiet' : (p.updEntry 127 f).JournalsQuiet := quiet.of_eq rfl rfl rfl (fun _ => rfl)
  have rest' : (p.updEntry 127 f).StoreQuiet := rest.of_eq rfl rfl rfl rfl rfl rfl
  rw [exec_readComplete array, freed, store, settleAfter_scanJudge _ rest rfl scanning phase]
  rw [judged, settle_quiet _ quiet'.scanEnd rest'.scanEnd]

/-! ### The walk of a block left open (R201) -/

/-- A header line as R201 accepts it, but for the line where its record ends. -/
theorem headerAcceptable_iff (h : List Byte) (c : Channel) (expected : Nat) :
    headerAcceptable h c expected = true ↔ byteAt h 0 ≤ 2 ∧ byteAt h 1 = c.val ∧ fieldAt h 3 6 = expected
      ∧ fieldAt h 11 2 ≤ 512 ∧ (byteAt h 0 ≠ 0 → fieldAt h 11 2 = 0) := by
  have most : Config.maxSamples = 512 := rfl
  rw [← most]
  simp [headerAcceptable, and_assoc, or_iff_not_imp_left]

/-- With no erase running a read that is presented waits in the read slot (R34, R37). -/
theorem presentRead_unerased {p : Part} (r : ReadReq) (erase : p.ctl.erase = none) :
    p.presentRead r = { p with ctl := { p.ctl with readSlot := some r } } := by
  simp [presentRead, Controller.requestSuspension, erase]

/-- With no erase running a program that is presented waits in the list (R33, R37). -/
theorem joinPrograms_unerased {p : Part} (req : ProgramReq) (erase : p.ctl.erase = none) :
    p.joinPrograms req = { p with ctl := { p.ctl with programs := p.ctl.programs ++ [req] } } := by
  simp [joinPrograms, Controller.requestSuspension, erase]

/-- The part whose scanner walks so and waits for this line of its block. -/
def walkReads (p : Part) (w : ScanWalk) (line : Nat) (inBlock : line + 1 ≤ 1024) : Part :=
  { p with
    scan := { p.scan with phase := .walk w }
    ctl := { p.ctl with
      readSlot := some { source := .storeScanner, block := p.scanBlock, line, count := 1, inBlock } } }

section
variable {p : Part} {w : ScanWalk} {h : List Byte}

theorem scanRead_walk (line : Nat) (inBlock : line + 1 ≤ 1024) (erase : p.ctl.erase = none) :
    scanRead { p with scan := { p.scan with phase := .walk w } } line inBlock = p.walkReads w line inBlock :=
  presentRead_unerased (p := { p with scan := { p.scan with phase := .walk w } }) _ erase

/-- Between two records the walk reads the header line it has come to. -/
theorem walkOn_header (between : w.record = none) (erase : p.ctl.erase = none) (inBlock : w.line + 1 ≤ 1024) :
    p.walkOn w = p.walkReads w w.line inBlock := by
  simp only [walkOn, between, Config.linesPerBlock, inBlock, dif_pos, scanRead_walk _ inBlock erase]

/-- Within a record the walk reads the line behind those it has. -/
theorem walkOn_record {bytes : List Byte} {toCome line : Nat} (within : w.record = some (bytes, toCome))
    (behind : line = w.line + bytes.length / 32) (erase : p.ctl.erase = none) (inBlock : line + 1 ≤ 1024) :
    p.walkOn w = p.walkReads w line inBlock := by
  subst behind
  simp only [walkOn, within, Config.lineBytes, Config.linesPerBlock, inBlock, dif_pos, scanRead_walk _ inBlock erase]

/-- A block has no line past 1,023 (R1). -/
theorem walkOn_past (between : w.record = none) (past : 1023 < w.line) : p.walkOn w = p.walkEnds w := by
  have outside : ¬ w.line + 1 ≤ 1024 := by omega
  have same : { w with record := none } = w := by rw [← between]
  simp only [walkOn, between, Config.linesPerBlock, outside, dif_neg, not_false_eq_true, same]

theorem walkRead_ends (between : w.record = none)
    (refused : readsBlank h = true ∨ ¬ headerAcceptable h w.channel w.expected = true
      ∨ 1023 < w.line + headerLines h - 1) : p.walkRead w h = p.walkEnds w := by
  have most : Config.maxFill = 1023 := rfl
  rw [← most] at refused
  simp only [walkRead, between]
  refine if_pos ?_
  simpa [or_assoc] using refused

theorem walkRead_accepted (between : w.record = none) (written : readsBlank h = false)
    (acceptable : headerAcceptable h w.channel w.expected = true) (inBlock : w.line + headerLines h - 1 ≤ 1023) :
    p.walkRead w h = if headerLines h ≤ 1 then p.walkRecord w h
      else p.walkOn { w with record := some (h, headerLines h - 1) } := by
  simp [walkRead, between, Config.maxFill, written, acceptable, Nat.not_lt.mpr inBlock]

theorem walkRead_within {bytes : List Byte} {toCome : Nat} (within : w.record = some (bytes, toCome)) :
    p.walkRead w h = if toCome ≤ 1 then p.walkRecord w (bytes ++ h)
      else p.walkOn { w with record := some (bytes ++ h, toCome - 1) } := by
  simp only [walkRead, within]


theorem recordSound_iff (header samples : List Byte) :
    recordSound header samples = true ↔ checkBytes (header.take 18 ++ samples) = (header.drop 18).take 2 := beq_iff_eq

/-- A whole record whose check matches is taken, and the walk goes on behind it (R201). -/
theorem walkRecord_sound {whole : List Byte}
    (sound : checkBytes ((whole.take 32).take 18 ++ whole.drop 32) = ((whole.take 32).drop 18).take 2) :
    p.walkRecord w whole = p.walkOn { w with
      line := w.line + headerLines (whole.take 32), expected := w.expected + 1
      fill := w.fill + headerLines (whole.take 32), last := some w.expected, record := none } :=
  if_pos ((recordSound_iff _ _).mpr sound)

theorem walkRecord_unsound {whole : List Byte}
    (unsound : ¬ checkBytes ((whole.take 32).take 18 ++ whole.drop 32) = ((whole.take 32).drop 18).take 2) :
    p.walkRecord w whole = p.walkEnds { w with record := none } :=
  if_neg (fun sound => unsound ((recordSound_iff _ _).mp sound))

/-! ### The walk's end and the close mark (R200, R202) -/

theorem walkEnds_conflict (conflict : p.numbersConflict w.channel w.seq w.first w.fill w.last = true) :
    p.walkEnds w = p.classifyEmpty .torn := if_pos conflict

theorem walkEnds_refused (apart : p.numbersConflict w.channel w.seq w.first w.fill w.last = false)
    (fault : p.ctl.faults.supply = true) : p.walkEnds w = p.scanClosed w false := by
  simp [walkEnds, apart, fault]

theorem walkEnds_presents (apart : p.numbersConflict w.channel w.seq w.first w.fill w.last = false)
    (good : p.ctl.faults.supply = false) (erase : p.ctl.erase = none) :
    p.walkEnds w = { p with
      scan := { p.scan with phase := .close w }
      ctl := { p.ctl with programs := p.ctl.programs ++
        [{ source := .storeScanner, op := .closeMark p.scanBlock w.fill w.last false }] } } := by
  simp only [walkEnds, apart, good, Bool.false_eq_true, if_false]
  exact joinPrograms_unerased (p := { p with scan := { p.scan with phase := .close w } }) _ erase

/-- The entry of a block whose walk has closed it: CLOSED and cut (R202). -/
theorem entry_scanClosed (worn : Bool) (below : p.scan.classified < 127) :
    (p.scanClosed w worn).entry p.scanBlock
      = DirEntry.closedAs w.channel w.seq w.first w.fill w.last worn true (p.entry p.scanBlock) :=
  (classify_moves _ below).1

theorem scanProgramOutcome_close (outcome : ProgramOutcome) (closing : p.scan.phase = .close w) :
    p.scanProgramOutcome outcome = p.scanClosed w (decide (outcome = .programFail)) := by
  simp only [scanProgramOutcome, closing]

end

end Part

/-- Settles O56: a header that starts no walk classifies its block, which moves the scan on or ends it; the walk reads line by
line until it ends, and its end or the close mark's classifies the block. -/
theorem headerClassified : Obligations.HeaderClassified := by
  intro p h
  dsimp only
  refine ⟨fun below => ⟨fun blank => ?_, fun written retired => ?_, fun written unretired unsound => ?_,
    fun written unretired opened unseen closed => ⟨fun conflict => ?_, fun apart => ?_⟩⟩, fun last decided => ?_,
    fun erase written unretired opened unseen unclosed => ?_, fun w erase => ⟨fun length between => ⟨?_, ?_⟩,
      fun bytes toCome length within => ?_, fun whole => ⟨?_, ?_, ?_⟩, fun below => ⟨?_, ?_, ?_, ?_⟩⟩⟩
  · rw [Part.scanJudge_blank blank]
    exact Part.classifyEmpty_moves .blank below
  · rw [Part.scanJudge_retired written retired]
    exact Part.classifyEmpty_moves .retired below
  · rw [Part.scanJudge_torn written unretired unsound]
    exact Part.classifyEmpty_moves .torn below
  · rw [Part.scanJudge_conflict written unretired opened unseen closed conflict]
    exact Part.classifyEmpty_moves .torn below
  · rw [Part.scanJudge_closed written unretired opened unseen closed apart]
    obtain ⟨entry, moved⟩ := Part.classify_moves (p := p) (DirEntry.closedAs (openChannel h) (openSeq h) (openFirst h)
      (closeFill h) (closeLast h) (decide (byteAt h 22 = 1)) false) below
    rw [entry]
    exact ⟨rfl, rfl, rfl, rfl, rfl, rfl, rfl, rfl, moved⟩
  · obtain ⟨f, judged⟩ := p.scanJudge_classifies h decided
    have ended : p.scanJudge h = (p.updEntry 127 f).scanEnd := judged.trans (Part.classify_last f last)
    have started := (p.updEntry 127 f).startedNotice_scanned
    have others : ∀ b, b ≠ 127 → (p.updEntry 127 f).entry b = p.entry b := fun b other =>
      (p.entry_updEntry 127 b f).trans (if_neg (Ne.symm other))
    obtain ⟨device, scan⟩ := (p.updEntry 127 f).device_scanEnd
    obtain ⟨aboveSeq, highestSeq⟩ := (p.updEntry 127 f).nextSeq_scanEnd
    rw [ended]
    refine ⟨device, scan, fun b => ?_, fun b other => ?_, Part.freeList_scanEnd _, Part.nextRec_scanEnd _, aboveSeq,
      highestSeq, Part.hold_scanEnd (p := p.updEntry 127 f), fun room => ?_,
      Part.scanEnd_unannounced (p := p.updEntry 127 f), fun s reading header scanning phase quiet rest => ?_⟩
    · rw [Part.entry_scanEnd]
    · rw [Part.entry_scanEnd, others b other]
    · exact (Part.scanEnd_started (p := p.updEntry 127 f) room).trans (congrArg (p.notices.queue ++ [·]) started)
    · subst header
      rw [← ended]
      exact Part.exec_readComplete_lastHeader reading ended scanning phase quiet rest
  · rw [Part.scanJudge_opened written unretired opened unseen unclosed]
    exact Part.walkOn_header rfl erase (by decide : 1 + 1 ≤ 1024)
  · rw [← Part.headerAcceptable_iff]
    exact Part.walkRead_ends between
  · rw [← Part.headerAcceptable_iff]
    intro written acceptable inBlock
    rw [Part.walkRead_accepted between written acceptable inBlock]
    refine ⟨fun long => ?_, fun short => if_pos short⟩
    have inBlock' : w.line + 1 + 1 ≤ 1024 := by omega
    rw [if_neg (Nat.not_le.mpr long)]
    exact ⟨inBlock', Part.walkOn_record rfl (by rw [length]) erase inBlock'⟩
  · rw [Part.walkRead_within within]
    refine ⟨fun more inBlock => ?_, fun whole => if_pos whole⟩
    rw [if_neg (Nat.not_le.mpr more)]
    exact ⟨Nat.succ_le_succ inBlock,
      Part.walkOn_record rfl (by rw [List.length_append, length]) erase (Nat.succ_le_succ inBlock)⟩
  · intro sound inBlock
    rw [Part.walkRecord_sound sound]
    exact ⟨Nat.succ_le_succ inBlock, Part.walkOn_header rfl erase _⟩
  · intro sound past
    rw [Part.walkRecord_sound sound]
    exact Part.walkOn_past rfl past
  · exact Part.walkRecord_unsound
  · intro conflict
    rw [Part.walkEnds_conflict conflict]
    exact (Part.classifyEmpty_moves .torn below).1
  · intro apart fault
    rw [Part.walkEnds_refused apart fault]
    exact Part.entry_scanClosed false below
  · exact fun apart good => Part.walkEnds_presents apart good erase
  · intro closing
    simp only [Part.scanProgramOutcome_close _ closing]
    exact ⟨Part.entry_scanClosed false below, Part.entry_scanClosed true below, Part.entry_scanClosed false below⟩

end Sys2Proof.Machine
end

/-! ## One step and the queue of waiting commands (log 2) -/

section
namespace Sys2Proof.Machine

/-- Settles O1: the case of `step` for a queue that is not empty. -/
theorem stepRunsFrontCommand : Obligations.StepRunsFrontCommand := by
  intro c s
  rfl

/-- An outcome on a state that can differ from the state in its part only. -/
def ReplacesPart (o : Host.Outcome State Fault Refusal) (s : State) : Prop := ∃ p : Part, o = .next (s.withPart p)

namespace ReplacesPart

/-- A command that cannot occur leaves the state as it is (log 1). -/
theorem idle (s : State) : ReplacesPart (.next s) s := ⟨s.part, rfl⟩

theorem acts (s : State) (p : Part) : ReplacesPart (.next (s.withPart p)) s := ⟨p, rfl⟩

theorem guarded {guard : Prop} [Decidable guard] {o o' : Host.Outcome State Fault Refusal} {s : State}
    (done : ReplacesPart o s) (barred : ReplacesPart o' s) : ReplacesPart (if guard then o else o') s := by
  split
  · exact done
  · exact barred

/-- A request command replaces the part where its request is taken, and is idle otherwise (R186, log 3). -/
theorem serve (kind tag : Byte) (body : List Byte) (work : Part → Part) (s : State) :
    ReplacesPart (Machine.serve kind tag body work s) s := by
  obtain unserved | ⟨p, -, answered⟩ := serve_cases kind tag body work s
  · exact ⟨s.part, unserved⟩
  · exact ⟨_, answered⟩

theorem pending_eq {o : Host.Outcome State Fault Refusal} {s t : State} (replaces : ReplacesPart o s)
    (h : o = .next t) : t.pending = s.pending := by
  obtain ⟨p, replaced⟩ := replaces
  cases replaced.symm.trans h
  rfl

end ReplacesPart

/-- A command's whole result is a part: request commands answer through `serve`; the others act under their guards or stand
idle. -/
theorem exec_replacesPart (c : Instr) (s : State) : ReplacesPart (exec c s) s := by
  cases c
  case powerOnReset | powerFall | cpermNChange => exact .acts s _
  case protNChange => exact .guarded (.idle s) (.acts s _)
  case resetNAssert | controlFrameReceive | messageBegin | eraseSliceTimerExpiry | unitAreaImageLoadEnd
      | fsPacket | dataPacket | fePacket | abortPacket | markPacket | malformedPacket | frameTimeoutExpiry =>
    exact .guarded (.acts s _) (.idle s)
  case resetNRelease => exact .guarded (.guarded (.acts s _) (.acts s _)) (.idle s)
  case unknownKind kind tag body => exact .guarded (.serve kind tag body _ s) (.idle s)
  case interByteGapExpiry | messageEnd | programComplete | readComplete | erasePulseEnd =>
    simp only [exec, execInterByteGapExpiry, execMessageEnd, execProgramComplete, execReadComplete, execErasePulseEnd]
    split
    · exact .acts s _
    · exact .idle s
  case suspensionTakesEffect =>
    simp only [exec, execSuspensionTakesEffect]
    split
    · exact .guarded (.acts s _) (.idle s)
    · exact .idle s
  all_goals exact .serve _ _ _ _ s

/-- Settles O2: a command replaces the part and nothing else of the state. -/
theorem commandsKeepQueue : Obligations.CommandsKeepQueue := by
  intro c s t h
  exact (exec_replacesPart c s).pending_eq h

end Sys2Proof.Machine
end
